-- ==== Sys2Proof/Word.lean ====
section
/-! DEFINITION. The word types of the TX9 model (00_scope R2-R4). -/

namespace Sys2Proof

/-- One byte of memory or of a message (R4). -/
abbrev Byte := BitVec 8
/-- A 32-bit word: a vector-register element (R114), an FP32 pattern, a 32-bit register. -/
abbrev W32 := BitVec 32
/-- A 64-bit word: a scalar register (R144), a descriptor, a 64-bit register. -/
abbrev W64 := BitVec 64
/-- The 56 operand bits [55:0] of a sequencer instruction word, reserved bits included (R146). -/
abbrev Fields := BitVec 56
/-- A SHA-384 digest; byte 0 of the digest is bits [7:0] (R4). -/
abbrev Digest := BitVec 384
/-- The data of one 64-byte line; byte k is bits [8k+7:8k] (R255). -/
abbrev LineData := BitVec 512
/-- Bits [51:6] of an address: a line (R255). -/
abbrev Line := BitVec 46

/-- Global tile number T0-T127 (Table 0.2). -/
abbrev Tile := Fin 128
/-- Tensor die TD0-TD7 (R14). -/
abbrev Die := Fin 8
/-- NRU0-NRU11 (R15). -/
abbrev NruId := Fin 12
/-- Turnpike port TP0-TP7 (R302). -/
abbrev Port := Fin 8
/-- Cage 0-3 (R24). -/
abbrev Cage := Fin 4
/-- Command ring 0-63 (R278). -/
abbrev Ring := Fin 64
/-- Sequence slot S0-S15 (Table 0.2). -/
abbrev Slot := Fin 16
/-- Server core 0-127 (R250). -/
abbrev CoreId := Fin 128
/-- Requester port 0-152, numbered in the order R251 lists them (R437). -/
abbrev ReqPort := Fin 153
/-- The number of a coherence transaction: its requester chooses it and every message of the transaction carries it (R255 gives
no width). -/
abbrev TxnNo := Nat
/-- HBM channel 0-191 (R210). -/
abbrev Chan := Fin 192
/-- Snapshot port SP0, SP1 (R16). -/
abbrev SnapPort := Fin 2

end Sys2Proof
end

