-- ==== Sys2Proof/Syntax.lean ====
section
/-! DEFINITION. The commands of the block: one constructor of `Instr` for each row of spec/opcode_table.json, and the
operand records they carry. -/

namespace Sys2Proof

/-- A tree drain request: what an HMM, HMS or HDRN fixes at issue for the drain that follows (R71, R73, R76). -/
structure DrainReq where
  /-- the instruction word's operand bits: RND, OFM, SCL, EPI, BAX, BANK (Table 3.4) -/
  ctl : Fields
  /-- output descriptor and fused-operand descriptor (Table 3.2) -/
  out : W64
  fused : W64
  /-- stochastic seed and index base (R77) -/
  seed : W64
  base : W64
  /-- a masked HMM's mask: block mode, and its bytes (R177) -/
  mask : Option (Bool × List Byte)
  /-- binary64 output of an FP64 split (R85) -/
  f64 : Bool
  /-- issue cycle of the instruction that drains (R290) -/
  issue : Nat
  deriving DecidableEq, Repr

/-- One NRU operation on its arrival (R104): window offset, elements, issuing tile. -/
structure NruPkt where
  /-- byte offset within the unit's window (R152) -/
  off : Nat
  /-- number of elements of the operation -/
  n : Nat
  /-- FP32 elements of an ADD; empty for CLEAR -/
  data : List W32
  tile : Tile
  deriving DecidableEq, Repr

/-- One NRU READ on its arrival (R104, R152). -/
structure NruRdPkt where
  off : Nat
  n : Nat
  tile : Tile
  /-- position of the first element over the whole NRD (R152) -/
  first : Nat
  /-- 0x0 FP32, 0x1 BF16; rounding mode; CLR (Table 6.3) -/
  fmt : BitVec 4
  rnd : BitVec 2
  clr : Bool
  seed : W64
  base : W64
  /-- the local side: descriptor and shape of the NRD (R151) -/
  ldesc : W64
  shape : W64
  /-- issue cycle of the NRD -/
  issue : Nat
  deriving DecidableEq, Repr

/-- A Turnpike flit (Table 13.2). -/
structure Flit where
  vc : BitVec 4
  ty : BitVec 4
  seq : BitVec 12
  ack : BitVec 12
  nak : Bool
  crv : BitVec 4
  crn : BitVec 8
  tag : W32
  payload : List Byte
  crc : W32 := 0
  deriving DecidableEq, Repr

/-- What a time beacon carries (R317). -/
structure BeaconPkt where
  origin : BitVec 8
  carried : W64
  latency : W32
  hops : BitVec 8
  deriving DecidableEq, Repr

/-- What training and identity exchange of a port yield (R314, R315). -/
structure TrainResult where
  /-- lanes good at both ends -/
  good : BitVec 4
  /-- the neighbour's pod, rank and port -/
  pod : BitVec 8
  rank : BitVec 8
  port : BitVec 3
  /-- its package's serial number -/
  serial : BitVec 128
  /-- round trip less the far end's dwell, in root cycles (R315) -/
  round : Nat
  deriving DecidableEq, Repr

/-- A measurement flit as received: the times it carries and that of its arrival, in root cycles (R315). -/
structure HopTimes where
  /-- the flit comes back from the far end; false: the far end has sent it to be returned, and `farArrive` is its arrival here -/
  returned : Bool
  depart : Nat
  farArrive : Nat
  farDepart : Nat
  arrive : Nat
  deriving DecidableEq, Repr

/-- A module as read over its management bus (R321, R322). -/
structure ModuleInfo where
  oui : BitVec 24
  serial : BitVec 128
  pn : BitVec 128
  date : W64
  /-- it offers the application with two 800GAUI-4 host interfaces -/
  app : Bool
  /-- it answers its bus -/
  answers : Bool
  /-- flat memory: identified and counted in hours only -/
  flat : Bool
  /-- high-bias warning threshold of CMIS page 02h -/
  hiBias : BitVec 16
  deriving DecidableEq, Repr

/-- One cage's lane-monitor reading (R321): bias per module lane, case temperature in degrees, and whether it answered. -/
structure LaneSample where
  answers : Bool
  bias : List (BitVec 16)
  temp : Int
  /-- a minute sample is due for the TEMP histogram (Table 13.7) -/
  minute : Bool
  /-- per module lane, FEC symbols that the cage's ports corrected in the second, and all symbols received in it (R319, R326) -/
  fec : List (Nat × Nat)
  deriving DecidableEq, Repr

/-- The payload of a token (Table 15.5). -/
structure Token where
  step : W64
  cg : Bool
  phase : BitVec 8
  code : BitVec 16
  spod : BitVec 8
  srank : BitVec 8
  digest : Digest
  deriving DecidableEq, Repr

/-- An accepted descriptor (Table 12.3) with its ring. -/
structure Desc where
  ring : Ring
  opc : Byte
  size : Byte
  tag : BitVec 16
  stamp : W32
  flags : W32
  wmk : W64
  a0 : W64
  a1 : W64
  a2 : W64
  a3 : W64
  a4 : W64
  payload : List Byte
  deriving DecidableEq, Repr

/-- A store of the host into its own memory that is visible to a fetch: host physical address and bytes. -/
structure HostStore where
  addr : Nat
  bytes : List Byte
  deriving DecidableEq, Repr

/-- A Waymark record about to be written (Table 12.5) and the command it belongs to. -/
structure WaymarkReq where
  desc : Desc
  seq : BitVec 16
  state : BitVec 4
  flags : BitVec 5
  err : BitVec 16
  vt : BitVec 48
  cyc : W64
  nfb : W32
  nfi : W32
  deriving DecidableEq, Repr

/-- CXL.cache state of a host line granted to the device (R266). -/
inductive Mesi where
  | i | s | e | m
  deriving DecidableEq, Repr

/-- What every coherence message carries: its line and the number of its transaction (R255). -/
structure MsgHead where
  line : Line
  no : TxnNo
  deriving DecidableEq, Repr

/-- The data of a Place or a Merge, with its poison bit (R255, R273). -/
structure LineWrite where
  data : LineData
  poison : Bool
  deriving DecidableEq, Repr

/-- An Ack of Table 11.2: invalidation done, permission granted, a requester's completion, or a Put accepted. -/
inductive AckKind where
  /-- invalidation done by core `c`, sent to the home -/
  | invDone (c : CoreId)
  /-- permission granted to core `c`, with its count of Acks -/
  | granted (c : CoreId) (n : Nat)
  /-- core `c` completes its GetS, GetM or Upg; the D bit of any DataS it received -/
  | complete (c : CoreId) (d : Bool)
  /-- a Put of core `c` accepted -/
  | putDone (c : CoreId)
  /-- an invalidation Ack arriving at the requesting core `c` -/
  | invAck (c : CoreId)
  deriving DecidableEq, Repr

/-- What a core does at an address: kind of page (R265) and access. -/
structure CoreAccess where
  addr : Nat
  bytes : Nat
  uncached : Bool
  /-- LR, SC or an atomic memory operation (R265) -/
  atomic : Bool
  deriving DecidableEq, Repr

/-- One ACLK sample of the input (R401, R403): VIN in mV, current in mA, power in W, hottest Tj in 1/16 degree. -/
structure PowerSample where
  vin : Nat
  iin : Nat
  pin : Nat
  tj : Int
  deriving DecidableEq, Repr

/-- Who submits a security operation (R425, R430, R460). -/
inductive SecPath where
  | doe | mailbox | testPort
  deriving DecidableEq, Repr

/-- A token of R429: the 64 challenge bytes and its signature block. -/
structure DebugToken where
  challenge : BitVec 512
  sig : List Byte
  deriving DecidableEq, Repr

/-- CLAIM's request (R424): owner point, policy bits and the signature block over the challenge. -/
structure ClaimReq where
  point : List Byte
  reqsig : Bool
  cosign : Bool
  dbgdrk : Bool
  sig : List Byte
  deriving DecidableEq, Repr

/-- A detected error record before it is logged (Table 19.6): code, source, cycle and named items. -/
structure Detect where
  code : BitVec 16
  src : BitVec 16
  tcyc : W64
  addr : W64
  info0 : W64
  info1 : W64
  /-- MS.STAT.STEP at detection -/
  step : W64
  inj : Bool
  /-- announced to the pod (R443) -/
  pod : Bool
  /-- the model's own mark on a check that fails on a later cycle than the one on which its operation starts: on that cycle
  the step aborts and the record goes to the log (R362, R438) -/
  late : Bool := false
  deriving DecidableEq, Repr

/-- A test-port instruction (Table 18.5). -/
inductive TestOp where
  | idcode
  | bypass
  | boundary (cells : W64)
  | readReg (off : BitVec 26)
  | readLog (entry : Nat)
  | haltCore (c : CoreId)
  | resumeCore (c : CoreId)
  | haltMd
  | readMem (addr : Nat)
  | writeMem (addr : Nat) (v : Byte)
  deriving DecidableEq, Repr

/-- The commands of the block, one constructor per row of spec/opcode_table.json. -/
inductive Instr where
  -- tile sequencer (chapter 6)
  | nop (t : Tile) (f : Fields)
  | sli (t : Tile) (f : Fields)
  | slui (t : Tile) (f : Fields)
  | saddi (t : Tile) (f : Fields)
  | sadd (t : Tile) (f : Fields)
  | ssub (t : Tile) (f : Fields)
  | sand (t : Tile) (f : Fields)
  | sor (t : Tile) (f : Fields)
  | sxor (t : Tile) (f : Fields)
  | sshl (t : Tile) (f : Fields)
  | ssrl (t : Tile) (f : Fields)
  | ssra (t : Tile) (f : Fields)
  | smul (t : Tile) (f : Fields)
  | sslt (t : Tile) (f : Fields)
  | ssltu (t : Tile) (f : Fields)
  | sld (t : Tile) (f : Fields)
  | sst (t : Tile) (f : Fields)
  | srdcyc (t : Tile) (f : Fields)
  | srdseg (t : Tile) (f : Fields)
  | srdfl (t : Tile) (f : Fields)
  | srdid (t : Tile) (f : Fields)
  | br (t : Tile) (f : Fields)
  | bz (t : Tile) (f : Fields)
  | bnz (t : Tile) (f : Fields)
  | brr (t : Tile) (f : Fields)
  | waitUntil (t : Tile) (f : Fields)
  | waitFor (t : Tile) (f : Fields)
  | end_ (t : Tile) (f : Fields)
  -- Hedge (chapter 3) and die tree (chapters 4, 6)
  | hmm (t : Tile) (f : Fields)
  | hms (t : Tile) (f : Fields)
  | hdrn (t : Tile) (f : Fields)
  | drain (t : Tile) (q : DrainReq)
  | htree (t : Tile) (f : Fields)
  -- Verge (chapter 5)
  | vadd (t : Tile) (f : Fields)
  | vsub (t : Tile) (f : Fields)
  | vmul (t : Tile) (f : Fields)
  | vfma (t : Tile) (f : Fields)
  | vfnma (t : Tile) (f : Fields)
  | vmax (t : Tile) (f : Fields)
  | vmin (t : Tile) (f : Fields)
  | vabs (t : Tile) (f : Fields)
  | vneg (t : Tile) (f : Fields)
  | vdiv (t : Tile) (f : Fields)
  | vmov (t : Tile) (f : Fields)
  | vcvt (t : Tile) (f : Fields)
  | vexp (t : Tile) (f : Fields)
  | vexp2 (t : Tile) (f : Fields)
  | vlog (t : Tile) (f : Fields)
  | vlog2 (t : Tile) (f : Fields)
  | vrcp (t : Tile) (f : Fields)
  | vrsq (t : Tile) (f : Fields)
  | vsqrt (t : Tile) (f : Fields)
  | vtanh (t : Tile) (f : Fields)
  | vsigm (t : Tile) (f : Fields)
  | vrsum (t : Tile) (f : Fields)
  | vrmax (t : Tile) (f : Fields)
  | vrmin (t : Tile) (f : Fields)
  | vrdot (t : Tile) (f : Fields)
  | vrowsum (t : Tile) (f : Fields)
  | vrowmax (t : Tile) (f : Fields)
  | vrowmin (t : Tile) (f : Fields)
  | vrowdot (t : Tile) (f : Fields)
  | vrowdot2 (t : Tile) (f : Fields)
  | vrowsq2 (t : Tile) (f : Fields)
  | vaddi (t : Tile) (f : Fields)
  | vsubi (t : Tile) (f : Fields)
  | vmuli (t : Tile) (f : Fields)
  | vmaxi (t : Tile) (f : Fields)
  | vmini (t : Tile) (f : Fields)
  | vand (t : Tile) (f : Fields)
  | vor (t : Tile) (f : Fields)
  | vxor (t : Tile) (f : Fields)
  | vshl (t : Tile) (f : Fields)
  | vsra (t : Tile) (f : Fields)
  | vsrl (t : Tile) (f : Fields)
  | vf2i (t : Tile) (f : Fields)
  | vi2f (t : Tile) (f : Fields)
  | vcmp (t : Tile) (f : Fields)
  | vcmpi (t : Tile) (f : Fields)
  | vmlog (t : Tile) (f : Fields)
  | vmpop (t : Tile) (f : Fields)
  | vspl3 (t : Tile) (f : Fields)
  | vilog64 (t : Tile) (f : Fields)
  | vslc64 (t : Tile) (f : Fields)
  | vrng (t : Tile) (f : Fields)
  | vld (t : Tile) (f : Fields)
  | vst (t : Tile) (f : Fields)
  | vsti (t : Tile) (f : Fields)
  | vldm (t : Tile) (f : Fields)
  | vstm (t : Tile) (f : Fields)
  -- tile mover and Layby (chapters 6, 7)
  | mvhLd (t : Tile) (f : Fields)
  | mvhSt (t : Tile) (f : Fields)
  | mvt (t : Tile) (f : Fields)
  | nadd (t : Tile) (f : Fields)
  | nrd (t : Tile) (f : Fields)
  | nclr (t : Tile) (f : Fields)
  | lpush (t : Tile) (f : Fields)
  | lpop (t : Tile) (f : Fields)
  | xch (t : Tile) (f : Fields)
  | mvsLd (t : Tile) (f : Fields)
  | mvsSt (t : Tile) (f : Fields)
  | ipage (t : Tile) (f : Fields)
  | moverLate (t : Tile) (entry : Nat)
  -- segments (chapters 6, 9)
  | issueStop
  | segmentPlacement
  | segmentStart
  | segmentComplete
  -- NRUs (chapter 4)
  | nruAdd (u : NruId) (p : NruPkt)
  | nruRead (u : NruId) (p : NruRdPkt)
  | nruClear (u : NruId) (p : NruPkt)
  -- collective engines and Turnpike (chapters 8, 13, 14)
  | xchHandover (p : Port) (exi : BitVec 16) (k : Nat)
  | xchConsume (p : Port) (exi : BitVec 16) (k : Nat)
  | collectiveDataFlit (p : Port) (x : Flit)
  | xchWindow (p : Port) (exi : BitVec 16)
  | nak (p : Port) (x : Flit)
  | beaconSend
  | beacon (p : Port) (x : Flit)
  | timeBeaconLost
  | portTraining (p : Port) (r : TrainResult)
  | hopMeasurement (p : Port) (h : HopTimes)
  | retrain (p : Port)
  | tpLaneFail (p : Port) (lane : Fin 4)
  | modInserted (c : Cage) (m : ModuleInfo)
  | modRemoved (c : Cage)
  | moduleInterrupt (c : Cage) (flags : W64)
  | laneMonitorPoll (xs : List LaneSample)
  | lifeRecordUpdate
  | setDigest (d : Digest)
  | managementMessage (p : Port) (x : Flit)
  | remoteResetRequest (payload : List Byte)
  -- commit protocol (chapter 15)
  | ready (k : Token)
  | proceed (k : Token)
  | updated (k : Token)
  | commit (k : Token)
  | abort (k : Token)
  | hostLost (k : Token)
  | statusQuery (k : Token)
  | status (k : Token)
  | fault (k : Token)
  | snapDone (k : Token)
  | snapFail (k : Token)
  | commitTimeout
  | resolveWait
  | freezeClose
  | manifestWrite
  | rdmaRetryTimeout (p : SnapPort)
  | throttleFramesEnd
  -- host commands (chapter 12)
  | nopCommand (d : Desc)
  | run (d : Desc)
  | loadImage (d : Desc)
  | copyIn (d : Desc)
  | copyOut (d : Desc)
  | inlineWrite (d : Desc)
  | milestoneReady (d : Desc)
  | milestoneCommit (d : Desc)
  | milestoneReplay (d : Desc)
  | milestoneResolve (d : Desc)
  | restoreBegin (d : Desc)
  | restoreSegments (d : Desc)
  | restoreFinish (d : Desc)
  | setScales (d : Desc)
  | fence (d : Desc)
  | queryIdentification (d : Desc)
  | queryOrphanLog (d : Desc)
  | queryRingStatus (d : Desc)
  | queryErrorRecords (d : Desc)
  | queryTelemetry (d : Desc)
  -- host front end (chapter 12)
  | doorbell (r : Ring) (v : W32)
  | descriptorFetch (r : Ring) (vis : List HostStore)
  | staleRefetch (r : Ring) (vis : List HostStore)
  | waymark (w : WaymarkReq)
  | ringEnable (r : Ring)
  | ringTeardown (r : Ring)
  | ldclr (r : Ring)
  | linkDown
  | linkUp
  | holdTimerExpiry
  | park
  | resume
  | deliver
  | oclr
  | functionLevelReset
  -- error records (chapter 19)
  | errorRecordLog (r : Detect)
  -- memory system (chapters 7, 8, 10)
  | arm
  | laybyClear (k : Slot)
  | systemWindowOpen (c : Chan)
  | patrolScrub
  | lpddr5xScrub
  -- coherence (chapter 11): every message carries its line and transaction number (R255)
  | gets (c : CoreId) (m : MsgHead)
  | getm (c : CoreId) (m : MsgHead)
  | upg (c : CoreId) (m : MsgHead)
  | putm (c : CoreId) (m : MsgHead) (d : LineData) (poison : Bool)
  | puto (c : CoreId) (m : MsgHead) (d : LineData) (poison : Bool)
  | pute (c : CoreId) (m : MsgHead)
  | peek (p : ReqPort) (m : MsgHead)
  | place (p : ReqPort) (m : MsgHead) (d : LineWrite)
  | merge (p : ReqPort) (m : MsgHead) (d : LineWrite) (be : BitVec 64)
  | fwds (o : CoreId) (m : MsgHead) (req : CoreId)
  | fwdm (o : CoreId) (m : MsgHead) (req : Option CoreId)
  | fwdpeek (o : CoreId) (m : MsgHead) (p : ReqPort)
  | inv (a : CoreId) (m : MsgHead) (req : Option CoreId)
  | datas (c : CoreId) (m : MsgHead) (d : LineData) (own : Bool) (poison : Bool)
  | datae (c : CoreId) (m : MsgHead) (d : LineData) (n : Nat) (poison : Bool)
  | datam (c : Option CoreId) (m : MsgHead) (d : LineData) (n : Nat) (poison : Bool)
  | ack (k : AckKind) (m : MsgHead)
  | nack (c : CoreId) (m : MsgHead) (error : Bool)
  | coreLoad (c : CoreId) (a : CoreAccess)
  | coreStore (c : CoreId) (a : CoreAccess) (v : LineData)
  | coreEvict (c : CoreId) (l : Line)
  | snpinv (l : Line)
  | snpdata (l : Line)
  | snpcur (l : Line)
  | hostGrant (l : Line) (g : Mesi) (d : LineData)
  | cohTimeout (l : Line) (agent : Fin 129)
  -- reset and clocks (chapter 16)
  | powerOn
  | resetN (samples : Nat)
  | perst (samples : Nat)
  | resetRelease (samples : Nat)
  | watchdogKick (v : Byte)
  | wdtExpiry
  | globalSoftwareReset (key : Byte)
  | blockReset (bits : W32)
  | coreReset (hi : Bool) (bits : W64)
  | referenceWindowClose (count : BitVec 16)
  -- power and thermal (chapter 17)
  | vinSample (p : PowerSample)
  | stretchFall
  | pwrUv
  | pwrOv
  | thermalSample (temps : List Int)
  | thermTrip
  | telemetryIntervalClose
  | getTelemetry
  | powerDown
  | fwWrite (bundle : List Byte)
  | mctpControl (msg : List Byte)
  -- security (chapter 18)
  | getReport (p : SecPath) (nonce : BitVec 256)
  | getCerts (p : SecPath)
  | challenge (p : SecPath) (level : Byte)
  | unlock (p : SecPath) (k : DebugToken)
  | claim (p : SecPath) (r : ClaimReq)
  | release (p : SecPath) (sig : List Byte)
  | relock (p : SecPath)
  | registerWrite (sys : Bool) (off : BitVec 26) (wide : Bool) (v : W64)
  | doeAbort
  | mailboxGo
  | mailboxAbort
  -- errors, injection, registers (chapters 19, 20)
  | clr
  | pclr
  | injectionSlotWrite (n : Fin 8) (v : W64)
  | snapshotPortEnable (p : SnapPort)
  | snapshotPortDisable (p : SnapPort)
  | lossOfLock
  | flitCrcFail (p : Port)
  | creditsReturned (p : Port) (x : Flit)
  | poweredHour
  | testPortAccess (o : TestOp)
  | entdaa (addr : BitVec 7)
  deriving DecidableEq, Repr

end Sys2Proof
end

