-- ==== Sys2Proof/Decode.lean ====
section
/-! DEFINITION. The block has no instruction decoder of a processor's kind, and the opcode table gives no row any bits: no
word spells a command. (Tile instruction words are data of the block: `Machine.tileInstr` reads them.) -/

namespace Sys2Proof

/-- The command that a word spells by the table's bits: none, since no row of the table has bits. -/
def decodeTableWord (_nbits _w : Nat) : Option Instr := none

end Sys2Proof
end

