-- ==== Sys2Proof/Machine/Sparse.lean ====
section
/-! DEFINITION. Sparse arrays in one canonical form: a list of (key, value) pairs with strictly rising keys and no value
equal to what an unlisted key reads as. Byte memory is the case of `Host.Cell`. -/

namespace Sys2Proof.Machine

/-- A sparse array of `β`. -/
abbrev SMap (β : Type) := List (Nat × β)

/-- The value at key `a`; `d` is what an unlisted key reads as. -/
def smapGet {β : Type} (d : β) : SMap β → Nat → β
  | [], _ => d
  | (k, v) :: r, a => if k = a then v else smapGet d r a

/-- Put a pair before the first larger key. -/
def smapInsert {β : Type} (a : Nat) (v : β) : SMap β → SMap β
  | [] => [(a, v)]
  | (k, w) :: r => if a < k then (a, v) :: (k, w) :: r else (k, w) :: smapInsert a v r

/-- Write `v` at key `a`, keeping the canonical form: any earlier entry of `a` goes, and a default value is not listed. -/
def smapSet {β : Type} [DecidableEq β] (d : β) (a : Nat) (v : β) (m : SMap β) : SMap β :=
  if v = d then m.filter fun p => p.1 ≠ a else smapInsert a v (m.filter fun p => p.1 ≠ a)

/-- Write a list of consecutive values from key `a` on. -/
def smapSetList {β : Type} [DecidableEq β] (d : β) : Nat → List β → SMap β → SMap β
  | _, [], m => m
  | a, v :: vs, m => smapSetList d (a + 1) vs (smapSet d a v m)

/-- Clear the keys of [lo, hi). -/
def smapClear {β : Type} (lo hi : Nat) (m : SMap β) : SMap β :=
  m.filter fun p => !(lo ≤ p.1 && p.1 < hi)

/-- Replace the values of keys [lo, lo + n) by `f 0`, `f 1`, … -/
def smapReplace {β : Type} [DecidableEq β] (d : β) (lo n : Nat) (f : Nat → β) (m : SMap β) : SMap β :=
  m.filter (fun p => p.1 < lo) ++
  (List.range n).filterMap (fun i => if f i = d then none else some (lo + i, f i)) ++
  m.filter (fun p => lo + n ≤ p.1)

/-- The canonical form: strictly rising keys above `lo`, no value equal to `d`. -/
def smapWfFrom {β : Type} [DecidableEq β] (d : β) : Option Nat → SMap β → Bool
  | _, [] => true
  | lo, (k, v) :: r =>
    (match lo with | none => true | some l => l < k) && v ≠ d && smapWfFrom d (some k) r

/-- The canonical form of a sparse array. -/
def smapWf {β : Type} [DecidableEq β] (d : β) (m : SMap β) : Bool := smapWfFrom d none m

/-- Byte memory (10_memory_system R223): every byte of the 52-bit space that is not 0. -/
abbrev Memory := List Host.Cell

/-- What an unlisted byte reads as: bring-up writes every line with zero data (R393 step 7, Table 16.5). -/
def memDefault : Byte := 0

/-- The canonical form of memory. -/
def Memory.wf (m : Memory) : Bool := smapWf memDefault m
/-- One byte of memory. -/
def memGet (m : Memory) (a : Nat) : Byte := smapGet memDefault m a
/-- Write one byte of memory. -/
def memSet (m : Memory) (a : Nat) (v : Byte) : Memory := smapSet memDefault a v m
/-- Read `n` bytes from `a` on. -/
def memRead (m : Memory) (a n : Nat) : List Byte := (List.range n).map fun i => memGet m (a + i)
/-- Write bytes from `a` on. -/
def memWrite (m : Memory) (a : Nat) (bs : List Byte) : Memory := smapSetList memDefault a bs m
/-- Zero the bytes of [lo, hi). -/
def memClear (m : Memory) (lo hi : Nat) : Memory := smapClear lo hi m

end Sys2Proof.Machine
end

