-- ==== Sys2Proof/Machine/State.lean ====
section
/-! DEFINITION. The state of one TX9 package, and the state after reset. State is plain data: every field is an inductive
type, a number, a bit vector or a list of such. It is split by plane and chapter, so that a command of one family
visibly leaves the other parts alone. -/

namespace Sys2Proof.Machine

/-! ## Tensor plane: one tile (chapters 3, 5, 6) -/

/-- A full-accumulator word (Table 4.4). -/
structure Fa where
  ix : Bool := false
  tag : BitVec 2 := 0
  q : BitVec 12 := 0
  s : W64 := 0
  deriving DecidableEq, Repr

/-- The sequencer of one tile: PC, next issue cycle, issuing or not, and what the segment accrues (R141, R143, R150). -/
structure TileCtl where
  pc : Nat := 0
  next : Nat := 0
  run : Bool := false
  flags : BitVec 5 := 0
  nfb : W32 := 0
  /-- issue cycle and element index of the first non-finite output (R290) -/
  nff : Option (Nat × Nat) := none
  /-- cycle on which the last effect of the instructions issued so far is visible (R150) -/
  last : Nat := 0
  deriving DecidableEq, Repr

/-- A resource that two instructions must not hold at once. -/
inductive Res where
  | hedgeIn (t : Tile)
  | hedgeBank (t : Tile) (b : Bool)
  | drainPath (t : Tile)
  | vergeArith (t : Tile)
  | vergeXfer (t : Tile)
  | mvIssue (t : Tile)
  | mvReturn (t : Tile)
  | treePath (t : Tile)
  | sysWrite (t : Tile)
  | engineHand (p : Port)
  | engineCons (p : Port)
  deriving DecidableEq, Repr

/-- A half-open interval [lo, hi) in TCLK during which a resource is held (R74, R123, R153, R183). -/
structure Ival where
  res : Res
  lo : Nat
  hi : Nat
  /-- the issue cycle of the instruction that holds it (R153) -/
  iss : Nat := 0
  deriving DecidableEq, Repr

/-- The four local-store ports (R68). -/
inductive LsPort where
  | mainRead | mainWrite | scaleRead | scaleWrite
  deriving DecidableEq, Repr

/-- A demand of `bytes` per TCLK on a local-store port during [lo, hi) (R68). -/
structure PortUse where
  tile : Tile
  port : LsPort
  lo : Nat
  hi : Nat
  bytes : Nat
  deriving DecidableEq, Repr

/-- A write under way: one byte written on cycle `wcyc` that reads see from cycle `vis` on; `mask` selects its bits
(R129, R464). `who` tells the writes of different users apart; `port` is 1 for the main and 2 for the scale write port
of a local store, 0 for HBM (R68, R199). -/
structure PendWrite where
  wcyc : Nat
  vis : Nat
  addr : Nat
  val : Byte
  mask : Byte
  who : Nat
  port : Nat
  deriving DecidableEq, Repr

/-- A byte of a local store before a write to it became visible on cycle `vis`, kept for a product that reads on (R60). -/
structure PastByte where
  addr : Nat
  vis : Nat
  old : Byte
  deriving DecidableEq, Repr

/-- A product of the Hedge that reads its operands or adds into its bank (R60, R74): its tile, the instruction's fields, HMM or
HMS, the issue cycle, K, C, the operand descriptors and the mask; once its words stand in the bank, the flags that it still has
to accrue. -/
structure Product where
  tile : Tile
  ctl : Fields
  hms : Bool
  start : Nat
  k : Nat
  c : Nat
  da : W64
  db : W64
  mask : Option (Bool × List Byte)
  fl : Option (BitVec 5) := none
  deriving DecidableEq, Repr

/-- A tree reduction whose words pass through the die's tree: its root, levels, source and destination bank, issue cycle, and
the sums on their way to the root, 512 words with their flags for each cycle of reading, oldest first (R103). -/
structure TreeRun where
  root : Nat
  n : Nat
  src : Bool
  dst : Bool
  start : Nat
  got : List (List Fa × BitVec 5) := []
  deriving DecidableEq, Repr

/-- A drain in progress (R72, R76): what it drains, its first cycle, the mark of its writes, the supplied scale bytes, and the
flags and non-finite elements so far. -/
structure DrainRun where
  tile : Tile
  req : DrainReq
  start : Nat
  who : Nat
  sup : List Byte := []
  fl : BitVec 5 := 0
  elems : List (Nat × Nat) := []
  ffs : List (Nat × Nat) := []
  deriving DecidableEq, Repr

/-- A pending scalar write: key 64 × tile + register, visible from `vis` (R145). -/
structure SPend where
  key : Nat
  vis : Nat
  deriving DecidableEq, Repr

/-- Pending reads or writes of vector elements or mask bits (R124, R125): element i < n is accessed from cycle
base + i × mul / rate to cycle base + min (i × mul + late) top / rate, or on `base` when rate = 0. -/
structure VPend where
  tile : Tile
  isMask : Bool
  isWrite : Bool
  reg : Nat
  n : Nat
  base : Nat
  rate : Nat
  mul : Nat := 1
  late : Nat := 0
  /-- the last element that the instruction processes -/
  top : Nat := 4095
  deriving DecidableEq, Repr

/-- A Verge instruction in progress (R123, R124): its tile, opcode and fields, issue cycle and the I cycles of its reads, the
mark of its writes, the scalar registers as it read them on issue, and what it reads of the vector and mask registers. `cap` and
`capM` hold the elements and bits that a reduction has read so far. An MX store keeps the elements it has written with the flags
of their rounding, and every store its non-finite elements and blocks (R59, R127). -/
structure VRun where
  tile : Tile
  opc : Nat
  ctl : Fields
  start : Nat
  len : Nat
  who : Nat
  sregs : SMap W64
  reads : List VPend
  cap : SMap W32 := []
  capM : SMap (BitVec 1) := []
  nan : List Nat := []
  els : List (Nat × Nat × BitVec 5) := []
  elems : List (Nat × Nat) := []
  ffs : List (Nat × Nat) := []
  deriving DecidableEq, Repr
/-- Results of a Verge instruction on their way to elements `first` and following of a vector or mask register, visible from
cycle `vis`; none leaves its element as it is (R116, R124). -/
structure VWrite where
  tile : Tile
  isMask : Bool
  reg : Nat
  first : Nat
  vis : Nat
  vals : List (Option W32)
  deriving DecidableEq, Repr

/-- A system-channel buffer entry (R157) and its place in the ledger (R241). -/
structure SysEnt where
  tile : Tile
  id : Nat
  word : W64
  pc : Nat
  lo : Nat
  /-- s + D -/
  due : Nat
  /-- the cycle on which the entry is freed -/
  hi : Nat
  bytes : Nat
  /-- bytes on each LPDDR5X stack -/
  perStack : List (Nat × Nat)
  host : Nat
  /-- D is below the guaranteed maximum (R158), and below the unloaded count (Table 10.6) -/
  short : Bool
  tight : Bool := false
  deriving DecidableEq, Repr

/-- An IPAGE in flight: its destination words, its buffer entry and the cycle of delivery (R157, R162). -/
structure IPend where
  tile : Tile
  first : Nat
  n : Nat
  id : Nat
  due : Nat
  deriving DecidableEq, Repr

/-- A read of HBM in its frame slot: the bytes that the tile sees, from its issue cycle on (R199, R234, R235). -/
structure HbmRead where
  tile : Tile
  ldesc : W64
  shape : W64
  addr : Nat
  start : Nat
  who : Nat
  bytes : List Byte
  deriving DecidableEq, Repr

/-- A transfer of a tile's system channel while its requests are outstanding (R157, R264): the lines still to be sent, those
not answered, the data that has come, and the local side of an MVS.LD or spilled LPOP. -/
structure SysXfer where
  tile : Tile
  id : Nat
  a : Nat
  n : Nat
  due : Nat
  /-- an MVS.ST or spilled LPUSH, which awaits acknowledgements -/
  wr : Bool
  todo : List Nat
  left : List Nat
  got : List (Nat × LineData)
  lside : Option (W64 × W64)
  who : Nat
  deriving DecidableEq, Repr

/-- An HTREE issue waiting for the other participants of its cycle (R160). -/
structure TreeIssue where
  tile : Tile
  cycle : Nat
  lvl : BitVec 2
  src : Bool
  dst : Bool
  pc : Nat
  word : W64
  /-- the reduction of this issue's set has begun (R160) -/
  done : Bool := false
  deriving DecidableEq, Repr

/-- The Layby state of one sequence slot (Table 7.1). -/
structure LaybySlot where
  hbmBase : Nat := 0
  hbmQuota : Nat := 0
  hbmPtr : Nat := 0
  ovfEn : Bool := false
  ovfBase : Nat := 0
  ovfQuota : Nat := 0
  ovfPtr : Nat := 0
  ovfD : Nat := 0
  deriving DecidableEq, Repr

/-- NRU modes (Table 4.7). -/
inductive NruMode where
  | plain | compensated | exact
  deriving DecidableEq, Repr

/-- A range of an NRU in force (R211). -/
structure NruRange where
  unit : NruId
  mode : NruMode
  first : Nat
  count : Nat
  deriving DecidableEq, Repr

/-- What an NRU operation does (Table 4.6). -/
inductive NruKind where
  | add (p : NruPkt)
  | read (p : NruRdPkt)
  | clear (p : NruPkt)
  deriving DecidableEq, Repr
/-- An operation that an NRU has accepted and applies on cycle `due` (R104). -/
structure NruOp where
  unit : NruId
  mode : NruMode
  due : Nat
  kind : NruKind
  deriving DecidableEq, Repr

/-- Frame positions [lo, hi), counted from tile cycle 0 in MCLK, that a transfer of `die` holds one share of on every
channel of `stack` (R235, R236). -/
structure FrameUse where
  stack : Nat
  die : Die
  lo : Nat
  hi : Nat
  deriving DecidableEq, Repr

/-- Where the bytes that a mover instruction reads go: HBM from an address, another tile's local store from an offset with
first-data count `f`, the system plane from an address as Places of cycle `land`, or an NRU from a window offset as ADD
operations (R153, R157). -/
inductive FlowTo where
  | hbm (a : Nat)
  | tile (g : Tile) (o f : Nat)
  | sys (a land : Nat)
  | nru (u : NruId) (off : Nat) (mode : NruMode)
  deriving DecidableEq, Repr
/-- A mover instruction that reads its local store, one beat a cycle from `start` on; `got` holds bytes read and not yet sent
(Table 6.4). -/
structure Flow where
  tile : Tile
  start : Nat
  ldesc : W64
  shape : W64
  dst : FlowTo
  who : Nat
  got : List Byte := []
  deriving DecidableEq, Repr

/-- A push or pop of the present cycle, with the slot as it stood before the cycle, and what it has entered in the plane,
which LAYBY_MIX takes back (R169, R170). -/
structure LaybyOp where
  slot : Slot
  cycle : Nat
  isPush : Bool
  tile : Tile
  pc : Nat
  word : W64
  before : LaybySlot
  /-- the pseudocode faulted it: later ones to the slot on this cycle are not applied -/
  bad : Bool := false
  ivs : List Ival := []
  pws : List PendWrite := []
  fus : List FrameUse := []
  ens : List SysEnt := []
  pus : List PortUse := []
  ags : List (Nat × Instr) := []
  fls : List Flow := []
  hrs : List HbmRead := []
  xfs : List SysXfer := []
  /-- the tile's `last` before and after the transfer -/
  lastWas : Nat := 0
  lastNow : Nat := 0
  deriving DecidableEq, Repr

/-! ## The schedule image (chapter 9) -/

/-- Segment table entry (R207). -/
structure ImgSeg where
  slot : Slot
  tileFirst : Nat
  declFirst : Nat
  declCount : Nat
  deriving DecidableEq, Repr

/-- A page of a tile stream header: code word index, destination word, words (R207). -/
structure ImgPage where
  src : Nat
  dest : Nat
  words : Nat
  deriving DecidableEq, Repr

/-- Tile stream header (R207). -/
structure ImgTile where
  entry : Nat
  presetFirst : Nat
  presetCount : Nat
  pages : List ImgPage
  deriving DecidableEq, Repr

/-- Register preset (R208). -/
structure ImgPreset where
  reg : Nat
  addLoad : Bool
  value : W64
  deriving DecidableEq, Repr

/-- HBM frame grant (R210); `seg` none means every segment. -/
structure ImgFrame where
  seg : Option Nat
  chan : Nat
  die : Nat
  start : Nat
  len : Nat
  deriving DecidableEq, Repr

/-- NRU mode entry (R211). -/
structure ImgNru where
  seg : Nat
  range : NruRange
  deriving DecidableEq, Repr

/-- Exchange table entry (Tables 9.3, 14.1, 14.2). -/
structure ImgExch where
  group : Nat
  port : Port
  rx : Bool
  tx : Bool
  outf : Bool
  outc : Bool
  add : BitVec 2
  hop : Nat
  earliest : Int
  winOpen : Int
  winClose : Int
  mode : BitVec 2
  rpl : BitVec 2
  clrst : Bool
  wst : Bool
  ef : Bool
  oport : Port
  nflit : Nat
  blk0 : Nat
  nblk : Nat
  src : Nat
  res : Nat
  nres : Nat
  cbuf : Nat
  dst : Nat
  side : Nat
  /-- a reserved bit of ROLE or OPERATION is set (R335) -/
  badBits : Bool
  deriving DecidableEq, Repr

/-- Layby declaration (R213). -/
structure ImgDecl where
  slot : Nat
  hbmEntry : Nat
  ovfEntry : Nat
  hbmPeak : Nat
  ovfPeak : Nat
  deriving DecidableEq, Repr

/-- Scale table entry (R214). -/
structure ImgScale where
  group : Nat
  headroom : Nat
  count : Nat
  offset : Nat
  deriving DecidableEq, Repr

/-- A schedule image that passed every check (R217), held by its tables; its code and scale bytes stay in memory at
`load`. -/
structure Image where
  load : Nat
  len : Nat
  digest : Digest
  setDigest : Digest
  build : W64
  wsys : Nat
  podZ : Nat
  pods : Nat
  segs : List ImgSeg
  tiles : List ImgTile
  presets : List ImgPreset
  codeOff : Nat
  frames : List ImgFrame
  nru : List ImgNru
  exch : List ImgExch
  layby : List LaybySlot
  decls : List ImgDecl
  scales : List ImgScale
  deriving DecidableEq, Repr

/-! ## Segments (chapters 6, 9, 12) -/

/-- An admitted RUN (R286, R209). -/
structure RunAdm where
  desc : Desc
  seg : Nat
  base : Nat
  /-- the cycle on which its placement ends; none while placement has not begun -/
  placed : Option Nat
  deriving DecidableEq, Repr

/-- An exchange that a tile has started (R328-R331). -/
structure XchRun where
  tile : Tile
  exi : BitVec 16
  entry : ImgExch
  start : Nat
  base : Nat
  /-- P of R329 -/
  per : Nat
  /-- payloads formed by consumption, by flit, for hand-over (R332) -/
  sent : List (Nat × List Byte)
  /-- received flits taken from the port buffer -/
  took : List Nat
  /-- relative block indices selected for a replay (R346) -/
  sel : List Nat
  deriving DecidableEq, Repr

/-- The status counters of a group (R349). -/
structure GroupCnt where
  nfblk : W32 := 0
  clip : W32 := 0
  res1 : W32 := 0
  res2 : W32 := 0
  unres : W32 := 0
  deriving DecidableEq, Repr

/-- What the start of a step retains (R363). -/
structure Retained where
  ptrs : List (Nat × Nat)
  scales : List (Nat × List Byte)
  step : BitVec 48
  cg : Bool
  deriving DecidableEq, Repr

/-- The tensor plane. -/
structure Plane where
  tiles : SMap TileCtl
  sregs : SMap W64
  vregs : SMap W32
  masks : SMap (BitVec 1)
  imem : SMap W64
  fas : SMap Fa
  spend : List SPend
  vpend : List VPend
  vruns : List VRun
  vwrites : List VWrite
  ivals : List Ival
  ports : List PortUse
  pw : List PendWrite
  hist : List PastByte
  prods : List Product
  drains : List DrainRun
  flows : List Flow
  trees : List TreeRun
  sysent : List SysEnt
  ipages : List IPend
  hreads : List HbmRead
  xfers : List SysXfer
  treeq : List TreeIssue
  laybyq : List LaybyOp
  layby : SMap LaybySlot
  frames : List FrameUse
  nruRanges : List NruRange
  nruOps : SMap W64
  /-- units and MCLK edges on which an operation has arrived (R104) -/
  nruSlots : List (Nat × Nat)
  /-- operations accepted and not yet applied, in order of arrival (R104) -/
  nruFlight : List NruOp
  /-- admitted RUNs that have not started, oldest first -/
  runs : List RunAdm
  /-- RUNs that wait at the step barrier for the spine flits of their segment, oldest first (R351) -/
  runWait : List Desc
  /-- the RUN whose segment is running -/
  cur : Option RunAdm
  segSlot : Slot
  /-- issue stops on this cycle (c + 16 of R164) -/
  stopAt : Option Nat
  /-- error code of the first fault of the running segment; 0 none -/
  segErr : BitVec 16
  wsys : Nat
  active : Option Image
  staged : Option Image
  /-- a FAT record or IMAGE_SET_MISMATCH or HOP_MISMATCH that fails every RUN; 0 none (R220, R320, R444) -/
  imgBlock : Bool
  hopBlock : Bool
  fatCode : BitVec 16
  /-- flags of the segment's NRU operations and exchanges, and their non-finite count and first index (R290) -/
  uflags : BitVec 5
  xnfb : W32
  xnff : Option (Nat × W32)
  xchs : List XchRun
  groups : SMap GroupCnt
  retained : Retained
  deriving DecidableEq, Repr

/-! ## Coherence (chapter 11) -/

/-- States of a line in a core L2, stable and transient (R254, R260, R261). -/
inductive L2St where
  | m | o | e | s | i | isD | imAd | smA | omA | miA | oiA | eiA | siA | iiA
  deriving DecidableEq, Repr

/-- A line in a core L2 or its write-back buffer. -/
structure L2Line where
  st : L2St := .i
  data : LineData := 0
  poison : Bool := false
  /-- Acks received and awaited while in a transient state -/
  got : Nat := 0
  want : Option Nat := none
  /-- D bit of the DataS received -/
  dbit : Bool := false
  /-- the number of the core's transaction (R255) -/
  no : TxnNo := 0
  /-- a store waits: byte enables and data -/
  wait : Option (BitVec 64 × LineData) := none
  deriving DecidableEq, Repr

/-- Directory states (R258). -/
inductive DirSt where
  | np | sh | ex | os
  deriving DecidableEq, Repr

/-- A snoop-filter entry (R252); `age` orders allocation. -/
structure DirEnt where
  st : DirSt := .np
  owner : BitVec 7 := 0
  sharers : BitVec 129 := 0
  /-- the entry holds a way of its set, and the number of its allocation (R252, R259) -/
  alloc : Bool := false
  age : Nat := 0
  deriving DecidableEq, Repr

/-- A line of the L3 (R253). -/
structure L3Line where
  valid : Bool := false
  data : LineData := 0
  dirty : Bool := false
  poison : Bool := false
  deriving DecidableEq, Repr

/-- A line of the host-memory cache (R266). -/
structure HmcLine where
  st : Mesi := .i
  data : LineData := 0
  poison : Bool := false
  deriving DecidableEq, Repr

/-- Why a home recalls a line: to free a way (R259), or for a host snoop or an HMC eviction (R268). -/
inductive RecallWhy where
  | way | snpInv | snpData | snpCur | evict
  deriving DecidableEq, Repr

/-- A request at the home (Table 11.3). -/
inductive HomeReq where
  | gets (c : CoreId)
  | getm (c : CoreId)
  | upg (c : CoreId)
  | put (c : CoreId) (owned : Bool) (data : Option (LineData × Bool))
  | peek (p : ReqPort)
  | place (p : ReqPort) (d : LineData) (po : Bool)
  | merge (p : ReqPort) (d : LineData) (be : BitVec 64) (po : Bool)
  | recall (y : RecallWhy)
  deriving DecidableEq, Repr
/-- A request and its transaction number (R255). -/
structure Pend where
  req : HomeReq
  no : TxnNo
  deriving DecidableEq, Repr
/-- A line that a transaction holds: what memory or the host has brought, a write that the host has not completed, or an HMC
eviction under way. `be` selects the bytes that go to host memory. -/
structure HeldLine where
  data : LineData
  poison : Bool
  be : BitVec 64
  deriving DecidableEq, Repr

/-- What a busy line waits for (R256). -/
structure Txn where
  cur : Option HomeReq := none
  /-- the transaction's number -/
  no : TxnNo := 0
  /-- the transaction that a host snoop preempted (R269) -/
  under : Option Pend := none
  /-- the line that a recall must leave before the front of `queue` is accepted (R259) -/
  way : Option Line := none
  /-- Acks and data still awaited by the home -/
  acks : Nat := 0
  /-- the host's grant is awaited (R267, R269), and one that came while a snoop's recall ran -/
  grant : Bool := false
  got : Option (Mesi × LineData) := none
  /-- data of HBM is awaited (R238) -/
  mem : Bool := false
  line : Option HeldLine := none
  queue : List Pend := []
  deriving DecidableEq, Repr

/-- A request of an agent without a cache to memory that is not coherent (R229, R240). -/
structure SysReq where
  port : ReqPort
  addr : Nat
  /-- none for a read; data, byte enables and poison for a write -/
  wr : Option (LineData × BitVec 64 × Bool)
  deriving DecidableEq, Repr
/-- Whose request an HBM channel serves: an agent's, a home's read for its transaction, or a line that the L3 writes back. -/
inductive MemUse where
  | agent | home | post
  deriving DecidableEq, Repr
/-- A request in an HBM channel's queue, and the frame position on which it lands, counted from tile cycle 0 (R238). -/
structure HbmReq where
  req : SysReq
  use : MemUse
  land : Nat
  deriving DecidableEq, Repr
/-- One channel: the requests in its queue, and those that the home slices hold because it is full (R238). -/
structure HbmChan where
  q : List HbmReq := []
  wait : List HbmReq := []
  deriving DecidableEq, Repr
/-- Data or a completion on its way from a channel to the home slice, due on a cycle (R238). -/
structure HbmData where
  due : Nat
  req : SysReq
  use : MemUse
  data : LineData
  poison : Bool
  err : Bool
  deriving DecidableEq, Repr
/-- A line for which a port has a request outstanding, and whether it is a write. -/
structure PortUsed where
  port : ReqPort
  line : Line
  no : TxnNo
  wr : Bool
  deriving DecidableEq, Repr
/-- A CXL.cache request that the host has not completed (Table 11.7, R298). -/
structure LinkReq where
  name : String
  line : Line
  data : Option (LineData × Bool)
  be : BitVec 64
  deriving DecidableEq, Repr
/-- A request that waits at its port: the port has one outstanding for the line, or the module 64 in all (R251, R264). -/
structure PortReq where
  port : ReqPort
  line : Line
  req : HomeReq
  no : TxnNo
  deriving DecidableEq, Repr

/-- An injected memory error: the line or instruction word that holds it, the record code it makes, and the position
(R247, Table 19.10). -/
structure Flip where
  line : Nat
  code : BitVec 16
  src : BitVec 16
  pos : Nat
  deriving DecidableEq, Repr

/-- The coherent fabric and the memory controllers. -/
structure Coh where
  l2 : SMap L2Line
  dir : SMap DirEnt
  l3 : SMap L3Line
  hmc : SMap HmcLine
  busy : SMap Txn
  /-- allocation counter of the snoop filters (R259) -/
  allocs : Nat
  /-- system-plane requests queued per HBM channel (R238) -/
  hbmq : SMap HbmChan
  hbmData : List HbmData
  /-- lines for which a port has a request outstanding, and the requests that wait at their port (R251, R264) -/
  outst : List PortUsed
  portq : List PortReq
  /-- requests to the host without a completion, in order of issue (R298) -/
  link : List LinkReq
  /-- recalls asked for and not started (R259, R268) -/
  recalls : List (Line × RecallWhy)
  /-- the number that the next transaction takes (R255) -/
  txns : TxnNo
  /-- accesses to a local store, an NRU window or a tag array held while a segment runs (R240) -/
  held : List SysReq
  /-- poisoned lines (R245) -/
  poison : List Nat
  /-- errors held in a memory (R247) -/
  flips : List Flip
  /-- next HBM line of each channel's patrol scrub, and next LPDDR5X line (R246) -/
  scrub : Nat
  lpScrub : Nat
  deriving DecidableEq, Repr

/-! ## Host front end (chapter 12) -/

/-- One command ring (R278-R281, R294). -/
structure RingSt where
  en : Bool := false
  halted : Bool := false
  haltCode : BitVec 16 := 0
  c : W32 := 0
  a : W32 := 0
  seq : BitVec 16 := 0
  lastCons : W32 := 0
  hwm : BitVec 17 := 0
  stall : W32 := 0
  /-- TCLK waited of the unit that STALL counts next (Table 12.2) -/
  waited : Nat := 0
  refetch : Nat := 0
  /-- the status record shows torn down until INFLIGHT is 0 (R301) -/
  torn : Bool := false
  deriving DecidableEq, Repr

/-- A command accepted and not final (R285, R289). -/
structure Cmd where
  desc : Desc
  started : Bool
  /-- SEQ of the latest Waymark -/
  seq : BitVec 16
  deriving DecidableEq, Repr

/-- An orphan-log entry (R300). -/
structure Orphan where
  mark : WaymarkReq
  deriving DecidableEq, Repr

/-- A Waymark whose write the host has not completed, and the number of that write (R289, R298). -/
structure HeldMark where
  mark : WaymarkReq
  no : TxnNo
  deriving DecidableEq, Repr
/-- A command that has moved its data: the bytes moved, its error code, the valid-through value reported, and its writes without
completion, each with its offset (R284, R291, R292). -/
structure DmaJob where
  desc : Desc
  n : Nat
  err : Nat
  vt : Nat
  writes : List (TxnNo × Nat)
  deriving DecidableEq, Repr
/-- What the PCIe function presents in its configuration header: class code and the size of BAR0 (R276). -/
structure PcieFn where
  classCode : BitVec 24
  barBytes : Nat
  /-- BAR0 is a 64-bit memory BAR, and not prefetchable -/
  bar64 : Bool
  prefetch : Bool
  deriving DecidableEq, Repr

/-- The host front end. -/
structure HostFe where
  fn : PcieFn
  rings : SMap RingSt
  cmds : List Cmd
  linkUp : Bool
  /-- the hold timer runs (R298) -/
  hold : Bool
  parked : Bool
  lost : Bool
  /-- parks when the next MILESTONE becomes final (R299) -/
  parkPending : Bool
  orphans : List Orphan
  /-- Waymarks written and not completed, oldest first (R289, R298) -/
  heldMarks : List HeldMark
  /-- commands whose data has moved (R292) -/
  jobs : List DmaJob
  /-- the ring that the round-robin arbiter has served last (R296) -/
  rr : Ring
  msixPend : W32
  deriving DecidableEq, Repr

/-! ## Turnpike (chapter 13) -/

/-- What waits to leave on VC1. The edges waited are counted one by one: a step of the tile-cycle counter does not change them
(R318). -/
inductive Vc1Msg where
  /-- a beacon formed here: it takes the cycle on which it leaves (R317) -/
  | formed (b : BeaconPkt)
  /-- a beacon to forward, and the edges it has waited (R318) -/
  | forward (b : BeaconPkt) (waited : Nat)
  /-- a measurement flit to return: its departure time, its arrival here, and the edges it has waited (R315) -/
  | answer (depart arrive waited : Nat)
  deriving DecidableEq, Repr

/-- One Turnpike port (R304-R308, R314-R316, Table 13.6). -/
structure PortSt where
  state : BitVec 3 := 0
  width : BitVec 2 := 0
  lgood : BitVec 4 := 0
  hop : BitVec 12 := 0
  hoprc : BitVec 16 := 0
  /-- next sequence number to send, last one received good -/
  txSeq : BitVec 12 := 0
  rxSeq : BitVec 12 := 0xFFF
  /-- a flit was dropped: drop all later ones and send NAK (R305) -/
  dropping : Bool := false
  nakDue : Bool := false
  /-- the replay buffer, oldest first, and how often each of its flits was sent, by sequence number (R306, R307) -/
  replay : List Flit := []
  sends : SMap Nat := []
  /-- credits used per virtual channel (R308) -/
  used : SMap Nat := []
  /-- received flits waiting, with their arrival cycle -/
  rx : List (Nat × Flit) := []
  /-- system flits waiting to leave (R310), and tensor flits handed over (R309) -/
  txq : List Flit := []
  ttx : List Flit := []
  /-- flits to send again, in order (R306) -/
  rq : List Flit := []
  /-- what waits to leave on VC1 (R315, R317, R318) -/
  btx : List Vc1Msg := []
  /-- credits to return per virtual channel, and the ACK last sent (R306) -/
  ret : SMap Nat := []
  ackSent : BitVec 12 := 0xFFF
  /-- a lane was lost: width 4 comes back only through RETRAIN or a reset (R319) -/
  narrow : Bool := false
  /-- package serial number that the far end named in the identity exchange (R314) -/
  peer : BitVec 128 := 0
  deriving DecidableEq, Repr

/-- A module life record (Table 13.7) as it stands in MD memory, with the sums its means are formed from (R322, R323). -/
structure LifeRec where
  oui : BitVec 24
  ver : Byte
  serial : BitVec 128
  pn : BitVec 128
  date : W64
  hours : W32
  first : W32
  last : W32
  cage : Byte
  warn : BitVec 4
  temp : List W32
  base : List (BitVec 16)
  trend : List (BitVec 16)
  tidx : Nat
  biasSum : List Nat
  biasN : Nat
  /-- 30-day means recorded so far -/
  means : Nat
  deriving DecidableEq, Repr

/-- One cage (R321, R325). -/
structure CageSt where
  present : Bool := false
  app : Bool := false
  flat : Bool := false
  /-- it has stopped answering its bus (R321) -/
  silent : Bool := false
  /-- the reset and low-power signals that the package drives to the cage (R321) -/
  rst : Bool := true
  lowPower : Bool := true
  oui : BitVec 24 := 0
  serial : BitVec 128 := 0
  /-- high-bias warning threshold of the module's CMIS page 02h (Table 13.8) -/
  hiBias : BitVec 16 := 0
  deriving DecidableEq, Repr

/-- The Turnpike ports, cages and the pod time base. -/
structure Turnpike where
  ports : SMap PortSt
  cages : SMap CageSt
  life : List LifeRec
  /-- latest beacon offset (R192), intervals without a beacon (R193), TIME_SKEW logged this segment -/
  boff : Int
  missed : Nat
  skewLogged : Bool
  /-- cycle of the latest beacon (R193) -/
  lastBeacon : Nat
  /-- SET_DIGEST received from package 0 (R220) -/
  podDigest : Option Digest
  /-- broadcasts of package 0 of a pod of which no copy has left yet: it delivers each when the first does (R311, R359) -/
  coming : List Flit
  deriving DecidableEq, Repr

/-! ## Commit protocol and Milestones (chapter 15) -/

/-- PHASE (Table 15.2). -/
inductive Phase where
  | idle | readySent | proceeding | updatedSent | aborted | restoring
  deriving DecidableEq, Repr

/-- A manifest entry (R370). -/
structure ManEntry where
  kind : Nat
  index : Nat
  len : Nat
  off : Nat
  hash : Digest
  loaded : Bool
  deriving DecidableEq, Repr

/-- A restore in progress (R375). -/
structure RestoreSt where
  entries : List ManEntry
  /-- CG and STEP of the manifest -/
  cg : Bool
  step : Nat
  /-- the state record's bytes once its segment is loaded, and each group's scale bytes -/
  record : List Byte
  scales : List (Nat × List Byte)
  deriving DecidableEq, Repr

/-- One item of a snapshot: kind and index of R370, the source ranges it copies, its length and its offset in the staging
area (R367-R370). -/
structure SnapItem where
  kind : Nat
  index : Nat
  srcs : List (Nat × Nat)
  len : Nat
  off : Nat
  deriving DecidableEq, Repr

/-- What a Milestone's manifest names of the package, as it stood at the freeze (Table 15.8). -/
structure Snap where
  step : Nat
  mile : Nat
  cg : Bool
  image : Digest
  set : Digest
  items : List SnapItem
  /-- S of R366; the copy stands in the staging area (R367); SHA-384 of each segment as it left staging (R369) -/
  total : Nat := 0
  staged : Bool := false
  hashes : List Digest := []
  deriving DecidableEq, Repr

/-- The commit state and the snapshot stream. -/
structure Commit where
  step : BitVec 48
  cg : Bool
  phase : Phase
  lastok : Bool
  stream : Bool
  frozen : Bool
  /-- members whose READY, UPDATED the coordinator holds; step and member of each SNAP_DONE -/
  readyFrom : List Nat
  updatedFrom : List Nat
  snapFrom : List (Nat × Nat)
  /-- ABORT tokens for later steps (R362) -/
  heldAbort : List (W64 × BitVec 16)
  /-- members treated as lost (R374) -/
  lost : List Nat
  /-- STATUS answers collected: member, STEP (R361) -/
  answers : List (Nat × W64)
  /-- the MILESTONE command in progress -/
  cmd : Option Desc
  resolving : Bool
  /-- REPLAY commands of the step in flight (R364) -/
  replays : Nat
  /-- the step in flight has been aborted (R362) -/
  abortCode : BitVec 16
  /-- close of the freeze, saved total S, Milestone number (R367) -/
  freezeAt : Nat
  total : Nat
  mile : Nat
  /-- the snapshot frozen or due; the one that streams; a freeze that waits for the end of an earlier stream; digest of this
  package's latest manifest -/
  snap : Option Snap
  sending : Option Snap
  freezeDue : Bool
  manDigest : Digest
  /-- throttle frames that follow the freeze, and their end (R407) -/
  frames : Nat
  framesEnd : Nat
  restore : Option RestoreSt
  /-- tile cycle of the latest applied COMMIT and energy then (R407) -/
  lastCommit : Nat
  lastEnergy : Nat
  /-- cycle of arrival at the step barrier, the barrier wait of the latest step, and that step (R182) -/
  barrier : Option Nat
  bwait : Nat
  bstep : Nat
  /-- HOST_LOST tokens taken: member and step; the latest step whose set record is written (R357) -/
  hostLost : List (Nat × W64)
  setDone : Option Nat
  deriving DecidableEq, Repr

/-- A snapshot port (R458). -/
structure SpSt where
  link : BitVec 2 := 0
  qps : BitVec 2 := 0
  fail : Bool := false
  bytes : W64 := 0
  psn : BitVec 24 := 0
  tries : Nat := 0
  deriving DecidableEq, Repr

/-! ## Reset, clocks, power, telemetry (chapters 16, 17) -/

/-- What step 5 of bring-up holds in its shadow registers until the commit edge (R397). -/
structure LoadSt where
  /-- the bank that verified, if one did: false A, true B -/
  bank : Option Bool
  seqno : W32
  digest : Digest
  /-- the staged words: BAR0 offset, mask, value, in record order -/
  recs : List (Nat × W32 × W32)
  deriving DecidableEq, Repr

/-- Bits of the register at a BAR0 offset that hardware set, or software when `sw`, on an SCLK edge (R9). -/
structure EdgeBits where
  edge : Nat
  off : Nat
  bits : W32
  sw : Bool
  deriving DecidableEq, Repr

/-- A word of RW fields that the system plane has written on an SCLK edge, as it was left (R449). -/
structure SysWrite where
  edge : Nat
  off : Nat
  bits : W32
  deriving DecidableEq, Repr

/-- Clocks, reset and bring-up. -/
structure Clock where
  refcnt : BitVec 16
  refok : Bool
  lock : Bool
  badWins : Nat
  goodWins : Nat
  cause : BitVec 9
  restart : BitVec 4
  /-- a PACKAGE or POWER reset is in force or in bring-up -/
  inReset : Bool
  /-- bring-up step reached; 10 when complete, 0 before -/
  bring : Nat
  /-- PERST# or RESET_N holds the package in reset (R386) -/
  pinHeld : Bool
  /-- POWER reach pending: bring-up starts at step 1 -/
  power : Bool
  /-- RST.BLOCK and RST.CORE0/1 as they read (R391) -/
  blockPend : W32
  corePend : BitVec 128
  /-- the blocks held in reset and the cycle on which each one's bit clears: a bit of RST.BLOCK, or 32 + core (R392) -/
  blockEnd : List (Nat × Nat)
  /-- what hardware set and software set on the latest SCLK edges (R9) -/
  edges : List EdgeBits
  /-- words that the system plane wrote on the latest SCLK edge, as they left each (R449) -/
  sysw : List SysWrite
  fails : BitVec 2
  ready : Bool
  cfgSeqno : W32
  cfgFails : BitVec 2
  fallback : Bool
  abad : Bool
  bbad : Bool
  bank : Bool
  hours : W32
  /-- the fuse trim of ACLK is applied (R383) -/
  trim : Bool
  /-- MD stays in the boot ROM (R418) -/
  rom : Bool
  /-- the root-PLL step waits for the reference (R382) -/
  refHold : Bool
  load : Option LoadSt
  /-- ACLK samples since the watchdog was restarted; a kick has been ignored by an injection (R389, Table 19.10) -/
  wdt : Nat
  wdtInj : Bool
  /-- root cycles since r0, those withheld among them, and the stretch level of the present group (R380, R404) -/
  root : Nat
  pace : Nat
  halted : BitVec 129
  deriving DecidableEq, Repr

/-- Power input and thermal state. -/
structure Power where
  level : Nat
  /-- consecutive ACLK samples: below condition of the next lower level, power above 3,300 W, power at or below it,
  Tj at or above 110 degrees -/
  lowFor : Nat
  overFor : Nat
  underFor : Nat
  hotFor : Nat
  overHeld : Bool
  hotHeld : Bool
  vin : Nat
  iin : Nat
  pin : Nat
  tj : Int
  uvFor : Nat
  ovFor : Nat
  ttrip : Bool
  uv : Bool
  ov : Bool
  off : Bool
  lastf : BitVec 16
  temps : List Int
  deriving DecidableEq, Repr

/-- Telemetry accumulators and the latest record (R411). -/
structure Telem where
  seq : W32
  n : Nat
  vinSum : Nat
  iinSum : Nat
  pinSum : Nat
  pinMax : Nat
  /-- the 1 µs sample being taken: sum and count of its ACLK samples -/
  usSum : Nat
  usN : Nat
  /-- opening cycle and length in TCLK of the interval in force (R411) -/
  opened : Nat
  len : Nat
  /-- input energy since the latest PACKAGE reset, in units of 1/25,000 mJ (one W for one ACLK is 1/25 mJ/1,000) -/
  energy : Nat
  strAclk : Nat
  strMax : Nat
  tframes : Nat
  tempMax : List Int
  retire : BitVec 16
  /-- raised this interval: COR vector, PWR_STRETCH, THERM_WARN -/
  corRaised : Bool
  stretchLogged : Bool
  warnLogged : Bool
  /-- SEQ of the latest record of the interval before (R440) -/
  logSeq : W32
  record : List Byte
  deriving DecidableEq, Repr

/-! ## Security (chapter 18) -/

/-- The owner record (Table 18.2); its HMAC is checked when it is read from FD. -/
structure Owner where
  point : List Byte
  reqsig : Bool
  cosign : Bool
  dbgdrk : Bool
  rcnt : W32
  deriving DecidableEq, Repr

/-- Security state of MD. -/
structure Sec where
  level : BitVec 2
  chal : Option (BitVec 512)
  dik : Bool
  slot : Bool
  svn : W32
  fwDigest : Digest
  cfgDigest : Digest
  owner : Option Owner
  mbBusy : Bool
  mbDone : Bool
  mbRlen : Nat
  mbReq : List Byte
  mbRsp : List Byte
  deriving DecidableEq, Repr

/-! ## Errors (chapter 19) and FD (chapters 13, 16, 18, 19) -/

/-- An error record (Table 19.6). -/
structure Rec where
  code : BitVec 16
  src : BitVec 16
  seq : W32
  tcyc : W64
  addr : W64
  info0 : W64
  info1 : W64
  count : W32
  flags : BitVec 4
  step : W64
  hours : W32
  deriving DecidableEq, Repr

/-- A corrected error that Rolmir counts against a granule: its 2 MiB granule and tile cycle (R248). -/
structure CeNote where
  granule : Nat
  cycle : Nat
  deriving DecidableEq, Repr
/-- The volatile log (R438, R439), and the corrected errors of the last 24 hours that count towards a retirement (R248). -/
structure ErrLog where
  recs : List Rec
  seq : W32
  lost : BitVec 16
  ces : List CeNote
  deriving DecidableEq, Repr

/-- The shutdown marker (R441). -/
structure Marker where
  bits : BitVec 3
  hours : W32
  step : W32
  deriving DecidableEq, Repr

/-- The flash die and the fuses. -/
structure Flash where
  bankA : List Byte
  bankB : List Byte
  f0 : List Byte
  f1 : List Byte
  /-- the life-record area of FD: 512 bytes for each record (Table 13.7) -/
  life : List (List Byte)
  plog : List Rec
  marker : Option Marker
  hoursMirror : W32
  failMirror : BitVec 2
  /-- the security record: the rollback floor and, where there is a record, its HMAC (R417, R420) -/
  floor : W32
  secMac : Option (List Byte)
  /-- the owner record and its HMAC (R420, Table 18.2) -/
  owner : Option Owner
  ownerMac : List Byte
  idCert : List Byte
  caCert : List Byte
  /-- fuses: serial number, I3C provisional ID, PUF helper data readable, the words whose copies disagree -/
  serial : BitVec 128
  provId : BitVec 48
  pufOk : Bool
  voteBad : List Nat
  deriving DecidableEq, Repr

/-- A message that the package has formed and not yet handed to its ports. -/
inductive OutMsg where
  /-- a token of type `ty` to a package (none: the set) on VC0 or VC14 (R354, R357) -/
  | token (ty : BitVec 16) (dest : Option (BitVec 8 × BitVec 8)) (k : Token)
  /-- SET_DIGEST on VC0 (R220) -/
  | setDigest (d : Digest)
  deriving DecidableEq, Repr

/-- What the frames of an RDMA WRITE say of their port: its registers of Table 20.7, the UDP ports and the PSN of the first packet
(R369, R458). -/
structure RoceHead where
  port : SnapPort
  lmac : BitVec 48
  nmac : BitVec 48
  v6 : Bool
  lip : BitVec 128
  rip : BitVec 128
  dscp : BitVec 6
  pcp : BitVec 3
  udpSrc : BitVec 16
  udpDst : BitVec 16
  qpn : BitVec 24
  psn : BitVec 24
  rkey : W32
  mtu : Nat
  deriving DecidableEq, Repr

/-- What the block has sent: messages to other packages, to the host, to the management controller, to the cores. -/
inductive Out where
  /-- a flit left port `p` on a cycle (R309) -/
  | flit (p : Port) (cycle : Nat) (x : Flit)
  /-- MSI-X vector raised (R442, R462) -/
  | msix (v : BitVec 5)
  /-- CXL.cache request or response of the HMC (Table 11.7), with the data and its poison, and byte enables -/
  | cxl (name : String) (l : Line) (d : Option (LineData × Bool)) (be : BitVec 64)
  /-- a zero-length CXL.io read of a host physical address: the fence of R292 -/
  | ioRead (a : Nat)
  /-- a coherence response that reaches an agent without a cache, with its error bit -/
  | data (p : ReqPort) (l : Line) (d : LineData) (poison err : Bool)
  /-- a core's load completes, or it takes an access-fault or hardware-error exception -/
  | coreData (c : CoreId) (d : LineData)
  | coreExc (c : CoreId) (hardware : Bool)
  /-- answer on the management port, DOE mailbox or test port -/
  | mgmt (bytes : List Byte)
  | doe (bytes : List Byte)
  | test (bytes : List Byte)
  /-- RDMA WRITE of the manifest or set record, or a data segment, on SP0 or SP1 (R369) -/
  | rdma (h : RoceHead) (va : Nat) (bytes : List Byte)
  | mgmtFlit (p : Port) (x : Flit)
  | delivered (x : Flit)
  /-- I3C dynamic address in force -/
  | i3c (a : BitVec 7)
  deriving DecidableEq, Repr

/-- The state of the block. -/
structure State where
  /-- the tile-cycle counter (R142), as a count -/
  cyc : Nat
  mem : Memory
  pl : Plane
  coh : Coh
  hf : HostFe
  tp : Turnpike
  cm : Commit
  sp : SMap SpSt
  ck : Clock
  pwr : Power
  tel : Telem
  sec : Sec
  log : ErrLog
  fd : Flash
  /-- storage of the registers whose fields software or the configuration image sets, by BAR0 word (R451, R452) -/
  regs : SMap W32
  /-- I3C dynamic address (R412) -/
  i3c : BitVec 7
  out : List Out
  /-- messages formed, which wait for routing (R310, R354) -/
  outbox : List OutMsg
  /-- MODEL: later steps with their cycle, in the order they were scheduled -/
  agenda : List (Nat × Instr)
  /-- MODEL: counter that free values are applied to -/
  fresh : Nat
  /-- MODEL: commands waiting, oldest first -/
  pending : List Instr
  deriving DecidableEq, Repr

/-- Faults: the block itself never stops on a command, because every fault of the manual is a record with a further
effect on State (R164, R444). -/
inductive Fault where
  /-- Raised by nobody; kept so that the type is not empty. Safe. -/
  | none
  deriving DecidableEq, Repr

/-- Refusals. -/
inductive Refusal where
  /-- Raised by `exec` for a command without a meaning in this model. Safe. -/
  | notModelled (mnemonic : String)
  deriving DecidableEq, Repr

/-! ## Reset -/

/-- A step's retained state before any step has begun. -/
def Retained.reset : Retained := { ptrs := [], scales := [], step := 0, cg := false }

/-- The tensor plane after reset (R70, R114, R144, R161, R221; Table 16.5). -/
def Plane.reset : Plane :=
  { tiles := [], sregs := [], vregs := [], masks := [], imem := [], fas := [], spend := [], vpend := [], vruns := [], vwrites := [], ivals := [],
    ports := [], pw := [], hist := [], prods := [], drains := [], flows := [], trees := [],
    sysent := [], ipages := [], hreads := [], xfers := [], treeq := [], laybyq := [], layby := [], frames := [],
    nruRanges := [], nruOps := [], nruSlots := [], nruFlight := [], runs := [], runWait := [], cur := none, segSlot := 0, stopAt := none, segErr := 0,
    wsys := 512, active := none, staged := none, imgBlock := false, hopBlock := false, fatCode := 0, uflags := 0, xnfb := 0,
    xnff := none, xchs := [],
    groups := [], retained := Retained.reset }

/-- Coherence after reset: caches cleared (R393 step 8). -/
def Coh.reset : Coh :=
  { l2 := [], dir := [], l3 := [], hmc := [], busy := [], allocs := 0, hbmq := [], hbmData := [], outst := [], portq := [], link := [], recalls := [], txns := 0, held := [], poison := [], flips := [],
    scrub := 0, lpScrub := 0 }

/-- The host front end after reset: ring registers at their reset values (Tables 12.1, 12.2, 12.9). -/
def HostFe.reset : HostFe :=
  { fn := { classCode := 0x120000, barBytes := 0x4000000, bar64 := true, prefetch := false },
    rings := [], cmds := [], linkUp := false, hold := false, parked := false, lost := false, parkPending := false,
    orphans := [], heldMarks := [], jobs := [], rr := 0, msixPend := 0 }

/-- The Turnpike after reset. -/
def Turnpike.reset : Turnpike :=
  { ports := [], cages := [], life := [], boff := 0, missed := 0, skewLogged := false, lastBeacon := 0,
    podDigest := none, coming := [] }

/-- The commit state after reset (R355): STEP = 0, CG = 0, PHASE = IDLE. -/
def Commit.reset : Commit :=
  { step := 0, cg := false, phase := .idle, lastok := false, stream := false, frozen := false, readyFrom := [],
    updatedFrom := [], snapFrom := [], heldAbort := [], lost := [], answers := [], cmd := none, resolving := false,
    replays := 0, abortCode := 0, freezeAt := 0, total := 0, mile := 0, snap := none, sending := none, freezeDue := false,
    manDigest := 0, frames := 0, framesEnd := 0, restore := none,
    lastCommit := 0, lastEnergy := 0, barrier := none, bwait := 0, bstep := 0, hostLost := [], setDone := none }

/-- Clock and reset state as a POWER reset leaves it before bring-up: RST.CAUSE.POR = 1, all else 0 (Table 16.3). -/
def Clock.reset : Clock :=
  { refcnt := 0, refok := false, lock := false, badWins := 0, goodWins := 0, cause := 1, restart := 0,
    inReset := true, bring := 0, pinHeld := false, power := true, blockPend := 0, corePend := 0, blockEnd := [], edges := [], sysw := [], fails := 0,
    ready := false, cfgSeqno := 0, cfgFails := 0, fallback := false, abad := false, bbad := false, bank := false,
    hours := 0, trim := false, rom := false, refHold := false, load := none, wdt := 0, wdtInj := false,
    root := 0, pace := 0,
    halted := 0 }

/-- Power state after reset (Table 17.4). -/
def Power.reset : Power :=
  { level := 0, lowFor := 0, overFor := 0, underFor := 0, hotFor := 0, overHeld := false, hotHeld := false, vin := 0,
    iin := 0, pin := 0, tj := 0, uvFor := 0, ovFor := 0, ttrip := false, uv := false, ov := false, off := false,
    lastf := 0, temps := [] }

/-- Telemetry after reset. -/
def Telem.reset : Telem :=
  { seq := 0, n := 0, vinSum := 0, iinSum := 0, pinSum := 0, pinMax := 0, usSum := 0, usN := 0, opened := 0, len := 225000000, energy := 0, strAclk := 0, strMax := 0,
    tframes := 0, tempMax := [], retire := 0, corRaised := false, stretchLogged := false, warnLogged := false,
    logSeq := 0, record := [] }

/-- Security state after reset: debug level 0 (R429), SEC.STAT all 0 (Table 20.8). -/
def Sec.reset : Sec :=
  { level := 0, chal := none, dik := false, slot := false, svn := 0, fwDigest := 0, cfgDigest := 0, owner := none,
    mbBusy := false, mbDone := false, mbRlen := 0, mbReq := [], mbRsp := [] }

/-- The log after reset: empty (Table 19.8). -/
def ErrLog.reset : ErrLog := { recs := [], seq := 0, lost := 0, ces := [] }

/-- FD as delivered. DESIGN CHOICE: the manual gives no factory contents; every bank and slot is empty. -/
def Flash.reset : Flash :=
  { bankA := [], bankB := [], f0 := [], f1 := [], life := [], plog := [], marker := none, hoursMirror := 0,
    failMirror := 0, floor := 0, secMac := none, owner := none, ownerMac := [], idCert := [], caCert := [],
    serial := 0, provId := 0, pufOk := true, voteBad := [] }

/-- Factory defaults of the fields whose Reset is Cfg (R394 and the register tables), by BAR0 word (offset / 4); every
other stored word is 0. RST.CFG: WDTEN 1, WDTMO 10. CFG.BOOT: 0x80_0000_0000. HOST.HOLD.MS 100. MEM.HOSTBOUND.H 4,500.
TP.PCTLn: MAXW 0b10, DEGR 1. TP.MODWARN.HOURS 43,800. MS.CTL.TMO 10,000. SPn.CTL: MTU 0b10, DSCP 26, PCP 3, RETRY 7,
TMO 14. PWR.CAP: TFR 4,096, MAXF 16,384, IDLE 1,100. TEL.CTL.INT 100. PRESUMED (PCIe): every MSI-X vector starts masked. -/
def factoryRegs : SMap W32 :=
  [(0x2008 / 4, 0x80000A00), (0x3014 / 4, 0x80), (0x11000 / 4, 100), (0x30000 / 4, 4500)] ++
  [(0x50000 / 4, 0x50), (0x50010 / 4, 0x50), (0x50020 / 4, 0x50), (0x50030 / 4, 0x50), (0x50040 / 4, 0x50),
   (0x50050 / 4, 0x50), (0x50060 / 4, 0x50), (0x50070 / 4, 0x50)] ++
  [(0x50100 / 4, 43800), (0x60000 / 4, 10000), (0x60100 / 4, 0x269F7000), (0x60200 / 4, 0x269F7000),
   (0x70000 / 4, 0x044C0000), (0x70004 / 4, 0x10004000), (0x7000C / 4, 100)] ++
  (List.range 32).map fun v => ((0xF0000C + 16 * v) / 4, 1)

/-- The machine right after a POWER reset, before bring-up (R390, R393): memory zeroed, every register at its reset
value, Cfg fields at the factory defaults of the fuses. Bring-up runs by itself while no command waits. -/
def State.reset : State :=
  { cyc := 0, mem := [], pl := Plane.reset, coh := Coh.reset, hf := HostFe.reset, tp := Turnpike.reset,
    cm := Commit.reset, sp := [], ck := Clock.reset, pwr := Power.reset, tel := Telem.reset, sec := Sec.reset,
    log := ErrLog.reset, fd := Flash.reset, regs := factoryRegs, i3c := 0, out := [], outbox := [], agenda := [], fresh := 0,
    pending := [] }

end Sys2Proof.Machine
end

