-- ==== Sys2Proof/Machine/Bits.lean ====
section
/-! DEFINITION. Bit fields, byte order and integer helpers (00_scope R3, R4). -/

namespace Sys2Proof.Machine

/-- Bits [hi:lo] of a number (R3). -/
def bitsOf (x hi lo : Nat) : Nat := (x >>> lo) % 2 ^ (hi - lo + 1)
/-- Bit [n] of a number. -/
def bitOf (x n : Nat) : Bool := (x >>> n) % 2 = 1
/-- ceil(a / b). -/
def ceilDiv (a b : Nat) : Nat := (a + b - 1) / b
/-- A two's-complement reading of the low `w` bits. -/
def signOf (w x : Nat) : Int := let y := x % 2 ^ w; if y < 2 ^ (w - 1) then (y : Int) else (y : Int) - 2 ^ w
/-- The low `w` bits of an integer. -/
def wrapInt (w : Nat) (x : Int) : Nat := (x % (2 ^ w : Int)).toNat
/-- floor(x / 2^k) of an integer. -/
def floorShift (x : Int) (k : Nat) : Int := x / (2 ^ k : Int)

/-- The little-endian number of a byte list (R4). -/
def leNat : List Byte → Nat
  | [] => 0
  | b :: r => b.toNat + 256 * leNat r
/-- The `n` little-endian bytes of a number (R4). -/
def leBytes : Nat → Nat → List Byte
  | 0, _ => []
  | n + 1, x => BitVec.ofNat 8 x :: leBytes n (x / 256)
/-- The big-endian number of a byte list (hashes and DER). -/
def beNat (bs : List Byte) : Nat := bs.foldl (fun a b => a * 256 + b.toNat) 0
/-- The `n` big-endian bytes of a number. -/
def beBytes (n x : Nat) : List Byte := (leBytes n x).reverse
/-- `n` zero bytes. -/
def zeros (n : Nat) : List Byte := List.replicate n 0
/-- Bytes [off, off + n) of a list, 0 beyond its end. -/
def slice (bs : List Byte) (off n : Nat) : List Byte :=
  let r := (bs.drop off).take n
  r ++ zeros (n - r.length)
/-- A little-endian field of a byte list. -/
def leField (bs : List Byte) (off n : Nat) : Nat := leNat (slice bs off n)
/-- Replace bytes [off, off + v.length) of a list. -/
def patch (bs : List Byte) (off : Nat) (v : List Byte) : List Byte :=
  bs.take off ++ v ++ bs.drop (off + v.length)
/-- A list is all zero bytes. -/
def allZero (bs : List Byte) : Bool := bs.all (· = 0)
/-- The bytes of an ASCII text. -/
def ascii (x : String) : List Byte := x.toList.map fun c => BitVec.ofNat 8 c.toNat
/-- A Boolean as a number. -/
def b2n (b : Bool) : Nat := if b then 1 else 0

/-- Saturating add of a w-bit counter. -/
def satAdd {w : Nat} (x : BitVec w) (k : Nat) : BitVec w := BitVec.ofNat w (min (2 ^ w - 1) (x.toNat + k))

/-- The data of a line as 64 bytes, and back (R255). -/
def lineBytes (d : LineData) : List Byte := leBytes 64 d.toNat
def bytesLine (bs : List Byte) : LineData := BitVec.ofNat 512 (leNat (slice bs 0 64))
/-- Address of the first byte of a line. -/
def lineAddr (l : Line) : Nat := l.toNat * 64
/-- The line of an address. -/
def addrLine (a : Nat) : Line := BitVec.ofNat 46 (a / 64)
/-- Merge bytes of `new` selected by byte enables into `old`. -/
def mergeLine (old new : LineData) (be : BitVec 64) : LineData :=
  bytesLine ((List.range 64).map fun i =>
    if be.getLsbD i then (lineBytes new).getD i 0 else (lineBytes old).getD i 0)

/-- Every element of [0, n) once, in rising order, mapped. -/
def tabulate {α : Type} (n : Nat) (f : Nat → α) : List α := (List.range n).map f

/-- Split a list into pieces of `n` (structural in `fuel`). -/
def chunks {α : Type} (n : Nat) : Nat → List α → List (List α)
  | 0, _ => []
  | _, [] => []
  | fuel + 1, xs => xs.take n :: chunks n fuel (xs.drop n)

end Sys2Proof.Machine
end

