-- ==== Sys2Proof/Machine/Flags.lean ====
section
/-! DEFINITION. The five accrued flags (Table 2.8). -/

namespace Sys2Proof.Machine

/-- A flag vector, bit positions of Table 2.8. -/
abbrev Flags := BitVec 5

/-- [4] QN: a NaN is consumed. -/
def flQN : Flags := 0b10000
/-- [3] NV: invalid. -/
def flNV : Flags := 0b01000
/-- [2] OF: overflow. -/
def flOF : Flags := 0b00100
/-- [1] UF: tiny and inexact. -/
def flUF : Flags := 0b00010
/-- [0] NX: inexact. -/
def flNX : Flags := 0b00001
/-- A flag when a condition holds. -/
def flIf (c : Bool) (f : Flags) : Flags := if c then f else 0
/-- OR of a list of flag vectors (R56). -/
def flAll (xs : List Flags) : Flags := xs.foldl (· ||| ·) 0

end Sys2Proof.Machine
end

