-- ==== Sys2Proof/Machine/Formats.lean ====
section
/-! DEFINITION. Number formats, rounding, special values, MX blocks (02_number_formats R29-R59, R463). -/

namespace Sys2Proof.Machine

/-! ## Values -/

/-- The exact value of an element: a NaN (signalling or quiet), an infinity, or (−1)^neg × m × 2^e. -/
inductive Val where
  | nan (sig : Bool)
  | inf (neg : Bool)
  | fin (neg : Bool) (m : Nat) (e : Int)
  deriving DecidableEq, Repr

/-- How a format encodes NaN (Table 2.2). -/
inductive NanKind where
  | ieee | e4m3 | none
  deriving DecidableEq, Repr

/-- An element format of Table 2.2. -/
structure FFmt where
  eb : Nat
  fb : Nat
  bias : Int
  nan : NanKind
  deriving DecidableEq, Repr

def fmtFp32 : FFmt := ⟨8, 23, 127, .ieee⟩
def fmtBf16 : FFmt := ⟨8, 7, 127, .ieee⟩
def fmtFp16 : FFmt := ⟨5, 10, 15, .ieee⟩
def fmtE5M2 : FFmt := ⟨5, 2, 15, .ieee⟩
def fmtE4M3 : FFmt := ⟨4, 3, 7, .e4m3⟩
def fmtE3M2 : FFmt := ⟨3, 2, 3, .none⟩
def fmtE2M3 : FFmt := ⟨2, 3, 1, .none⟩
def fmtE2M1 : FFmt := ⟨2, 1, 1, .none⟩
def fmtF64 : FFmt := ⟨11, 52, 1023, .ieee⟩

/-- Reserved format codes (Table 2.1). -/
def fmtReserved (c : Nat) : Bool := c = 6 || c = 7 || c ≥ 14
/-- MX block formats (Table 2.1). -/
def fmtIsMx (c : Nat) : Bool := 8 ≤ c && c ≤ 13
/-- The floating-point element format of a code; none for INT8 and MXINT8. -/
def fmtElem : Nat → Option FFmt
  | 0 => some fmtFp32 | 1 => some fmtBf16 | 2 => some fmtFp16 | 3 => some fmtE5M2 | 4 => some fmtE4M3
  | 8 => some fmtE5M2 | 9 => some fmtE4M3 | 10 => some fmtE3M2 | 11 => some fmtE2M3 | 12 => some fmtE2M1
  | _ => none
/-- Element width in bits (R39, R64). -/
def fmtBits : Nat → Nat
  | 0 => 32 | 1 => 16 | 2 => 16 | 10 => 6 | 11 => 6 | 12 => 4 | _ => 8
/-- emax of the element format of an MX code (R54). -/
def fmtEmax : Nat → Int
  | 8 => 15 | 9 => 8 | 10 => 4 | 11 => 2 | 12 => 2 | _ => 0

/-- Largest finite value of a format, as (significand, exponent) (Table 2.2). -/
def fmtMax (p : FFmt) : Nat × Int :=
  match p.nan with
  | .ieee => (2 ^ (p.fb + 1) - 1, (2 ^ p.eb - 2 : Int) - p.bias - p.fb)
  | .e4m3 => (2 ^ (p.fb + 1) - 2, (2 ^ p.eb - 1 : Int) - p.bias - p.fb)
  | .none => (2 ^ (p.fb + 1) - 1, (2 ^ p.eb - 1 : Int) - p.bias - p.fb)
/-- The encoding of the largest finite magnitude. -/
def fmtMaxCode (p : FFmt) : Nat :=
  match p.nan with
  | .ieee => (2 ^ p.eb - 1) * 2 ^ p.fb - 1
  | .e4m3 => 2 ^ (p.eb + p.fb) - 2
  | .none => 2 ^ (p.eb + p.fb) - 1
/-- Canonical quiet NaN (Table 2.2). -/
def fmtNan (p : FFmt) : Nat :=
  match p.nan with
  | .ieee => (2 ^ p.eb - 1) * 2 ^ p.fb + 2 ^ (p.fb - 1)
  | _ => 2 ^ (p.eb + p.fb) - 1
/-- +∞ of a format that has one. -/
def fmtInf (p : FFmt) : Nat := (2 ^ p.eb - 1) * 2 ^ p.fb
/-- The sign bit. -/
def fmtSign (p : FFmt) (neg : Bool) : Nat := if neg then 2 ^ (p.eb + p.fb) else 0

/-- Read an element (R32, R35). -/
def decodeF (p : FFmt) (x : Nat) : Val :=
  let neg := bitOf x (p.eb + p.fb)
  let ef := bitsOf x (p.eb + p.fb - 1) p.fb
  let fr := x % 2 ^ p.fb
  if p.nan = .ieee ∧ ef = 2 ^ p.eb - 1 then
    (if fr = 0 then .inf neg else .nan (!bitOf fr (p.fb - 1)))
  else if p.nan = .e4m3 ∧ ef = 2 ^ p.eb - 1 ∧ fr = 2 ^ p.fb - 1 then .nan false
  else if ef = 0 then .fin neg fr (1 - p.bias - p.fb)
  else .fin neg (2 ^ p.fb + fr) ((ef : Int) - p.bias - p.fb)

/-- An integer as a value scaled by 2^e. -/
def intVal (i : Int) (e : Int) : Val := .fin (i < 0) i.natAbs e

/-- Read the stored bits of an element of a format code, without its block scale (R33, R37). -/
def decodeElem (code x : Nat) : Val :=
  match fmtElem code with
  | some p => decodeF p x
  | none => intVal (signOf 8 x) (if code = 13 then -6 else 0)

/-- Multiply a value by 2^k exactly. -/
def scaleVal (k : Int) : Val → Val
  | .fin neg m e => .fin neg m (e + k)
  | v => v

/-- The value of an element of an MX block with its scale byte (R37, R38). -/
def decodeMx (code x scale : Nat) : Val :=
  if scale = 0xFF then .nan false else scaleVal ((scale : Int) - 127) (decodeElem code x)

/-- FP32 bits as a value. -/
def f32 (x : W32) : Val := decodeF fmtFp32 x.toNat

/-- Flags of consuming an input (R56): QN for a NaN, NV too when it is signalling. -/
def useFlags : Val → Flags
  | .nan true => flQN ||| flNV
  | .nan false => flQN
  | _ => 0

def Val.isNan : Val → Bool
  | .nan _ => true
  | _ => false
def Val.isFin : Val → Bool
  | .fin .. => true
  | _ => false
def Val.isZero : Val → Bool
  | .fin _ m _ => m = 0
  | _ => false
def Val.neg? : Val → Bool
  | .fin n _ _ => n
  | .inf n => n
  | .nan _ => false
def negVal : Val → Val
  | .fin n m e => .fin (!n) m e
  | .inf n => .inf (!n)
  | v => v
def absVal : Val → Val
  | .fin _ m e => .fin false m e
  | .inf _ => .inf false
  | v => v

/-! ## Exact arithmetic on values -/

/-- A signed dyadic number m × 2^e. -/
structure Dy where
  m : Int
  e : Int
  deriving DecidableEq, Repr

/-- The exact sum of two dyadic numbers. -/
def addDy (a b : Dy) : Dy :=
  let e := min a.e b.e
  ⟨a.m * 2 ^ (a.e - e).toNat + b.m * 2 ^ (b.e - e).toNat, e⟩
/-- A finite value as a dyadic number; 0 for the others. -/
def valDy : Val → Dy
  | .fin neg m e => ⟨if neg then -(m : Int) else m, e⟩
  | _ => ⟨0, 0⟩
/-- A nonzero or positively zero dyadic number as a value. -/
def dyVal (d : Dy) : Val := .fin (d.m < 0) d.m.natAbs d.e
/-- a < b for dyadic numbers. -/
def ltDy (a b : Dy) : Bool := (addDy a ⟨-b.m, b.e⟩).m < 0

/-- The exact sum of two values, with R58 and R463: opposite infinities give NaN and NV; an exact zero is −0 only when
both terms are −0. -/
def sumVal (a b : Val) : Val × Flags :=
  match a, b with
  | .nan _, _ => (.nan false, 0)
  | _, .nan _ => (.nan false, 0)
  | .inf x, .inf y => if x = y then (.inf x, 0) else (.nan false, flNV)
  | .inf x, _ => (.inf x, 0)
  | _, .inf y => (.inf y, 0)
  | .fin x m e, .fin y n g =>
    let d := addDy (valDy (.fin x m e)) (valDy (.fin y n g))
    if d.m = 0 then (.fin (x && y && m = 0 && n = 0) 0 0, 0) else (dyVal d, 0)

/-- The exact product of two values: zero times infinity gives NaN and NV (Table 2.8). -/
def mulVal (a b : Val) : Val × Flags :=
  match a, b with
  | .nan _, _ => (.nan false, 0)
  | _, .nan _ => (.nan false, 0)
  | .inf x, .inf y => (.inf (x != y), 0)
  | .inf x, .fin y n _ => if n = 0 then (.nan false, flNV) else (.inf (x != y), 0)
  | .fin x m _, .inf y => if m = 0 then (.nan false, flNV) else (.inf (x != y), 0)
  | .fin x m e, .fin y n g => (.fin (x != y) (m * n) (e + g), 0)

/-! ## Rounding -/

/-- A nonzero magnitude: m × 2^e exactly, or strictly between m × 2^e and (m + 1) × 2^e when `sticky`. -/
structure Mag where
  m : Nat
  e : Int
  sticky : Bool := false
  deriving DecidableEq, Repr

/-- Rounding modes (Table 2.3). -/
inductive Rnd where
  | rne | rto | sr
  deriving DecidableEq, Repr

/-- RND field (Table 2.3); 0b11 is reserved and checked before use. -/
def rndOf (x : Nat) : Rnd := if x = 1 then .rto else if x = 2 then .sr else .rne

/-- floor(log2) of a nonzero magnitude. -/
def magLog2 (x : Mag) : Int := (Nat.log2 x.m : Int) + x.e

/-- Round a magnitude to a multiple of 2^q (R42, R44); `r` is the generator's word. Result in units of 2^q, and whether
a nonzero bit was discarded. -/
def roundMag (rnd : Rnd) (q : Int) (x : Mag) (r : Nat) : Nat × Bool :=
  if q ≤ x.e then (x.m * 2 ^ (x.e - q).toNat, x.sticky)
  else
    let sh := (q - x.e).toNat
    let k := x.m >>> sh
    let rem := x.m % 2 ^ sh
    let ix := rem ≠ 0 || x.sticky
    match rnd with
    | .rne =>
      let half := 2 ^ (sh - 1)
      let up := half < rem || (rem = half && (x.sticky || k % 2 = 1))
      (k + b2n up, ix)
    | .rto => (if ix then k ||| 1 else k, ix)
    | .sr =>
      let d := if 32 ≤ sh then rem >>> (sh - 32) else rem <<< (32 - sh)
      (k + b2n (2 ^ 32 ≤ d + r), ix)

/-- The quantum exponent of a magnitude in a format, as though the range were unbounded above (R47). -/
def fmtQuantum (p : FFmt) (x : Mag) : Int := max (magLog2 x - p.fb) (1 - p.bias - p.fb)

/-- k × 2^q is above the largest finite value of the format. -/
def aboveMax (p : FFmt) (k : Nat) (q : Int) : Bool :=
  let (mm, me) := fmtMax p
  ltDy ⟨mm, me⟩ ⟨k, q⟩

/-- Overflow result (Table 2.5). -/
def overflowCode (p : FFmt) (rnd : Rnd) (ofm : Bool) (neg : Bool) : Nat :=
  match p.nan with
  | .ieee => fmtSign p neg + (if rnd = .rto then fmtMaxCode p else fmtInf p)
  | .e4m3 => if ofm then fmtNan p else fmtSign p neg + fmtMaxCode p
  | .none => fmtSign p neg + fmtMaxCode p

/-- The encoding of k × 2^q, k ≤ 2^(fb+1), in a format whose quantum for it is 2^q. -/
def packF (p : FFmt) (k : Nat) (q : Int) : Nat :=
  let (k, q) := if 2 ^ (p.fb + 1) ≤ k then (k / 2, q + 1) else (k, q)
  if k < 2 ^ p.fb then k else (q + p.fb + p.bias).toNat * 2 ^ p.fb + (k - 2 ^ p.fb)

/-- Round a magnitude with its sign into a format (R42-R50). -/
def roundF (p : FFmt) (rnd : Rnd) (ofm : Bool) (r : Nat) (neg : Bool) (x : Mag) : Nat × Flags :=
  if x.m = 0 then (fmtSign p neg, flIf x.sticky (flUF ||| flNX))
  else
    let q := fmtQuantum p x
    let (k, ix) := roundMag rnd q x r
    if aboveMax p k q then (overflowCode p rnd ofm neg, flOF ||| flNX)
    else (fmtSign p neg + packF p k q, flIf ix flNX ||| flIf (ix && magLog2 x < 1 - p.bias) flUF)

/-- Convert a value to a floating-point format (R42-R51). The flags of consuming a NaN are `useFlags`. -/
def convF (p : FFmt) (rnd : Rnd) (ofm : Bool) (r : Nat) : Val → Nat × Flags
  | .nan _ => (fmtNan p, 0)
  | .inf neg => if p.nan = .ieee then (fmtSign p neg + fmtInf p, 0)
                else (overflowCode p rnd ofm neg, flOF ||| flNX)
  | .fin neg m e => roundF p rnd ofm r neg ⟨m, e, false⟩

/-- Round to an integer code of ±127 times 2^unit (R33, R44, R47): INT8 with unit 0, MXINT8 with unit −6. -/
def roundI8 (rnd : Rnd) (unit : Int) (r : Nat) (neg : Bool) (x : Mag) : Nat × Flags :=
  if x.m = 0 then (0, 0)
  else
    let (k, ix) := roundMag rnd unit x r
    let big := 127 < k
    let k' := if big then 127 else k
    (wrapInt 8 (if neg then -(k' : Int) else k'), if big then flOF ||| flNX else flIf ix flNX)

/-- Convert a value to INT8 (Table 2.6). -/
def convI8 (rnd : Rnd) (r : Nat) : Val → Nat × Flags
  | .nan _ => (0, flNV)
  | .inf neg => (wrapInt 8 (if neg then -127 else 127), flNV)
  | .fin neg m e => roundI8 rnd 0 r neg ⟨m, e, false⟩

/-- Convert a value to a format without blocks, codes 0x0 to 0x5 (R30). -/
def convScalar (code : Nat) (rnd : Rnd) (ofm : Bool) (r : Nat) (v : Val) : Nat × Flags :=
  match fmtElem code with
  | some p => convF p rnd ofm r v
  | none => convI8 rnd r v

/-- FP32 result of a value under a rounding mode. -/
def toF32 (rnd : Rnd) (v : Val) : W32 × Flags :=
  let (x, f) := convF fmtFp32 rnd false 0 v
  (BitVec.ofNat 32 x, f)

/-- One FP32 addition under RNE, with every flag it raises (R42, R56, R58, R463). -/
def addF32 (a b : W32) : W32 × Flags :=
  let (v, f) := sumVal (f32 a) (f32 b)
  let (x, g) := toF32 .rne v
  (x, useFlags (f32 a) ||| useFlags (f32 b) ||| f ||| g)

/-- Change the sign of an FP32 pattern. -/
def negF32 (a : W32) : W32 := a ^^^ 0x80000000#32
/-- FP32 NaN or infinity. -/
def nonFinite32 (a : W32) : Bool := !(f32 a).isFin

/-- The encoding is NaN or infinite in its format (R59, second condition). -/
def codeNonFinite (code x : Nat) : Bool :=
  match fmtElem code with
  | some p => !(decodeF p x).isFin
  | none => false

/-! ## Stochastic rounding words (R45) -/

/-- One round of Philox-4x32. -/
def philoxRound (k0 k1 : Nat) (c : Nat × Nat × Nat × Nat) : Nat × Nat × Nat × Nat :=
  let (c0, c1, c2, c3) := c
  let p0 := 0xD2511F53 * c0
  let p1 := 0xCD9E8D57 * c2
  ((p1 >>> 32) ^^^ c1 ^^^ k0, p1 % 2 ^ 32, (p0 >>> 32) ^^^ c3 ^^^ k1, p0 % 2 ^ 32)

/-- `n` rounds of Philox-4x32 with the Weyl key schedule. -/
def philoxRounds : Nat → Nat → Nat → Nat × Nat × Nat × Nat → Nat × Nat × Nat × Nat
  | 0, _, _, c => c
  | n + 1, k0, k1, c =>
    philoxRounds n ((k0 + 0x9E3779B9) % 2 ^ 32) ((k1 + 0xBB67AE85) % 2 ^ 32) (philoxRound k0 k1 c)

/-- The word of Philox-4x32-10 for seed, element index and counter word c2 (R45, R137). -/
def philoxWord (seed idx c2 : Nat) : Nat :=
  let i := idx % 2 ^ 64
  let j := i / 4
  let (w0, w1, w2, w3) := philoxRounds 10 (seed % 2 ^ 32) ((seed >>> 32) % 2 ^ 32) (j % 2 ^ 32, (j >>> 32) % 2 ^ 32, c2, 0)
  match i % 4 with
  | 0 => w0 | 1 => w1 | 2 => w2 | _ => w3

/-- Conversion control of a converting instruction (Table 2.7). -/
structure Cvt where
  fmt : Nat
  rnd : Rnd
  ofm : Bool
  /-- SCL: supplied scale -/
  scl : Bool
  seed : Nat
  deriving DecidableEq, Repr

/-- The rounding word of element index i under a conversion control. -/
def cvtWord (c : Cvt) (i : Nat) : Nat := if c.rnd = .sr then philoxWord c.seed i 0 else 0

/-! ## MX blocks (R37-R41, R52-R55) -/

/-- One converted MX block: scale byte, element codes, flags, and which elements meet R59's first or second condition. -/
structure MxBlock where
  scale : Nat
  codes : List Nat
  flags : Flags
  bad : List Bool
  deriving DecidableEq, Repr

/-- An element of a block divided by 2^x rounds above the element maximum (the no-clip test of R54). -/
def mxClips (code : Nat) (rnd : Rnd) (x : Int) (v : Val) (r : Nat) : Bool :=
  match v with
  | .fin _ m e =>
    if m = 0 then false
    else match fmtElem code with
      | some p =>
        let mg : Mag := ⟨m, e - x, false⟩
        let q := fmtQuantum p mg
        aboveMax p (roundMag rnd q mg r).1 q
      | none => 127 < (roundMag rnd (-6) ⟨m, e - x, false⟩ r).1
  | _ => false

/-- The largest finite magnitude among values. -/
def maxMag (vs : List Val) : Dy :=
  vs.foldl (fun a v => match v with
    | .fin _ m e => if ltDy a ⟨m, e⟩ then ⟨m, e⟩ else a
    | _ => a) ⟨0, 0⟩

/-- The computed scale byte of a block (R54); values with their rounding words. -/
def mxScale (code : Nat) (rnd : Rnd) (vs : List (Val × Nat)) : Nat :=
  if (code ≥ 10) && vs.any (fun v => !v.1.isFin) then 0xFF
  else
    let a := maxMag (vs.map (·.1))
    if a.m = 0 then 0
    else
      let x := (Nat.log2 a.m.natAbs : Int) + a.e - fmtEmax code
      let top := vs.filter fun v => match v.1 with
        | .fin _ m e => !ltDy ⟨m, e⟩ a
        | _ => false
      let x := if top.any (fun v => mxClips code rnd x v.1 v.2) then x + 1 else x
      (min (max x (-127)) 127 + 127).toNat

/-- Convert one element of a block under its scale byte, not 0xFF (R47, R51). -/
def mxElem (code : Nat) (rnd : Rnd) (ofm : Bool) (scale : Nat) (v : Val) (r : Nat) : Nat × Flags :=
  let w := scaleVal (127 - (scale : Int)) v
  match fmtElem code with
  | some p => convF p rnd ofm r w
  | none => match w with
    | .fin neg m e => roundI8 rnd (-6) r neg ⟨m, e, false⟩
    | _ => (0, 0)

/-- Convert the values of one block with a computed scale or a supplied one (R52, R54, R55). The QN and NV of consuming
inputs are raised by the caller, except the QN of a supplied scale 0xFF. -/
def mxConvert (c : Cvt) (supplied : Option Nat) (vs : List (Val × Nat)) : MxBlock :=
  let nf := vs.any fun v => !v.1.isFin
  let sc := match supplied with
    | some x => if (c.fmt ≥ 10) && nf then 0xFF else x
    | none => mxScale c.fmt c.rnd vs
  let bad0 := vs.map fun v => !v.1.isFin
  if sc = 0xFF then
    ⟨0xFF, vs.map fun _ => 0, flIf (supplied = some 0xFF) flQN, bad0⟩
  else
    let xs := vs.map fun v => mxElem c.fmt c.rnd c.ofm sc v.1 v.2
    ⟨sc, xs.map (·.1), flAll (xs.map (·.2)),
      List.zipWith (fun b x => b || codeNonFinite c.fmt x.1) bad0 xs⟩

/-! ## Non-finite summary (R59) -/

/-- Count of non-finite blocks and first non-finite index, from (block, index) pairs of elements that meet the first or
second condition and from blocks of scale 0xFF with their lowest index. -/
def nfSummary (elems : List (Nat × Nat)) (ff : List (Nat × Nat)) : Nat × Option Nat :=
  let blocks := (elems.map (·.1) ++ ff.map (·.1)).eraseDups
  let lone := ff.filter fun b => !elems.any (fun e => e.1 = b.1)
  let idx := elems.map (·.2) ++ lone.map (·.2)
  (blocks.length, idx.foldl (fun a i => match a with | none => some i | some j => some (min i j)) none)

/-! ## Packing (R39) -/

/-- Bit offset of element i of a packed run of elements of `w` bits. -/
def packBit (w i : Nat) : Nat := i * w

/-- The byte writes of one element of `w` bits at bit position `bit` of a run that starts at byte `base`: (address,
value, mask). -/
def elemWrites (base bit w x : Nat) : List (Nat × Byte × Byte) :=
  let lo := bit / 8
  let hi := (bit + w - 1) / 8
  let sh := bit % 8
  (List.range (hi - lo + 1)).map fun k =>
    (base + lo + k, BitVec.ofNat 8 ((x % 2 ^ w) <<< sh >>> (8 * k)), BitVec.ofNat 8 ((2 ^ w - 1) <<< sh >>> (8 * k)))

/-- Read one element of `w` bits at bit position `bit` through a byte reader. -/
def elemRead (rd : Nat → Byte) (base bit w : Nat) : Nat :=
  let lo := bit / 8
  let hi := (bit + w - 1) / 8
  let x := leNat ((List.range (hi - lo + 1)).map fun k => rd (base + lo + k))
  (x >>> (bit % 8)) % 2 ^ w

end Sys2Proof.Machine
end

