-- ==== Sys2Proof/Config.lean ====
section
/-! DEFINITION. What the manual leaves open (free values: opaque constants with no body, so nothing can be proved
about their values) and the fixed factory values of the fuses (R394). -/

namespace Sys2Proof.Config

/-- FREE VALUE. A byte the manual does not specify: read through an exceeded local-store port (R68), kept or
written by an exceeded write port (R68), or left by two writes to one byte (R129). Applied to `State.fresh`. -/
opaque freeByte : Nat → Byte
/-- FREE VALUE. 32 bytes of a fresh debug-challenge nonce (R429: "a fresh 32-byte random nonce"). -/
opaque freshNonce : Nat → BitVec 256
/-- FREE VALUE. The private scalar of the device identity key, made inside MD at manufacture (R420). -/
opaque dikScalar : Nat
/-- FREE VALUE. The HMAC key derived from the physically unclonable function (R420). -/
opaque pufHmacKey : List Byte
/-- FREE VALUE. The Dreique root key's public point, 97 bytes; the boot ROM holds its SHA-384 (R413). -/
opaque drkPoint : List Byte
/-- FREE VALUE. The package's MCTP and PLDM answers that the DMTF specifications fix and the manual only names (R412).
Applied to the message and to the telemetry record in force. -/
opaque mctpAnswer : List Byte → List Byte → List Byte
/-- FREE VALUE. What the test port shifts out for an instruction the manual only names: IDCODE, boundary cells,
trace (Table 18.5). Applied to the instruction and to `State.fresh`. -/
opaque testPortOut : Nat → Nat → W64

/-- FREE VALUE. The snoop-filter set of a line number within its slice (R252 gives the number of sets, not the index). -/
opaque sfSet : Nat → Nat
/-- FREE VALUE. The L3 set of a line number within its slice (Table 10.2 gives size and ways, not the index), and which of the
16 lines of a full set is evicted (no policy is named). -/
opaque l3Set : Nat → Nat
opaque l3Victim : Nat → Nat
/-- FREE VALUE. Which of its lines a core evicts when its 2 MiB L2 is full (R25 names no ways and no policy). -/
opaque l2Victim : Nat → Nat
/-- FREE VALUE. The HMC set of a line number (R266 gives the ways and the size, not the index). -/
opaque hmcSet : Nat → Nat
/-- FREE VALUE. Which of the lines of a full HMC set is evicted (R266 names no policy). -/
opaque hmcVictim : Nat → Nat

/-- FREE VALUE. What the flits carry whose layout the manual does not give: message type and payload of the identity exchange
(R314: pod, rank, port, serial number) and of SET_DIGEST (R220: sender's pod and rank, digest), and type, TAG and payload of a
measurement flit (R315: departure, and the far end's arrival and departure times once it is returned). -/
opaque identType : BitVec 16
opaque identPayload : Nat → Nat → Nat → BitVec 128 → List Byte
opaque digestType : BitVec 16
opaque digestPayload : Nat → Nat → BitVec 384 → List Byte
opaque measureKind : BitVec 4 × W32
opaque measurePayload : Nat → Option (Nat × Nat) → List Byte

/-- FREE VALUE. Where Rolmir reserves the image area, and the bytes of its share for one image (R217). -/
opaque imageArea : Nat
/-- FREE VALUE. The image area's share of one image, in bytes (R217). -/
opaque imageShare : Nat
/-- FREE VALUE. TCLK that the placement of a number of instruction words takes (R209 bounds it by SEGBASE only). -/
opaque placementTime : Nat → Nat
/-- FREE VALUE. Where Rolmir reserves the orphan log (R300). -/
opaque orphanArea : Nat

/-- FREE VALUE. The digest of another member's manifest in the set record (R371): no message the manual describes brings
it to the coordinator. Applied to step and member. -/
opaque memberManifest : Nat → Nat → BitVec 384

/-- FREE VALUE. What the header of a firmware bundle says: MAGIC, VERSION, SVN, SIGNED_LEN, and offset, length and digest
of each of three stages. R416 names these fields and gives no offsets. Applied to the 256 header bytes. -/
opaque fwHeader : List Byte → Nat × Nat × Nat × Nat × List (Nat × Nat × BitVec 384)
/-- FREE VALUE. Policy bits (REQSIG, COSIGN, DBGDRK) and signature block in a CLAIM request, from the bytes that follow
OWK_POINT (R424 names them and gives no offsets). -/
opaque claimRest : List Byte → BitVec 3 × List Byte
/-- FREE VALUE. The remote reset counter in the record that CLAIM writes (R424 gives it no first value). -/
opaque claimRcnt : Nat → BitVec 32
/-- FREE VALUE. The code with which POWER_DOWN ends the running command failed (R412, R164 name none). -/
opaque powerDownErr : Nat → Nat
/-- FREE VALUE. TCLK that pass until a bring-up step ends: Table 16.7 gives only the latest time. Applied to the step and to
`State.fresh`. -/
opaque bringTime : Nat → Nat → Nat
/-- FREE VALUE. Which RDMA WRITE of a port has no acknowledgement when its timeout passes (R458), applied to the count of free
values used. -/
opaque rdmaUnacked : Nat → Nat

end Sys2Proof.Config
end

