-- ==== Sys2Proof/Machine/Codes.lean ====
section
/-! DEFINITION. Error-record codes (Tables 19.2 to 19.5) and command-result codes (Tables 12.6, 15.10, 9.4). -/

namespace Sys2Proof.Machine

-- SCH (Table 19.4)
def eHedgeDesc : Nat := 0x3001
def eHedgeBusy : Nat := 0x3002
def eHedgeBank : Nat := 0x3003
def eHedgeDrain : Nat := 0x3004
def eVergeDesc : Nat := 0x3008
def eVergeBusy : Nat := 0x3009
def eVergeRaw : Nat := 0x300A
def eVergeWaw : Nat := 0x300B
def eVergeWar : Nat := 0x300C
def eLsPort : Nat := 0x3010
def eSeqEnc : Nat := 0x3011
def eSeqRaw : Nat := 0x3012
def eSeqWaw : Nat := 0x3013
def eSeqLate : Nat := 0x3014
def eSeqPc : Nat := 0x3015
def eSeqPhase : Nat := 0x3016
def eImemPending : Nat := 0x3017
def eMoverDesc : Nat := 0x3018
def eMoverBusy : Nat := 0x3019
def eMoverSysbuf : Nat := 0x301A
def eMoverLate : Nat := 0x301B
def eTreeSync : Nat := 0x301C
def eTreeBusy : Nat := 0x301D
def eLaybyOverflow : Nat := 0x3020
def eLaybyUnderflow : Nat := 0x3021
def eLaybySpan : Nat := 0x3022
def eLaybyMix : Nat := 0x3023
def eFrameWindow : Nat := 0x3028
def eFrameSlot : Nat := 0x3029
def eFrameShare : Nat := 0x302A
def eNruRange : Nat := 0x302B
def eRegionPlane : Nat := 0x302C
def eHbmSpan : Nat := 0x302D
def eSysAdmit : Nat := 0x302E
def eNruSlot : Nat := 0x302F
def eXchEarly : Nat := 0x3030
def eXchWindow : Nat := 0x3031
def eXchCredit : Nat := 0x3032
def eXchEngine : Nat := 0x3033
def eXchConsume : Nat := 0x3034
def eCollDesc : Nat := 0x3035
def eCollScale : Nat := 0x3036
-- COR (Table 19.2)
def eLsCe : Nat := 0x1001
def eL3Ce : Nat := 0x1002
def eNruCe : Nat := 0x1003
def eHbmCe : Nat := 0x1004
def eHbmOdecc : Nat := 0x1005
def eLpCe : Nat := 0x1006
def eLpLink : Nat := 0x1007
def eSeqImemCe : Nat := 0x1008
def eSfCe : Nat := 0x1009
def eFuseVote : Nat := 0x100A
def eTimeSkew : Nat := 0x1010
def eTimeBeaconLost : Nat := 0x1011
def eTpFecCe : Nat := 0x1012
def eTpRetry : Nat := 0x1013
def eModWear : Nat := 0x1014
def eModAlarm : Nat := 0x1015
def eModRemoved : Nat := 0x1016
def eModInserted : Nat := 0x1017
def ePwrStretch : Nat := 0x1020
def eThermWarn : Nat := 0x1021
def eThermHigh : Nat := 0x1022
def ePeerHostLost : Nat := 0x1030
def eSecUnlock : Nat := 0x1031
-- DET (Table 19.3)
def eHedgeResidue : Nat := 0x2001
def eTreeResidue : Nat := 0x2002
def eNruResidue : Nat := 0x2003
def eVergeResidue : Nat := 0x2004
def eVergeParity : Nat := 0x2005
def eSeqResidue : Nat := 0x2006
def eSeqImemUe : Nat := 0x2007
def eCollCheck : Nat := 0x2008
def eLsUe : Nat := 0x2010
def eL3Ue : Nat := 0x2011
def eNruUe : Nat := 0x2012
def eHbmUe : Nat := 0x2013
def eLpUe : Nat := 0x2014
def eRegionAccess : Nat := 0x2018
def eRegionDirty : Nat := 0x2019
def eTpLinkDown : Nat := 0x2020
def eTpLaneFail : Nat := 0x2021
def eTpMiswire : Nat := 0x2022
def eTpHopLong : Nat := 0x2023
def eHopMismatch : Nat := 0x2024
def eModApp : Nat := 0x2025
def eModCmis : Nat := 0x2026
def eImageSet : Nat := 0x2028
def eCommitForeign : Nat := 0x2029
def eRingStale : Nat := 0x202A
def eMsPoison : Nat := 0x2030
def eMsStreamFail : Nat := 0x2031
def eCfgBankBad : Nat := 0x2038
def eCfgFallback : Nat := 0x2039
def eSecFwBad : Nat := 0x2040
def eSecRecord : Nat := 0x2041
def eSecToken : Nat := 0x2042
-- FAT (Table 19.5)
def eCohTimeout : Nat := 0x4001
def eSfUe : Nat := 0x4002
def eClkRefLost : Nat := 0x4003
def eWdtExpiry : Nat := 0x4004
def ePwrUv : Nat := 0x4005
def ePwrOv : Nat := 0x4006
def eThermTrip : Nat := 0x4007
def eSecBoot : Nat := 0x4008
def eSecPuf : Nat := 0x4009
-- command results (Tables 12.6 and 15.10)
def rDescMalformed : Nat := 0x001
def rDescOpcode : Nat := 0x002
def rDescRing : Nat := 0x003
def rTagInUse : Nat := 0x004
def rAddrRefused : Nat := 0x005
def rStaleDescriptor : Nat := 0x006
def rDescWaymark : Nat := 0x007
def rDoorbellRange : Nat := 0x008
def rRingAddr : Nat := 0x009
def rImageMalformed : Nat := 0x010
def rImageSignature : Nat := 0x011
def rImageShape : Nat := 0x012
def rLaybyGrant : Nat := 0x013
def rImageTooLarge : Nat := 0x014
def rImageSegment : Nat := 0x015
def rImagePlaceLate : Nat := 0x016
def rLaybyQuota : Nat := 0x017
def rRunLate : Nat := 0x018
def rRunGrid : Nat := 0x019
def rHostLost : Nat := 0x020
def rParked : Nat := 0x021
def rStepOrder : Nat := 0x030
def rStepAborted : Nat := 0x031
def rCommitTimeout : Nat := 0x032
def rResolveIncomplete : Nat := 0x033
def rReplayLimit : Nat := 0x034
def rMsList : Nat := 0x035
def rRestoring : Nat := 0x036
def rRestoreManifest : Nat := 0x037
def rRestoreShape : Nat := 0x038
def rRestoreImage : Nat := 0x039
def rRestoreRegion : Nat := 0x03A
def rRestoreRetired : Nat := 0x03B
def rRestoreHash : Nat := 0x03C
def rRestoreIncomplete : Nat := 0x03D
def rRestoreSignature : Nat := 0x03E

/-- The class of a code (R433). -/
def codeClass (c : Nat) : Nat := c / 0x1000 % 16

/-- A SRC value (R436): kind and instance. -/
def srcOf (kind inst : Nat) : Nat := kind * 0x1000 + inst

/-- The SRC kinds a record code uses (R436, R446): the single kind of Table 19.4 for an SCH code, else the kinds its
rule names. -/
def srcKinds (c : Nat) : List Nat :=
  if c = eNruRange ∨ c = eNruSlot then [3]
  else if c = eXchWindow ∨ c = eXchCredit ∨ c = eCollScale then [9]
  else if codeClass c = 3 then [1]
  else if c = eLsCe ∨ c = eLsUe ∨ c = eSeqImemCe ∨ c = eSeqImemUe ∨ c = eHedgeResidue ∨ c = eVergeResidue ∨
    c = eVergeParity ∨ c = eSeqResidue then [1]
  else if c = eL3Ce ∨ c = eL3Ue ∨ c = eSfCe ∨ c = eSfUe then [5]
  else if c = eNruCe ∨ c = eNruUe ∨ c = eNruResidue then [3]
  else if c = eHbmCe ∨ c = eHbmOdecc ∨ c = eHbmUe then [7]
  else if c = eLpCe ∨ c = eLpLink ∨ c = eLpUe then [8]
  else if c = eTreeResidue then [2]
  else if c = eTpFecCe ∨ c = eTpRetry ∨ c = eCollCheck ∨ (eTpLinkDown ≤ c ∧ c ≤ eHopMismatch) then [9]
  else if (eModWear ≤ c ∧ c ≤ eModInserted) ∨ c = eModApp ∨ c = eModCmis then [10]
  else if c = eRingStale then [12]
  else if c = eMsPoison ∨ c = eMsStreamFail then [11]
  else if c = eFuseVote ∨ c = eCfgBankBad ∨ c = eCfgFallback ∨ c = eSecUnlock ∨ c = eSecFwBad ∨ c = eSecRecord ∨
    c = eSecToken ∨ c = eSecBoot ∨ c = eSecPuf ∨ c = eWdtExpiry then [13]
  else if c = eCohTimeout then [5, 6]
  else if c = eRegionAccess then [2, 3, 4, 6, 11, 13, 14]
  else [0]

/-- The code has an injection point: every code of Tables 19.2 to 19.5 has one (R434). -/
def codeKnown (c : Nat) : Bool :=
  (0x1001 ≤ c && c ≤ 0x100A) || (0x1010 ≤ c && c ≤ 0x1017) || (0x1020 ≤ c && c ≤ 0x1022) || c = 0x1030 || c = 0x1031 ||
  (0x2001 ≤ c && c ≤ 0x2008) || (0x2010 ≤ c && c ≤ 0x2014) || c = 0x2018 || c = 0x2019 ||
  (0x2020 ≤ c && c ≤ 0x2026) || (0x2028 ≤ c && c ≤ 0x202A) || c = 0x2030 || c = 0x2031 || c = 0x2038 || c = 0x2039 ||
  (0x2040 ≤ c && c ≤ 0x2042) ||
  (0x3001 ≤ c && c ≤ 0x3004) || (0x3008 ≤ c && c ≤ 0x300C) || (0x3010 ≤ c && c ≤ 0x301D) ||
  (0x3020 ≤ c && c ≤ 0x3023) || (0x3028 ≤ c && c ≤ 0x3036) || (0x4001 ≤ c && c ≤ 0x4009)

/-- Injection groups (Tables 19.2 to 19.5, 19.10). -/
inductive InjGroup where
  | mem | link | res | sch | evt
  deriving DecidableEq, Repr

/-- The injection group of a code. -/
def injGroup (c : Nat) : InjGroup :=
  if codeClass c = 3 then .sch
  else if c = eHbmOdecc ∨ c = eLpLink ∨ c = eTpFecCe ∨ c = eTpRetry ∨ (eTpLinkDown ≤ c ∧ c ≤ eTpHopLong) then .link
  else if (eHedgeResidue ≤ c ∧ c ≤ eSeqResidue) ∨ c = eCollCheck then .res
  else if c = eSeqImemUe ∨ (eLsCe ≤ c ∧ c ≤ eSfCe) ∨ (eLsUe ≤ c ∧ c ≤ eLpUe) then .mem
  else .evt

end Sys2Proof.Machine
end

