-- ==== Sys2Proof/Machine/Ops.lean ====
section
/-! DEFINITION. The named operations that the meanings share: registers, byte memory with writes under way, local-store
ports, the agenda, error records, injection, schedule faults and step abort, Waymarks and the start of commands. -/

namespace Sys2Proof.Machine

/-! ## Registers, output, agenda -/

/-- The stored 32-bit word at a BAR0 offset (R452). -/
def reg32 (s : State) (off : Nat) : W32 := smapGet 0 s.regs (off / 4)
/-- The stored 64 bits at a BAR0 offset. -/
def reg64 (s : State) (off : Nat) : Nat := (reg32 s off).toNat + 2 ^ 32 * (reg32 s (off + 4)).toNat
/-- Store a 32-bit word. -/
def setReg32 (off : Nat) (v : W32) (s : State) : State := { s with regs := smapSet 0 (off / 4) v s.regs }
/-- Store 64 bits. -/
def setReg64 (off v : Nat) (s : State) : State :=
  setReg32 (off + 4) (BitVec.ofNat 32 (v >>> 32)) (setReg32 off (BitVec.ofNat 32 v) s)

/-- Send a message out of the block. -/
def emit (o : Out) (s : State) : State := { s with out := s.out ++ [o] }
/-- Form a message to other packages. -/
def post (m : OutMsg) (s : State) : State := { s with outbox := s.outbox ++ [m] }
/-- Schedule a later step on cycle `c`. -/
def sched (c : Nat) (i : Instr) (s : State) : State := { s with agenda := s.agenda ++ [(c, i)] }
/-- Schedule a step of the present cycle, after this one. -/
def schedNow (i : Instr) (s : State) : State := sched s.cyc i s

/-- This package's rank, pod, POD_Z and PODS (CFG.POS, Table 16.9). -/
def myRank (s : State) : Nat := bitsOf (reg32 s 0x3008).toNat 5 0
def myPod (s : State) : Nat := bitsOf (reg32 s 0x3008).toNat 25 20
def myPodZ (s : State) : Nat := bitsOf (reg32 s 0x3008).toNat 13 12 + 1
def myPods (s : State) : Nat := bitsOf (reg32 s 0x3008).toNat 19 14 + 1

/-- The wall of a free value: a different argument for each use, so that nothing relates two of them. -/
def freeKey (s : State) (c a : Nat) : Nat := (s.fresh * 2 ^ 64 + c) * 2 ^ 52 + a
/-- Advance the counter of free values. -/
def useFree (s : State) : State := { s with fresh := s.fresh + 1 }

/-! ## Byte memory and writes under way -/

/-- First byte of a tile's local store (Table 10.1). -/
def lsBase (t : Tile) : Nat := 0x20000000000 + t.val * 0x2000000
/-- Bytes of a local store: 20 MiB. -/
def lsSize : Nat := 0x1400000

/-- A write under way applied to a byte. -/
def pwByte (old : Byte) (w : PendWrite) : Byte := (old &&& ~~~w.mask) ||| (w.val &&& w.mask)
/-- Insert by cycle of visibility, later arrivals after earlier ones. -/
def pwInsert (w : PendWrite) : List PendWrite → List PendWrite
  | [] => [w]
  | x :: r => if w.vis < x.vis then w :: x :: r else x :: pwInsert w r
/-- Sort by cycle of visibility, stable. -/
def pwSort (l : List PendWrite) : List PendWrite := l.foldl (fun acc w => pwInsert w acc) []

/-- One byte as a read on cycle `c` sees it: memory and the writes visible by then (R129, R153, R165, R199). -/
def byteAt (s : State) (c a : Nat) : Byte :=
  (pwSort (s.pl.pw.filter fun w => w.addr = a && w.vis ≤ c)).foldl pwByte (memGet s.mem a)
/-- `n` bytes as a read on cycle `c` sees them. -/
def bytesAt (s : State) (c a n : Nat) : List Byte := (List.range n).map fun i => byteAt s c (a + i)

/-- Put writes under way. -/
def addWrites (ws : List PendWrite) (s : State) : State := { s with pl := { s.pl with pw := s.pl.pw ++ ws } }

/-- First frame position of a transfer issued on cycle s, counted from tile cycle 0 (R235). -/
def framePos (c : Nat) : Nat := (c + 64 + c % 2) / 2
/-- A read of HBM that has not reached a byte's frame position sees what a system-plane write lands there (R234). -/
def readSees (c a : Nat) (bs : List Byte) (x : HbmRead) : HbmRead :=
  let p := framePos x.start
  if a + bs.length ≤ x.addr ∨ x.addr + x.bytes.length ≤ a then x
  else { x with bytes := tabulate x.bytes.length fun k =>
    if a ≤ x.addr + k ∧ x.addr + k < a + bs.length ∧ c < 2 * (p + k / 512) then bs.getD (x.addr + k - a) 0 else x.bytes.getD k 0 }
/-- Write bytes to memory at once, as a system-plane write lands: it stands over tensor writes to HBM that landed
before it, and tensor reads on later positions return it (R234). -/
def landBytes (a : Nat) (bs : List Byte) (s : State) : State :=
  let old := fun (w : PendWrite) => w.port = 0 && a ≤ w.addr && w.addr < a + bs.length && w.wcyc ≤ s.cyc
  { s with mem := memWrite s.mem a bs, pl := { s.pl with pw := s.pl.pw.filter fun w => !old w,
                                                         hreads := s.pl.hreads.map (readSees s.cyc a bs) } }

/-! ## Local-store ports (R68) -/

/-- Rate of a local-store port in bytes per TCLK (R68). -/
def portRate : LsPort → Nat
  | .mainRead => 1024
  | .mainWrite => 512
  | .scaleRead => 32
  | .scaleWrite => 16
/-- The demand on a port of a tile on a cycle. -/
def portLoad (s : State) (t : Tile) (p : LsPort) (c : Nat) : Nat :=
  (s.pl.ports.filter fun u => u.tile = t && u.port = p && u.lo ≤ c && c < u.hi).foldl (fun a u => a + u.bytes) 0
/-- The port is exceeded on a cycle. -/
def portOver (s : State) (t : Tile) (p : LsPort) (c : Nat) : Bool := portRate p < portLoad s t p c
/-- Enter a demand. -/
def usePort (t : Tile) (p : LsPort) (lo n bytes : Nat) (s : State) : State :=
  if n = 0 ∨ bytes = 0 then s
  else { s with pl := { s.pl with ports := s.pl.ports ++ [⟨t, p, lo, lo + n, bytes⟩] } }

/-- One byte as a read on cycle `c`, past or present, saw it: what it held before the first write kept that became visible
later (R165). -/
def seenByte (s : State) (c a : Nat) : Byte :=
  match s.pl.hist.find? fun h => h.addr = a && c < h.vis with
  | some h => h.old
  | none => byteAt s c a
/-- One local-store byte read through a port on cycle `c`: unspecified when the port is exceeded (R68). -/
def lsByte (s : State) (t : Tile) (p : LsPort) (c o : Nat) : Byte :=
  if portOver s t p c then Config.freeByte (freeKey s c (lsBase t + o)) else seenByte s c (lsBase t + o)
/-- `n` local-store bytes read on cycle `c`. -/
def lsBytes (s : State) (t : Tile) (p : LsPort) (c o n : Nat) : List Byte :=
  (List.range n).map fun i => lsByte s t p c (o + i)

/-- Byte writes to a local store on cycle `c`, visible from `c + 1` (R129, R153). -/
def lsWrites (t : Tile) (main : Bool) (who c : Nat) (ws : List (Nat × Byte × Byte)) : List PendWrite :=
  ws.map fun w => ⟨c, c + 1, lsBase t + w.1, w.2.1, w.2.2, who, if main then 1 else 2⟩
/-- Whole bytes from offset `o` on. -/
def wholeBytes (o : Nat) (bs : List Byte) : List (Nat × Byte × Byte) :=
  (List.range bs.length).map fun i => (o + i, bs.getD i 0, 0xFF)

/-! ## Error records (R433-R443) -/

/-- The first SCLK edge after cycle `c`: one SCLK is 4 TCLK (Table 0.3). -/
def sclkAfter (c : Nat) : Nat := (c / 4 + 1) * 4

/-- A record as its detector hands it to the log writer. -/
def detect (s : State) (code src c addr i0 i1 : Nat) (inj pod : Bool) : Detect :=
  { code := BitVec.ofNat 16 code, src := BitVec.ofNat 16 src, tcyc := BitVec.ofNat 64 c, addr := BitVec.ofNat 64 addr,
    info0 := BitVec.ofNat 64 i0, info1 := BitVec.ofNat 64 i1, step := s.cm.step.setWidth 64, inj := inj, pod := pod }

/-- Log a record detected on cycle `c`: the log writer acts on the SCLK edge after detection (R438). -/
def report (code src c addr i0 i1 : Nat) (inj pod : Bool) (s : State) : State :=
  sched (sclkAfter c) (.errorRecordLog (detect s code src c addr i0 i1 inj pod)) s

/-- A record without further items, detected now. -/
def reportNow (code src : Nat) (s : State) : State := report code src s.cyc 0 0 0 false false s

/-! ## One SCLK edge (R9) -/

/-- The SCLK edge of the present cycle: four TCLK to one SCLK (Table 0.3). -/
def sclkEdge (s : State) : Nat := s.cyc / 4
/-- Note bits that one side has set on the present edge. -/
def edgeNote (sw : Bool) (off : Nat) (bits : W32) (s : State) : State :=
  { s with ck := { s.ck with edges := (s.ck.edges.filter fun e => e.edge = sclkEdge s) ++ [⟨sclkEdge s, off, bits, sw⟩] } }
/-- The bits of a register that one side has set on the present edge. -/
def edgeBits (s : State) (sw : Bool) (off : Nat) : W32 :=
  (s.ck.edges.filter fun e => e.edge = sclkEdge s && e.off = off && e.sw = sw).foldl (fun v e => v ||| e.bits) 0
/-- What a software write of `v` clears of a W1C register: a bit that hardware sets on the same edge ends set. -/
def w1cBits (s : State) (off : Nat) (v : W32) : W32 := v &&& ~~~edgeBits s false off
/-- What hardware clears of the W1S bits `v`: a bit that software sets on the same edge ends set. -/
def w1sBits (s : State) (off : Nat) (v : W32) : W32 := v &&& ~~~edgeBits s true off

/-- RST.CAUSE with a bit set by hardware (Table 16.3). -/
def withCause (bit : BitVec 9) (s : State) : State :=
  edgeNote false 0x2000 (bit.setWidth 32) { s with ck := { s.ck with cause := s.ck.cause ||| bit } }

/-- A block is held in reset (R392): a bit of RST.BLOCK. -/
def inBlockReset (s : State) (b : Nat) : Bool := s.ck.blockEnd.any fun x => x.1 = b
/-- A block enters reset for `n` TCLK, 64 of its own clock cycles; its bit clears on the next SCLK edge (R392). -/
def holdBlock (b n : Nat) (s : State) : State :=
  { s with ck := { s.ck with blockEnd := (s.ck.blockEnd.filter fun x => x.1 ≠ b) ++ [(b, (s.cyc + n) / 4 * 4 + 4)] } }

/-! ## Injection slots (R445, R446) -/

/-- Offsets of slot n (Table 20.1). -/
def injCtl (n : Nat) : Nat := 0x90100 + 0x10 * n
def injPar (n : Nat) : Nat := 0x90108 + 0x10 * n

/-- Slot n is armed for a detector and a source. -/
def injArmed (s : State) (code src n : Nat) : Bool :=
  let v := reg64 s (injCtl n)
  (bitsOf v 63 62 = 1 || bitsOf v 63 62 = 2) && bitsOf v 15 0 = code && bitsOf v 31 16 = src

/-- Slot n fires: FIRED is set, COUNT rises, a once-slot turns off unless software wrote its MODE on the same edge (R445). -/
def injFire (n : Nat) (s : State) : State :=
  let v := reg64 s (injCtl n)
  let mode := if bitsOf v 63 62 = 1 && (edgeBits s true (injCtl n + 4) &&& 0xC0000000#32) = 0 then 0 else bitsOf v 63 62
  let count := min 0xFFFF (bitsOf v 47 32 + 1)
  edgeNote false (injCtl n + 4) 0x20000000#32
    (setReg64 (injCtl n) (mode * 2 ^ 62 + 2 ^ 61 + bitsOf v 59 48 * 2 ^ 48 + count * 2 ^ 32 + v % 2 ^ 32) s)

/-- The qualifying event of a detector: every armed slot whose PARAM and POS meet `ok` fires; answers the POS and PARAM
of the first, or none. Two slots that fire on one event make one record (R446). -/
def injEvent (code src : Nat) (ok : Nat → Nat → Bool) (s : State) : Option (Nat × Nat) × State :=
  let hit := fun n => injArmed s code src n && ok (bitsOf (reg64 s (injCtl n)) 59 48) (reg64 s (injPar n))
  let ns := (List.range 8).filter hit
  match ns with
  | [] => (none, s)
  | n :: _ => (some (bitsOf (reg64 s (injCtl n)) 59 48, reg64 s (injPar n)), ns.foldl (fun s n => injFire n s) s)

/-- A qualifying event with several targets (group RES): every armed slot that names one of them fires; the PARAM fields
of the targets named, each once, since two slots on one target make one record (R446). -/
def injEvents (code src : Nat) (key : Nat → Nat) (ok : Nat → Bool) (s : State) : List Nat × State :=
  let ns := (List.range 8).filter fun n => injArmed s code src n && ok (reg64 s (injPar n))
  ((ns.map fun n => key (reg64 s (injPar n))).eraseDups, ns.foldl (fun s n => injFire n s) s)

/-- Whether an EVT slot fires on this evaluation of a detector, with its PARAM. -/
def injEvt (code src : Nat) (s : State) : Option Nat × State :=
  let (o, s) := injEvent code src (fun _ _ => true) s
  (o.map (·.2), s)

/-- A detector of group EVT at one evaluation: it fires when its condition holds or an armed slot fires (R445); answers
whether it fires and whether by injection. -/
def evtDetect (code src : Nat) (real : Bool) (s : State) : Bool × Bool × State :=
  match injEvt code src s with
  | (some _, s) => (true, true, s)
  | (none, s) => (real, false, s)

/-! ## Tokens -/

/-- SET_DIGEST of the active image; 0 when none is active (R354). -/
def setDigestOf (s : State) : Digest := match s.pl.active with | some i => i.setDigest | none => 0
/-- PHASE code (Table 15.2). -/
def phaseCode : Phase → Nat
  | .idle => 0 | .readySent => 1 | .proceeding => 2 | .updatedSent => 3 | .aborted => 4 | .restoring => 5
/-- The payload of a token this package sends (Table 15.5). -/
def myToken (s : State) (step : Nat) (code : Nat) : Token :=
  { step := BitVec.ofNat 64 step, cg := s.cm.cg, phase := BitVec.ofNat 8 (phaseCode s.cm.phase),
    code := BitVec.ofNat 16 code, spod := BitVec.ofNat 8 (myPod s), srank := BitVec.ofNat 8 (myRank s),
    digest := setDigestOf s }
/-- The step in flight (R355). -/
def stepInFlight (s : State) : Nat := s.cm.step.toNat + 1

/-! ## Schedule faults and step abort (R164, R362) -/

/-- Stop tile issue from cycle `c` + 16 (R164): the ISSUE_STOP step follows on that cycle. -/
def stopIssue (c : Nat) (s : State) : State :=
  match s.pl.stopAt with
  | some x =>
    if x ≤ c + 16 then s
    else sched (c + 16) .issueStop { s with pl := { s.pl with stopAt := some (c + 16) } }
  | none => sched (c + 16) .issueStop { s with pl := { s.pl with stopAt := some (c + 16) } }

/-- The running RUN will end failed with `code`, unless an earlier fault named its code. -/
def failRun (code : Nat) (s : State) : State :=
  if s.pl.segErr = 0 then { s with pl := { s.pl with segErr := BitVec.ofNat 16 code } } else s

/-- Abort the step in flight on cycle `c` (R362). `received`: an ABORT or FAULT arrived, so none is sent; a second one
for the same step changes nothing. -/
def stepAbort (code : Nat) (received : Bool) (c : Nat) (s : State) : State :=
  if s.cm.abortCode ≠ 0 then (if received then s else stopIssue c (failRun code s))
  else
    let s := stopIssue c (failRun (if received then rStepAborted else code) s)
    let s := { s with cm := { s.cm with phase := .aborted, abortCode := BitVec.ofNat 16 code, readyFrom := [],
                                        updatedFrom := [] } }
    if received then s else post (.token 0x0105 none (myToken s (stepInFlight s) code)) s

/-- The package leaves the step barrier: the wait counts for the step in flight (R182). -/
def leaveBarrier (s : State) : State :=
  match s.cm.barrier with
  | none => s
  | some b =>
    let n := stepInFlight s
    let before := if s.cm.bstep = n then s.cm.bwait else 0
    { s with cm := { s.cm with barrier := none, bwait := before + (s.cyc - b), bstep := n } }
/-- The package is at the step barrier, from its first arrival on. -/
def reachBarrier (s : State) : State :=
  { s with cm := { s.cm with barrier := some (s.cm.barrier.getD s.cyc) } }

/-- A segment runs, or has been stopped and has not ended (R362: "during a RUN"). -/
def running (s : State) : Bool := s.pl.cur.isSome

/-- A fault detected now leads to ABORT: a segment runs and its step has not been aborted yet (R362, R443). -/
def announces (s : State) : Bool := running s && s.cm.abortCode = 0

/-- Raise a schedule fault on cycle `c` (R164, R362): one SCH record, issue stops at c + 16, the step aborts. -/
def schedFault (code src c addr i0 i1 : Nat) (inj : Bool) (s : State) : State :=
  let s := report code src c addr i0 i1 inj (announces s) s
  let s := stopIssue c (failRun code s)
  if running s then stepAbort code false c s else s

/-- On the cycle of a failed check whose DET record a rule sends to step abort: the record goes to the log and the step in
flight aborts (R89, R362, R438). -/
def abortOn (d : Detect) (s : State) : State :=
  let d := { d with late := false, pod := announces s, step := s.cm.step.setWidth 64 }
  let s := sched (sclkAfter d.tcyc.toNat) (.errorRecordLog d) s
  if running s then stepAbort d.code.toNat false d.tcyc.toNat s else s

/-- A DET record that a rule sends to step abort, for a check that fails on cycle `c` (R89, R362). -/
def detAbort (code src c addr i0 i1 : Nat) (inj : Bool) (s : State) : State :=
  let d := detect s code src c addr i0 i1 inj false
  if s.cyc < c then sched c (.errorRecordLog { d with late := true }) s else abortOn d s

/-- The residue and parity detectors of one event: each target that an armed slot names logs a DET record, INFO0 naming
it, on the cycle `at_` of that target, and the step aborts (R89, R437, R445). -/
def injAborts (code src : Nat) (key : Nat → Nat) (ok : Nat → Bool) (at_ : Nat → Nat) (s : State) : State :=
  let (ks, s) := injEvents code src key ok s
  ks.foldl (fun s k => detAbort code src (at_ k) 0 k 0 true s) s

/-- A FAT record whose rule applies no reset (R274, R444): FAULT is broadcast to the set, issue stops when the tensor
dies run, and every later RUN and MILESTONE fails with the code. -/
def fatal (code src addr i0 : Nat) (inj : Bool) (s : State) : State :=
  let s := report code src s.cyc addr i0 0 inj true s
  let s := post (.token 0x0109 none (myToken s (stepInFlight s) code)) s
  let s := if s.pl.fatCode = 0 then { s with pl := { s.pl with fatCode := BitVec.ofNat 16 code } } else s
  if running s then stopIssue s.cyc (failRun code s) else s

/-! ## Waymarks and the life of a command (R285-R292, R297-R299) -/

/-- The accepted command of a tag. -/
def findCmd (s : State) (tag : BitVec 16) : Option Cmd := s.hf.cmds.find? fun c => c.desc.tag = tag
/-- Take a command off the list of those that are not final. -/
def dropCmd (d : Desc) (s : State) : State :=
  { s with hf := { s.hf with cmds := s.hf.cmds.filter fun c => c.desc.tag ≠ d.tag } }
/-- SEQ of the next Waymark of a command (R289). -/
def nextSeq (s : State) (d : Desc) : BitVec 16 := match findCmd s d.tag with | some c => c.seq + 1 | none => 1

/-- Schedule-class opcodes (Table 12.4). -/
def schedClass (opc : Byte) : Bool := opc = 1 || opc = 2 || opc = 6 || opc = 7 || opc = 8

/-- The step that carries out a command, by its opcode and first argument (Tables 12.4, 12.8, 15.3, 15.9). -/
def rowOf (d : Desc) : Instr :=
  let a := d.a0.toNat % 256
  if d.opc = 0x01 then .run d
  else if d.opc = 0x02 then .loadImage d
  else if d.opc = 0x03 then .copyIn d
  else if d.opc = 0x04 then .copyOut d
  else if d.opc = 0x05 then .inlineWrite d
  else if d.opc = 0x06 then
    (if a = 1 then .milestoneReady d else if a = 2 then .milestoneCommit d else if a = 3 then .milestoneReplay d
     else .milestoneResolve d)
  else if d.opc = 0x07 then
    (if a = 1 then .restoreBegin d else if a = 2 then .restoreSegments d else .restoreFinish d)
  else if d.opc = 0x08 then .setScales d
  else if d.opc = 0x09 then .fence d
  else if d.opc = 0x0A then
    (if a = 0 then .queryIdentification d else if a = 1 then .queryOrphanLog d else if a = 2 then .queryRingStatus d
     else if a = 3 then .queryErrorRecords d else .queryTelemetry d)
  else .nopCommand d

/-- A command may start, given the earlier commands that are not final, each with whether it has started (R283, R286,
R287, Table 12.4). -/
def mayStart (before : List Cmd) (c : Cmd) : Bool :=
  let own := before.filter fun b => b.desc.ring = c.desc.ring
  let ord := bitOf c.desc.flags.toNat 0
  let fenced := own.any fun b => b.desc.opc = 9
  let inOrder := own.all (·.started)
  let fenceOk := c.desc.opc ≠ 9 || before.all fun b => !bitOf c.desc.a0.toNat b.desc.ring.val
  let schedOk := !schedClass c.desc.opc || own.all fun b =>
    !schedClass b.desc.opc || (c.desc.opc = 1 && b.desc.opc = 1)
  (!ord || own.isEmpty) && !fenced && inOrder && fenceOk && schedOk

/-- Mark every command that may start, and name those newly started (structural in the list still to look at). -/
def startAll (before : List Cmd) : List Cmd → List Cmd × List Desc
  | [] => ([], [])
  | c :: r =>
    let go := !c.started && mayStart before c
    let c' := if go then { c with started := true } else c
    let (cs, ds) := startAll (before ++ [c']) r
    (c' :: cs, if go then c.desc :: ds else ds)

/-- Write queued, running or partial Waymarks of a command with FLAGS[1] (R289). -/
def progMark (d : Desc) (st : BitVec 4) (vt : Nat) (s : State) : State :=
  if bitOf d.flags.toNat 1 && d.opc ≠ 0 then
    let w : WaymarkReq := { desc := d, seq := nextSeq s d, state := st, flags := 0, err := 0, vt := BitVec.ofNat 48 vt,
                            cyc := 0, nfb := 0, nfi := 0 }
    let bump := fun (c : Cmd) => if c.desc.tag = d.tag then { c with seq := c.seq + 1 } else c
    schedNow (.waymark w) { s with hf := { s.hf with cmds := s.hf.cmds.map bump } }
  else s

/-- Start every command that may start now; a command other than RUN writes its running Waymark (R289). -/
def startCmds (s : State) : State :=
  let (cs, ds) := startAll [] s.hf.cmds
  ds.foldl (fun s d => schedNow (rowOf d) (if d.opc = 1 then s else progMark d 2 0 s))
    { s with hf := { s.hf with cmds := cs } }

/-- The final Waymark of a command: done without an error code, else failed (Table 12.5). -/
def finalMark (d : Desc) (seq : BitVec 16) (err : Nat) (flags : BitVec 5) (vt cyc nfb nfi : Nat) : WaymarkReq :=
  { desc := d, seq := seq, state := if err = 0 then 4 else 5, flags := flags, err := BitVec.ofNat 16 err,
    vt := BitVec.ofNat 48 vt, cyc := BitVec.ofNat 64 cyc, nfb := BitVec.ofNat 32 nfb, nfi := BitVec.ofNat 32 nfi }

/-- The tensor plane parks: every schedule-class command that is not final ends failed with PARKED (R299). -/
def parkNow (s : State) : State :=
  let late := s.hf.cmds.filter fun c => schedClass c.desc.opc
  let s := late.foldl (fun s c =>
    schedNow (.waymark (finalMark c.desc (c.seq + 1) rParked 0 0 s.cyc 0 0)) (dropCmd c.desc s)) s
  { s with hf := { s.hf with parked := true, parkPending := false } }

/-- The park of R299 is due when a MILESTONE has become final, or when no schedule-class command is left. -/
def parkIfDue (milestone : Bool) (s : State) : State :=
  if s.hf.parkPending && (milestone || !(s.hf.cmds.any fun c => schedClass c.desc.opc)) then parkNow s else s

/-- A command becomes final on cycle `c`: its final Waymark is scheduled (none for NOP), and commands that waited for it
start. -/
def finishAt (c : Nat) (d : Desc) (err : Nat) (flags : BitVec 5) (vt nfb nfi : Nat) (s : State) : State :=
  let w := finalMark d (nextSeq s d) err flags vt c nfb nfi
  let s := if d.opc = 0 then s else schedNow (.waymark w) s
  startCmds (parkIfDue (d.opc = 6) (dropCmd d s))

/-- A command becomes final now. -/
def finishCmd (d : Desc) (err : Nat) (flags : BitVec 5) (vt nfb nfi : Nat) (s : State) : State :=
  finishAt s.cyc d err flags vt nfb nfi s

/-- A command ends done with no values of its own. -/
def doneCmd (d : Desc) (s : State) : State := finishCmd d 0 0 0 0 0 s
/-- A command ends failed. -/
def failCmd (d : Desc) (err : Nat) (s : State) : State := finishCmd d err 0 0 0 0 s

/-! ## Interrupt vectors (R442, R462) -/

/-- Raise an MSI-X vector while the link is up; a masked vector becomes pending (PCIe layout, R462). -/
def raiseVec (v : BitVec 5) (s : State) : State :=
  if !s.hf.linkUp then s
  else if bitOf (reg32 s (0xF0000C + 16 * v.toNat)).toNat 0 then
    { s with hf := { s.hf with msixPend := s.hf.msixPend ||| (1#32 <<< v.toNat) } }
  else emit (.msix v) s

/-! ## Regions (R227-R231) -/

/-- An entry of the region table (Table 10.3). -/
structure RgnEnt where
  v : Bool
  own : Nat
  ret : Bool
  base : Nat
  size : Nat
  deriving DecidableEq, Repr

/-- Read an entry of Table 10.3 from its 64 bits. -/
def rgnOf (x : Nat) : RgnEnt :=
  { v := bitOf x 63, own := bitsOf x 62 61, ret := bitOf x 60, base := bitsOf x 58 28 * 0x200000,
    size := bitsOf x 27 0 * 0x200000 }
/-- The active and the staged table. -/
def rgnActive (s : State) : List RgnEnt := tabulate 64 fun n => rgnOf (reg64 s (0x20000 + 8 * n))
def rgnStaged (s : State) : List RgnEnt := tabulate 64 fun n => rgnOf (reg64 s (0x20200 + 8 * n))
/-- The valid entry that holds an address. -/
def rgnAt (s : State) (a : Nat) : Option RgnEnt :=
  (rgnActive s).find? fun e => e.v && e.base ≤ a && a < e.base + e.size
/-- One valid, unretired entry of owner `own` holds every byte of [a, a + n). -/
def rgnHolds (s : State) (own a n : Nat) : Bool :=
  (rgnActive s).any fun e => e.v && !e.ret && e.own = own && e.base ≤ a && a + n ≤ e.base + e.size
/-- Every byte of [a, a + n) lies in valid, unretired entries whose owner is allowed (walks region by region). -/
def rgnCovers (s : State) (ok : RgnEnt → Bool) : Nat → Nat → Nat → Bool
  | 0, _, n => n = 0
  | fuel + 1, a, n =>
    if n = 0 then true
    else match rgnAt s a with
      | none => false
      | some e =>
        if e.ret || !ok e then false
        else let k := min n (e.base + e.size - a); rgnCovers s ok fuel (a + k) (n - k)

/-- HBM, LPDDR5X and host-memory bounds (Table 10.1). -/
def hbmEnd : Nat := 0x6C00000000
def lpBase : Nat := 0x8000000000
def lpEnd : Nat := 0x14000000000
def hostBase : Nat := 0x8000000000000
def hostEnd : Nat := 0x9000000000000
/-- The stack of an HBM address (R225). -/
def hbmStack (a : Nat) : Nat := a / 0x900000000
/-- The global channel of an HBM address (R225). -/
def hbmChan (a : Nat) : Nat := 16 * hbmStack a + a % 0x900000000 / 64 % 16
/-- The LPDDR5X stack of an address (R225). -/
def lpStack (a : Nat) : Nat := (a - lpBase) / 4096 % 12
/-- In a named range. -/
def inHbm (a : Nat) : Bool := a < hbmEnd
def inLp (a : Nat) : Bool := lpBase ≤ a && a < lpEnd
def inHost (a : Nat) : Bool := hostBase ≤ a && a < hostEnd
/-- [a, a + n) lies in shared-coherent host memory; `a` is a host physical address (R277). -/
def hostOk (s : State) (a n : Nat) : Bool :=
  a + n ≤ 2 ^ 48 && rgnCovers s (fun e => e.own = 3) 65 (hostBase + a) n

/-! ## What a family of commands leaves alone -/

/-- The clock state as a family that does not touch it leaves it: only bits set on the present SCLK edge are noted (R9). -/
def keepCk (s s' : State) : Clock := { s.ck with edges := s'.ck.edges }
/-- The parts of State that a host command or the host front end leaves alone. -/
def hostOnly (s s' : State) : State :=
  { s' with cyc := s.cyc, sp := s.sp, ck := keepCk s s', pwr := s.pwr, tel := s.tel, sec := s.sec, log := s.log, fd := s.fd,
            i3c := s.i3c, pending := s.pending }
/-- The parts that the start and the end of a segment leave alone: a block reset that waited may follow (R391). -/
def segOnly (s s' : State) : State :=
  { s' with cyc := s.cyc, sp := s.sp, pwr := s.pwr, tel := s.tel, sec := s.sec, log := s.log, fd := s.fd, i3c := s.i3c,
            pending := s.pending }
/-- The parts that a flit of a collective leaves alone. -/
def linkOnly (s s' : State) : State :=
  { s' with cyc := s.cyc, mem := s.mem, coh := s.coh, hf := s.hf, sp := s.sp, ck := keepCk s s', pwr := s.pwr, tel := s.tel,
            sec := s.sec, log := s.log, fd := s.fd, i3c := s.i3c, pending := s.pending }
/-- The parts that the Turnpike's own events leave alone. -/
def tpOnly (s s' : State) : State :=
  { s' with cyc := s.cyc, mem := s.mem, coh := s.coh, hf := s.hf, cm := s.cm, sp := s.sp, ck := keepCk s s', pwr := s.pwr,
            tel := s.tel, sec := s.sec, log := s.log, fd := s.fd, i3c := s.i3c, fresh := s.fresh, pending := s.pending }
/-- The parts that the modules leave alone. -/
def modOnly (s s' : State) : State :=
  { s' with cyc := s.cyc, mem := s.mem, pl := s.pl, coh := s.coh, hf := s.hf, cm := s.cm, sp := s.sp, pwr := s.pwr,
            tel := s.tel, sec := s.sec, log := s.log, i3c := s.i3c, out := s.out, pending := s.pending }
/-- The parts that the commit protocol leaves alone. -/
def commitOnly (s s' : State) : State :=
  { s' with cyc := s.cyc, sp := s.sp, ck := keepCk s s', sec := s.sec, log := s.log, fd := s.fd, i3c := s.i3c,
            pending := s.pending }
/-- The parts that a snapshot leaves alone. -/
def snapOnly (s s' : State) : State :=
  { s' with cyc := s.cyc, tp := s.tp, ck := keepCk s s', pwr := s.pwr, tel := s.tel, sec := s.sec, log := s.log, fd := s.fd,
            i3c := s.i3c, pending := s.pending }
/-- The parts that the memory controllers' own steps leave alone. -/
def memOnly (s s' : State) : State :=
  { s' with cyc := s.cyc, hf := s.hf, tp := s.tp, cm := s.cm, sp := s.sp, ck := keepCk s s', pwr := s.pwr, sec := s.sec,
            log := s.log, fd := s.fd, i3c := s.i3c, pending := s.pending }
/-- The parts that the log writer leaves alone. -/
def logOnly (s s' : State) : State :=
  { s' with cyc := s.cyc, tp := s.tp, cm := s.cm, sp := s.sp, ck := keepCk s s', pwr := s.pwr, sec := s.sec, i3c := s.i3c,
            pending := s.pending }
/-- The parts that a block, core or snapshot-port reset leaves alone. -/
def blockOnly (s s' : State) : State :=
  { s' with cyc := s.cyc, pwr := s.pwr, tel := s.tel, sec := s.sec, log := s.log, fd := s.fd, i3c := s.i3c,
            pending := s.pending }

/-! ## Small helpers -/

/-- The die of a tile, and its number within the die (R14). -/
def tileDie (t : Tile) : Die := ⟨t.val / 16, by omega⟩
/-- A tile from a number, modulo 128. -/
def tileOf (n : Nat) : Tile := ⟨n % 128, by omega⟩
/-- The tile's control state. -/
def tctl (s : State) (t : Tile) : TileCtl := smapGet {} s.pl.tiles t.val
/-- Replace the tile's control state. -/
def setTctl (t : Tile) (k : TileCtl) (s : State) : State :=
  { s with pl := { s.pl with tiles := smapSet {} t.val k s.pl.tiles } }
/-- Accrue flags to a tile (R143). -/
def accrue (t : Tile) (f : Flags) (s : State) : State :=
  let k := tctl s t
  setTctl t { k with flags := k.flags ||| f } s
/-- Accrue non-finite blocks of an instruction issued on cycle `c` (R59, R290). -/
def accrueNf (t : Tile) (c : Nat) (n : Nat) (first : Option Nat) (s : State) : State :=
  let k := tctl s t
  let nff := match first, k.nff with
    | none, x => x
    | some i, none => some (c, i)
    | some i, some (c', i') => if c < c' then some (c, i) else some (c', i')
  setTctl t { k with nfb := satAdd k.nfb n, nff := nff } s
/-- The last effect of a tile's instructions is visible on cycle `c` or later (R150). -/
def seenBy (t : Tile) (c : Nat) (s : State) : State :=
  let k := tctl s t
  setTctl t { k with last := max k.last c } s

/-- Intervals of one resource that overlap [lo, hi). -/
def heldDuring (s : State) (r : Res) (lo hi : Nat) : Bool :=
  s.pl.ivals.any fun i => i.res = r && i.lo < hi && lo < i.hi
/-- Hold a resource during [lo, hi). -/
def hold (r : Res) (lo hi : Nat) (s : State) : State :=
  { s with pl := { s.pl with ivals := s.pl.ivals ++ [⟨r, lo, hi, s.cyc⟩] } }

end Sys2Proof.Machine
end

