-- ==== Sys2Proof/Machine/Operands.lean ====
section
/-! DEFINITION. Operand forms of the tile's instructions: bit fields of the instruction word, scalar registers with
their hazards, local-store descriptors and rows, and the issue of one instruction with its checks (R144-R150, R163,
R164, Table 3.2). -/

namespace Sys2Proof.Machine

/-- A field [hi:lo] of the 56 operand bits (Tables 3.4, 5.1, 5.2, 6.1, 6.3, 6.5). -/
def fld (f : Fields) (hi lo : Nat) : Nat := bitsOf f.toNat hi lo
/-- A one-bit field. -/
def fbit (f : Fields) (n : Nat) : Bool := bitOf f.toNat n
/-- sext(IMM) of a sequencer instruction (Table 6.1). -/
def sextImm (f : Fields) : Int := signOf 32 (fld f 31 0)
/-- The whole instruction word. -/
def wordOf (opc : Nat) (f : Fields) : Nat := opc * 2 ^ 56 + f.toNat

/-! ## Scalar registers (R144, R145) -/

/-- Read a scalar register; s0 reads as 0 (R144). -/
def sreg (s : State) (t : Tile) (r : Nat) : W64 := if r = 0 then 0 else smapGet 0 s.pl.sregs (64 * t.val + r)
/-- Write a scalar register; a write to s0 is discarded (R144). The value is visible from `vis`. -/
def wreg (t : Tile) (r : Nat) (v : W64) (vis : Nat) (s : State) : State :=
  if r = 0 then s
  else { s with pl := { s.pl with
    sregs := smapSet 0 (64 * t.val + r) v s.pl.sregs, spend := s.pl.spend ++ [⟨64 * t.val + r, vis⟩] } }
/-- The latest cycle from which a pending write to a register is visible, 0 when none is pending. -/
def spendVis (s : State) (t : Tile) (r : Nat) : Nat :=
  (s.pl.spend.filter fun p => p.key = 64 * t.val + r && s.cyc < p.vis).foldl (fun m p => max m p.vis) 0
/-- SEQ_RAW: a register is read before a pending write to it is visible (R145). -/
def seqRaw (s : State) (t : Tile) (reads : List Nat) : Bool := reads.any fun r => r ≠ 0 && s.cyc < spendVis s t r
/-- SEQ_WAW: the write would become visible on or before a pending write to the same register does (R145). -/
def seqWaw (s : State) (t : Tile) : Option (Nat × Nat) → Bool
  | none => false
  | some (r, vis) => r ≠ 0 && spendVis s t r ≠ 0 && vis ≤ spendVis s t r

/-! ## Local-store descriptors (Table 3.2) -/

/-- A local-store descriptor. -/
structure LsDesc where
  fmt : Nat
  ct : Bool
  rsv : Nat
  sbase : Nat
  stride : Nat
  base : Nat
  deriving DecidableEq, Repr

/-- Read a descriptor; bases and strides in bytes. -/
def lsDesc (x : W64) : LsDesc :=
  let n := x.toNat
  { fmt := bitsOf n 63 60, ct := bitOf n 59, rsv := bitsOf n 58 56, sbase := bitsOf n 55 37 * 64,
    stride := bitsOf n 36 19 * 64, base := bitsOf n 18 0 * 64 }

/-! ## Memory errors met by a read (R244, R245, R247) -/

/-- A code of an uncorrectable error. -/
def isUeCode (c : Nat) : Bool := (eLsUe ≤ c && c ≤ eLpUe) || c = eSeqImemUe || c = eSfUe

/-- The requester port of a tile's die (R251: cores, the HMC, then the tensor-die modules). -/
def diePort (t : Tile) : Nat := 129 + t.val / 16
/-- Report the injected errors met by a tensor-plane read of requester `p` on cycle `c` of the lines that `hit` selects: a
corrected one logs a COR record, an uncorrectable one a DET record and a step abort (R244, R245, R437). -/
def eccTensor (p : Nat) (hit : Nat → Bool) (c : Nat) (s : State) : State :=
  (s.coh.flips.filter fun e => hit e.line && e.code ≠ BitVec.ofNat 16 eSeqImemCe && e.code ≠ BitVec.ofNat 16 eSeqImemUe).foldl
    (fun s e =>
      if isUeCode e.code.toNat then detAbort e.code.toNat e.src.toNat c (e.line * 64) (e.pos + p * 2 ^ 16) 0 true s
      else report e.code.toNat e.src.toNat c (e.line * 64) (e.pos + p * 2 ^ 16) 0 true false s) s

/-- The lines of [a, a + n). -/
def lineHit (a n : Nat) (l : Nat) : Bool := a < l * 64 + 64 && l * 64 < a + n

/-! ## Issue (R141, R143, R149, R150, R163, R164) -/

/-- Issue has stopped (R164): no tile issues on or after the stop cycle. -/
def issueStopped (s : State) : Bool := match s.pl.stopAt with | some x => x ≤ s.cyc | none => false

/-- Raise a schedule fault of a tile: INFO0 holds the PC and the extra item, INFO1 the word (R437). -/
def tileFault (t : Tile) (code word extra : Nat) (s : State) : State :=
  schedFault code (srcOf 1 t.val) s.cyc 0 ((tctl s t).pc % 2 ^ 15 + extra) word false s

/-- PC advances by one and the next instruction issues on the next cycle (R141, R150). -/
def advance (t : Tile) (s : State) : State :=
  let k := tctl s t
  setTctl t { k with pc := k.pc + 1, next := s.cyc + 1, last := max k.last (s.cyc + 1) } s

/-- The word at the PC is pending from an IPAGE (R162). -/
def imemPending (s : State) (t : Tile) (pc : Nat) : Bool :=
  s.pl.ipages.any fun p => p.tile = t && p.first ≤ pc && pc < p.first + p.n && s.cyc < p.due

/-- One injection detector of a tile's instruction memory on a write of word `w` (Table 19.10). -/
def imemInject (t : Tile) (code w : Nat) (s : State) : State :=
  match injEvent code (srcOf 1 t.val) (fun _ p => bitsOf p 14 0 = w) s with
  | (none, s) => s
  | (some (pos, _), s) =>
    { s with coh := { s.coh with
      flips := s.coh.flips ++ [⟨w, BitVec.ofNat 16 code, BitVec.ofNat 16 (srcOf 1 t.val), pos⟩] } }

/-- Write words into a tile's instruction memory from word `first` on; earlier errors of those words are gone. -/
def imemPut (t : Tile) (first : Nat) (ws : List W64) (s : State) : State :=
  let s := { s with pl := { s.pl with imem := smapSetList 0 (32768 * t.val + first) ws s.pl.imem } }
  let imemCode := fun (e : Flip) => e.code.toNat = eSeqImemCe || e.code.toNat = eSeqImemUe
  let hit := fun (e : Flip) => imemCode e && e.src = BitVec.ofNat 16 (srcOf 1 t.val) && first ≤ e.line &&
    e.line < first + ws.length
  let s := { s with coh := { s.coh with flips := s.coh.flips.filter fun e => !hit e } }
  if s.regs.any (fun r => 0x90100 / 4 ≤ r.1 && r.1 < 0x90180 / 4) then
    (List.range ws.length).foldl (fun s i =>
      imemInject t eSeqImemUe (first + i) (imemInject t eSeqImemCe (first + i) s)) s
  else s

/-! ## Clearing blocks (R391) -/

/-- SEQ_PC (R150): one record; the tile issues nothing more in the segment. -/
def seqPcFault (t : Tile) (word : Nat) (s : State) : State :=
  setTctl t { tctl s t with run := false } (tileFault t eSeqPc word 0 s)

/-- The instruction-memory read of an issue meets an injected error (R161, R166). -/
def imemEcc (t : Tile) (s : State) : State :=
  let pc := (tctl s t).pc
  (s.coh.flips.filter fun e => e.src = BitVec.ofNat 16 (srcOf 1 t.val) && e.line = pc).foldl
    (fun s e =>
      if e.code = BitVec.ofNat 16 eSeqImemUe then detAbort eSeqImemUe (srcOf 1 t.val) s.cyc 0 pc 0 true s
      else if e.code = BitVec.ofNat 16 eSeqImemCe then report eSeqImemCe (srcOf 1 t.val) s.cyc 0 pc 0 true false s
      else s) s

/-- A forced residue mismatch on reading scalar registers or using the scalar unit's adder (64), shifter (65) or
multiplier (66): SEQ_RESIDUE, with no value or cycle changed (R166, Table 19.10). A register that the instruction names
twice is one read of it (DESIGN CHOICE, entry 149). -/
def seqResidue (t : Tile) (targets : List Nat) (s : State) : State :=
  targets.eraseDups.foldl (fun s r =>
    injAborts eSeqResidue (srcOf 1 t.val) (fun _ => r * 2 ^ 20) (fun p => bitsOf p 27 20 = r) (fun _ => s.cyc) s) s

/-- What an instruction asks of issue, beside its own faults. -/
structure IssueReq where
  t : Tile
  opc : Nat
  f : Fields
  /-- its encoding is legal (R146) -/
  enc : Bool := true
  /-- scalar registers it reads, and the one it writes with the cycle of visibility -/
  reads : List Nat := []
  write : Option (Nat × Nat) := none
  /-- units of the scalar unit it uses -/
  units : List Nat := []
  deriving DecidableEq, Repr

/-- The first fault of issue itself, before the instruction's own (R145, R146, R162). -/
def issueFault (q : IssueReq) (s : State) : Option Nat :=
  if imemPending s q.t (tctl s q.t).pc then some eImemPending
  else if !q.enc then some eSeqEnc
  else if seqRaw s q.t q.reads then some eSeqRaw
  else if seqWaw s q.t q.write then some eSeqWaw
  else none

/-- What reading the word and its registers brings: errors of the instruction memory (R161) and, when the word is legal and
not pending, residue mismatches on the registers it reads (R166; DEDUCED, entry 149). -/
def readWord (q : IssueReq) (s : State) : State :=
  let r := imemEcc q.t s
  if q.enc && !imemPending s q.t (tctl s q.t).pc then seqResidue q.t q.reads r else r

/-- Issue one instruction on the present cycle: issue's checks, then the instruction's own check (a code with the extra
item of INFO0), then its effect. A fault at issue prevents every effect (R163); the tile issues its next word on the
next cycle until the stop of R164. What the reads bring is reported either way. -/
def issue (q : IssueReq) (check : State → Option (Nat × Nat)) (eff : State → State) (s : State) : State :=
  if issueStopped s then s
  else if 32767 < (tctl s q.t).pc then seqPcFault q.t (wordOf q.opc q.f) s
  else
    let r := readWord q s
    match issueFault q s with
    | some code => advance q.t (tileFault q.t code (wordOf q.opc q.f) 0 r)
    | none =>
      match check s with
      | some (code, extra) => advance q.t (tileFault q.t code (wordOf q.opc q.f) extra r)
      | none => eff (seqResidue q.t q.units (advance q.t r))

/-- No fault of the instruction's own. -/
def noCheck (_ : State) : Option (Nat × Nat) := none

/-- The parts of State that no tile instruction changes at issue: memory itself (stores are writes under way), the host
front end, links, clocks, power, telemetry, security, the log and FD. -/
def tileOnly (s s' : State) : State :=
  { s' with cyc := s.cyc, mem := s.mem, hf := s.hf, tp := s.tp, sp := s.sp, ck := keepCk s s', pwr := s.pwr, tel := s.tel,
            sec := s.sec, log := s.log, fd := s.fd, i3c := s.i3c, coh := s.coh, pending := s.pending }
/-- The same for an instruction that sends requests of its system channel: of the coherence state only the count of
transaction numbers changes. -/
def moverOnly (s s' : State) : State := { tileOnly s s' with coh := { s.coh with txns := s'.coh.txns } }

end Sys2Proof.Machine
end

