-- ==== Sys2Proof/Machine/Seq.lean ====
section
/-! DEFINITION. The sequencer-native instructions (06_tile_sequencer R141-R150, Tables 6.1, 6.2). -/

namespace Sys2Proof.Machine

/-! ## Encodings (R146, Table 6.1) -/

/-- Format S: bits [37:0] reserved. -/
def encS (f : Fields) : Bool := fld f 37 0 = 0
/-- Format I: bits [37:32] reserved; SB 0 outside SST. -/
def encI (f : Fields) (sst : Bool) : Bool := fld f 37 32 = 0 && (sst || fld f 43 38 = 0)
/-- Format B: [55:50] and [43:15] reserved; SA 0 outside BZ, BNZ and BRR. -/
def encB (f : Fields) (sa : Bool) : Bool := fld f 55 50 = 0 && fld f 43 15 = 0 && (sa || fld f 49 44 = 0)
/-- Format W: [55:50] and [43:33] reserved; SA only with MD = 1, MD only in WAIT.UNTIL. -/
def encW (f : Fields) (until_ : Bool) : Bool :=
  fld f 55 50 = 0 && fld f 43 33 = 0 && (fbit f 32 || fld f 49 44 = 0) && (until_ || !fbit f 32)

/-- SEGBASE of the running segment (R143). -/
def segBase (s : State) : Nat := match s.pl.cur with | some r => r.base | none => 0

/-! ## Scalar results -/

/-- A format S operation on sa and sb with its result visible from s + `lat`. -/
def aluS (opc lat : Nat) (units : List Nat) (op : W64 → W64 → W64) (t : Tile) (f : Fields) (s : State) : State :=
  let sd := fld f 55 50
  let q : IssueReq := { t := t, opc := opc, f := f, enc := encS f, reads := [fld f 49 44, fld f 43 38],
                        write := some (sd, s.cyc + lat), units := units }
  tileOnly s (issue q noCheck (fun u =>
    seenBy t (s.cyc + lat) (wreg t sd (op (sreg s t (fld f 49 44)) (sreg s t (fld f 43 38))) (s.cyc + lat) u)) s)

/-- A format I operation on sa and the immediate. -/
def aluI (opc : Nat) (useA : Bool) (units : List Nat) (op : W64 → W64) (t : Tile) (f : Fields) (s : State) : State :=
  let sd := fld f 55 50
  let reads := if useA then [fld f 49 44] else []
  let q : IssueReq := { t := t, opc := opc, f := f, enc := encI f false, reads := reads, write := some (sd, s.cyc + 1),
                        units := units }
  tileOnly s (issue q noCheck (fun u => wreg t sd (op (sreg s t (fld f 49 44))) (s.cyc + 1) u) s)

/-- A format S read of machine state, visible from s + 1. -/
def readS (opc : Nat) (val : State → W64) (t : Tile) (f : Fields) (s : State) : State :=
  let sd := fld f 55 50
  let q : IssueReq := { t := t, opc := opc, f := f, enc := encS f, write := some (sd, s.cyc + 1) }
  tileOnly s (issue q noCheck (fun u => wreg t sd (val s) (s.cyc + 1) u) s)

/-- NOP: no effect. -/
def execNop (t : Tile) (f : Fields) (s : State) : Host.Outcome State Fault Refusal :=
  .next (tileOnly s (issue { t := t, opc := 0x00, f := f, enc := encS f } noCheck id s))
/-- SLI: sd = sext(IMM). -/
def execSli (t : Tile) (f : Fields) (s : State) : Host.Outcome State Fault Refusal :=
  .next (aluI 0x01 false [] (fun _ => BitVec.ofInt 64 (sextImm f)) t f s)
/-- SLUI: sd = (IMM << 32) | sa[31:0]. -/
def execSlui (t : Tile) (f : Fields) (s : State) : Host.Outcome State Fault Refusal :=
  .next (aluI 0x02 true [] (fun a => BitVec.ofNat 64 (fld f 31 0 * 2 ^ 32 + a.toNat % 2 ^ 32)) t f s)
/-- SADDI: sd = sa + sext(IMM). -/
def execSaddi (t : Tile) (f : Fields) (s : State) : Host.Outcome State Fault Refusal :=
  .next (aluI 0x03 true [64] (fun a => a + BitVec.ofInt 64 (sextImm f)) t f s)
/-- SADD. -/
def execSadd (t : Tile) (f : Fields) (s : State) : Host.Outcome State Fault Refusal :=
  .next (aluS 0x04 1 [64] (fun a b => a + b) t f s)
/-- SSUB. -/
def execSsub (t : Tile) (f : Fields) (s : State) : Host.Outcome State Fault Refusal :=
  .next (aluS 0x05 1 [64] (fun a b => a - b) t f s)
/-- SAND. -/
def execSand (t : Tile) (f : Fields) (s : State) : Host.Outcome State Fault Refusal :=
  .next (aluS 0x06 1 [] (fun a b => a &&& b) t f s)
/-- SOR. -/
def execSor (t : Tile) (f : Fields) (s : State) : Host.Outcome State Fault Refusal :=
  .next (aluS 0x07 1 [] (fun a b => a ||| b) t f s)
/-- SXOR. -/
def execSxor (t : Tile) (f : Fields) (s : State) : Host.Outcome State Fault Refusal :=
  .next (aluS 0x08 1 [] (fun a b => a ^^^ b) t f s)
/-- SSHL: shift by sb[5:0]. -/
def execSshl (t : Tile) (f : Fields) (s : State) : Host.Outcome State Fault Refusal :=
  .next (aluS 0x09 1 [65] (fun a b => a <<< (b.toNat % 64)) t f s)
/-- SSRL. -/
def execSsrl (t : Tile) (f : Fields) (s : State) : Host.Outcome State Fault Refusal :=
  .next (aluS 0x0A 1 [65] (fun a b => a >>> (b.toNat % 64)) t f s)
/-- SSRA. -/
def execSsra (t : Tile) (f : Fields) (s : State) : Host.Outcome State Fault Refusal :=
  .next (aluS 0x0B 1 [65] (fun a b => a.sshiftRight (b.toNat % 64)) t f s)
/-- SMUL: low 64 bits of the product, visible from s + 4. -/
def execSmul (t : Tile) (f : Fields) (s : State) : Host.Outcome State Fault Refusal :=
  .next (aluS 0x0C 4 [66] (fun a b => a * b) t f s)
/-- SSLT: signed less-than. -/
def execSslt (t : Tile) (f : Fields) (s : State) : Host.Outcome State Fault Refusal :=
  .next (aluS 0x0D 1 [64] (fun a b => if a.slt b then 1 else 0) t f s)
/-- SSLTU: unsigned less-than. -/
def execSsltu (t : Tile) (f : Fields) (s : State) : Host.Outcome State Fault Refusal :=
  .next (aluS 0x0E 1 [64] (fun a b => if a.ult b then 1 else 0) t f s)

/-- The local-store byte address of SLD and SST (R148). -/
def sldAddr (s : State) (t : Tile) (f : Fields) : Nat :=
  (sreg s t (fld f 49 44) + BitVec.ofInt 64 (sextImm f)).toNat
/-- The address is a multiple of 8 below 0x140_0000, or SEQ_ENC (R148, Table 6.6). -/
def sldCheck (t : Tile) (f : Fields) (s : State) : Option (Nat × Nat) :=
  if sldAddr s t f % 8 = 0 ∧ sldAddr s t f < lsSize then none else some (eSeqEnc, 0)

/-- SLD: 8 bytes, little-endian, read on cycle s through the main read port, visible from s + 6. -/
def execSld (t : Tile) (f : Fields) (s : State) : Host.Outcome State Fault Refusal :=
  let sd := fld f 55 50
  let a := sldAddr s t f
  let q : IssueReq := { t := t, opc := 0x10, f := f, enc := encI f false, reads := [fld f 49 44],
                        write := some (sd, s.cyc + 6), units := [64] }
  .next (tileOnly s (issue q (sldCheck t f) (fun u =>
    let u := usePort t .mainRead s.cyc 1 8 u
    let v := leNat (lsBytes u t .mainRead s.cyc a 8)
    eccTensor (diePort t) (lineHit (lsBase t + a) 8) s.cyc
      (seenBy t (s.cyc + 6) (wreg t sd (BitVec.ofNat 64 v) (s.cyc + 6) (useFree u)))) s))

/-- SST: 8 bytes of sb written on cycle s + 6 through the main write port, seen by reads from s + 7. -/
def execSst (t : Tile) (f : Fields) (s : State) : Host.Outcome State Fault Refusal :=
  let a := sldAddr s t f
  let q : IssueReq := { t := t, opc := 0x11, f := f, enc := encI f true, reads := [fld f 49 44, fld f 43 38],
                        units := [64] }
  .next (tileOnly s (issue q (sldCheck t f) (fun u =>
    let bs := leBytes 8 (sreg s t (fld f 43 38)).toNat
    useFree (seenBy t (s.cyc + 7) (addWrites (lsWrites t true u.fresh (s.cyc + 6) (wholeBytes a bs))
      (usePort t .mainWrite (s.cyc + 6) 1 8 u)))) s))

/-- SRDCYC: the tile cycle of the issue. -/
def execSrdcyc (t : Tile) (f : Fields) (s : State) : Host.Outcome State Fault Refusal :=
  .next (readS 0x12 (fun s => BitVec.ofNat 64 s.cyc) t f s)
/-- SRDSEG: SEGBASE. -/
def execSrdseg (t : Tile) (f : Fields) (s : State) : Host.Outcome State Fault Refusal :=
  .next (readS 0x13 (fun s => BitVec.ofNat 64 (segBase s)) t f s)
/-- SRDFL: the tile's flag vector. -/
def execSrdfl (t : Tile) (f : Fields) (s : State) : Host.Outcome State Fault Refusal :=
  .next (readS 0x14 (fun s => (tctl s t).flags.setWidth 64) t f s)
/-- SRDID: the global tile number and the segment's sequence slot. -/
def execSrdid (t : Tile) (f : Fields) (s : State) : Host.Outcome State Fault Refusal :=
  .next (readS 0x15 (fun s => BitVec.ofNat 64 (t.val + 2 ^ 8 * s.pl.segSlot.val)) t f s)

/-! ## Control flow (R149, R150) -/

/-- Set the PC and the next issue cycle. -/
def jumpTo (t : Tile) (pc next : Nat) (s : State) : State := setTctl t { tctl s t with pc := pc, next := next } s

/-- A branch: the next instruction issues 3 TCLK later, taken or not (Table 6.2). -/
def branch (opc : Nat) (sa : Bool) (target : State → Nat) (t : Tile) (f : Fields) (s : State) : State :=
  let reads := if sa then [fld f 49 44] else []
  tileOnly s (issue { t := t, opc := opc, f := f, enc := encB f sa, reads := reads } noCheck
    (fun u => jumpTo t (target s) (s.cyc + 3) u) s)

/-- BR: PC = TGT. -/
def execBr (t : Tile) (f : Fields) (s : State) : Host.Outcome State Fault Refusal :=
  .next (branch 0x18 false (fun _ => fld f 14 0) t f s)
/-- BZ: PC = TGT if sa = 0, else PC + 1. -/
def execBz (t : Tile) (f : Fields) (s : State) : Host.Outcome State Fault Refusal :=
  .next (branch 0x19 true (fun s => if sreg s t (fld f 49 44) = 0 then fld f 14 0 else (tctl s t).pc + 1) t f s)
/-- BNZ: PC = TGT if sa ≠ 0, else PC + 1. -/
def execBnz (t : Tile) (f : Fields) (s : State) : Host.Outcome State Fault Refusal :=
  .next (branch 0x1A true (fun s => if sreg s t (fld f 49 44) = 0 then (tctl s t).pc + 1 else fld f 14 0) t f s)
/-- BRR: PC = sa; a target above 32,767 raises SEQ_PC on the cycle of the attempted issue (R150). -/
def execBrr (t : Tile) (f : Fields) (s : State) : Host.Outcome State Fault Refusal :=
  .next (branch 0x1B true (fun s => (sreg s t (fld f 49 44)).toNat) t f s)

/-- The target cycle of WAIT.UNTIL: SEGBASE + sext(IMM), or sSA + sext(IMM) (R149). -/
def waitTarget (s : State) (t : Tile) (f : Fields) : Int :=
  (if fbit f 32 then ((sreg s t (fld f 49 44)).toNat : Int) else segBase s) + sextImm f

/-- WAIT.UNTIL: the next instruction issues on cycle T; T below s + 1 raises SEQ_LATE (R149). -/
def execWaitUntil (t : Tile) (f : Fields) (s : State) : Host.Outcome State Fault Refusal :=
  let reads := if fbit f 32 then [fld f 49 44] else []
  .next (tileOnly s (issue { t := t, opc := 0x1C, f := f, enc := encW f true, reads := reads }
    (fun s => if waitTarget s t f < s.cyc + 1 then some (eSeqLate, 0) else none)
    (fun u => jumpTo t ((tctl s t).pc + 1) (waitTarget s t f).toNat u) s))
/-- WAIT.FOR: the next instruction issues on s + IMM; IMM below 1 raises SEQ_ENC (Tables 6.2, 6.6). -/
def execWaitFor (t : Tile) (f : Fields) (s : State) : Host.Outcome State Fault Refusal :=
  .next (tileOnly s (issue { t := t, opc := 0x1D, f := f, enc := encW f false && decide (1 ≤ sextImm f) } noCheck
    (fun u => jumpTo t ((tctl s t).pc + 1) (s.cyc + (sextImm f).toNat) u) s))

/-- Whether any tile still issues. -/
def anyIssuing (s : State) : Bool := s.pl.tiles.any fun p => p.2.run
/-- The cycle on which the last effect of every issued instruction is visible (R150). -/
def lastEffect (s : State) : Nat := s.pl.tiles.foldl (fun m p => max m p.2.last) s.cyc

/-- END: stops the tile's issue; when no tile issues any more, the segment completes on the cycle on which the last
effect is visible (R150). -/
def execEnd (t : Tile) (f : Fields) (s : State) : Host.Outcome State Fault Refusal :=
  .next (tileOnly s (issue { t := t, opc := 0x1F, f := f, enc := encS f } noCheck (fun u =>
    let u := setTctl t { tctl u t with run := false, last := (tctl s t).last } u
    if !anyIssuing u && running u then sched (lastEffect u) .segmentComplete u else u) s))

end Sys2Proof.Machine
end

