-- ==== Sys2Proof/Machine/Crypto.lean ====
section
/-! DEFINITION. The algorithms the manual names: CRC-32C and CRC-32 (R283, R305), SHA-384, HMAC, the deterministic
nonce of RFC 6979, ECDSA on brainpoolP384r1 (18_security, R415), and the X.509 certificates of R414. The algorithms
themselves come from their standards, which the manual cites by name. -/

namespace Sys2Proof.Machine

/-! ## CRC -/

/-- One bit of a reflected CRC. -/
def crcBit (poly : W32) (x : W32) : W32 := if x.getLsbD 0 then (x >>> 1) ^^^ poly else x >>> 1
/-- Eight bits. -/
def crcByte (poly x : W32) (b : Byte) : W32 :=
  let y := x ^^^ b.setWidth 32
  crcBit poly (crcBit poly (crcBit poly (crcBit poly (crcBit poly (crcBit poly (crcBit poly (crcBit poly y)))))))
/-- A reflected CRC with all-ones initial value and final exclusive OR. -/
def crcOf (poly : W32) (bs : List Byte) : W32 := ~~~(bs.foldl (crcByte poly) 0xFFFFFFFF#32)
/-- CRC-32C (R283). -/
def crc32c (bs : List Byte) : W32 := crcOf 0x82F63B78 bs
/-- The IEEE 802.3 CRC-32 (R305). -/
def crc32 (bs : List Byte) : W32 := crcOf 0xEDB88320 bs

/-! ## SHA-384 (FIPS 180-4) -/

/-- Round constants. -/
def sha512K0 : List W64 :=
  [0x428A2F98D728AE22, 0x7137449123EF65CD, 0xB5C0FBCFEC4D3B2F, 0xE9B5DBA58189DBBC,
   0x3956C25BF348B538, 0x59F111F1B605D019, 0x923F82A4AF194F9B, 0xAB1C5ED5DA6D8118,
   0xD807AA98A3030242, 0x12835B0145706FBE, 0x243185BE4EE4B28C, 0x550C7DC3D5FFB4E2,
   0x72BE5D74F27B896F, 0x80DEB1FE3B1696B1, 0x9BDC06A725C71235, 0xC19BF174CF692694,
   0xE49B69C19EF14AD2, 0xEFBE4786384F25E3, 0x0FC19DC68B8CD5B5, 0x240CA1CC77AC9C65]
/-- Round constants, continued. -/
def sha512K1 : List W64 :=
  [0x2DE92C6F592B0275, 0x4A7484AA6EA6E483, 0x5CB0A9DCBD41FBD4, 0x76F988DA831153B5,
   0x983E5152EE66DFAB, 0xA831C66D2DB43210, 0xB00327C898FB213F, 0xBF597FC7BEEF0EE4,
   0xC6E00BF33DA88FC2, 0xD5A79147930AA725, 0x06CA6351E003826F, 0x142929670A0E6E70,
   0x27B70A8546D22FFC, 0x2E1B21385C26C926, 0x4D2C6DFC5AC42AED, 0x53380D139D95B3DF,
   0x650A73548BAF63DE, 0x766A0ABB3C77B2A8, 0x81C2C92E47EDAEE6, 0x92722C851482353B]
/-- Round constants, continued. -/
def sha512K2 : List W64 :=
  [0xA2BFE8A14CF10364, 0xA81A664BBC423001, 0xC24B8B70D0F89791, 0xC76C51A30654BE30,
   0xD192E819D6EF5218, 0xD69906245565A910, 0xF40E35855771202A, 0x106AA07032BBD1B8,
   0x19A4C116B8D2D0C8, 0x1E376C085141AB53, 0x2748774CDF8EEB99, 0x34B0BCB5E19B48A8,
   0x391C0CB3C5C95A63, 0x4ED8AA4AE3418ACB, 0x5B9CCA4F7763E373, 0x682E6FF3D6B2B8A3,
   0x748F82EE5DEFB2FC, 0x78A5636F43172F60, 0x84C87814A1F0AB72, 0x8CC702081A6439EC]
/-- Round constants, continued. -/
def sha512K3 : List W64 :=
  [0x90BEFFFA23631E28, 0xA4506CEBDE82BDE9, 0xBEF9A3F7B2C67915, 0xC67178F2E372532B,
   0xCA273ECEEA26619C, 0xD186B8C721C0C207, 0xEADA7DD6CDE0EB1E, 0xF57D4F7FEE6ED178,
   0x06F067AA72176FBA, 0x0A637DC5A2C898A6, 0x113F9804BEF90DAE, 0x1B710B35131C471B,
   0x28DB77F523047D84, 0x32CAAB7B40C72493, 0x3C9EBE0A15C9BEBC, 0x431D67C49C100D4C,
   0x4CC5D4BECB3E42B6, 0x597F299CFC657E2A, 0x5FCB6FAB3AD6FAEC, 0x6C44198C4A475817]
def sha512K : List W64 := sha512K0 ++ sha512K1 ++ sha512K2 ++ sha512K3
/-- Initial state of SHA-384. -/
def sha384H : List W64 :=
  [0xCBBB9D5DC1059ED8, 0x629A292A367CD507, 0x9159015A3070DD17, 0x152FECD8F70E5939,
   0x67332667FFC00B31, 0x8EB44A8768581511, 0xDB0C2E0D64F98FA7, 0x47B5481DBEFA4FA4]

/-- Rotate right. -/
def ror64 (x : W64) (n : Nat) : W64 := (x >>> n) ||| (x <<< (64 - n))

/-- Extend the message schedule, newest word first (structural in the rounds left). -/
def shaSchedule : Nat → List W64 → List W64
  | 0, w => w
  | n + 1, w =>
    let s0 := fun (x : W64) => ror64 x 1 ^^^ ror64 x 8 ^^^ (x >>> 7)
    let s1 := fun (x : W64) => ror64 x 19 ^^^ ror64 x 61 ^^^ (x >>> 6)
    shaSchedule n ((s1 (w.getD 1 0) + w.getD 6 0 + s0 (w.getD 14 0) + w.getD 15 0) :: w)

/-- One round on (a, …, h). -/
def shaRound (v : List W64) (kw : W64) : List W64 :=
  match v with
  | [a, b, c, d, e, f, g, h] =>
    let t1 := h + (ror64 e 14 ^^^ ror64 e 18 ^^^ ror64 e 41) + ((e &&& f) ^^^ (~~~e &&& g)) + kw
    let t2 := (ror64 a 28 ^^^ ror64 a 34 ^^^ ror64 a 39) + ((a &&& b) ^^^ (a &&& c) ^^^ (b &&& c))
    [t1 + t2, a, b, c, d + t1, e, f, g]
  | v => v

/-- One 128-byte block. -/
def shaBlock (h : List W64) (blk : List Byte) : List W64 :=
  let w0 := (tabulate 16 fun i => (BitVec.ofNat 64 (beNat (slice blk (8 * i) 8)) : W64)).reverse
  let w := (shaSchedule 64 w0).reverse
  let v := (List.zipWith (fun k x => k + x) sha512K w).foldl shaRound h
  List.zipWith (fun a b => a + b) h v

/-- Message padding. -/
def shaPad (bs : List Byte) : List Byte :=
  let n := bs.length
  bs ++ [0x80] ++ zeros ((111 + 128 - n % 128) % 128) ++ beBytes 16 (8 * n)

/-- SHA-384 of a byte string: 48 bytes. -/
def sha384 (bs : List Byte) : List Byte :=
  let p := shaPad bs
  let h := (chunks 128 (p.length / 128) p).foldl shaBlock sha384H
  (h.take 6).flatMap fun x => beBytes 8 x.toNat
/-- A digest of 48 bytes. -/
def digestOfBytes (bs : List Byte) : Digest := BitVec.ofNat 384 (leNat (slice bs 0 48))
/-- The bytes of a digest. -/
def digestBytes (d : Digest) : List Byte := leBytes 48 d.toNat
/-- SHA-384 as a digest. -/
def sha384D (bs : List Byte) : Digest := digestOfBytes (sha384 bs)

/-! ## HMAC and the nonce of RFC 6979 -/

/-- HMAC-SHA-384. -/
def hmac384 (key msg : List Byte) : List Byte :=
  let k := if 128 < key.length then sha384 key else key
  let k := k ++ zeros (128 - k.length)
  let x := fun (c : Byte) => k.map fun b => b ^^^ c
  sha384 (x 0x5C ++ sha384 (x 0x36 ++ msg))

/-! ## brainpoolP384r1 (RFC 5639) -/

def bpP : Nat := 0x8CB91E82A3386D280F5D6F7E50E641DF152F7109ED5456B412B1DA197FB71123ACD3A729901D1A71874700133107EC53
def bpA : Nat := 0x7BC382C63D8C150C3C72080ACE05AFA0C2BEA28E4FB22787139165EFBA91F90F8AA5814A503AD4EB04A8C7DD22CE2826
def bpB : Nat := 0x04A8C7DD22CE28268B39B55416F0447C2FB77DE107DCD2A62E880EA53EEB62D57CB4390295DBC9943AB78696FA504C11
def bpGx : Nat := 0x1D1C64F068CF45FFA2A63A81B7C13F6B8847A3E77EF14FE3DB7FCAFE0CBD10E8E826E03436D646AAEF87B2E247D4AF1E
def bpGy : Nat := 0x8ABE1D7520F9C2A45CB1EB8E95CFD55262B70B29FEEC5864E19C054FF99129280E4646217791811142820341263C5315
def bpN : Nat := 0x8CB91E82A3386D280F5D6F7E50E641DF152F7109ED5456B31F166E6CAC0425A7CF3AB6AF6B7FC3103B883202E9046565

/-- Extended Euclid: from (a, b) with coefficients of the first, the coefficient at gcd (structural in its first argument). -/
def egcd : Nat → Nat → Nat → Int → Int → Int
  | 0, _, _, x, _ => x
  | fuel + 1, a, b, x, y => if b = 0 then x else egcd fuel b (a % b) y (x - (a / b : Nat) * y)
/-- Inverse modulo m. -/
def invMod (a m : Nat) : Nat := (egcd 1200 (a % m) m 1 0 % (m : Int)).toNat

/-- A point: none is the point at infinity. -/
abbrev EcPoint := Option (Nat × Nat)

/-- x - y modulo m, for reduced arguments. -/
def subMod (x y m : Nat) : Nat := (x + m - y % m) % m

/-- Point addition. -/
def ecAdd : EcPoint → EcPoint → EcPoint
  | none, q => q
  | p, none => p
  | some (x1, y1), some (x2, y2) =>
    if x1 = x2 ∧ (y1 + y2) % bpP = 0 then none
    else
      let l := if x1 = x2 then (3 * x1 * x1 + bpA) * invMod (2 * y1) bpP % bpP
               else subMod y2 y1 bpP * invMod (subMod x2 x1 bpP) bpP % bpP
      let x := subMod (subMod (l * l % bpP) x1 bpP) x2 bpP
      some (x, subMod (l * subMod x1 x bpP % bpP) y1 bpP)

/-- k P, by doubling (structural in the bits left). -/
def ecMul : Nat → Nat → EcPoint → EcPoint
  | 0, _, _ => none
  | n + 1, k, p => let r := ecMul n (k / 2) (ecAdd p p); if k % 2 = 1 then ecAdd p r else r

/-- The base point. -/
def ecG : EcPoint := some (bpGx, bpGy)

/-- An uncompressed public point of 97 bytes, on the curve. -/
def ecPoint (bs : List Byte) : EcPoint :=
  let x := beNat (slice bs 1 48)
  let y := beNat (slice bs 49 48)
  if bs.length = 97 ∧ bs.getD 0 0 = 4 ∧ x < bpP ∧ y < bpP ∧ y * y % bpP = (x * x * x + bpA * x + bpB) % bpP then
    some (x, y) else none

/-- ECDSA verification of (r, s) over a 48-byte hash. -/
def ecdsaVerify (pub : EcPoint) (hash : List Byte) (r s : Nat) : Bool :=
  if pub = none ∨ r = 0 ∨ bpN ≤ r ∨ s = 0 ∨ bpN ≤ s then false
  else
    let w := invMod s bpN
    match ecAdd (ecMul 384 (beNat hash * w % bpN) ecG) (ecMul 384 (r * w % bpN) pub) with
    | none => false
    | some (x, _) => x % bpN = r

/-- The nonce loop of RFC 6979 (structural in its first argument). -/
def rfc6979 : Nat → List Byte → List Byte → Nat
  | 0, _, _ => 1
  | fuel + 1, k, v =>
    let v := hmac384 k v
    let c := beNat v
    if 1 ≤ c ∧ c < bpN then c
    else let k := hmac384 k (v ++ [0]); rfc6979 fuel k (hmac384 k v)

/-- The deterministic nonce of a key and a hash (R415). -/
def nonceOf (d : Nat) (hash : List Byte) : Nat :=
  let x := beBytes 48 d
  let h := beBytes 48 (beNat hash % bpN)
  let v0 : List Byte := List.replicate 48 1
  let k1 := hmac384 (zeros 48) (v0 ++ [0] ++ x ++ h)
  let v1 := hmac384 k1 v0
  let k2 := hmac384 k1 (v1 ++ [1] ++ x ++ h)
  rfc6979 16 k2 (hmac384 k2 v1)

/-- ECDSA signature of a 48-byte hash. -/
def ecdsaSign (d : Nat) (hash : List Byte) : Nat × Nat :=
  let k := nonceOf d hash
  match ecMul 384 k ecG with
  | none => (0, 0)
  | some (x, _) =>
    let r := x % bpN
    (r, invMod k bpN * (beNat hash + r * d) % bpN)

/-! ## Certificates (R414) -/

/-- One DER element: tag, content, whole encoding, rest. -/
structure Der where
  tag : Nat
  body : List Byte
  raw : List Byte
  deriving DecidableEq, Repr

/-- Read one DER element. -/
def derNext (bs : List Byte) : Option (Der × List Byte) :=
  match bs with
  | t :: l :: _ =>
    let k := l.toNat
    let h := if k < 128 then 2 else 2 + (k - 128)
    let n := if k < 128 then k else beNat (slice bs 2 (k - 128))
    if k = 128 ∨ 132 < k ∨ bs.length < h + n then none
    else some (⟨t.toNat, (bs.drop h).take n, bs.take (h + n)⟩, bs.drop (h + n))
  | _ => none

/-- Every element of a constructed body (structural in `fuel`); none when it does not parse. -/
def derAll : Nat → List Byte → Option (List Der)
  | 0, bs => if bs.isEmpty then some [] else none
  | fuel + 1, bs =>
    if bs.isEmpty then some []
    else match derNext bs with
      | none => none
      | some (d, r) => (derAll fuel r).map fun ds => d :: ds

/-- The elements of a SEQUENCE. -/
def derSeq (d : Der) : Option (List Der) := if d.tag % 32 = 16 ∨ d.tag = 163 then derAll 64 d.body else none

/-- Object identifiers: id-ecPublicKey, brainpoolP384r1, ecdsa-with-SHA384, keyUsage, basicConstraints. -/
def oidEcKey : List Byte := [0x2A, 0x86, 0x48, 0xCE, 0x3D, 0x02, 0x01]
def oidBp384 : List Byte := [0x2B, 0x24, 0x03, 0x03, 0x02, 0x08, 0x01, 0x01, 0x0B]
def oidEcdsa384 : List Byte := [0x2A, 0x86, 0x48, 0xCE, 0x3D, 0x04, 0x03, 0x03]
def oidKeyUsage : List Byte := [0x55, 0x1D, 0x0F]
def oidBasic : List Byte := [0x55, 0x1D, 0x13]

/-- What R414 needs of a certificate. -/
structure Cert where
  tbs : List Byte
  point : List Byte
  r : Nat
  s : Nat
  /-- keyUsage and critical extensions are acceptable -/
  extOk : Bool
  deriving DecidableEq, Repr

/-- The algorithm identifier is ecdsa-with-SHA384. -/
def algOk (d : Der) : Bool := match derSeq d with | some (o :: _) => o.tag = 6 && o.body = oidEcdsa384 | _ => false

/-- One extension is acceptable: keyUsage includes digitalSignature, and no other extension but basicConstraints is
critical. -/
def extGood (d : Der) : Bool :=
  match derSeq d with
  | some (o :: rest) =>
    let crit := rest.any fun x => x.tag = 1 && x.body ≠ [0]
    if o.body = oidKeyUsage then
      match rest.getLast? with
      | some v => (match derNext v.body with | some (b, _) => b.tag = 3 && (b.body.getD 1 0).msb | none => false)
      | none => false
    else o.body = oidBasic || !crit
  | _ => false

/-- The subject public key of a SubjectPublicKeyInfo on brainpoolP384r1. -/
def spkiPoint (d : Der) : Option (List Byte) :=
  match derSeq d with
  | some [alg, key] =>
    (match derSeq alg with
    | some [a, b] => if a.body = oidEcKey ∧ b.body = oidBp384 ∧ key.tag = 3 then some (key.body.drop 1) else none
    | _ => none)
  | _ => none

/-- Parse an X.509 v3 certificate (DER). -/
def parseCert (bs : List Byte) : Option Cert :=
  match derNext bs with
  | some (c, []) =>
    (match derSeq c with
    | some [tbs, alg, sig] =>
      (match derSeq tbs, derNext (sig.body.drop 1) with
      | some (ver :: _serial :: alg2 :: _issuer :: _validity :: _subject :: spki :: more), some (sg, []) =>
        (match spkiPoint spki, derSeq sg with
        | some pt, some [r, s] =>
          let exts := match more.find? (fun x => x.tag = 163) with
            | some x => (match derNext x.body with | some (l, _) => (derSeq l).getD [] | none => [])
            | none => []
          if ver.tag = 160 ∧ ver.body = [2, 1, 2] ∧ algOk alg ∧ algOk alg2 then
            some { tbs := tbs.raw, point := pt, r := beNat r.body, s := beNat s.body, extOk := exts.all extGood }
          else none
        | _, _ => none)
      | _, _ => none)
    | _ => none)
  | _ => none

/-! ## Signature blocks (R215, R414) -/

/-- A signature block verifies over a digest against an anchor's public point: format, certificate, direct issue, and
the signature itself (R414). -/
def blockVerifies (anchor blk hash : List Byte) : Bool :=
  let certLen := leField blk 2 2
  let r := leField blk 8 48
  let s := leField blk 56 48
  match parseCert (slice blk 104 certLen) with
  | none => false
  | some c =>
    leField blk 0 2 = 1 && c.extOk &&
    (c.point = anchor || ecdsaVerify (ecPoint anchor) (sha384 c.tbs) c.r c.s) &&
    ecdsaVerify (ecPoint c.point) hash r s

/-- A signature block made with a key and its certificate, padded as R215 gives. -/
def signBlock (d : Nat) (cert hash : List Byte) : List Byte :=
  let (r, s) := ecdsaSign d hash
  leBytes 2 1 ++ leBytes 2 cert.length ++ zeros 4 ++ leBytes 48 r ++ leBytes 48 s ++ cert

end Sys2Proof.Machine
end

