-- ==== Sys2Proof/Machine/Home.lean ====
section
/-! DEFINITION. The memory side of the system plane: address spaces, who may access what, cache and directory arrays,
memory errors, and whole reads and writes by agents without caches (R223-R231, R238, R240, R244-R247, R250-R253,
R263, R270). -/

namespace Sys2Proof.Machine

/-! ## Address spaces (Table 10.1) -/

/-- The ranges of Table 10.1; `hole` is every other address. -/
inductive Space where
  | hbm | lp | host | ls | nru | tag | regs | hole
  deriving DecidableEq, Repr

/-- NRU windows, tag arrays and register space. -/
def nruBase : Nat := 0x21000000000
def tagBase : Nat := 0x21800000000
def regBase : Nat := 0xF000000000000

/-- The range that holds an address. -/
def spaceOf (a : Nat) : Space :=
  if inHbm a then .hbm
  else if inLp a then .lp
  else if inHost a then .host
  else if 0x20000000000 ≤ a ∧ a < 0x20100000000 ∧ a % 0x2000000 < lsSize then .ls
  else if nruBase ≤ a ∧ a < nruBase + 12 * 0x2000000 then .nru
  else if tagBase ≤ a ∧ a < tagBase + 12 * 0x200000 then .tag
  else if regBase ≤ a ∧ a < regBase + 0x4000000 then .regs
  else .hole

/-- The line is a host line. -/
def hostLine (l : Line) : Bool := inHost (lineAddr l)

/-- The home slice of a line (R226). -/
def sliceOf (l : Line) : Nat :=
  let a := lineAddr l
  if inHbm a then 24 * (hbmStack a / 3) + l.toNat % 24
  else if inLp a then 24 * (lpStack a / 3) + l.toNat % 24
  else l.toNat % 96

/-! ## Who may access what (Table 10.4, R231) -/

/-- A tensor-die system module, and a snapshot engine (the order of R251). -/
def isTileModule (p : ReqPort) : Bool := 129 ≤ p.val && p.val ≤ 136
def isSnapEngine (p : ReqPort) : Bool := 137 ≤ p.val && p.val ≤ 148
/-- The system module of a tile's die, host-link DMA, a snapshot port, MD. -/
def modulePort (t : Tile) : ReqPort := ⟨129 + t.val / 16, by omega⟩
def dmaPort : ReqPort := 149
def mdPort : ReqPort := 152
def snapReqPort (p : SnapPort) : ReqPort := ⟨150 + p.val, by omega⟩
def corePort (c : CoreId) : ReqPort := ⟨c.val, by omega⟩

/-- The SRC of a requester (Table 19.7). -/
def portSrc (p : ReqPort) : Nat :=
  if p.val < 128 then srcOf 6 p.val
  else if p.val = 128 then srcOf 4 0
  else if p.val ≤ 136 then srcOf 2 (p.val - 129)
  else if p.val ≤ 148 then srcOf 3 (p.val - 137)
  else if p.val = 149 then srcOf 14 0
  else if p.val ≤ 151 then srcOf 11 (p.val - 150)
  else srcOf 13 0

/-- The address lies in a local store, NRU or tag array whose block is held in reset: its wrapper answers ISOL (R392). -/
def isolated (s : State) (a : Nat) : Bool :=
  match spaceOf a with
  | .ls => inBlockReset s (24 + (a - 0x20000000000) / 0x20000000)
  | .nru => inBlockReset s (12 + (a - nruBase) / 0x2000000)
  | .tag => inBlockReset s (12 + (a - tagBase) / 0x200000)
  | _ => false

/-- Table 10.4: the requester may read, or write when `wr`, address `a` (the last column; the tile system channel; the snapshot
engines, which during a freeze read HBM and LPDDR5X and write LPDDR5X, R229, R367). -/
def portMay (s : State) (p : ReqPort) (wr : Bool) (a : Nat) : Bool :=
  match spaceOf a with
  | .hbm | .lp | .host =>
    match rgnAt s a with
    | none => false
    | some e =>
      if e.ret then false
      else if isTileModule p then (e.own = 2 && inLp a) || e.own = 3
      else if isSnapEngine p then s.cm.frozen && (if wr then inLp a else inHbm a || inLp a)
      else true
  | .ls | .nru | .tag => !isTileModule p && !isSnapEngine p && p.val ≠ 128 && !isolated s a
  | .regs => p.val < 128 || p.val = 152
  | .hole => false

/-- A core's cached access: system-owned or shared-coherent, not retired. -/
def cachedMay (s : State) (a : Nat) : Bool :=
  match rgnAt s a with
  | none => false
  | some e => !e.ret && (e.own = 2 || e.own = 3)

/-- The address lies in a tensor-owned region, whose requests pass no snoop filter (R229, R265). -/
def tensorOwned (s : State) (a : Nat) : Bool :=
  match rgnAt s a with | some e => e.own = 1 | none => false

/-- REGION_ACCESS, naming the requester, its port and the address (R224, R231, R437). -/
def regionAccess (p : ReqPort) (a : Nat) (inj : Bool) (s : State) : State :=
  report eRegionAccess (portSrc p) s.cyc a (p.val * 2 ^ 16) 0 inj false s

/-- The check of a line's access (R231): it is refused when Table 10.4 forbids it, or when an injection that names its
line fires. -/
def regionRefuses (p : ReqPort) (a : Nat) (may : Bool) (s : State) : Bool × State :=
  match injEvent eRegionAccess (portSrc p) (fun _ x => bitsOf x 51 6 = a / 64) s with
  | (some _, s) => (true, regionAccess p a true s)
  | (none, s) => if may then (false, s) else (true, regionAccess p a false s)

/-! ## Arrays -/

/-- The key of a line in a core's L2. -/
def l2Key (c : CoreId) (l : Line) : Nat := c.val * 2 ^ 46 + l.toNat
def l2Get (s : State) (c : CoreId) (l : Line) : L2Line := smapGet {} s.coh.l2 (l2Key c l)
def setL2 (c : CoreId) (l : Line) (x : L2Line) (s : State) : State :=
  { s with coh := { s.coh with l2 := smapSet {} (l2Key c l) x s.coh.l2 } }
def dirGet (s : State) (l : Line) : DirEnt := smapGet {} s.coh.dir l.toNat
def setDir (l : Line) (x : DirEnt) (s : State) : State :=
  { s with coh := { s.coh with dir := smapSet {} l.toNat x s.coh.dir } }
def l3Get (s : State) (l : Line) : L3Line := smapGet {} s.coh.l3 l.toNat
def setL3 (l : Line) (x : L3Line) (s : State) : State :=
  { s with coh := { s.coh with l3 := smapSet {} l.toNat x s.coh.l3 } }
def txnGet (s : State) (l : Line) : Txn := smapGet {} s.coh.busy l.toNat
def setTxn (l : Line) (x : Txn) (s : State) : State :=
  { s with coh := { s.coh with busy := smapSet {} l.toNat x s.coh.busy } }
def hmcGet (s : State) (l : Line) : HmcLine := smapGet {} s.coh.hmc l.toNat

/-- Write an HMC entry; the line's sharer vector records agent 128 (R266). -/
def setHmc (l : Line) (x : HmcLine) (s : State) : State :=
  let d := dirGet s l
  let sh := if x.st = .i then d.sharers &&& ~~~(1#129 <<< 128) else d.sharers ||| (1#129 <<< 128)
  setDir l { d with sharers := sh, alloc := d.st ≠ .np || sh ≠ 0 || (d.alloc && (txnGet s l).under.isSome) }
    { s with coh := { s.coh with hmc := smapSet {} l.toNat x s.coh.hmc } }

/-- Cores in a sharer vector, ascending. -/
def sharersOf (d : DirEnt) : List CoreId := (List.finRange 128).filter fun c => d.sharers.getLsbD c.val
/-- The owner as a core. -/
def ownerOf (d : DirEnt) : CoreId := ⟨d.owner.toNat, d.owner.isLt⟩
/-- Add or remove a sharer. -/
def addSharer (c : CoreId) (v : BitVec 129) : BitVec 129 := v ||| (1#129 <<< c.val)
def dropSharer (c : CoreId) (v : BitVec 129) : BitVec 129 := v &&& ~~~(1#129 <<< c.val)
/-- Only agent 128 left. -/
def hmcOnly (v : BitVec 129) : BitVec 129 := v &&& (1#129 <<< 128)

/-! ## Memory errors on the system plane (R244, R245, R247) -/

/-- A line of free bytes: what an uncorrectable error leaves of it. -/
def freeLine (s : State) (l : Nat) : List Byte := tabulate 64 fun i => Config.freeByte (freeKey s s.cyc (l * 64 + i))

/-- The SRC values a memory error of a line may carry: the channel within an LPDDR5X stack is not fixed by R225. -/
def memSrcs (a : Nat) : List Nat :=
  match spaceOf a with
  | .ls => [srcOf 1 ((a - 0x20000000000) / 0x2000000)]
  | .nru => [srcOf 3 ((a - nruBase) / 0x2000000)]
  | .tag => [srcOf 3 ((a - tagBase) / 0x200000)]
  | .hbm => [srcOf 7 (hbmChan a)]
  | .lp => tabulate 4 fun k => srcOf 8 (4 * lpStack a + k)
  | _ => []
/-- The corrected and uncorrected codes of the memory that holds an address. -/
def memCodes (a : Nat) : List Nat :=
  match spaceOf a with
  | .ls => [eLsCe, eLsUe]
  | .nru | .tag => [eNruCe, eNruUe]
  | .hbm => [eHbmCe, eHbmUe]
  | .lp => [eLpCe, eLpUe]
  | _ => []

/-- Forget the errors a write has overwritten. -/
def dropFlips (l : Nat) (codes : List Nat) (s : State) : State :=
  { s with coh := { s.coh with flips := s.coh.flips.filter fun e => !(e.line = l && codes.contains e.code.toNat) } }

/-- Injection slots may be armed. -/
def injOn (s : State) : Bool := s.regs.any fun r => 0x90100 / 4 ≤ r.1 && r.1 < 0x90180 / 4
/-- A burst on the channel of an HBM or LPDDR5X line: a correction that the stack reports, or one of the link ECC, is logged
and changes no data (R244, R247, group LINK of Table 19.10). -/
def linkBurst (a : Nat) (s : State) : State :=
  let code := match spaceOf a with | .hbm => some eHbmOdecc | .lp => some eLpLink | _ => none
  match (if injOn s then code else none) with
  | none => s
  | some code => (memSrcs a).foldl (fun s src =>
      match injEvent code src (fun _ _ => true) s with
      | (some (pos, _), s) => report code src s.cyc a pos 0 true false s
      | (none, s) => s) s

/-- One injection detector on a write to line `l`: a firing slot leaves an error there (R247, Table 19.10). -/
def injWrite (l code src : Nat) (s : State) : State :=
  match injEvent code src (fun _ p => bitsOf p 51 6 = l) s with
  | (none, s) => s
  | (some (pos, _), s) =>
    { s with coh := { s.coh with flips := s.coh.flips ++ [⟨l, BitVec.ofNat 16 code, BitVec.ofNat 16 src, pos⟩] } }

/-- What a write to line `l` does beside its data: earlier errors of the line are gone, and armed injections leave new
ones; an uncorrectable one leaves the line's bytes open. -/
def memWrote (l : Nat) (s : State) : State :=
  let a := l * 64
  let s := linkBurst a (dropFlips l (memCodes a) s)
  let n := s.coh.flips.length
  let s := (memCodes a).foldl (fun s c => (memSrcs a).foldl (fun s src => injWrite l c src s) s) s
  if (s.coh.flips.drop n).any fun e => isUeCode e.code.toNat then
    useFree { s with mem := memWrite s.mem a (freeLine s l) }
  else s

/-- The lines that [a, a + n) touches. -/
def linesOf (a n : Nat) : List Nat := if n = 0 then [] else tabulate ((a + n - 1) / 64 - a / 64 + 1) fun i => a / 64 + i

/-- Bytes of [a, a + n) have been written: the memory's injection points and earlier errors of those lines are settled
(R244, R247). -/
def memTouched (a n : Nat) (s : State) : State :=
  if injOn s ∨ s.coh.flips ≠ [] then
    (linesOf a n).foldl (fun s l => memWrote l s) s
  else s

/-- Write bytes to memory on the system plane, and clear the poison of lines written whole. -/
def memPut (a : Nat) (bs : List Byte) (s : State) : State :=
  let s := landBytes a bs s
  let whole := fun (l : Nat) => a ≤ l * 64 && l * 64 + 64 ≤ a + bs.length
  memTouched a bs.length { s with coh := { s.coh with poison := s.coh.poison.filter fun l => !whole l } }

/-- Poison a line, or clear its poison. -/
def setPoison (l : Nat) (p : Bool) (s : State) : State :=
  let ps := s.coh.poison.filter (· ≠ l)
  { s with coh := { s.coh with poison := if p then l :: ps else ps } }

/-- What reads at an address of the tag arrays: the entries of elements outside exact ranges are 0, and so are bits [15:10] of
every entry (R225). -/
def tagMask (s : State) (a : Nat) : Byte :=
  let u := (a - tagBase) / 0x200000
  let e := (a - tagBase) % 0x200000 / 2
  if s.pl.nruRanges.any fun r => r.unit.val = u && r.mode = .exact && r.first ≤ e && e < r.first + r.count then
    (if a % 2 = 1 then 0x03 else 0xFF)
  else 0
/-- The bytes of memory as the system plane reads them: tensor writes landed on an earlier position are seen (R234). -/
def sysByte (s : State) (a : Nat) : Byte :=
  let b := (pwSort (s.pl.pw.filter fun w => w.addr = a && w.wcyc < s.cyc)).foldl pwByte (memGet s.mem a)
  if spaceOf a = .tag then b &&& tagMask s a else b
def sysMem (s : State) (a n : Nat) : List Byte := tabulate n fun i => sysByte s (a + i)

/-- Errors met by a system-plane read of a line: records, and whether the data is poisoned; for a tile's system channel the
step aborts (R245, R443). -/
def eccSys (p : ReqPort) (l : Nat) (codes : List Nat) (s : State) : Bool × State :=
  (s.coh.flips.filter fun e => e.line = l && codes.contains e.code.toNat).foldl (fun acc e =>
    let ue := isUeCode e.code.toNat
    let pod := ue && 129 ≤ p.val && p.val ≤ 136 && announces acc.2
    (acc.1 || ue, report e.code.toNat e.src.toNat acc.2.cyc (l * 64) (e.pos + p.val * 2 ^ 16) 0 true pod acc.2))
    (false, s)

/-! ## The HBM channels on the system plane (R189, R237, R238) -/

/-- The first position at or after `q` that lies in a system window beyond its 32 reserved positions. -/
def usablePos (s : State) (q : Nat) : Nat :=
  let first := 4096 - s.pl.wsys + 32
  if q % 4096 < first then q - q % 4096 + first else q
/-- The frame position on which a request reaches its channel now, counted from tile cycle 0. -/
def posNow (s : State) : Nat := (s.cyc + 1) / 2
/-- The present cycle lies in a usable system window. -/
def windowOpen (s : State) : Bool := usablePos s (s.cyc / 2) = s.cyc / 2
/-- The position on which a request accepted now lands: the first usable one at or after p + 40 that no earlier request of the
queue has taken. -/
def landPos (s : State) (q : List HbmReq) : Nat :=
  let free := match q.getLast? with | some r => r.land + 1 | none => 0
  usablePos s (max (posNow s + 40) free)
/-- One HBM channel. -/
def hbmChanAt (s : State) (c : Nat) : HbmChan := smapGet {} s.coh.hbmq c
/-- Replace it. -/
def setHbmChan (c : Nat) (x : HbmChan) (s : State) : State := { s with coh := { s.coh with hbmq := smapSet {} c x s.coh.hbmq } }
/-- A request is on its way back to its home slice or agent. -/
def hbmReply (r : HbmReq) (due : Nat) (d : LineData) (po err : Bool) (s : State) : State :=
  { s with coh := { s.coh with hbmData := s.coh.hbmData ++ [⟨due, r.req, r.use, d, po, err⟩] } }
/-- The controller accepts a request into its queue: an agent's request is checked then (R231, R233). -/
def hbmAccept (r : HbmReq) (s : State) : State :=
  let c := hbmChan r.req.addr
  let (no, s) := if r.use = .agent then regionRefuses r.req.port r.req.addr (portMay s r.req.port r.req.wr.isSome r.req.addr) s
    else (false, s)
  if no then hbmReply r s.cyc 0 false true s
  else
    let x := hbmChanAt s c
    let r := { r with land := landPos s x.q }
    sched (2 * r.land) (.systemWindowOpen ⟨c % 192, by omega⟩) (setHbmChan c { x with q := x.q ++ [r] } s)
/-- A request reaches its channel: a full queue holds it at the home slice. -/
def hbmEnqueue (q : SysReq) (use : MemUse) (s : State) : State :=
  let c := hbmChan q.addr
  let x := hbmChanAt s c
  let r : HbmReq := ⟨q, use, 0⟩
  if 64 ≤ x.q.length then setHbmChan c { x with wait := x.wait ++ [r] } s else hbmAccept r s
/-- Write a line to memory under byte enables: poison stays unless the whole line is clean (R245). -/
def lineToMem (a : Nat) (d : LineData) (be : BitVec 64) (po : Bool) (s : State) : State :=
  let old := bytesLine (sysMem s (a / 64 * 64) 64)
  let keep := s.coh.poison.contains (a / 64) && be ≠ BitVec.allOnes 64
  setPoison (a / 64) (po || keep) (memPut (a / 64 * 64) (lineBytes (mergeLine old d be)) s)
/-- A request lands on its position: a read takes the line's data, a write stands in memory; the answer reaches the home slice
8 MCLK later. -/
def hbmServe (r : HbmReq) (s : State) : State :=
  let a := r.req.addr
  match r.req.wr with
  | none =>
    let d := bytesLine (sysMem s (a / 64 * 64) 64)
    let po := s.coh.poison.contains (a / 64)
    let (ue, s) := eccSys r.req.port (a / 64) (memCodes a) (linkBurst a s)
    hbmReply r (s.cyc + 16) d (po || ue) false s
  | some (d, be, po) =>
    let s := lineToMem a d be po s
    if r.use = .post then s else hbmReply r (s.cyc + 16) 0 false false s
/-- Requests that a full queue held enter it as places come free. -/
def hbmFill (c : Nat) : List HbmReq → State → State
  | [], s => setHbmChan c { hbmChanAt s c with wait := [] } s
  | r :: rest, s =>
    if 64 ≤ (hbmChanAt s c).q.length then setHbmChan c { hbmChanAt s c with wait := r :: rest } s
    else hbmFill c rest (hbmAccept r s)
/-- The requests of a channel whose positions have come are served, first in, first out. -/
def hbmOpen (c : Nat) (s : State) : State :=
  let x := hbmChanAt s c
  let due := x.q.takeWhile fun r => 2 * r.land ≤ s.cyc
  let s := due.foldl (fun s r => hbmServe r s) (setHbmChan c { x with q := x.q.drop due.length } s)
  hbmFill c x.wait s
/-- A line that the home writes back to its memory: HBM through its channel (R189). -/
def memPost (l : Line) (d : LineData) (po : Bool) (s : State) : State :=
  if inHbm (lineAddr l) then hbmEnqueue ⟨128, lineAddr l, some (d, BitVec.allOnes 64, po)⟩ .post s
  else lineToMem (lineAddr l) d (BitVec.allOnes 64) po s
/-- The latest write-back of a line that still waits in its channel: a later read is served after it. -/
def posted (s : State) (l : Line) : Option (LineData × Bool) :=
  if s.coh.hbmq.isEmpty then none
  else
    let x := hbmChanAt s (hbmChan (lineAddr l))
    ((x.q ++ x.wait).filterMap fun r =>
      if r.use = .post && r.req.addr = lineAddr l then r.req.wr.map fun w => (w.1, w.2.2) else none).getLast?

/-! ## The value of a line -/

/-- What lies behind the L3: device memory, or the HMC and then host memory (R253, R266). -/
def memLine (s : State) (l : Line) : LineData × Bool :=
  let h := hmcGet s l
  if hostLine l && h.st ≠ .i then (h.data, h.poison)
  else match posted s l with
    | some x => x
    | none => (bytesLine (sysMem s (lineAddr l) 64), s.coh.poison.contains l.toNat)

/-- From the L3 on a hit and from memory on a miss (R253). -/
def homeLine (s : State) (l : Line) : LineData × Bool :=
  let x := l3Get s l
  if x.valid then (x.data, x.poison) else memLine s l

/-- The home's read for port `p`, with its errors. -/
def homeRead (p : ReqPort) (l : Line) (s : State) : (LineData × Bool) × State :=
  let (d, po) := homeLine s l
  let hit := (l3Get s l).valid
  let (ue, s) := eccSys p l.toNat (if hit then [eL3Ce, eL3Ue] else memCodes (lineAddr l))
    (if hit then s else linkBurst (lineAddr l) s)
  ((d, po || ue), s)

/-- The other lines that share a line's slice and set of the L3: 4 MiB and 16 ways of 64 bytes make 4,096 sets (Table 10.2). -/
def l3Mates (s : State) (l : Line) : List Line :=
  if s.coh.l3.length < 16 then []
  else
    let mine := s.coh.l3.filter fun p => p.2.valid && p.1 ≠ l.toNat && sliceOf (BitVec.ofNat 46 p.1) = sliceOf l
    (mine.filter fun p => Config.l3Set p.1 % 4096 = Config.l3Set l.toNat % 4096).map fun p => BitVec.ofNat 46 p.1
/-- An L3 line is evicted: a dirty one is written to its memory, a host line into the HMC (R253). -/
def l3Evict (v : Line) (s : State) : State :=
  let x := l3Get s v
  let s := setL3 v {} s
  if !x.dirty then s
  else if hostLine v && (hmcGet s v).st ≠ .i then setHmc v { st := .m, data := x.data, poison := x.poison } s
  else memPost v x.data x.poison s
/-- Room for a line in the L3: of a full set one line is evicted. -/
def l3Room (l : Line) (s : State) : State :=
  let ms := l3Mates s l
  if (l3Get s l).valid || ms.length < 16 then s
  else match ms[Config.l3Victim s.fresh % ms.length]? with
    | some v => useFree (l3Evict v s)
    | none => s

/-- Write a line into the L3, dirty (R258). -/
def putL3 (l : Line) (d : LineData) (poison : Bool) (s : State) : State :=
  let s := dropFlips l.toNat [eL3Ce, eL3Ue] (l3Room l s)
  let n := s.coh.flips.length
  let s := injWrite l.toNat eL3Ue (srcOf 5 (sliceOf l)) (injWrite l.toNat eL3Ce (srcOf 5 (sliceOf l)) s)
  let ue := (s.coh.flips.drop n).any fun e => isUeCode e.code.toNat
  let d := if ue then bytesLine (freeLine s l.toNat) else d
  setL3 l { valid := true, data := d, dirty := true, poison := poison } (if ue then useFree s else s)

/-- Every state of a core L2 in which it holds the line's data. -/
def l2Holds (x : L2St) : Bool :=
  match x with
  | .m | .o | .e | .omA | .miA | .oiA | .eiA => true
  | _ => false

/-- The owner's data when an owner exists, else the L3's or memory's (R263). -/
def cohLine (s : State) (l : Line) : LineData × Bool :=
  let d := dirGet s l
  let o := l2Get s (ownerOf d) l
  if (d.st = .ex || d.st = .os) && l2Holds o.st then (o.data, o.poison) else homeLine s l

/-- The snoop-filter read of a lookup, with its errors: SF_CE is a record, SF_UE is fatal (R274). -/
def sfRead (l : Line) (s : State) : State :=
  (s.coh.flips.filter fun e => e.line = l.toNat &&
      (e.code = BitVec.ofNat 16 eSfCe || e.code = BitVec.ofNat 16 eSfUe)).foldl
    (fun s e => if e.code = BitVec.ofNat 16 eSfCe then report eSfCe e.src.toNat s.cyc (lineAddr l) e.pos 0 true false s
      else fatal eSfUe e.src.toNat (lineAddr l) e.pos true s) s

/-! ## Invalidation -/

/-- What an Inv leaves of a core's copy (Tables 11.4 and 11.5). -/
def invalidated (x : L2Line) : L2Line :=
  match x.st with
  | .m | .o | .e | .s | .i => {}
  | .miA | .oiA | .eiA | .siA | .iiA => { st := .iiA, no := x.no }
  | .smA | .omA => { x with st := .imAd, data := 0, poison := false }
  | .isD | .imAd => x

/-- Take every copy of an idle line at once: what Inv to each holder leaves, with the directory at NP. -/
def takeCopies (l : Line) (s : State) : State :=
  let d := dirGet s l
  let cs := (if d.st = .ex || d.st = .os then [ownerOf d] else []) ++ sharersOf d
  let s := cs.foldl (fun s c => setL2 c l (invalidated (l2Get s c l)) s) s
  setDir l { d with st := .np, owner := 0, sharers := hmcOnly d.sharers, alloc := hmcOnly d.sharers ≠ 0 } s

/-! ## Answers to agents without caches (R231, R251, R264) -/

/-- The row that a waiting request becomes. -/
def rowOfReq (q : PortReq) : Instr :=
  match q.req with
  | .place p d po => .place p ⟨q.line, q.no⟩ ⟨d, po⟩
  | .merge p d be po => .merge p ⟨q.line, q.no⟩ ⟨d, po⟩ be
  | _ => .peek q.port ⟨q.line, q.no⟩
/-- The port has a request outstanding for the line, or the module 64 of them. -/
def portFull (s : State) (p : ReqPort) (l : Line) : Bool :=
  (s.coh.outst.any fun x => x.port = p && x.line = l) || (isTileModule p && 64 ≤ (s.coh.outst.filter fun x => x.port = p).length)
/-- A request of the port has been answered: the oldest one that waits and may leave now leaves. -/
def portDone (p : ReqPort) (l : Line) (s : State) : State :=
  let s := { s with coh := { s.coh with outst := s.coh.outst.filter fun x => !(x.port = p && x.line = l) } }
  match s.coh.portq.find? fun q => q.port = p && !portFull s p q.line with
  | some q => schedNow (rowOfReq q) { s with coh := { s.coh with portq := s.coh.portq.erase q } }
  | none => s
/-- An answer reaches a tile's system channel: the transfer that awaits the line takes the data; poison aborts the step
(R157, R245). -/
def fillXfer (p : ReqPort) (l : Line) (d : LineData) (po : Bool) (s : State) : State :=
  let wr := s.coh.outst.any fun x => x.port = p && x.line = l && x.wr
  let mine := fun (x : SysXfer) => modulePort x.tile = p && x.wr = wr && x.left.contains l.toNat
  match s.pl.xfers.find? mine with
  | none => s
  | some x =>
    let y := { x with left := x.left.erase l.toNat, got := x.got ++ [(l.toNat, d)] }
    let s := { s with pl := { s.pl with xfers := s.pl.xfers.map fun z => if z.id = x.id then y else z } }
    if po && running s then stepAbort eLpUe false s.cyc s else s
/-- What reaches a core; one held in reset takes nothing (R392). -/
def toCore (c : CoreId) (o : Out) (s : State) : State := if s.ck.corePend.getLsbD c.val then s else emit o s
/-- The home's or controller's answer to an agent without a cache: data or completion, poison, error bit. A core that reads
poison takes a hardware-error exception (R245). -/
def reply (p : ReqPort) (l : Line) (d : LineData) (po err : Bool) (s : State) : State :=
  let s := emit (.data p l d po err) s
  let s := if h : p.val < 128 then (if po then toCore ⟨p.val, h⟩ (.coreExc ⟨p.val, h⟩ true) s else s) else s
  portDone p l (fillXfer p l d po s)

/-! ## Whole accesses by agents without caches -/

/-- A write of a whole or partial line of device memory, taken by an idle home at once: every copy is invalidated and the merged
line is in the L3 (R258, R263). -/
def homeWrite (l : Line) (d : LineData) (be : BitVec 64) (s : State) : State :=
  let (old, po) := cohLine s l
  putL3 l (mergeLine old d be) (po && be ≠ BitVec.allOnes 64) (takeCopies l (sfRead l s))

/-- Byte enables for `n` bytes from byte `o` of a line. -/
def beOf (o n : Nat) : BitVec 64 := BitVec.ofNat 64 ((2 ^ n - 1) * 2 ^ o)

/-- The pieces of [a, a + n) by line: address, offset in the list, length. -/
def pieces (a n : Nat) : List (Nat × Nat × Nat) :=
  (linesOf a n).map fun l => let lo := max a (l * 64); let hi := min (a + n) (l * 64 + 64); (lo, lo - a, hi - lo)

/-- Coherence covers the address (R227, R229). -/
def coherentAt (s : State) (a : Nat) : Bool := match spaceOf a with | .hbm | .lp | .host => !tensorOwned s a | _ => false
/-- A Peek of a host line that the device does not hold goes to the host as RdCurr (Table 11.7). DESIGN CHOICE (entry 165): to
host-link DMA the host answers at once, with what host memory holds. -/
def askCurr (l : Line) (s : State) : State :=
  let d := dirGet s l
  if hostLine l && (hmcGet s l).st = .i && !(l3Get s l).valid && d.st ≠ .ex && d.st ≠ .os then emit (.cxl "RdCurr" l none 0) s else s
/-- The Peeks of [a, a + n). -/
def askCurrs (a n : Nat) (s : State) : State :=
  (linesOf a n).foldl (fun s k => if coherentAt s (k * 64) then askCurr (BitVec.ofNat 46 k) (sfRead (BitVec.ofNat 46 k) s) else s) s

/-- Bytes [a, a + n) as an agent without a cache reads them: from memory for a tensor-owned range, a local store, an
NRU window or a tag array, else the coherent line. -/
def readByte (s : State) (a : Nat) : Byte :=
  if coherentAt s a then (lineBytes (cohLine s (addrLine a)).1).getD (a % 64) 0 else sysByte s a
/-- The same for a range, line by line. -/
def readBytes (s : State) (a n : Nat) : List Byte :=
  (pieces a n).flatMap fun q =>
    if coherentAt s q.1 then ((lineBytes (cohLine s (addrLine q.1)).1).drop (q.1 % 64)).take q.2.2 else sysMem s q.1 q.2.2
/-- Errors met by port `p` on reading those lines of [a, a + n) that hold any (R244, R245): whether one is uncorrectable. -/
def eccLines (p : ReqPort) (a n : Nat) (s : State) : Bool × State :=
  (((s.coh.flips.map (·.line)).eraseDups.filter fun l => lineHit a n l).foldl (fun (acc : Bool × State) l =>
    let (u, s) := eccSys p l (if (l3Get acc.2 (BitVec.ofNat 46 l)).valid then [eL3Ce, eL3Ue] else memCodes (l * 64)) acc.2
    (acc.1 || u, s)) (false, s))
/-- A line of [a, a + n) is poisoned. -/
def readPoison (s : State) (a n : Nat) : Bool :=
  (linesOf a n).any fun l => (cohLine s (BitVec.ofNat 46 l)).2

/-- A read by an agent without a cache, with its errors: bytes, poison, state. -/
def sysRead (p : ReqPort) (a n : Nat) (s : State) : (List Byte × Bool) × State :=
  let bs := readBytes s a n
  let po := readPoison s a n
  let (ue, s) := (linesOf a n).foldl (fun (acc : Bool × State) k =>
    let l := BitVec.ofNat 46 k
    let s := if coherentAt acc.2 (k * 64) then askCurr l (sfRead l acc.2) else acc.2
    let hit := (l3Get s l).valid
    let (u, s) := eccSys p k (if hit then [eL3Ce, eL3Ue] else memCodes (k * 64)) (if hit then s else linkBurst (k * 64) s)
    (acc.1 || u, s)) (false, s)
  ((bs, po || ue), s)

/-- The home holds the line busy (R256). -/
def lineBusy (s : State) (l : Line) : Bool := let t := txnGet s l; t.cur.isSome || t.way.isSome

/-- A request of a port still waits, or has no answer yet. -/
def reqOpen (s : State) (no : TxnNo) : Bool := s.coh.outst.any (fun x => x.no = no) || s.coh.portq.any fun q => q.no = no

/-- A home or a channel still has work on a line of [a, a + n). -/
def rangeBusy (s : State) (a n : Nat) : Bool :=
  let hit := fun (x : Nat) => x < a + n && a < x + 64
  (s.coh.busy.any fun p => (p.2.cur.isSome || p.2.way.isSome) && hit (p.1 * 64)) ||
    s.coh.hbmq.any fun c => (c.2.q ++ c.2.wait).any fun r => hit (r.req.addr / 64 * 64)
/-- The ranges of an access by host-link DMA can be read and written now: no home or channel has work on them, and HBM is in a
system window (R189, R256). DESIGN CHOICE (entry 165): the accesses of one command are made together on such a cycle. -/
def rangesFree (s : State) (rs : List (Nat × Nat)) : Bool :=
  rs.all fun r => r.2 = 0 || (!rangeBusy s r.1 r.2 && (!(inHbm r.1 || inHbm (r.1 + r.2 - 1)) || windowOpen s))

/-- Serve one request to a local store, an NRU window or a tag array (R240), checked by Table 10.4 then. -/
def serveReq (r : SysReq) (s : State) : State :=
  let l := addrLine r.addr
  let (no, s) := regionRefuses r.port r.addr (portMay s r.port r.wr.isSome r.addr) s
  if no then reply r.port l 0 false true s
  else match r.wr with
    | none =>
      let d := bytesLine (sysMem s (r.addr / 64 * 64) 64)
      let po := s.coh.poison.contains (r.addr / 64)
      let (ue, s) := eccSys r.port (r.addr / 64) (memCodes r.addr) s
      reply r.port l d (ue || po) false s
    | some (d, be, po) => reply r.port l 0 false false (lineToMem r.addr d be po s)

/-- Serve every held access to a local store, an NRU window or a tag array (R240). -/
def serveHeld (s : State) : State :=
  s.coh.held.foldl (fun s r => serveReq r s) { s with coh := { s.coh with held := [] } }

end Sys2Proof.Machine
end

