-- ==== Sys2Proof/Machine/RegRead.lean ====
section
/-! DEFINITION. What the registers show: the Turnpike ports' state, error records as bytes, and the value of each 32-bit
word of the register map (20_register_map). -/

namespace Sys2Proof.Machine

/-! ## Turnpike ports (R312, R313, R316) -/

/-- The state of a port. -/
def portSt (s : State) (p : Port) : PortSt := smapGet {} s.tp.ports p.val
/-- Replace it. -/
def setPort (p : Port) (x : PortSt) (s : State) : State :=
  { s with tp := { s.tp with ports := smapSet {} p.val x s.tp.ports } }
/-- A port from a number, modulo 8. -/
def portOf (n : Nat) : Port := ⟨n % 8, by omega⟩
/-- TP.PCTLn. -/
def pctl (s : State) (p : Port) : Nat := (reg32 s (0x50000 + 0x10 * p.val)).toNat
/-- R313 holds the port disabled. -/
def portBarred (s : State) (p : Port) : Bool :=
  ((p.val = 4 || p.val = 5) && myPodZ s = 1) || ((p.val = 6 || p.val = 7) && myPods s = 1)
/-- TP.PCTLn.EN as it reads. -/
def portEn (s : State) (p : Port) : Bool := bitOf (pctl s p) 0 && !portBarred s p
/-- STATE codes of Table 13.6. -/
def stTraining : BitVec 3 := 1
def stUp : BitVec 3 := 2
def stDown : BitVec 3 := 3
/-- The port is up. -/
def portUp (s : State) (p : Port) : Bool := (portSt s p).state = stUp
/-- Frame length P at a width code: 144, 288 or 576 TCLK for widths 4, 2 and 1 (R303). -/
def frameP (w : BitVec 2) : Nat := if w = 2 then 144 else if w = 1 then 288 else 576
/-- The cage of a port (Table 13.1). -/
def cageOf (p : Port) : Cage := ⟨p.val / 2, by omega⟩
/-- All eight ports. -/
def allPorts : List Port := List.finRange 8

/-! ## Records (Table 19.6) -/

/-- The 64 bytes of a record. -/
def recBytes (r : Rec) : List Byte :=
  leBytes 2 r.code.toNat ++ leBytes 2 r.src.toNat ++ leBytes 4 r.seq.toNat ++ leBytes 8 r.tcyc.toNat ++
  leBytes 8 r.addr.toNat ++ leBytes 8 r.info0.toNat ++ leBytes 8 r.info1.toNat ++ leBytes 4 r.count.toNat ++
  leBytes 1 r.flags.toNat ++ zeros 3 ++ leBytes 8 r.step.toNat ++ leBytes 4 r.hours.toNat ++ zeros 4

/-! ## Computed words (R448, R450, R452, Table 20.1) -/

/-- The low or the high word of a 64-bit value. -/
def halfOf (hi : Bool) (x : Nat) : W32 := BitVec.ofNat 32 (if hi then x / 2 ^ 32 else x)
/-- ID.PART and ID.STEP (Table 20.2). -/
def idPart : Nat := 0x09601F8E
def idStep : Nat := 0xA0

/-- CLK.STAT (Table 16.1). -/
def rdClkStat (s : State) : Nat :=
  s.ck.refcnt.toNat * 2 ^ 16 + b2n (0 < s.pwr.level) * 8 + b2n s.ck.refok * 4 + b2n s.ck.lock * 2
/-- RST.CAUSE (Table 16.3). -/
def rdCause (s : State) : Nat := s.ck.restart.toNat * 2 ^ 9 + s.ck.cause.toNat
/-- CFG.STAT (Table 16.9). -/
def rdCfgStat (s : State) : Nat :=
  s.ck.cfgSeqno.toNat * 2 ^ 32 + b2n s.ck.ready * 2 ^ 8 + s.ck.cfgFails.toNat * 2 ^ 4 + b2n s.ck.fallback * 8 +
    b2n s.ck.bbad * 4 + b2n s.ck.abad * 2 + b2n s.ck.bank
/-- HOST.RLOADn and HOST.RCTLn (Table 12.2). -/
def rdRload (x : RingSt) : Nat := x.stall.toNat * 2 ^ 32 + x.hwm.toNat
def rdRctl (s : State) (n : Nat) : Nat :=
  let x := smapGet {} s.hf.rings n
  x.haltCode.toNat * 2 ^ 16 + b2n (!(s.hf.cmds.any fun c => c.desc.ring.val = n)) * 4 + b2n x.halted * 2 + b2n x.en
/-- HOST.PARK (Table 12.9). -/
def rdPark (s : State) : Nat :=
  b2n s.hf.parked * 2 ^ 31 + b2n s.hf.lost * 2 ^ 30 + bitsOf (reg32 s 0x11004).toNat 12 8 * 2 ^ 8
/-- MEM.FRAME, NRU.STATu (Table 20.4). -/
def rdFrame (s : State) : Nat := (match s.pl.staged with | some im => im.wsys | none => 0) * 2 ^ 16 + s.pl.wsys
def rdNruStat (s : State) (u : Nat) : Nat :=
  let rs := s.pl.nruRanges.filter fun r => r.unit.val = u
  let has := fun (m : NruMode) => b2n (rs.any fun r => r.mode = m)
  (has .plain + 2 * has .compensated + 4 * has .exact) * 2 ^ 16 + min rs.length 255 * 2 ^ 8 + b2n (running s)
/-- TP.PCTLn and TP.PSTATn (Tables 13.5, 13.6). -/
def rdPctl (s : State) (n : Nat) : Nat := pctl s (portOf n) / 2 * 2 + b2n (portEn s (portOf n))
def rdPstat (s : State) (n : Nat) : Nat :=
  let x := portSt s (portOf n)
  x.hoprc.toNat * 2 ^ 32 + x.hop.toNat * 2 ^ 20 + x.lgood.toNat * 2 ^ 16 + x.width.toNat * 2 ^ 14 + x.state.toNat * 2 ^ 11
/-- TP.CAGE (Table 20.5). -/
def rdCage (s : State) : Nat :=
  (List.range 4).foldl (fun v k =>
    let c := smapGet {} s.tp.cages k
    v + b2n c.present * 2 ^ k + b2n c.app * 2 ^ (4 + k)) 0
/-- MS.STAT (Table 15.2). -/
def rdMsStat (s : State) : Nat :=
  s.cm.step.toNat * 2 ^ 16 + phaseCode s.cm.phase * 2 ^ 9 + b2n s.cm.cg * 2 ^ 8 + b2n s.cm.lastok * 4 +
    b2n s.cm.stream * 2 + b2n s.cm.frozen
/-- SPn.STAT (Table 20.7). -/
def rdSpStat (s : State) (n : Nat) : Nat :=
  let x := smapGet {} s.sp n
  x.link.toNat * 2 ^ 30 + x.qps.toNat * 2 ^ 28 + b2n x.fail * 2 ^ 27
/-- PWR.STAT (Table 17.4). -/
def rdPwrStat (s : State) : Nat :=
  b2n s.pwr.ttrip * 2 ^ 31 + b2n s.pwr.uv * 2 ^ 30 + b2n s.pwr.ov * 2 ^ 29 + s.pwr.level * 2 ^ 24 + s.pwr.lastf.toNat
/-- SEC.STAT, SEC.RCNT, SEC.MBCTL (Table 20.8). -/
def rdSecStat (s : State) : Nat :=
  let o := s.sec.owner
  let bit := fun (f : Owner → Bool) => b2n (match o with | some x => f x | none => false)
  s.sec.svn.toNat * 2 ^ 32 + b2n s.sec.slot * 2 ^ 11 + b2n s.sec.dik * 2 ^ 10 + bit (·.dbgdrk) * 2 ^ 9 +
    bit (·.cosign) * 2 ^ 8 + bit (·.reqsig) * 2 ^ 7 + b2n o.isSome * 2 ^ 6 + s.sec.level.toNat
def rdRcnt (s : State) : Nat := match s.sec.owner with | some x => x.rcnt.toNat | none => 0
def rdMbctl (s : State) : Nat :=
  b2n s.sec.mbBusy * 2 ^ 29 + b2n s.sec.mbDone * 2 ^ 28 + s.sec.mbRlen * 2 ^ 13 + bitsOf (reg32 s 0x80010).toNat 12 0
/-- ERR.STAT (Table 19.8). -/
def rdErrStat (s : State) : Nat := s.log.seq.toNat * 2 ^ 32 + s.log.lost.toNat * 2 ^ 16 + s.log.recs.length
/-- The ERR.LOG window (R461): record i at 64 i, 0 from entry HELD on. -/
def rdLog (s : State) (o : Nat) : Nat :=
  match s.log.recs[o / 64]? with | some r => leField (recBytes r) (o % 64) 4 | none => 0

/-- The word of one ring's registers at offset `o` of its block. -/
def ringWord (s : State) (n o : Nat) : W32 :=
  if o = 0x10 then halfOf false (rdRload (smapGet {} s.hf.rings n))
  else if o = 0x14 then halfOf true (rdRload (smapGet {} s.hf.rings n))
  else if o = 0x1C then halfOf false (rdRctl s n)
  else if o < 0x1C then reg32 s (0x10000 + 0x40 * n + o)
  else 0
/-- The word at offset `o` of a snapshot port's block. -/
def spWord (s : State) (n o : Nat) : W32 :=
  if o = 4 then halfOf false (rdSpStat s n)
  else if o = 0x50 then halfOf false (smapGet {} s.sp n).bytes.toNat
  else if o = 0x54 then halfOf true (smapGet {} s.sp n).bytes.toNat
  else if o < 0x50 then reg32 s (0x60100 + 0x100 * n + o)
  else 0

/-- Blocks 0x0000 to 0x3FFF. -/
def wordBase (s : State) (off : Nat) : W32 :=
  if off = 0 then halfOf false idPart
  else if off = 4 then halfOf false idStep
  else if off = 0x1000 then halfOf false (rdClkStat s)
  else if off = 0x1008 then halfOf false s.cyc
  else if off = 0x100C then halfOf true s.cyc
  else if off = 0x2000 then halfOf false (rdCause s)
  else if off = 0x2008 then reg32 s off
  else if off = 0x200C then s.ck.blockPend
  else if 0x2010 ≤ off ∧ off < 0x2020 then BitVec.ofNat 32 (s.ck.corePend.toNat >>> (8 * (off - 0x2010)))
  else if off = 0x3000 then halfOf false (rdCfgStat s)
  else if off = 0x3004 then halfOf true (rdCfgStat s)
  else if (8 ≤ off ∧ off < 0x18) ∨ (0x3008 ≤ off ∧ off < 0x3018 ∧ off ≠ 0x300C) then reg32 s off
  else 0
/-- Blocks 0x1_0000 to 0x5_FFFF. -/
def wordWork (s : State) (off : Nat) : W32 :=
  if off < 0x11000 then ringWord s ((off - 0x10000) / 0x40) (off % 0x40)
  else if off = 0x11000 then reg32 s off
  else if off = 0x11004 then halfOf false (rdPark s)
  else if 0x20000 ≤ off ∧ off < 0x20404 then reg32 s off
  else if off = 0x30000 then reg32 s off
  else if off = 0x30004 then halfOf false (rdFrame s)
  else if 0x40000 ≤ off ∧ off < 0x400C0 then
    let u := (off - 0x40000) / 16
    if off % 16 = 0 then halfOf false (rdNruStat s u)
    else if off % 16 = 4 then 0
    else halfOf (off % 16 = 12) (smapGet 0 s.pl.nruOps u).toNat
  else if 0x50000 ≤ off ∧ off < 0x50080 then
    let n := (off - 0x50000) / 16
    if off % 16 = 0 then halfOf false (rdPctl s n)
    else if off % 16 = 4 then 0
    else halfOf (off % 16 = 12) (rdPstat s n)
  else if off = 0x50100 then reg32 s off
  else if off = 0x50104 then halfOf false (rdCage s)
  else 0
/-- Blocks 0x6_0000 to 0xD_FFFF. -/
def wordService (s : State) (off : Nat) : W32 :=
  if off = 0x60008 then halfOf false (rdMsStat s)
  else if off = 0x6000C then halfOf true (rdMsStat s)
  else if off < 0x60018 ∨ (0x60020 ≤ off ∧ off < 0x60040) then reg32 s off
  else if 0x60100 ≤ off ∧ off < 0x60300 then spWord s ((off - 0x60100) / 0x100) (off % 0x100)
  else if off = 0x70008 then halfOf false (rdPwrStat s)
  else if 0x70000 ≤ off ∧ off < 0x70010 then reg32 s off
  else if off = 0x80000 then halfOf false (rdSecStat s)
  else if off = 0x80004 then halfOf true (rdSecStat s)
  else if off = 0x80008 then halfOf false (rdRcnt s)
  else if off = 0x80010 then halfOf false (rdMbctl s)
  else if 0x81000 ≤ off ∧ off < 0x82000 then BitVec.ofNat 32 (leField s.sec.mbReq (off - 0x81000) 4)
  else if 0x82000 ≤ off ∧ off < 0x83000 then
    (if s.sec.mbBusy then 0 else BitVec.ofNat 32 (leField s.sec.mbRsp (off - 0x82000) 4))
  else if off = 0x90004 then reg32 s off
  else if off = 0x90008 then halfOf false (rdErrStat s)
  else if off = 0x9000C then halfOf true (rdErrStat s)
  else if 0x90100 ≤ off ∧ off < 0x90180 then reg32 s off
  else if 0xA0000 ≤ off ∧ off < 0xE0000 then BitVec.ofNat 32 (rdLog s (off - 0xA0000))
  else 0
/-- The MSI-X table and pending-bit array (R462). -/
def wordMsix (s : State) (off : Nat) : W32 :=
  if 0xF00000 ≤ off ∧ off < 0xF00200 then reg32 s off
  else if off = 0xF01000 then s.hf.msixPend
  else 0

/-- The 32-bit word at an offset, whoever reads it; 0 where no register lies (R12). -/
def regWord (s : State) (off : Nat) : W32 :=
  if off < 0x10000 then wordBase s off
  else if off < 0x60000 then wordWork s off
  else if off < 0xE0000 then wordService s off
  else wordMsix s off

/-- Offsets that respond only on BAR0, and offsets that respond only on the system plane (R450). -/
def bar0Only (off : Nat) : Bool := 0xF00000 ≤ off
def sysOnly (off : Nat) : Bool := off = 0x80010 || (0x81000 ≤ off && off < 0x83000)
/-- The offset responds on the path: `sys` is the system plane, else BAR0. -/
def onPath (sys : Bool) (off : Nat) : Bool := if sys then !bar0Only off else !sysOnly off

/-- The register belongs to a link port, a snapshot port or the front end that is held in reset: a read returns zeros and a
write has no effect (R392; DEDUCED, entry 161). -/
def isoReg (s : State) (off : Nat) : Bool :=
  if (0x10000 ≤ off ∧ off < 0x11008) ∨ 0x1000000 ≤ off then inBlockReset s 0
  else if 0x50000 ≤ off ∧ off < 0x50080 then inBlockReset s (4 + (off - 0x50000) / 16)
  else if 0x60100 ≤ off ∧ off < 0x60300 then inBlockReset s (2 + (off - 0x60100) / 0x100)
  else false

/-- The 32-bit word at an offset as the system plane reads it. -/
def regRead (s : State) (off : Nat) : W32 := if onPath true off && !isoReg s off then regWord s off else 0
/-- The 32-bit word at an offset as BAR0 reads it. -/
def barRead (s : State) (off : Nat) : W32 := if onPath false off && !isoReg s off then regWord s off else 0

end Sys2Proof.Machine
end

