-- ==== Sys2Proof/Machine/Coherence.lean ====
section
/-! DEFINITION. The coherence protocol: requests at the home, snoops and responses at the cores, host snoops and grants
(11_coherence R255-R274, Tables 11.2 to 11.7). Every message is a row; a row that sends a message schedules the row
that receives it. -/

namespace Sys2Proof.Machine

/-- The parts of State that a coherence message leaves alone. -/
def cohOnly (s s' : State) : State :=
  { s' with cyc := s.cyc, hf := s.hf, tp := s.tp, sp := s.sp, ck := keepCk s s', pwr := s.pwr, tel := s.tel, sec := s.sec,
            log := s.log, fd := s.fd, i3c := s.i3c, pending := s.pending }

/-! ## Classes and numbers (R255) -/

/-- The class of a message; each uses its own virtual network. -/
inductive MsgClass where
  | request | snoop | response
  deriving DecidableEq, Repr
/-- The class of a coherence message (Table 11.2). -/
def msgClass (i : Instr) : Option MsgClass :=
  match i with
  | .gets .. | .getm .. | .upg .. | .putm .. | .puto .. | .pute .. | .peek .. | .place .. | .merge .. => some .request
  | .fwds .. | .fwdm .. | .fwdpeek .. | .inv .. => some .snoop
  | .datas .. | .datae .. | .datam .. | .ack .. | .nack .. => some .response
  | _ => none
/-- A transaction begins with the next number. -/
def withNo {β : Type} (k : TxnNo → State → β) (s : State) : β :=
  k s.coh.txns { s with coh := { s.coh with txns := s.coh.txns + 1 } }

/-! ## Snoop filter (R252, R259) -/

/-- The entry is in use: a core or agent 128 holds the line. -/
def dirUsed (d : DirEnt) : Bool := d.st ≠ .np || d.sharers ≠ 0

/-- The line to recall when the request needs a way of a full set: the least recently allocated of its 24 valid entries
(R259). -/
def wayVictim (s : State) (l : Line) : Option Line :=
  if (dirGet s l).alloc then none
  else
    let mine := s.coh.dir.filter fun p => p.2.alloc && sliceOf (BitVec.ofNat 46 p.1) = sliceOf l
    if mine.length < 24 then none
    else
      let set := mine.filter fun p => Config.sfSet p.1 % 4096 = Config.sfSet l.toNat % 4096
      if set.length < 24 then none
      else match set with
        | [] => none
        | p :: r => some (BitVec.ofNat 46 (r.foldl (fun a b => if b.2.age < a.2.age then b else a) p).1)

/-- Allocate the line's entry. -/
def allocDir (l : Line) (s : State) : State :=
  let d := dirGet s l
  if d.alloc then s
  else
    let s := { s with coh := { s.coh with allocs := s.coh.allocs + 1 } }
    setDir l { d with alloc := true, age := s.coh.allocs } s

/-- A write of the line's filter entry: armed injections leave an error in it (R247). -/
def sfWrote (l : Line) (s : State) : State :=
  let src := srcOf 5 (sliceOf l)
  injWrite l.toNat eSfUe src (injWrite l.toNat eSfCe src (dropFlips l.toNat [eSfCe, eSfUe] s))

/-- Set the directory state; an entry that records no holder gives its way back, unless a preempted request needs it (R269). -/
def dirTo (l : Line) (st : DirSt) (owner : Option CoreId) (sharers : BitVec 129) (s : State) : State :=
  let d := dirGet s l
  let o : BitVec 7 := match owner with | some c => BitVec.ofNat 7 c.val | none => 0
  let sh := hmcOnly d.sharers ||| (sharers &&& ~~~(1#129 <<< 128))
  let a := st ≠ .np || sh ≠ 0 || (d.alloc && (txnGet s l).under.isSome)
  sfWrote l (setDir l { d with st := st, owner := o, sharers := sh, alloc := a } s)

/-! ## Home messages -/

/-- A CXL.cache request (Table 11.7), with the data and byte enables of a write: the transaction waits for the host. While the
link is down the front end holds it (R298). -/
def askHost (name : String) (l : Line) (d : Option (LineData × Bool)) (be : BitVec 64) (s : State) : State :=
  let s := setTxn l { txnGet s l with grant := true } { s with coh := { s.coh with link := s.coh.link ++ [⟨name, l, d, be⟩] } }
  if s.hf.linkUp then emit (.cxl name l d be) s else s
/-- The host has completed the oldest request for a line. -/
def linkDone (l : Line) (s : State) : State :=
  match s.coh.link.find? fun x => x.line = l with
  | some x => { s with coh := { s.coh with link := s.coh.link.erase x } }
  | none => s
/-- Every request without a completion is issued again, in its original order (R298). -/
def linkAgain (s : State) : State := s.coh.link.foldl (fun s x => emit (.cxl x.name x.line x.data x.be) s) s

/-- The number of the line's transaction. -/
def txnNo (s : State) (l : Line) : TxnNo := (txnGet s l).no

/-- Inv to each of a list of cores. -/
def sendInv (l : Line) (req : Option CoreId) (cs : List CoreId) (s : State) : State :=
  cs.foldl (fun s c => schedNow (.inv c ⟨l, txnNo s l⟩ req) s) s

/-- The HMC holds write permission from the host. -/
def hmcOwns (s : State) (l : Line) : Bool := let h := (hmcGet s l).st; h = .e || h = .m
/-- DataE may be granted to a GetS (R267). -/
def mayGrantE (s : State) (l : Line) : Bool := !hostLine l || hmcOwns s l

/-- The line's data for the transaction: what memory has just brought, else the L3's on a hit, else memory's. A read of HBM waits
for its channel's system window (R189, R253). -/
def homeData (p : ReqPort) (l : Line) (s : State) : Option (LineData × Bool) × State :=
  let t := txnGet s l
  match t.line with
  | some x => (some (x.data, x.poison), setTxn l { t with line := none } s)
  | none =>
    if !(l3Get s l).valid && inHbm (lineAddr l) then
      (none, hbmEnqueue ⟨p, lineAddr l, none⟩ .home (setTxn l { t with mem := true } s))
    else let (x, s) := homeRead p l s; (some x, s)
/-- Go on with the line's data once it is at hand. -/
def withData (p : ReqPort) (l : Line) (k : LineData → Bool → State → State) (s : State) : State :=
  match homeData p l s with
  | (some (d, po), s) => k d po s
  | (none, s) => s

/-- GetS at the home (Table 11.3). -/
def homeGets (c : CoreId) (l : Line) (s : State) : State :=
  let d := dirGet s l
  let x := txnNo s l
  match d.st with
  | .np => withData (corePort c) l (fun v po s =>
      if mayGrantE s l then schedNow (.datae c ⟨l, x⟩ v 0 po) s else schedNow (.datas c ⟨l, x⟩ v false po) s) s
  | .sh => withData (corePort c) l (fun v po s => schedNow (.datas c ⟨l, x⟩ v false po) s) s
  | .ex | .os => schedNow (.fwds (ownerOf d) ⟨l, x⟩ c) s

/-- GetM at the home, and Upg from a core that holds nothing (Table 11.3). -/
def homeGetm (c : CoreId) (l : Line) (s : State) : State :=
  let d := dirGet s l
  let x := txnNo s l
  let others := (sharersOf d).filter (· ≠ c)
  match d.st with
  | .np => withData (corePort c) l (fun v po s => schedNow (.datae c ⟨l, x⟩ v 0 po) s) s
  | .sh => withData (corePort c) l (fun v po s => schedNow (.datae c ⟨l, x⟩ v others.length po) (sendInv l (some c) others s)) s
  | .ex => schedNow (.fwdm (ownerOf d) ⟨l, x⟩ (some c)) s
  | .os => schedNow (.fwdm (ownerOf d) ⟨l, x⟩ (some c)) (sendInv l (some c) others s)

/-- The core holds the line by the directory. -/
def holder (d : DirEnt) (c : CoreId) : Bool :=
  match d.st with
  | .np => false
  | .sh => d.sharers.getLsbD c.val
  | .ex => ownerOf d = c
  | .os => ownerOf d = c || d.sharers.getLsbD c.val

/-- Upg at the home (Table 11.3). -/
def homeUpg (c : CoreId) (l : Line) (s : State) : State :=
  let d := dirGet s l
  if holder d c then
    let others := ((if d.st = .os then [ownerOf d] else []) ++ (if d.st = .ex then [] else sharersOf d)).filter (· ≠ c)
    schedNow (.ack (.granted c others.length) ⟨l, txnNo s l⟩) (sendInv l (some c) others s)
  else homeGetm c l s

/-- Put at the home: the directory's next state and the answer (Table 11.3). -/
def homePut (c : CoreId) (owned : Bool) (data : Option (LineData × Bool)) (l : Line) (s : State) : State :=
  let d := dirGet s l
  let isOwner := (d.st = .ex || d.st = .os) && ownerOf d = c
  let put := fun (s : State) => match data with | some (x, p) => putL3 l x p s | none => s
  let ok := schedNow (.ack (.putDone c) ⟨l, txnNo s l⟩)
  if isOwner then
    match d.st with
    | .os => if owned then ok (dirTo l .sh none d.sharers (put s)) else ok (dirTo l .sh none d.sharers s)
    | _ => ok (dirTo l .np none 0 (if owned then put s else s))
  else if (d.st = .sh || d.st = .os) && d.sharers.getLsbD c.val then
    let v := dropSharer c d.sharers
    if d.st = .os then ok (dirTo l .os (some (ownerOf d)) v s)
    else ok (dirTo l (if (sharersOf { d with sharers := v }).isEmpty then .np else .sh) none v s)
  else schedNow (.nack c ⟨l, txnNo s l⟩ false) s

/-- A Place or Merge takes effect once every copy is gone (R258, R270). Answers whether it is complete: a write that goes
through to the host waits for its completion, and a Merge for the line's data. A line that a core has changed goes to the host
whole. -/
def homeStore (p : ReqPort) (d : LineData) (be : BitVec 64) (po : Bool) (l : Line) (s : State) : Bool × State :=
  let whole : Bool := be = BitVec.allOnes 64
  if hostLine l then
    let h := hmcGet s l
    let x := l3Get s l
    let (old, opo) := homeLine s l
    let new := mergeLine old d be
    let po := po || (opo && !whole)
    let s := setL3 l {} (dirTo l .np none 0 s)
    if h.st = .m then (true, reply p l 0 false false (setHmc l { st := .m, data := new, poison := po } s))
    else
      let be := if x.valid && x.dirty then BitVec.allOnes 64 else be
      let s := setHmc l {} s
      (false, askHost (if whole then "ItoMWr" else "WrInv") l (some (new, po)) be
        (setTxn l { txnGet s l with line := some ⟨new, po, be⟩ } s))
  else
    match (if whole then (some (d, false), s) else homeData p l s) with
    | (some (old, opo), s) =>
      (true, reply p l 0 false false (putL3 l (mergeLine old d be) (po || (opo && !whole)) (dirTo l .np none 0 s)))
    | (none, s) => (false, s)

/-! ## Recalls, host snoops and HMC evictions (R259, R268, R269) -/

/-- The latest data of a host line goes to the HMC and the host; the L3 copy is dropped or kept clean (R268). -/
def answerSnoop (y : RecallWhy) (l : Line) (s : State) : State :=
  let x := l3Get s l
  let h := hmcGet s l
  let (d, po) := homeLine s l
  let dirty := x.dirty || h.st = .m
  let home := fun (s : State) => if dirty then lineToMem (lineAddr l) d (BitVec.allOnes 64) po s else s
  let fwd := if dirty then some (d, po) else none
  match y with
  | .snpData =>
    let s := home s
    let s := if x.valid then setL3 l { x with dirty := false } s else s
    let s := if h.st = .i then s else setHmc l { st := .s, data := d, poison := po } s
    emit (.cxl (if dirty then "RspSFwdM" else if h.st = .i then "RspIHitI" else "RspSHitSE") l fwd 0) s
  | .snpCur =>
    if h.st = .i then emit (.cxl "RspIHitI" l none 0) s else emit (.cxl "RspVFwdV" l (some (d, po)) 0) s
  | _ =>
    emit (.cxl (if dirty then "RspIFwdM" else if h.st = .i then "RspIHitI" else "RspIHitSE") l fwd 0)
      (setHmc l {} (setL3 l {} (home s)))

/-- A recall on behalf of the host. -/
def isSnoop (q : Pend) : Bool := q.req = .recall .snpInv || q.req = .recall .snpData || q.req = .recall .snpCur
/-- A host snoop that meets an HMC eviction in flight is answered from the eviction buffer: the host then has the data (R269). -/
def evictAnswer (y : RecallWhy) (l : Line) (s : State) : State :=
  let t := txnGet s l
  match t.line with
  | none => emit (.cxl "RspIHitI" l none 0) s
  | some x =>
    if y = .snpCur then emit (.cxl "RspVFwdV" l (some (x.data, x.poison)) 0) s
    else if x.be = 0 then emit (.cxl "RspIHitSE" l none 0) s
    else
      let s := lineToMem (lineAddr l) x.data x.be x.poison (setTxn l { t with line := some { x with be := 0 } } s)
      emit (.cxl "RspIFwdM" l (some (x.data, x.poison)) 0) s
/-- The HMC gives a line up: the eviction waits in its buffer for the host, and answers the snoops that have arrived. -/
def hmcEvict (l : Line) (s : State) : Bool × State :=
  let x := l3Get s l
  let h := hmcGet s l
  if h.st = .i then (true, s)
  else
    let (d, po) := homeLine s l
    let dirty := x.dirty || h.st = .m
    let be : BitVec 64 := if dirty then BitVec.allOnes 64 else 0
    let s := setHmc l {} (setL3 l {} s)
    let s := askHost (if dirty then "DirtyEvict" else "CleanEvict") l (if dirty then some (d, po) else none) be s
    let t := txnGet s l
    let s := setTxn l { t with line := some ⟨d, po, be⟩, queue := t.queue.filter fun q => !isSnoop q } s
    (false, (t.queue.filter isSnoop).foldl (fun s q =>
      match q.req with | .recall y => evictAnswer y l s | _ => s) s)

/-- The end of a recall: the directory state it leaves, and the host's answer. Answers whether it is complete. A way is free
once the HMC has given the line up too. -/
def endRecall (y : RecallWhy) (l : Line) (s : State) : Bool × State :=
  let d := dirGet s l
  match y with
  | .way | .evict => if hostLine l then hmcEvict l (dirTo l .np none 0 s) else (true, dirTo l .np none 0 s)
  | .snpCur => (true, answerSnoop y l s)
  | .snpData =>
    let s := match d.st with
      | .ex => dirTo l .np none 0 s
      | .os => dirTo l .sh none d.sharers s
      | _ => s
    (true, answerSnoop y l s)
  | .snpInv => (true, answerSnoop y l (dirTo l .np none 0 s))

/-- Send a home-initiated transaction's snoops: answers how many responses the home awaits. -/
def takeLine (merge ownerOnly : Bool) (l : Line) (s : State) : Nat × State :=
  let d := dirGet s l
  let x := txnNo s l
  let shs := if ownerOnly then [] else sharersOf d
  match d.st with
  | .np => (0, s)
  | .sh => (shs.length, sendInv l none shs s)
  | .ex =>
    (1, if merge then schedNow (.fwdm (ownerOf d) ⟨l, x⟩ none) s else sendInv l none [ownerOf d] s)
  | .os =>
    let s := if merge then schedNow (.fwdm (ownerOf d) ⟨l, x⟩ none) s else sendInv l none [ownerOf d] s
    let shs := shs.filter (· ≠ ownerOf d)
    (shs.length + 1, sendInv l none shs s)

/-! ## Acceptance in order (R256) -/

/-- The end of a transaction whose answers are all in: Place, Merge and recalls. Answers whether it is complete. -/
def closeReq (l : Line) (r : HomeReq) (s : State) : Bool × State :=
  match r with
  | .place p d po => homeStore p d (BitVec.allOnes 64) po l s
  | .merge p d be po => homeStore p d be po l s
  | .recall y => endRecall y l s
  | _ => (true, s)

/-- The home's action on its current request (Tables 11.3, 11.7). Answers whether the request is complete. -/
def act (l : Line) (r : HomeReq) (s : State) : Bool × State :=
  let h := (hmcGet s l).st
  let d := dirGet s l
  let a := lineAddr l
  let wait := fun (ns : Nat × State) =>
    if ns.1 = 0 then closeReq l r ns.2 else (false, setTxn l { txnGet ns.2 l with acks := ns.1 } ns.2)
  match r with
  | .gets c =>
    let s := allocDir l s
    if hostLine l && h = .i then (false, askHost "RdShared" l none 0 s) else (false, homeGets c l s)
  | .getm c =>
    let s := allocDir l s
    if hostLine l && h = .i then (false, askHost "RdOwn" l none 0 s)
    else if hostLine l && h = .s then (false, askHost "RdOwnNoData" l none 0 s)
    else (false, homeGetm c l s)
  | .upg c =>
    let s := allocDir l s
    if hostLine l && h = .i then (false, askHost "RdOwn" l none 0 s)
    else if hostLine l && h = .s then (false, askHost "RdOwnNoData" l none 0 s)
    else (false, homeUpg c l s)
  | .put c o x => (true, homePut c o x l s)
  | .peek p =>
    if tensorOwned s a then (true, hbmEnqueue ⟨p, a, none⟩ .agent s)
    else if d.st = .ex || d.st = .os then (false, schedNow (.fwdpeek (ownerOf d) ⟨l, txnNo s l⟩ p) s)
    else if hostLine l && h = .i && !(l3Get s l).valid then (false, askHost "RdCurr" l none 0 s)
    else match homeData p l s with
      | (some (x, po), s) => (true, reply p l x po false s)
      | (none, s) => (false, s)
  | .place p v po =>
    if tensorOwned s a then (true, hbmEnqueue ⟨p, a, some (v, BitVec.allOnes 64, po)⟩ .agent s)
    else wait (takeLine false false l s)
  | .merge p v be po =>
    if tensorOwned s a then (true, hbmEnqueue ⟨p, a, some (v, be, po)⟩ .agent s) else wait (takeLine true false l s)
  | .recall .snpCur =>
    if d.st = .ex || d.st = .os then (false, schedNow (.fwdpeek (ownerOf d) ⟨l, txnNo s l⟩ 128) s) else closeReq l r s
  | .recall .snpData => wait (if d.st = .sh then (0, s) else takeLine true true l s)
  | .recall _ => wait (takeLine true false l s)

/-- Whether Table 10.4 refuses a request as the home accepts it (R231, R233). -/
def refuses (l : Line) (r : HomeReq) (s : State) : Bool × State :=
  let a := lineAddr l
  match r with
  | .gets c | .getm c | .upg c | .put c _ _ => regionRefuses (corePort c) a (cachedMay s a) s
  | .peek p => regionRefuses p a (portMay s p false a) s
  | .place p _ _ | .merge p _ _ _ => regionRefuses p a (portMay s p true a) s
  | .recall _ => (false, s)
/-- The answer to a refused request: a Nack with its error bit set, or zeros with an error (R231, R274). -/
def turnAway (l : Line) (r : HomeReq) (s : State) : State :=
  match r with
  | .gets c | .getm c | .upg c | .put c _ _ => schedNow (.nack c ⟨l, txnNo s l⟩ true) s
  | .peek p | .place p _ _ | .merge p _ _ _ => reply p l 0 false true s
  | .recall _ => s
/-- The home accepts a request: it is checked, the filter is looked up, and it is acted on. Answers whether it is complete. -/
def startReq (l : Line) (r : Pend) (s : State) : Bool × State :=
  let s := setTxn l { txnGet s l with cur := some r.req, no := r.no } s
  match refuses l r.req s with
  | (true, s) => (true, turnAway l r.req s)
  | (false, s) => act l r.req (sfRead l s)

/-- The way that a request needs first: the line to recall (R259). -/
def wayFor (l : Line) (r : Pend) (s : State) : Option Line :=
  match r.req with
  | .gets _ | .getm _ | .upg _ => if cachedMay s (lineAddr l) then wayVictim s l else none
  | _ => none
/-- Ask for a recall, which the home starts by its own clock. -/
def askRecall (l : Line) (y : RecallWhy) (s : State) : State :=
  if s.coh.recalls.contains (l, y) then s else { s with coh := { s.coh with recalls := s.coh.recalls ++ [(l, y)] } }

/-- The line is idle, with the requests that wait for it. -/
def idleTxn (q : List Pend) : Txn := { queue := q }
/-- Accept the next request that waits for the line (structural in the queue); a complete one lets the next start, and one that
needs a way of a full set waits for the recall. -/
def acceptNext (l : Line) : List Pend → State → State
  | [], s => setTxn l {} s
  | r :: q, s =>
    match wayFor l r s with
    | some v => askRecall v .way (setTxn l { way := some v, queue := r :: q } s)
    | none =>
      let (done, s) := startReq l r (setTxn l (idleTxn q) s)
      if done then acceptNext l q s else s

/-- The HMC enters a line that the host grants; of a full set of 16 ways one line is evicted (R266). -/
def hmcEvictee (s : State) (l : Line) : Option Line :=
  if (hmcGet s l).st ≠ .i || s.coh.hmc.length < 16 then none
  else
    let set := s.coh.hmc.filter fun p => Config.hmcSet p.1 % 16384 = Config.hmcSet l.toNat % 16384
    if set.length < 16 then none
    else (set[Config.hmcVictim s.fresh % 16]?).map fun p => BitVec.ofNat 46 p.1
/-- Enter the host's grant in the HMC. -/
def enterHmc (l : Line) (g : Mesi) (d : LineData) (s : State) : State :=
  if g = .i then s
  else
    let h := hmcGet s l
    let s := match hmcEvictee s l with | some v => useFree (askRecall v .evict s) | none => s
    if h.st = .i then setHmc l { st := g, data := d } (memPut (lineAddr l) (lineBytes d) s) else setHmc l { h with st := g } s
/-- The host's answer reaches the transaction that waits for it: a grant lets the home act again, with what it has been granted
(R267); a write or an eviction is complete in host memory (R269, R270). Answers whether the transaction is complete. -/
def granted (l : Line) (g : Mesi) (d : LineData) (s : State) : Bool × State :=
  let t := txnGet s l
  let s := setTxn l { t with grant := false, got := none, line := none } s
  let write := fun (s : State) =>
    match t.line with
    | some x => if x.be = 0 then s else lineToMem (lineAddr l) x.data x.be x.poison s
    | none => s
  match t.cur with
  | some (.peek p) => (true, reply p l d false false (memPut (lineAddr l) (lineBytes d) s))
  | some (.place p _ _) | some (.merge p _ _ _) => (true, reply p l 0 false false (write s))
  | some (.recall _) => (true, write s)
  | some r => act l r (enterHmc l g d s)
  | none => (true, s)

/-- The transaction on a line ends: a preempted one goes on with what the recall left (R269), or the next request is
accepted. -/
def finishReq (l : Line) (s : State) : State :=
  let t := txnGet s l
  match t.under with
  | some r =>
    let s := setTxn l { t with cur := some r.req, no := r.no, under := none, acks := 0 } s
    (match t.got with
    | some (g, d) =>
      let (done, s) := granted l g d s
      if done then acceptNext l t.queue s else s
    | none => s)
  | none => acceptNext l t.queue s
/-- Go on after a step that may have completed the transaction. -/
def settle (l : Line) (x : Bool × State) : State := if x.1 then finishReq l x.2 else x.2

/-- A request arrives at its home: accepted when the line is idle, else queued (R256). -/
def accept (l : Line) (r : Pend) (s : State) : State :=
  let t := txnGet s l
  if lineBusy s l then setTxn l { t with queue := t.queue ++ [r] } s else acceptNext l [r] s
/-- A home-initiated recall, ordered with the line's other requests (R259). -/
def recallLine (l : Line) (y : RecallWhy) (s : State) : State := withNo (fun x s => accept l ⟨.recall y, x⟩ s) s

/-- Data of HBM reaches the home: its transaction goes on. -/
def homeArrive (l : Line) (d : LineData) (po : Bool) (s : State) : State :=
  let t := txnGet s l
  if !t.mem then s
  else
    let s := setTxn l { t with mem := false, line := some ⟨d, po, 0⟩ } s
    match t.cur with
    | some (.merge p v be q) => settle l (closeReq l (.merge p v be q) s)
    | some r => settle l (act l r s)
    | none => s
/-- What the HBM channels bring by now: to the homes, and to agents that read tensor-owned lines. -/
def hbmArrive (s : State) : State :=
  let due := s.coh.hbmData.filter fun x => x.due ≤ s.cyc
  let s := { s with coh := { s.coh with hbmData := s.coh.hbmData.filter fun x => s.cyc < x.due } }
  due.foldl (fun s x =>
    let l := addrLine x.req.addr
    match x.use with
    | .agent => reply x.req.port l x.data x.poison x.err s
    | _ => homeArrive l x.data x.poison s) s
/-- The recalls asked for start; a request that waits for a way is accepted once its set has one, and asks for another line
when the one recalled has not freed it. -/
def recallTick (s : State) : State :=
  let asked := s.coh.recalls
  let s := asked.foldl (fun s x => recallLine x.1 x.2 s) { s with coh := { s.coh with recalls := [] } }
  (s.coh.busy.filter fun p => p.2.way.isSome).foldl (fun s p =>
    let l := BitVec.ofNat 46 p.1
    let t := txnGet s l
    match t.way, wayVictim s l with
    | some _, none => acceptNext l t.queue (setTxn l (idleTxn t.queue) s)
    | some v, some w =>
      if (dirGet s v).alloc then s else askRecall w .way (setTxn l { t with way := some w } s)
    | none, _ => s) s

/-! ## Requests of cores -/

/-- GetS (R258). -/
def execGets (c : CoreId) (m : MsgHead) (s : State) : Host.Outcome State Fault Refusal :=
  .next (cohOnly s (accept m.line ⟨.gets c, m.no⟩ s))
/-- GetM (R258). -/
def execGetm (c : CoreId) (m : MsgHead) (s : State) : Host.Outcome State Fault Refusal :=
  .next (cohOnly s (accept m.line ⟨.getm c, m.no⟩ s))
/-- Upg (R258). -/
def execUpg (c : CoreId) (m : MsgHead) (s : State) : Host.Outcome State Fault Refusal :=
  .next (cohOnly s (accept m.line ⟨.upg c, m.no⟩ s))
/-- PutM (R258, R261). -/
def execPutm (c : CoreId) (m : MsgHead) (d : LineData) (poison : Bool) (s : State) : Host.Outcome State Fault Refusal :=
  .next (cohOnly s (accept m.line ⟨.put c true (some (d, poison)), m.no⟩ s))
/-- PutO (R258). -/
def execPuto (c : CoreId) (m : MsgHead) (d : LineData) (poison : Bool) (s : State) : Host.Outcome State Fault Refusal :=
  .next (cohOnly s (accept m.line ⟨.put c true (some (d, poison)), m.no⟩ s))
/-- PutE (R258). -/
def execPute (c : CoreId) (m : MsgHead) (s : State) : Host.Outcome State Fault Refusal :=
  .next (cohOnly s (accept m.line ⟨.put c false none, m.no⟩ s))

/-! ## Requests of agents without caches (R224, R229, R231, R240, R263, R265) -/

/-- Register space as a line of words. -/
def regLine (s : State) (a : Nat) : LineData :=
  bytesLine ((List.range 16).flatMap fun i => leBytes 4 (regRead s (a / 64 * 64 - regBase + 4 * i)).toNat)

/-- A write to register space: the bytes enabled are one aligned 32-bit or 64-bit access, or no register is written
(R447). -/
def regStore (l : Line) (d : LineData) (be : BitVec 64) (s : State) : State :=
  let words := (tabulate 16 fun i => (4 * i, 4)) ++ tabulate 8 fun i => (8 * i, 8)
  match words.find? fun w => be = beOf w.1 w.2 with
  | none => s
  | some (o, n) =>
    schedNow (.registerWrite true (BitVec.ofNat 26 (lineAddr l - regBase + o)) (n = 8)
      (BitVec.ofNat 64 (leField (lineBytes d) o n))) s

/-- A request of an agent without a cache arrives. It waits at its port while the port has one outstanding for the line, or a
module has 64 (R251, R264). It is held while a segment runs, queued at its HBM channel, or ordered at the home, and Table 10.4 is
looked at when it is accepted there (R231, R233). -/
def portReq (q : PortReq) (s : State) : State :=
  let a := lineAddr q.line
  let wr : Option (LineData × BitVec 64 × Bool) :=
    match q.req with | .place _ d po => some (d, BitVec.allOnes 64, po) | .merge _ d be po => some (d, be, po) | _ => none
  if portFull s q.port q.line then { s with coh := { s.coh with portq := s.coh.portq ++ [q] } }
  else
    let s := { s with coh := { s.coh with outst := s.coh.outst ++ [⟨q.port, q.line, q.no, wr.isSome⟩] } }
    match spaceOf a with
    | .ls | .nru | .tag =>
      if running s && !issueStopped s then { s with coh := { s.coh with held := s.coh.held ++ [⟨q.port, a, wr⟩] } }
      else serveReq ⟨q.port, a, wr⟩ s
    | .regs | .hole =>
      (match regionRefuses q.port a (portMay s q.port wr.isSome a) s with
      | (true, s) => reply q.port q.line 0 false true s
      | (false, s) =>
        match wr with
        | none => reply q.port q.line (regLine s a) false false s
        | some (d, be, _) => reply q.port q.line 0 false false (regStore q.line d be s))
    | _ => if tensorOwned s a then hbmEnqueue ⟨q.port, a, wr⟩ .agent s else accept q.line ⟨q.req, q.no⟩ s

/-- A write by an agent without a cache, one Place or Merge for each line (R258, R263, R277): the numbers of its requests that
have no answer yet, each with its offset. -/
def storeReqs (p : ReqPort) (a : Nat) (bs : List Byte) (po : Bool) (s : State) : List (TxnNo × Nat) × State :=
  let (ns, s) := (pieces a bs.length).foldl (fun (acc : List (TxnNo × Nat) × State) q =>
    let (lo, off, n) := q
    let d := bytesLine (zeros (lo % 64) ++ (bs.drop off).take n)
    withNo (fun no s => ((no, off) :: acc.1, portReq ⟨p, addrLine lo, if n = 64 then .place p d po else .merge p d (beOf (lo % 64) n) po, no⟩ s))
      acc.2) ([], s)
  (ns.filter fun x => reqOpen s x.1, s)
/-- A write whose completion nobody awaits. -/
def sysStore (p : ReqPort) (a : Nat) (bs : List Byte) (s : State) : State := (storeReqs p a bs false s).2

/-- Peek: the current contents, changing no state (R263). -/
def execPeek (p : ReqPort) (m : MsgHead) (s : State) : Host.Outcome State Fault Refusal :=
  .next (cohOnly s (portReq ⟨p, m.line, .peek p, m.no⟩ s))
/-- Place: a whole-line write. -/
def execPlace (p : ReqPort) (m : MsgHead) (d : LineWrite) (s : State) : Host.Outcome State Fault Refusal :=
  .next (cohOnly s (portReq ⟨p, m.line, .place p d.data d.poison, m.no⟩ s))
/-- Merge: a partial-line write under byte enables. -/
def execMerge (p : ReqPort) (m : MsgHead) (d : LineWrite) (be : BitVec 64) (s : State) : Host.Outcome State Fault Refusal :=
  .next (cohOnly s (portReq ⟨p, m.line, .merge p d.data be d.poison, m.no⟩ s))

/-! ## Snoops at a core (R260, R261, Tables 11.4, 11.5) -/

/-- A snoop is answered, unless an injection withholds the reply: then the timeout of 4,096 FCLK follows, 6,144 TCLK
later (R274, Table 19.10). -/
def snoopReply (c : CoreId) (l : Line) (k : State → State) (s : State) : State :=
  match injEvent eCohTimeout (srcOf 5 (sliceOf l)) (fun _ p => bitsOf p 51 6 = l.toNat) s with
  | (some _, s) => sched (s.cyc + 6144) (.cohTimeout l ⟨c.val, by omega⟩) s
  | (none, s) => k s

/-- FwdS at the owner: DataS to the requester with D set when the owner keeps the line in O. -/
def execFwds (o : CoreId) (m : MsgHead) (req : CoreId) (s : State) : Host.Outcome State Fault Refusal :=
  let l := m.line
  let x := l2Get s o l
  let send := fun (st : L2St) (d : Bool) (s : State) =>
    schedNow (.datas req m x.data d x.poison) (setL2 o l { x with st := st } s)
  .next (cohOnly s (snoopReply o l (match x.st with
    | .m | .o => send .o true
    | .e => send .s false
    | .miA | .oiA => send .oiA true
    | .eiA => send .siA false
    | .omA => send .omA true
    | _ => id) s))

/-- The number of Acks that a DataM of the line's transaction makes the requester await (Table 11.3). -/
def ackCount (s : State) (l : Line) (req : CoreId) : Nat :=
  let d := dirGet s l
  if d.st = .os then ((sharersOf d).filter fun c => c ≠ req && c ≠ ownerOf d).length else 0

/-- FwdM at the owner: DataM to the requester, or to the home, and the line is invalid. -/
def execFwdm (o : CoreId) (m : MsgHead) (req : Option CoreId) (s : State) : Host.Outcome State Fault Refusal :=
  let l := m.line
  let x := l2Get s o l
  let n := match req with | some c => ackCount s l c | none => 0
  let send := fun (y : L2Line) (s : State) => schedNow (.datam req m x.data n x.poison) (setL2 o l y s)
  .next (cohOnly s (snoopReply o l (match x.st with
    | .m | .o | .e => send {}
    | .miA | .oiA | .eiA => send { st := .iiA, no := x.no }
    | .omA => send { x with st := .imAd, data := 0, poison := false }
    | _ => id) s))

/-- FwdPeek at the owner: the data goes to the requester, or for a SnpCur to the host, no state changes, and the home's
transaction ends (R256). -/
def execFwdpeek (o : CoreId) (m : MsgHead) (p : ReqPort) (s : State) : Host.Outcome State Fault Refusal :=
  let l := m.line
  let x := l2Get s o l
  .next (cohOnly s (if l2Holds x.st then
      snoopReply o l (fun s =>
        if (txnGet s l).cur = some (.recall .snpCur) then finishReq l (emit (.cxl "RspVFwdV" l (some (x.data, x.poison)) 0) s)
        else
          let s := reply p l x.data x.poison false s
          if (txnGet s l).cur = some (.peek p) then finishReq l s else s) s
    else s))

/-- Inv at a holder: invalidate and answer Ack to the requester or the home. -/
def execInv (a : CoreId) (m : MsgHead) (req : Option CoreId) (s : State) : Host.Outcome State Fault Refusal :=
  .next (cohOnly s (snoopReply a m.line (fun s =>
    schedNow (.ack (match req with | some c => .invAck c | none => .invDone a) m)
      (setL2 a m.line (invalidated (l2Get s a m.line)) s)) s))

/-! ## Responses at a core -/

/-- A core's waiting access is performed and its completion Ack leaves (R256, R257): a load returns data, or a
hardware-error exception when the data is poisoned (R245). -/
def coreFinish (c : CoreId) (l : Line) (st : L2St) (d : LineData) (poison dbit : Bool) (s : State) : State :=
  let x := l2Get s c l
  let (d', wrote) := match x.wait with | some (be, v) => (mergeLine d v be, true) | none => (d, false)
  let s := setL2 c l { st := st, data := d', poison := poison } s
  let s := schedNow (.ack (.complete c dbit) ⟨l, x.no⟩) s
  if poison then toCore c (.coreExc c true) s else if wrote then s else toCore c (.coreData c d) s

/-- A core in IM_AD, SM_A or OM_A that has its data or permission and every Ack enters M. -/
def coreTry (c : CoreId) (l : Line) (s : State) : State :=
  let x := l2Get s c l
  if x.want = some x.got then coreFinish c l .m x.data x.poison x.dbit s else s

/-- DataS: the core's line becomes S (R258); poison travels with it (R273). -/
def execDatas (c : CoreId) (m : MsgHead) (d : LineData) (own poison : Bool) (s : State) : Host.Outcome State Fault Refusal :=
  .next (cohOnly s (match (l2Get s c m.line).st with
    | .isD => coreFinish c m.line .s d poison own s
    | _ => s))

/-- DataE: E for a GetS, M for a GetM or Upg once every Ack has come. -/
def execDatae (c : CoreId) (m : MsgHead) (d : LineData) (n : Nat) (poison : Bool) (s : State) : Host.Outcome State Fault Refusal :=
  let l := m.line
  let x := l2Get s c l
  .next (cohOnly s (match x.st with
    | .isD => coreFinish c l .e d poison false s
    | .imAd => coreTry c l (setL2 c l { x with data := d, poison := poison, want := some n } s)
    | _ => s))

/-- The home receives an Ack or DataM of a transaction it has started itself. -/
def homeAck (l : Line) (s : State) : State :=
  let t := txnGet s l
  match t.cur with
  | none => s
  | some r =>
    if t.acks ≤ 1 then
      if t.acks = 0 then s
      else
        settle l (closeReq l r (setTxn l { t with acks := 0 } s))
    else setTxn l { t with acks := t.acks - 1 } s

/-- DataM: M at a core once every Ack has come; at the home, the line's latest data (Table 11.3). -/
def execDatam (c : Option CoreId) (m : MsgHead) (d : LineData) (n : Nat) (poison : Bool) (s : State) :
    Host.Outcome State Fault Refusal :=
  let l := m.line
  .next (cohOnly s (match c with
    | some c =>
      let x := l2Get s c l
      (match x.st with
      | .imAd => coreTry c l (setL2 c l { x with data := d, poison := poison, want := some n } s)
      | _ => s)
    | none => if (txnGet s l).acks = 0 then s else homeAck l (putL3 l d poison s)))

/-- The directory once a GetS, GetM or Upg has completed (Table 11.3). -/
def dirComplete (c : CoreId) (dbit : Bool) (r : HomeReq) (l : Line) (s : State) : State :=
  let d := dirGet s l
  match r with
  | .gets _ =>
    (match d.st with
    | .np => if mayGrantE s l then dirTo l .ex (some c) 0 s else dirTo l .sh none (addSharer c 0) s
    | .sh => dirTo l .sh none (addSharer c d.sharers) s
    | .ex => if dbit then dirTo l .os (some (ownerOf d)) (addSharer c 0) s
             else dirTo l .sh none (addSharer (ownerOf d) (addSharer c 0)) s
    | .os => dirTo l .os (some (ownerOf d)) (addSharer c d.sharers) s)
  | .getm _ | .upg _ => dirTo l .ex (some c) 0 s
  | _ => s

/-- Ack: invalidation done at the home, permission granted, completion, Put accepted, or an invalidation at the
requester (Table 11.2). -/
def execAck (k : AckKind) (m : MsgHead) (s : State) : Host.Outcome State Fault Refusal :=
  let l := m.line
  .next (cohOnly s (match k with
    | .invDone _ => homeAck l s
    | .granted c n =>
      let x := l2Get s c l
      if x.st = .smA || x.st = .omA then coreTry c l (setL2 c l { x with want := some n } s) else s
    | .complete c d =>
      (match (txnGet s l).cur with
      | some r =>
        if r = .gets c || r = .getm c || r = .upg c then finishReq l (dirComplete c d r l s) else s
      | none => s)
    | .putDone c =>
      let x := l2Get s c l
      (match x.st with
      | .miA | .oiA | .eiA | .siA | .iiA => setL2 c l {} s
      | _ => s)
    | .invAck c =>
      let x := l2Get s c l
      (match x.st with
      | .imAd | .smA | .omA => coreTry c l (setL2 c l { x with got := x.got + 1 } s)
      | _ => s)))

/-- Nack: a stale Put drops the buffer (R261); a refused access gives the core an access-fault exception (R231). -/
def execNack (c : CoreId) (m : MsgHead) (error : Bool) (s : State) : Host.Outcome State Fault Refusal :=
  let l := m.line
  let x := l2Get s c l
  .next (cohOnly s (if error then toCore c (.coreExc c false) (setL2 c l {} s)
    else match x.st with
      | .miA | .oiA | .eiA | .siA | .iiA => setL2 c l {} s
      | _ => s))

/-! ## Host snoops and grants (R267-R269) -/

/-- A host snoop: ordered with the line's other requests, answered from the eviction buffer when the HMC's eviction of the line
awaits the host, or run at once ahead of a transaction that waits for the host's grant (R268, R269). -/
def hostSnoop (y : RecallWhy) (l : Line) (s : State) : State :=
  let t := txnGet s l
  if t.grant && t.under.isNone then
    match t.cur with
    | some (.recall _) => evictAnswer y l s
    | some r =>
      withNo (fun x s => settle l (startReq l ⟨.recall y, x⟩ (setTxn l { t with under := some ⟨r, t.no⟩, cur := none } s))) s
    | none => s
  else recallLine l y s

/-- SnpInv: every device copy is invalidated and the latest data reaches the host. -/
def execSnpinv (l : Line) (s : State) : Host.Outcome State Fault Refusal := .next (cohOnly s (hostSnoop .snpInv l s))
/-- SnpData: the owner is invalidated, sharers keep S, the HMC enters S. -/
def execSnpdata (l : Line) (s : State) : Host.Outcome State Fault Refusal := .next (cohOnly s (hostSnoop .snpData l s))
/-- SnpCur: no state changes and the current data goes to the host. -/
def execSnpcur (l : Line) (s : State) : Host.Outcome State Fault Refusal := .next (cohOnly s (hostSnoop .snpCur l s))

/-- HOST_GRANT: the host answers the transaction that waits for it, with the CXL.cache state it grants and the line's data; one
that comes while a preempting recall runs is taken when the recall ends (R267, R269). -/
def execHostGrant (l : Line) (g : Mesi) (d : LineData) (s : State) : Host.Outcome State Fault Refusal :=
  let t := txnGet s l
  .next (cohOnly s (if !t.grant then s
    else if t.under.isSome then setTxn l { t with got := some (g, d) } (linkDone l s)
    else settle l (granted l g d (linkDone l s))))

/-- COH_TIMEOUT: a snoop without a response for 4,096 FCLK is fatal; the record names slice, line and agent (R274). -/
def execCohTimeout (l : Line) (agent : Fin 129) (s : State) : Host.Outcome State Fault Refusal :=
  .next (cohOnly s (fatal eCohTimeout (srcOf 5 (sliceOf l)) (lineAddr l) agent.val false s))

/-! ## A core's own accesses and evictions (R260, R265, Table 11.4) -/

/-- A core that is halted by debug or held in reset makes no access (R391, R429). -/
def coreIdle (s : State) (c : CoreId) : Bool := s.ck.halted.getLsbD c.val || s.ck.corePend.getLsbD c.val

/-- Lines that a core's L2 holds, or has asked for, outside its write-back buffer. -/
def l2Lines (s : State) (c : CoreId) : List Line :=
  (s.coh.l2.filter fun p => p.1 / 2 ^ 46 = c.val && !(match p.2.st with | .miA | .oiA | .eiA | .siA | .iiA => true | _ => false)).map
    fun p => BitVec.ofNat 46 p.1
/-- A core evicts a line: PutM, PutO or PutE from the write-back buffer, S silently (Table 11.4). -/
def evictLine (c : CoreId) (l : Line) (s : State) : State :=
  let x := l2Get s c l
  let put := fun (st : L2St) (m : MsgHead → Instr) => withNo (fun n s => schedNow (m ⟨l, n⟩) (setL2 c l { x with st := st, no := n } s)) s
  match x.st with
  | .m => put .miA (fun h => .putm c h x.data x.poison)
  | .o => put .oiA (fun h => .puto c h x.data x.poison)
  | .e => put .eiA (.pute c)
  | .s => setL2 c l {} s
  | _ => s
/-- Room for a line in a core's L2 of 2 MiB, 32,768 lines: of a full one a line is evicted (R25). -/
def l2Room (c : CoreId) (s : State) : State :=
  if s.coh.l2.length < 32768 then s
  else
    let ls := l2Lines s c
    if ls.length < 32768 then s
    else match ls[Config.l2Victim s.fresh % ls.length]? with
      | some v => useFree (evictLine c v s)
      | none => s

/-- A miss sends a request, with the number of its transaction. -/
def missLine (c : CoreId) (l : Line) (m : MsgHead → Instr) (x : L2Line) (s : State) : State :=
  withNo (fun n s => schedNow (m ⟨l, n⟩) (setL2 c l { x with no := n } s)) s
/-- A cached load of a line: a hit returns the data, a miss sends GetS, a line in transition is tried again on the next
cycle. -/
def loadLine (c : CoreId) (a : CoreAccess) (l : Line) (s : State) : State :=
  let x := l2Get s c l
  match x.st with
  | .m | .o | .e | .s => emit (if x.poison then .coreExc c true else .coreData c x.data) s
  | .i => missLine c l (.gets c) { st := .isD } (l2Room c s)
  | _ => sched (s.cyc + 1) (.coreLoad c a) s

/-- A cached store of the bytes `be` of a line: a hit in M or E writes, O and S ask for permission, I for the line. -/
def storeLine (c : CoreId) (a : CoreAccess) (v : LineData) (l : Line) (d : LineData) (be : BitVec 64) (s : State) : State :=
  let x := l2Get s c l
  match x.st with
  | .m | .e =>
    setL2 c l { x with st := .m, data := mergeLine x.data d be, poison := x.poison && be ≠ BitVec.allOnes 64 } s
  | .o => missLine c l (.upg c) { x with st := .omA, got := 0, want := none, wait := some (be, d) } s
  | .s => missLine c l (.upg c) { x with st := .smA, got := 0, want := none, wait := some (be, d) } s
  | .i => missLine c l (.getm c) { st := .imAd, wait := some (be, d) } (l2Room c s)
  | _ => sched (s.cyc + 1) (.coreStore c a v) s

/-- The part of an access that lies in one line (an access does not pass the end of its line). -/
def accessLen (a : CoreAccess) : Nat := min a.bytes (64 - a.addr % 64)

/-- CORE_LOAD: an uncached load becomes a Peek; LR and atomics need a cacheable page. -/
def execCoreLoad (c : CoreId) (a : CoreAccess) (s : State) : Host.Outcome State Fault Refusal :=
  .next (cohOnly s (
    if coreIdle s c then s
    else if a.uncached then
      (if a.atomic then emit (.coreExc c false) s else withNo (fun n => schedNow (.peek (corePort c) ⟨addrLine a.addr, n⟩)) s)
    else loadLine c a (addrLine a.addr) s))

/-- CORE_STORE: byte k of `v` is byte k stored; an uncached store of a whole line becomes a Place, any other a Merge. -/
def execCoreStore (c : CoreId) (a : CoreAccess) (v : LineData) (s : State) : Host.Outcome State Fault Refusal :=
  let l := addrLine a.addr
  let o := a.addr % 64
  let d := bytesLine (zeros o ++ (lineBytes v).take (accessLen a))
  let be := beOf o (accessLen a)
  .next (cohOnly s (
    if coreIdle s c then s
    else if a.uncached then
      (if a.atomic then emit (.coreExc c false) s
      else if be = BitVec.allOnes 64 then withNo (fun n => schedNow (.place (corePort c) ⟨l, n⟩ ⟨d, false⟩)) s
      else withNo (fun n => schedNow (.merge (corePort c) ⟨l, n⟩ ⟨d, false⟩ be)) s)
    else storeLine c a v l d be s))

/-- CORE_EVICT. -/
def execCoreEvict (c : CoreId) (l : Line) (s : State) : Host.Outcome State Fault Refusal :=
  .next (cohOnly s (evictLine c l s))

end Sys2Proof.Machine
end

