-- ==== Sys2Proof/Machine/Dma.lean ====
section
/-! DEFINITION. The host-link DMA agent and the ranges that Rolmir reserves (R217, R277, R288, R300). -/

namespace Sys2Proof.Machine

/-! ## Ranges that Rolmir reserves in LPDDR5X -/

/-- Size of the half of the image area that one image may take: its share, at most 4 GiB, in whole 64 KiB. -/
def imageHalf : Nat := ceilDiv (min Config.imageShare 0x100000000) 65536 * 65536
/-- Load address of a half of the image area: a multiple of 64 KiB in LPDDR5X (R217). -/
def imageBase (k : Nat) : Nat := lpBase + Config.imageArea % 2 ^ 21 * 65536 + k * imageHalf
/-- First byte of the orphan log, 65,536 entries of 48 bytes (R300). -/
def orphanBase : Nat := lpBase + 2 ^ 38 + Config.orphanArea % 2 ^ 21 * 65536
/-- A range touches the image area or the orphan log. -/
def reservedRange (a n : Nat) : Bool :=
  (a < imageBase 0 + 2 * imageHalf && imageBase 0 < a + n) || (a < orphanBase + 65536 * 48 && orphanBase < a + n)

/-! ## Host-link DMA (R277, R288) -/

/-- Every byte of a device or host range may be accessed by host-link DMA (Table 10.4, R288). -/
def dmaMay (s : State) (a n : Nat) : Bool :=
  match spaceOf a with
  | .hbm | .lp | .host => rgnCovers s (fun _ => true) 65 a n
  | .ls => a % 0x2000000 + n ≤ lsSize && !isolated s a
  | .nru => a + n ≤ nruBase + 12 * 0x2000000 && !isolated s a && !isolated s (a + n - 1)
  | .tag => a + n ≤ tagBase + 12 * 0x200000 && !isolated s a && !isolated s (a + n - 1)
  | .regs | .hole => false
/-- The range meets a memory whose system-plane accesses are held while a segment runs (R240). -/
def heldSpace (a : Nat) : Bool := match spaceOf a with | .ls | .nru | .tag => true | _ => false
/-- A read by DMA: over the coherent path, or for host data marked IOP over CXL.io. -/
def dmaRead (io : Bool) (a n : Nat) (s : State) : (List Byte × Bool) × State :=
  if io && inHost a then ((sysMem s a n, false), s) else sysRead dmaPort a n s
/-- A write by DMA: over the coherent path, or for host data marked IOP as posted CXL.io writes. Answers the writes that have no
completion yet, each with its offset. -/
def dmaWrite (io : Bool) (a : Nat) (bs : List Byte) (po : Bool) (s : State) : List (TxnNo × Nat) × State :=
  if io && inHost a then
    let s := memPut a bs s
    ([], if po then (linesOf a bs.length).foldl (fun s l => setPoison l true s) s else s)
  else storeReqs dmaPort a bs po s
/-- FLAGS[2]: the I/O path (Table 12.3). -/
def iop (d : Desc) : Bool := bitOf d.flags.toNat 2
/-- The refusal of a DMA address is recorded (R231). -/
def dmaRefused (a : Nat) (s : State) : State := regionAccess dmaPort a false s

/-- The job of a command whose data has moved. -/
def jobOf (s : State) (d : Desc) : Option DmaJob := s.hf.jobs.find? fun j => j.desc = d
/-- Forget it. -/
def dropJob (d : Desc) (s : State) : State := { s with hf := { s.hf with jobs := s.hf.jobs.filter fun j => j.desc ≠ d } }
/-- Its writes that still have no completion. -/
def jobOpen (s : State) (j : DmaJob) : List (TxnNo × Nat) := j.writes.filter fun w => reqOpen s w.1
/-- The prefix of its destination that is final (R291). -/
def jobVt (s : State) (j : DmaJob) : Nat := (jobOpen s j).foldl (fun m w => min m w.2) j.n

/-- The progress granule in bytes; 0 means 1 MiB. -/
def granuleOf (d : Desc) : Nat := let g := d.a3.toNat % 2 ^ 32; if g = 0 then 2 ^ 20 else g
/-- Partial records of a copy of `n` bytes: one each time VT, rising from `lo` to `vt`, passes a whole multiple of the granule,
before the command is final (R291). -/
def partials (d : Desc) (lo vt n : Nat) (s : State) : State :=
  let g := granuleOf d
  if d.opc = 3 || d.opc = 4 then
    (List.range (vt / g)).foldl (fun s i => if lo < (i + 1) * g ∧ (i + 1) * g < n then progMark d 3 ((i + 1) * g) s else s) s
  else s
/-- A command moves its data by `begin`, waits for the completion of every write of that data, and is then final (R284, R292). -/
def runJob (d : Desc) (begin_ : State → DmaJob × State) (s : State) : State :=
  let (j, s) := match jobOf s d with
    | some j => (j, dropJob d s)
    | none => begin_ s
  let vt := jobVt s j
  let s := partials d j.vt vt d.a2.toNat s
  match jobOpen s j with
  | [] => finishCmd d j.err 0 j.n 0 0 s
  | ws => sched (s.cyc + 1) (rowOf d) { s with hf := { s.hf with jobs := s.hf.jobs ++ [{ j with vt := vt, writes := ws }] } }
/-- A job that has no writes to wait for. -/
def endJob (d : Desc) (n err : Nat) : DmaJob := { desc := d, n := n, err := err, vt := 0, writes := [] }

/-- A command that needs the link waits while the hold timer runs, and fails with HOST_LOST without a link (R298). -/
def withLink (d : Desc) (k : State → State) (s : State) : State :=
  if s.hf.linkUp || (jobOf s d).isSome then k s else if s.hf.hold then sched (s.cyc + 1) (rowOf d) s else failCmd d rHostLost s
/-- A command that reads the ranges `rs` waits while they cannot be read (R189, R256; DESIGN CHOICE, entry 165). -/
def withRanges (d : Desc) (rs : List (Nat × Nat)) (k : State → State) (s : State) : State :=
  if (jobOf s d).isSome || rangesFree s rs then k s else sched (s.cyc + 1) (rowOf d) s

/-! ## A front-end reset (R298) -/

/-- A request of host-link DMA to a host line. -/
def dmaReq (l : Line) (r : HomeReq) : Bool :=
  hostLine l && (match r with | .peek p | .place p _ _ | .merge p _ _ _ => p = dmaPort | _ => false)
/-- What a line's transaction keeps when the requests of host-link DMA are dropped. -/
def cutDma (l : Line) (t : Txn) : Txn :=
  let t := { t with queue := t.queue.filter fun q => !dmaReq l q.req }
  if t.under.any (fun q => dmaReq l q.req) then { t with under := none, grant := false, got := none } else t
/-- The front end drops its own requests to host memory that have no completion. -/
def dropDma (s : State) : State :=
  let line := fun (n : Nat) => BitVec.ofNat 46 n
  let wait := (s.coh.busy.filter fun p => p.2.grant &&
    (p.2.cur.any (dmaReq (line p.1)) || p.2.under.any fun q => dmaReq (line p.1) q.req)).map fun p => line p.1
  let mine := (s.coh.busy.filter fun p => p.2.grant && p.2.under.isNone && p.2.cur.any (dmaReq (line p.1))).map fun p => line p.1
  let s := wait.foldl (fun s l => linkDone l s) { s with coh := { s.coh with
    busy := s.coh.busy.map fun p => (p.1, cutDma (line p.1) p.2)
    portq := s.coh.portq.filter fun q => !(q.port = dmaPort && hostLine q.line)
    outst := s.coh.outst.filter fun x => !(x.port = dmaPort && hostLine x.line) } }
  mine.foldl (fun s l => finishReq l (setTxn l { txnGet s l with cur := none, grant := false, line := none } s)) s

end Sys2Proof.Machine
end

