-- ==== Sys2Proof/Machine/Mover.lean ====
section
/-! DEFINITION. The tile mover's two channels and the Layby (06_tile_sequencer R151-R158, R162; 07_training_support
R167-R173; 08 R188, R199; 10 R230, R235, R236, R241, R465). -/

namespace Sys2Proof.Machine

/-! ## Encoding and shape (R151, Table 6.3) -/

/-- The fields of a mover instruction. -/
structure MvF where
  sl : Nat
  sa : Nat
  sn : Nat
  sx : Nat
  rsv : Nat
  slot : Nat
  fmt : Nat
  rnd : Nat
  clr : Bool
  exi : Nat
  deriving DecidableEq, Repr

/-- Read the fields of Table 6.3. -/
def mvF (f : Fields) : MvF :=
  { sl := fld f 55 50, sa := fld f 49 44, sn := fld f 43 38, sx := fld f 37 32, rsv := fld f 31 28 + fld f 16 16,
    slot := fld f 27 24, fmt := fld f 23 20, rnd := fld f 19 18, clr := fbit f 17, exi := fld f 15 0 }

/-- The reserved fields of Table 6.3 are 0. -/
def mvEnc (f : Fields) : Bool := (mvF f).rsv = 0
/-- Every field that Table 6.3 requires to be 0 in an instruction is 0: SA in those without a remote address, and SX, SLOT, FMT
with RND, and EXI in those that do not use them. A breach is MOVER_DESC (Table 6.6; for SA, SX and EXI DEDUCED, entry 158). -/
def mvForm (f : Fields) (noSa useSx useSlot nrd useExi : Bool) : Bool :=
  let q := mvF f
  (!noSa || q.sa = 0) && (useSx || q.sx = 0) && (useSlot || q.slot = 0) && (nrd || (q.fmt = 0 && q.rnd = 0)) &&
    (useExi || q.exi = 0)

/-- The shape of a transfer. -/
structure Shape where
  rb : Nat
  nr : Nat
  deriving DecidableEq, Repr

/-- RB in bits [24:0], NR in bits [47:32]. -/
def shapeOf (x : W64) : Shape := ⟨bitsOf x.toNat 24 0, bitsOf x.toNat 47 32⟩
/-- L = RB × NR. -/
def Shape.len (z : Shape) : Nat := z.rb * z.nr
/-- RB is a multiple of 64 from 64 to 0x140_0000; NR is from 1. -/
def shapeOk (z : Shape) : Bool := z.rb % 64 = 0 && 64 ≤ z.rb && z.rb ≤ lsSize && 1 ≤ z.nr
/-- The local side is legal: every byte addressed lies below 0x140_0000 (R151, Table 3.2). -/
def localOk (d : LsDesc) (z : Shape) : Bool :=
  d.rsv = 0 && 64 ≤ d.stride && d.base + (z.nr - 1) * d.stride + z.rb ≤ lsSize
/-- Local-store offset of byte k of the transfer. -/
def localOff (d : LsDesc) (z : Shape) (k : Nat) : Nat := d.base + k / z.rb * d.stride + k % z.rb
/-- Lines of the local side. -/
def localLines (t : Tile) (d : LsDesc) (z : Shape) (l : Nat) : Bool :=
  (List.range z.nr).any fun r => lineHit (lsBase t + d.base + r * d.stride) z.rb l
/-- The remote address, and whether it is a multiple of 64. -/
def remoteOf (x : W64) : Nat := bitsOf x.toNat 51 0

/-- TCLK of a transfer of L bytes (Table 6.4). -/
def beats (n : Nat) : Nat := ceilDiv n 256

/-- Demand of a transfer of `n` bytes on a port from cycle `c`: 256 B/TCLK, less on the last beat. -/
def beatPort (t : Tile) (p : LsPort) (c n : Nat) (s : State) : State :=
  let b := beats n
  usePort t p (c + b - 1) 1 (n - 256 * (b - 1)) (usePort t p c (b - 1) 256 s)

/-- A mover instruction begins to read its local store, one beat a cycle from the present one on. -/
def beginFlow (x : Flow) (s : State) : State := useFree { s with pl := { s.pl with flows := s.pl.flows ++ [x] } }
/-- The flow of an instruction that issues now. -/
def flowOf (s : State) (t : Tile) (ldesc shape : W64) (dst : FlowTo) : Flow :=
  { tile := t, start := s.cyc, ldesc := ldesc, shape := shape, dst := dst, who := s.fresh }

/-- Writes of a transfer's bytes into a local store, beat j on cycle `c` + j. -/
def writeLocal (t : Tile) (off : Nat → Nat) (who c : Nat) (bs : List Byte) : List PendWrite :=
  (List.range bs.length).map fun k =>
    ⟨c + k / 256, c + k / 256 + 1, lsBase t + off k, bs.getD k 0, 0xFF, who, 1⟩

/-! ## The tensor channel -/

/-- The return interval of an instruction on its own tile, and its issue interval, are free (R153). -/
def chanBusy (s : State) (t : Tile) (b : Nat) (ret : Option Nat) : Bool :=
  heldDuring s (.mvIssue t) s.cyc (s.cyc + b) ||
  (match ret with | some f => heldDuring s (.mvReturn t) (s.cyc + f) (s.cyc + f + b) | none => false)
/-- Hold them. -/
def chanHold (t : Tile) (b : Nat) (ret : Option Nat) (s : State) : State :=
  let c := s.cyc
  let s := hold (.mvIssue t) c (c + b) s
  match ret with | some f => hold (.mvReturn t) (c + f) (c + f + b) s | none => s

/-- Positions a transfer of L bytes takes. -/
def frameLen (n : Nat) : Nat := ceilDiv n 512

/-- The grants of a die on a channel and frame position in the running segment (R210). -/
def grantsAt (s : State) (chan die p : Nat) : Nat :=
  match s.pl.active with
  | none => 0
  | some im => (im.frames.filter fun g =>
      (match g.seg with | none => true | some x => s.pl.cur.map (·.seg) = some x) &&
      g.chan = chan && g.die = die && g.start ≤ p && p < g.start + g.len).length

/-- Shares held on a position of a stack, by any die or by one (R236). -/
def sharesAt (s : State) (stack p : Nat) : Nat :=
  (s.pl.frames.filter fun u => u.stack = stack && u.lo ≤ p && p < u.hi).length
def dieSharesAt (s : State) (stack p : Nat) (d : Die) : Nat :=
  (s.pl.frames.filter fun u => u.stack = stack && u.die = d && u.lo ≤ p && p < u.hi).length

/-- The first fault of an HBM access on its issue cycle, in the order of R465. -/
def hbmFault (s : State) (t : Tile) (a n : Nat) : Option Nat :=
  let h := hbmStack a
  let lo := framePos s.cyc
  let k := frameLen n
  let ps := tabulate k fun i => lo + i
  if inHbm a && inHbm (a + n - 1) && hbmStack (a + n - 1) ≠ h then some eHbmSpan
  else if !(inHbm a && rgnHolds s 1 a n) then some eRegionPlane
  else if 4096 - s.pl.wsys < lo % 4096 + k then some eFrameWindow
  else if ps.any fun p => 2 ≤ sharesAt s h p then some eFrameShare
  else if ps.any fun p => (List.range 16).any fun c =>
      grantsAt s (16 * h + c) (tileDie t).val (p % 4096) ≤ dieSharesAt s h p (tileDie t) then some eFrameSlot
  else none

/-- Take the transfer's positions. -/
def frameHold (t : Tile) (a n : Nat) (s : State) : State :=
  let lo := framePos s.cyc
  { s with pl := { s.pl with frames := s.pl.frames ++ [⟨hbmStack a, tileDie t, lo, lo + frameLen n⟩] } }

/-- A tensor-plane read of a poisoned line: the data is delivered as read and the step aborts (R245, R246). -/
def poisonTensor (a n : Nat) (s : State) : State :=
  (s.coh.poison.filter fun l => lineHit a n l).foldl
    (fun s l => detAbort eHbmUe (srcOf 7 (hbmChan (l * 64))) s.cyc (l * 64) 0 0 false s) s

/-- A die's bursts on the channels of [a, a + n) (R244, R247). -/
def linkBursts (a n : Nat) (s : State) : State :=
  if injOn s then (linesOf a n).foldl (fun s l => linkBurst (l * 64) s) s else s
/-- The read of HBM that an instruction issuing now begins: it sees the tensor writes visible on its issue cycle (Table 8.3), and
the system writes that land before its own positions (R234; DEDUCED, entry 163). -/
def hbmReadOf (s : State) (t : Tile) (ld sh : W64) (a : Nat) : HbmRead :=
  { tile := t, ldesc := ld, shape := sh, addr := a, start := s.cyc, who := s.fresh, bytes := bytesAt s s.cyc a (shapeOf sh).len }
/-- The effect of an HBM read in its slot: MVH.LD and an LPOP from HBM (Tables 6.4, 8.3). `ld` and `sh` are the words that
describe the local side and the shape. -/
def hbmLoad (t : Tile) (ld sh : W64) (a : Nat) (s : State) : State :=
  let c := s.cyc
  let n := (shapeOf sh).len
  let x := hbmReadOf s t ld sh a
  let s := linkBursts a n (poisonTensor a n (eccTensor (diePort t) (lineHit a n) c s))
  let s := beatPort t .mainWrite (c + 188) n (frameHold t a n (chanHold t (beats n) (some 188) s))
  useFree (seenBy t (c + 188 + beats n) { s with pl := { s.pl with hreads := s.pl.hreads ++ [x] } })

/-- The effect of an HBM write in its slot: MVH.ST and an LPUSH to HBM. `ld` and `sh` are the words that describe the local
side and the shape. -/
def hbmStore (t : Tile) (ld sh : W64) (a : Nat) (s : State) : State :=
  let c := s.cyc
  let d := lsDesc ld
  let z := shapeOf sh
  let b := beats z.len
  let s := frameHold t a z.len (chanHold t b none s)
  let s := beatPort t .mainRead c z.len s
  let s := linkBursts a z.len (eccTensor (diePort t) (localLines t d z) c s)
  seenBy t (c + b + 188) (beginFlow (flowOf s t ld sh (.hbm a)) s)

/-- The check of an MVH instruction, and of a Layby transfer that goes to HBM. -/
def mvhCheck (t : Tile) (d : LsDesc) (z : Shape) (a : Nat) (ret : Option Nat) (s : State) : Option Nat :=
  if !(shapeOk z && localOk d z && a % 64 = 0) then some eMoverDesc
  else if chanBusy s t (beats z.len) ret then some eMoverBusy
  else hbmFault s t a z.len

/-- The faults of an MVH instruction. -/
def mvhIssue (t : Tile) (f : Fields) (d : LsDesc) (z : Shape) (a : Nat) (ret : Option Nat) (s : State) : Option (Nat × Nat) :=
  if !mvForm f false false false false false then some (eMoverDesc, 0) else (mvhCheck t d z a ret s).map fun c => (c, 0)

/-- Local descriptor, shape and remote address of an instruction. -/
def mvArgs (s : State) (t : Tile) (f : Fields) : LsDesc × Shape × Nat :=
  let q := mvF f
  (lsDesc (sreg s t q.sl), shapeOf (sreg s t q.sn), remoteOf (sreg s t q.sa))

/-- MVH.LD: an HBM read in the transfer's frame slot. -/
def execMvhLd (t : Tile) (f : Fields) (s : State) : Host.Outcome State Fault Refusal :=
  let q := mvF f
  let (d, z, a) := mvArgs s t f
  .next (tileOnly s (issue { t := t, opc := 0x20, f := f, enc := mvEnc f,
                             reads := [q.sl, q.sa, q.sn] }
    (mvhIssue t f d z a (some 188)) (hbmLoad t (sreg s t q.sl) (sreg s t q.sn) a) s))

/-- MVH.ST: an HBM write in the transfer's frame slot. -/
def execMvhSt (t : Tile) (f : Fields) (s : State) : Host.Outcome State Fault Refusal :=
  let q := mvF f
  let (d, z, a) := mvArgs s t f
  .next (tileOnly s (issue { t := t, opc := 0x21, f := f, enc := mvEnc f,
                             reads := [q.sl, q.sa, q.sn] }
    (mvhIssue t f d z a none) (hbmStore t (sreg s t q.sl) (sreg s t q.sn) a) s))

/-- First-data count of a tile-to-tile transfer (Table 8.3). -/
def mvtF (a b : Tile) : Nat :=
  if tileDie a = tileDie b then 40 else if (tileDie a).val / 2 = (tileDie b).val / 2 then 112 else 160

/-- What an MVT moves: local side, shape, destination tile, offset there. -/
structure MvtArgs where
  d : LsDesc
  z : Shape
  g : Tile
  o : Nat
  deriving DecidableEq, Repr

/-- The operands of an MVT. -/
def mvtArgs (s : State) (t : Tile) (f : Fields) : MvtArgs :=
  let q := mvF f
  let x := (sreg s t q.sx).toNat
  ⟨lsDesc (sreg s t q.sl), shapeOf (sreg s t q.sn), tileOf (bitsOf x 38 32), bitsOf x 24 0⟩
/-- The return intervals of the destination that an MVT issued now would meet. -/
def mvtClash (s : State) (t : Tile) (x : MvtArgs) : List Ival :=
  let r := s.cyc + mvtF t x.g
  s.pl.ivals.filter fun i => i.res = .mvReturn x.g && i.lo < r + beats x.z.len && r < i.hi
/-- The faults of an MVT on its own tile. -/
def mvtCheck (t : Tile) (f : Fields) (x : MvtArgs) (s : State) : Option (Nat × Nat) :=
  if !(mvForm f false true false false false && shapeOk x.z && localOk x.d x.z && x.o % 64 = 0) then some (eMoverDesc, 0)
  else if heldDuring s (.mvIssue t) s.cyc (s.cyc + beats x.z.len) || (mvtClash s t x).any (fun i => i.iss < s.cyc) then
    some (eMoverBusy, 0)
  else if lsSize < x.o + x.z.len then some (eRegionPlane, 0)
  else none
/-- The ports that an MVT uses. -/
def mvtPorts (t : Tile) (x : MvtArgs) (s : State) : State :=
  beatPort x.g .mainWrite (s.cyc + mvtF t x.g) x.z.len (beatPort t .mainRead s.cyc x.z.len s)

/-- MVT: bytes from this tile's local store to another tile's. A clash of return intervals that issue on one cycle is
raised on the destination tile (R153). -/
def execMvt (t : Tile) (f : Fields) (s : State) : Host.Outcome State Fault Refusal :=
  let q := mvF f
  let x := mvtArgs s t f
  let b := beats x.z.len
  let c := s.cyc
  let r := c + mvtF t x.g
  let eff := fun (u : State) =>
    if (mvtClash s t x).isEmpty then
      let u := mvtPorts t x (hold (.mvReturn x.g) r (r + b) (hold (.mvIssue t) c (c + b) u))
      let u := eccTensor (diePort t) (localLines t x.d x.z) c u
      seenBy t (r + b) (beginFlow (flowOf u t (sreg s t q.sl) (sreg s t q.sn) (.tile x.g x.o (mvtF t x.g))) u)
    else schedFault eMoverBusy (srcOf 1 x.g.val) c 0 ((tctl s t).pc % 2 ^ 15) (wordOf 0x22 f) false u
  .next (tileOnly s (issue { t := t, opc := 0x22, f := f, enc := mvEnc f,
                             reads := [q.sl, q.sn, q.sx] } (mvtCheck t f x) eff s))

/-! ## NRU operations at the tile (R152, R154) -/

/-- Bytes of an element and elements per slot of a mode (R152, Table 4.6). -/
def nruB : NruMode → Nat
  | .plain => 4 | .compensated => 8 | .exact => 40
def nruEps : NruMode → Nat
  | .plain => 128 | .compensated => 64 | .exact => 32

/-- The range in force whose bytes hold a window offset (R152, R211). -/
def nruRangeAt (s : State) (u off : Nat) : Option NruRange :=
  s.pl.nruRanges.find? fun r => r.unit.val = u && r.first * nruB r.mode ≤ off && off < (r.first + r.count) * nruB r.mode
/-- The mode at a window offset: plain where no range in force holds it. -/
def nruModeAt (s : State) (u off : Nat) : NruMode := match nruRangeAt s u off with | some r => r.mode | none => .plain

/-- Unit, offset, mode and elements of an NRU instruction: `w` bytes per element moved. -/
structure NruGeo where
  u : Nat
  off : Nat
  mode : NruMode
  n : Nat
  deriving DecidableEq, Repr

/-- The geometry of an NRU instruction. -/
def nruGeo (s : State) (z : Shape) (a w : Nat) : NruGeo :=
  let u := (a - nruBase) / 0x2000000
  let off := (a - nruBase) % 0x2000000
  ⟨u, off, nruModeAt s u off, z.len / w⟩

/-- Number of NRU operations P (R153). -/
def nruP (g : NruGeo) : Nat := ceilDiv g.n (nruEps g.mode)

/-- The window of a single NRU holds every byte addressed (R152, R230). -/
def nruInside (a : Nat) (g : NruGeo) : Bool := nruBase ≤ a && g.u < 12 && g.off + g.n * nruB g.mode ≤ 0x2000000

/-- The checks of NADD, NRD and NCLR: phase, descriptor with the alignment and count of R152, channel, region. `lok`: the local side and fields are legal. -/
def nruCheck (t : Tile) (z : Shape) (a : Nat) (g : NruGeo) (lok : Bool) (ret : Option Nat) (s : State) :
    Option (Nat × Nat) :=
  if s.cyc % 2 = 1 then some (eSeqPhase, 0)
  else if !(shapeOk z && a % 64 = 0 && lok && g.n % nruEps g.mode = 0) then some (eMoverDesc, 0)
  else if nruBase ≤ a && g.u < 12 && !(g.off % nruB g.mode = 0 && g.off / nruB g.mode % nruEps g.mode = 0) then
    some (eMoverDesc, 0)
  else if chanBusy s t (2 * nruP g) ret then some (eMoverBusy, 0)
  else if !nruInside a g then some (eRegionPlane, 0)
  else none

/-- Schedule the operations of an NRU instruction: operation p arrives on s + 64 + 2p (R154, R199). -/
def nruSend (g : NruGeo) (mk : Nat → Nat → Nat → Instr) (s : State) : State :=
  let eps := nruEps g.mode
  (List.range (nruP g)).foldl (fun s p =>
    sched (s.cyc + 64 + 2 * p) (mk p (g.off + p * eps * nruB g.mode) (min eps (g.n - p * eps))) s) s

/-- The unit as an identifier. -/
def nruIdOf (u : Nat) : NruId := ⟨u % 12, by omega⟩

/-- The ports that an NADD uses. -/
def naddPorts (t : Tile) (g : NruGeo) (s : State) : State := usePort t .mainRead s.cyc (2 * nruP g) (nruEps g.mode * 2) s

/-- NADD: FP32 elements from local store as ADD operations, half of an operation's bytes on each of its 2 TCLK; an operation
has its data once they are read. -/
def execNadd (t : Tile) (f : Fields) (s : State) : Host.Outcome State Fault Refusal :=
  let q := mvF f
  let (d, z, a) := mvArgs s t f
  let g := nruGeo s z a 4
  let c := s.cyc
  let eff := fun (u : State) =>
    let u := eccTensor (diePort t) (localLines t d z) c (naddPorts t g (chanHold t (2 * nruP g) none u))
    let u := nruSend g (fun _ off n => .nruAdd (nruIdOf g.u) { off := off, n := n, data := [], tile := t }) u
    seenBy t (c + 144 + 2 * nruP g)
      (beginFlow (flowOf u t (sreg s t q.sl) (sreg s t q.sn) (.nru (nruIdOf g.u) g.off g.mode)) u)
  .next (tileOnly s (issue { t := t, opc := 0x23, f := f, enc := mvEnc f,
                             reads := [q.sl, q.sa, q.sn] } (nruCheck t z a g (mvForm f false false false false false && localOk d z) none) eff s))

/-- NRD: reads NRU elements, converts them and writes them to local store, optionally clearing them. -/
def execNrd (t : Tile) (f : Fields) (s : State) : Host.Outcome State Fault Refusal :=
  let q := mvF f
  let (d, z, a) := mvArgs s t f
  let g := nruGeo s z a (if q.fmt = 1 then 2 else 4)
  let eps := nruEps g.mode
  let c := s.cyc
  let sr := q.rnd = 2
  let ok := mvForm f false true false true false && q.fmt ≤ 1 && q.rnd ≠ 3 && !(sr && q.sx = 63) && localOk d z
  let seed := sreg s t q.sx
  let base := sreg s t (q.sx + 1)
  let eff := fun (u : State) =>
    let u := chanHold t (2 * nruP g) (some 208) u
    let u := usePort t .mainWrite (c + 208) (2 * nruP g) (eps * (if q.fmt = 1 then 2 else 4) / 2) u
    let u := nruSend g (fun p off n => .nruRead (nruIdOf g.u)
      { off := off, n := n, tile := t, first := p * eps, fmt := BitVec.ofNat 4 q.fmt, rnd := BitVec.ofNat 2 q.rnd,
        clr := q.clr, seed := seed, base := base, ldesc := sreg s t q.sl, shape := sreg s t q.sn, issue := c }) u
    seenBy t (c + 208 + 2 * nruP g) u
  .next (tileOnly s (issue { t := t, opc := 0x24, f := f, enc := mvEnc f,
                             reads := [q.sl, q.sa, q.sn] ++ (if sr then [q.sx, q.sx + 1] else []) }
    (nruCheck t z a g ok (some 208)) eff s))

/-- NCLR: CLEAR operations; moves no local-store bytes. -/
def execNclr (t : Tile) (f : Fields) (s : State) : Host.Outcome State Fault Refusal :=
  let q := mvF f
  let z := shapeOf (sreg s t q.sn)
  let a := remoteOf (sreg s t q.sa)
  let g := nruGeo s z a 4
  let eff := fun (u : State) =>
    let u := chanHold t (2 * nruP g) none u
    let u := nruSend g (fun _ off n => .nruClear (nruIdOf g.u) { off := off, n := n, data := [], tile := t }) u
    seenBy t (s.cyc + 144 + 2 * nruP g) u
  .next (tileOnly s (issue { t := t, opc := 0x25, f := f, enc := mvEnc f,
                             reads := [q.sa, q.sn] } (nruCheck t z a g (mvForm f false false false false false) none) eff s))

/-! ## The system channel (R157, R158, R241, R242) -/

/-- Bytes of [a, a + n) on each LPDDR5X stack (R225). -/
def stackBytes (a n : Nat) : List (Nat × Nat) :=
  if n = 0 then []
  else
    let ps := tabulate ((a + n - 1) / 4096 - a / 4096 + 1) fun i =>
      let p := (a / 4096 + i) * 4096
      (p, min (a + n) (p + 4096) - max a p)
    (List.range 12).filterMap fun k =>
      let b := (ps.filter fun x => inLp x.1 && lpStack x.1 = k).foldl (fun t x => t + x.2) 0
      if b = 0 then none else some (k, b)

/-- Smax of an access (R242). -/
def smaxOf (a n : Nat) : Nat := (stackBytes a n).foldl (fun m x => max m x.2) 0
/-- Bytes to host memory. -/
def hostBytes (a n : Nat) : Nat := if inHost a then n else 0
/-- MEM.HOSTBOUND.H (R242). -/
def hostBound (s : State) : Nat := min 450000 (max 450 (bitsOf (reg32 s 0x30000).toNat 18 0))
/-- The guaranteed maximum of an access (Table 10.6). -/
def sysMax (s : State) (a : Nat) : Nat := if inHost a then 1664 + hostBound s else 2560
/-- The unloaded count of an access, without the host's latency. -/
def sysUnloaded (a n : Nat) : Nat := if inHost a then 1664 else 2 * (152 + ceilDiv (smaxOf a n) 64)

/-- A transfer on the system channel. -/
structure SysReqT where
  a : Nat
  n : Nat
  d : Nat
  /-- cycles held beyond s + D: B of an MVS.LD -/
  tail : Nat
  deriving DecidableEq, Repr

/-- Entries a tile holds now (R157). -/
def sysHeld (s : State) (t : Tile) : List SysEnt :=
  s.pl.sysent.filter fun e => e.tile = t && e.lo ≤ s.cyc && s.cyc < e.hi
/-- Entries the ledger counts now (R241). -/
def ledger (s : State) : List SysEnt := s.pl.sysent.filter fun e => e.lo ≤ s.cyc && s.cyc < e.due
/-- MOVER_SYSBUF: four entries, 64 KiB, and the length limits of R157. -/
def sysBufFull (s : State) (t : Tile) (n lim : Nat) : Bool :=
  let h := sysHeld s t
  lim < n || 4 ≤ h.length || 65536 < h.foldl (fun x e => x + e.bytes) n
/-- SYS_ADMIT: the limits of the tensor-service ledger. -/
def sysOver (s : State) (t : Tile) (r : SysReqT) : Bool :=
  let l := ledger s
  let onStack := fun (k : Nat) => l.foldl (fun x e => x + (e.perStack.filter (·.1 = k)).foldl (fun y p => y + p.2) 0) 0
  let die := (l.filter fun e => tileDie e.tile = tileDie t).foldl (fun x e => x + e.bytes) 0
  let host := l.foldl (fun x e => x + e.host) 0
  (stackBytes r.a r.n).any (fun p => 32768 < onStack p.1 + p.2) || 131072 < die + r.n ||
    65536 < host + hostBytes r.a r.n

/-- The system channel's checks. -/
def sysCheck (t : Tile) (r : SysReqT) (lim : Nat) (s : State) : Option Nat :=
  if 0 < r.tail && heldDuring s (.sysWrite t) (s.cyc + r.d) (s.cyc + r.d + r.tail) then some eMoverBusy
  else if sysBufFull s t r.n lim then some eMoverSysbuf
  else if sysOver s t r then some eSysAdmit
  else none

/-- Enter a transfer; a delivery count below the unloaded count is late for certain (R158, Table 10.6). -/
def sysEnter (t : Tile) (r : SysReqT) (opc : Nat) (f : Fields) (pc : Nat) (s : State) : State :=
  let c := s.cyc
  let id := c * 128 + t.val
  let e : SysEnt := { tile := t, id := id, word := BitVec.ofNat 64 (wordOf opc f), pc := pc, lo := c, due := c + r.d,
                      hi := c + r.d + r.tail, bytes := r.n, perStack := stackBytes r.a r.n, host := hostBytes r.a r.n,
                      short := r.d < sysMax s r.a, tight := r.d < sysUnloaded r.a r.n }
  let s := { s with pl := { s.pl with sysent := s.pl.sysent ++ [e] } }
  if 0 < r.tail then hold (.sysWrite t) (c + r.d) (c + r.d + r.tail) s else s
/-- The transfer that a tile enters now: a read asks for its lines, and a write will send them; `lside` is the local side of a
delivery to local store (R264). -/
def xferBegin (t : Tile) (r : SysReqT) (wr : Bool) (lside : Option (W64 × W64)) (s : State) : State :=
  let ls := linesOf r.a r.n
  let x : SysXfer := { tile := t, id := s.cyc * 128 + t.val, a := r.a, n := r.n, due := s.cyc + r.d, wr := wr,
                       todo := if wr then ls else [], left := if wr then [] else ls, got := [], lside := lside, who := s.fresh }
  let s := useFree { s with pl := { s.pl with xfers := s.pl.xfers ++ [x] } }
  x.left.foldl (fun s l => withNo (fun no s => schedNow (.peek (modulePort t) ⟨BitVec.ofNat 46 l, no⟩) s) s) s

/-- The effect of a system-channel read into local store: MVS.LD and a spilled LPOP. -/
def sysLoad (t : Tile) (ld sh : W64) (r : SysReqT) (opc : Nat) (f : Fields) (pc : Nat) (s : State) : State :=
  let c := s.cyc
  let s := beatPort t .mainWrite (c + r.d) r.n (sysEnter t r opc f pc s)
  seenBy t (c + r.d + beats r.n) (xferBegin t r false (some (ld, sh)) s)

/-- The effect of a system-channel write from local store: MVS.ST and a spilled LPUSH. The bytes are read during
[s, s + B) and each line is sent as a Place on cycle `land` (R157, R264). -/
def sysSave (t : Tile) (ld sh : W64) (r : SysReqT) (land opc : Nat) (f : Fields) (pc : Nat) (s : State) : State :=
  let c := s.cyc
  let s := beatPort t .mainRead c r.n (sysEnter t r opc f pc s)
  let s := eccTensor (diePort t) (localLines t (lsDesc ld) (shapeOf sh)) c s
  seenBy t (c + r.d) (beginFlow (flowOf s t ld sh (.sys r.a land)) (xferBegin t r true none s))

/-- The faults of MVS.LD and MVS.ST. -/
def mvsCheck (t : Tile) (f : Fields) (d : LsDesc) (z : Shape) (r : SysReqT) (s : State) : Option (Nat × Nat) :=
  if !(mvForm f false true false false false && shapeOk z && localOk d z && r.a % 64 = 0) then some (eMoverDesc, 0)
  else (sysCheck t r 65536 s).map fun c => (c, 0)

/-- MVS.LD: a system-channel read of LPDDR5X, the L3 or host memory, delivered from s + D. -/
def execMvsLd (t : Tile) (f : Fields) (s : State) : Host.Outcome State Fault Refusal :=
  let q := mvF f
  let (d, z, a) := mvArgs s t f
  let r : SysReqT := ⟨a, z.len, (sreg s t q.sx).toNat % 2 ^ 32, beats z.len⟩
  .next (moverOnly s (issue { t := t, opc := 0x2C, f := f, enc := mvEnc f,
                              reads := [q.sl, q.sa, q.sn, q.sx] } (mvsCheck t f d z r)
    (sysLoad t (sreg s t q.sl) (sreg s t q.sn) r 0x2C f (tctl s t).pc) s))

/-- MVS.ST: a system-channel write of local-store bytes, acknowledged by s + D. -/
def execMvsSt (t : Tile) (f : Fields) (s : State) : Host.Outcome State Fault Refusal :=
  let q := mvF f
  let (d, z, a) := mvArgs s t f
  let r : SysReqT := ⟨a, z.len, (sreg s t q.sx).toNat % 2 ^ 32, 0⟩
  .next (moverOnly s (issue { t := t, opc := 0x2D, f := f, enc := mvEnc f,
                              reads := [q.sl, q.sa, q.sn, q.sx] } (mvsCheck t f d z r)
    (sysSave t (sreg s t q.sl) (sreg s t q.sn) r (s.cyc + beats r.n) 0x2D f (tctl s t).pc) s))

/-- What an IPAGE moves: first word, words, request. -/
structure IpageArgs where
  w : Nat
  n : Nat
  z : Shape
  r : SysReqT
  deriving DecidableEq, Repr

/-- The operands of an IPAGE. -/
def ipageArgs (s : State) (t : Tile) (f : Fields) : IpageArgs :=
  let q := mvF f
  let z := shapeOf (sreg s t q.sn)
  ⟨bitsOf (sreg s t q.sl).toNat 14 0, z.len / 8, z,
   ⟨remoteOf (sreg s t q.sa), z.len, (sreg s t q.sx).toNat % 2 ^ 32, 0⟩⟩
/-- The faults of an IPAGE; one that breaks MOVER_DESC and names pending words logs MOVER_DESC (DEDUCED, entry 15). -/
def ipageCheck (t : Tile) (f : Fields) (x : IpageArgs) (s : State) : Option (Nat × Nat) :=
  if !(mvForm f false true false false false && shapeOk x.z && x.r.a % 64 = 0 && x.w % 8 = 0 && x.w + x.n ≤ 32768) then some (eMoverDesc, 0)
  else if s.pl.ipages.any fun p =>
      p.tile = t && s.cyc < p.due && p.first < x.w + x.n && x.w < p.first + p.n then some (eImemPending, 0)
  else (sysCheck t x.r 32768 s).map fun c => (c, 0)

/-- IPAGE: pages words into instruction memory; they become visible together on s + D (R157, R162). -/
def execIpage (t : Tile) (f : Fields) (s : State) : Host.Outcome State Fault Refusal :=
  let q := mvF f
  let x := ipageArgs s t f
  let eff := fun (u : State) =>
    let u := xferBegin t x.r false none (sysEnter t x.r 0x2E f (tctl s t).pc u)
    seenBy t (s.cyc + x.r.d)
      { u with pl := { u.pl with ipages := u.pl.ipages ++ [⟨t, x.w, x.n, s.cyc * 128 + t.val, s.cyc + x.r.d⟩] } }
  .next (moverOnly s (issue { t := t, opc := 0x2E, f := f, enc := mvEnc f,
                              reads := [q.sl, q.sa, q.sn, q.sx] } (ipageCheck t f x) eff s))

/-- The schedule fault of a transfer that is late (R158). -/
def lateFault (e : SysEnt) (s : State) : State :=
  schedFault eMoverLate (srcOf 1 e.tile.val) s.cyc 0 (e.pc % 2 ^ 15) e.word.toNat false s
/-- MOVER_LATE: on s + D, a system-channel transfer whose data has not all arrived, or that is not acknowledged. A
delivery count of at least the guaranteed maximum never raises it, but for a host that exceeds its bound (R158, R242). -/
def execMoverLate (t : Tile) (entry : Nat) (s : State) : Host.Outcome State Fault Refusal :=
  .next (tileOnly s (match s.pl.sysent.find? fun e => e.tile = t && e.id = entry && e.due = s.cyc with
    | some e => if e.short || 0 < e.host then lateFault e s else s
    | none => s))

/-! ## Beats (R153, R154, R157, Table 6.4) -/

/-- Bytes that a flow reads on one cycle: 256, or half of an NRU operation's elements. -/
def flowRate (x : Flow) : Nat := match x.dst with | .nru _ _ m => 2 * nruEps m | _ => 256
/-- The bytes of the present beat, read from local store on their cycle. -/
def flowRead (s : State) (x : Flow) : List Byte :=
  let z := shapeOf x.shape
  let k := (s.cyc - x.start) * flowRate x
  tabulate (min (flowRate x) (z.len - k)) fun i => lsByte s x.tile .mainRead s.cyc (localOff (lsDesc x.ldesc) z (k + i))
/-- The present beat is the flow's last. -/
def flowLast (s : State) (x : Flow) : Bool := (shapeOf x.shape).len ≤ (s.cyc - x.start + 1) * flowRate x
/-- Writes of beat `j` of a store to HBM: landed on its frame positions, returned to tensor reads from s + B + 188 (R199,
R235). -/
def hbmBeat (x : Flow) (a j : Nat) (bs : List Byte) : List PendWrite :=
  let c := x.start
  tabulate bs.length fun i =>
    let k := 256 * j + i
    ⟨2 * framePos c + 2 * (k / 512), c + beats (shapeOf x.shape).len + 188, a + k, bs.getD i 0, 0xFF, x.who, 0⟩
/-- Writes of beat `j` of an MVT, on s + F + j at the destination (R153). -/
def tileBeat (x : Flow) (g : Tile) (o f j : Nat) (bs : List Byte) : List PendWrite :=
  let c := x.start + f + j
  tabulate bs.length fun i => ⟨c, c + 1, lsBase g + o + (256 * j + i), bs.getD i 0, 0xFF, x.who, 1⟩
/-- The operation p of an NADD has its data (R154). -/
def fillAdd (x : Flow) (u : NruId) (off p : Nat) (bs : List Byte) (s : State) : State :=
  let fill := fun (i : Instr) => match i with
    | .nruAdd v k => if v = u ∧ k.tile = x.tile ∧ k.off = off then
        Instr.nruAdd v { k with data := tabulate k.n fun e => BitVec.ofNat 32 (leField bs (4 * e) 4) } else i
    | _ => i
  { s with agenda := s.agenda.map fun e => if e.1 = x.start + 64 + 2 * p then (e.1, fill e.2) else e }
/-- The lines of a system-channel write leave as Places (R264). -/
def sendPlaces (x : Flow) (a land : Nat) (bs : List Byte) (s : State) : State :=
  let mine := fun (y : SysXfer) => y.wr && y.tile = x.tile && y.id = x.start * 128 + x.tile.val
  let sent := fun (y : SysXfer) => if mine y then { y with todo := [], left := y.todo } else y
  let s := { s with pl := { s.pl with xfers := s.pl.xfers.map sent } }
  (List.range (bs.length / 64)).foldl (fun s i => withNo (fun no s =>
    sched land (.place (modulePort x.tile) ⟨addrLine (a + 64 * i), no⟩ ⟨bytesLine ((bs.drop (64 * i)).take 64), false⟩) s) s) s
/-- What the bytes of the present beat become, and the bytes that wait for the next one. -/
def flowSend (x : Flow) (bs : List Byte) (s : State) : List Byte × State :=
  let j := s.cyc - x.start
  let got := x.got ++ bs
  match x.dst with
  | .hbm a => ([], addWrites (hbmBeat x a j bs) s)
  | .tile g o f => ([], addWrites (tileBeat x g o f j bs) s)
  | .sys a land => (got, if flowLast s x then sendPlaces x a land got s else s)
  | .nru u off m =>
    if j % 2 = 0 then (got, s) else ([], fillAdd x u (off + j / 2 * nruEps m * nruB m) (j / 2) got s)
/-- A flow of the list. -/
def sameFlow (x y : Flow) : Bool := y.who = x.who && y.tile = x.tile && y.start = x.start
/-- The present beat of a flow. -/
def flowTick (s : State) (x : Flow) : State :=
  let (got, u) := flowSend x (flowRead s x) s
  let rest :=
    if flowLast s x then u.pl.flows.filter fun y => !sameFlow x y
    else u.pl.flows.map fun y => if sameFlow x y then { y with got := got } else y
  useFree { u with pl := { u.pl with flows := rest } }

/-- The writes of a read of HBM on the present cycle: 512 bytes on each of its frame positions, on their way to the local store
from s + 188 on (R199, R235). -/
def hreadTick (s : State) (x : HbmRead) : State :=
  let p := framePos x.start
  if s.cyc % 2 = 1 || s.cyc / 2 < p then s
  else
    let i := s.cyc / 2 - p
    let off := localOff (lsDesc x.ldesc) (shapeOf x.shape)
    let ws := writeLocal x.tile (fun k => off (512 * i + k)) x.who (x.start + 188 + 2 * i) ((x.bytes.drop (512 * i)).take 512)
    let s := addWrites ws s
    if x.bytes.length ≤ 512 * (i + 1) then { s with pl := { s.pl with hreads := s.pl.hreads.filter fun y => y.who ≠ x.who } } else s

/-- The bytes that a read on the system channel has brought; those not arrived are free (entry 164). -/
def xferBytes (s : State) (x : SysXfer) : List Byte :=
  (linesOf x.a x.n).flatMap fun l => match x.got.find? fun g => g.1 = l with
    | some g => lineBytes g.2
    | none => freeLine s l
/-- A transfer is due: its data goes to local store from s + D on or stands in instruction memory, and one whose data or
acknowledgements have not all come is late (R157, R158, R162). -/
def xferDue (s : State) (x : SysXfer) : State :=
  let s := { s with pl := { s.pl with xfers := s.pl.xfers.filter fun y => y.who ≠ x.who } }
  let bs := if x.wr then [] else xferBytes s x
  let s := match x.lside with
    | some (ld, sh) => addWrites (writeLocal x.tile (localOff (lsDesc ld) (shapeOf sh)) x.who s.cyc bs) s
    | none => s
  let s := match s.pl.ipages.find? fun p => p.tile = x.tile && p.id = x.id with
    | some p => imemPut p.tile p.first (tabulate p.n fun i => BitVec.ofNat 64 (leField bs (8 * i) 8))
        { s with pl := { s.pl with ipages := s.pl.ipages.filter fun q => !(q.tile = x.tile && q.id = x.id) } }
    | none => s
  let bad := !(x.todo.isEmpty && x.left.isEmpty)
  let s := if bad && !x.wr then useFree s else s
  match s.pl.sysent.find? fun e => e.tile = x.tile && e.id = x.id with
  | some e => if bad || e.tight then lateFault e s else s
  | none => s
/-- The transfers of an IPAGE. -/
def isPage (s : State) (x : SysXfer) : Bool := s.pl.ipages.any fun p => p.tile = x.tile && p.id = x.id
/-- The words of every IPAGE due by now stand in instruction memory (R162). -/
def landPages (s : State) : State := (s.pl.xfers.filter fun x => x.due ≤ s.cyc && isPage s x).foldl xferDue s
/-- The other transfers due on the present cycle, once its answers are in. -/
def landXfers (s : State) : State := (s.pl.xfers.filter fun x => x.due ≤ s.cyc && !isPage s x).foldl xferDue s

/-! ## The Layby (R167-R173) -/

/-- The state of a slot. -/
def laybySlot (s : State) (k : Nat) : LaybySlot := smapGet {} s.pl.layby k
/-- Replace it. -/
def setLayby (k : Nat) (x : LaybySlot) (s : State) : State :=
  { s with pl := { s.pl with layby := smapSet {} k x s.pl.layby } }

/-- What the pseudocode of R169 answers: a fault, or the stack address, whether it spilled, and the slot's new state. -/
inductive LaybyAns where
  | fault (code : Nat)
  | at_ (addr : Nat) (spilled : Bool) (slot : LaybySlot)
  deriving DecidableEq, Repr

/-- layby_push (R169). -/
def laybyPush (k : LaybySlot) (n : Nat) : LaybyAns :=
  if k.ovfPtr = 0 ∧ k.hbmPtr + n ≤ k.hbmQuota then .at_ (k.hbmBase + k.hbmPtr) false { k with hbmPtr := k.hbmPtr + n }
  else if k.ovfEn = false ∨ k.ovfQuota < k.ovfPtr + n then .fault eLaybyOverflow
  else .at_ (k.ovfBase + k.ovfPtr) true { k with ovfPtr := k.ovfPtr + n }

/-- layby_pop (R169). -/
def laybyPop (k : LaybySlot) (n : Nat) : LaybyAns :=
  if 0 < k.ovfPtr then
    if k.ovfPtr < n then .fault eLaybySpan
    else .at_ (k.ovfBase + (k.ovfPtr - n)) true { k with ovfPtr := k.ovfPtr - n }
  else if k.hbmPtr < n then .fault eLaybyUnderflow
  else .at_ (k.hbmBase + (k.hbmPtr - n)) false { k with hbmPtr := k.hbmPtr - n }

/-- Pushes and pops of the present cycle on a slot. -/
def laybyNow (s : State) (slot : Nat) : List LaybyOp :=
  s.pl.laybyq.filter fun o => o.slot.val = slot && o.cycle = s.cyc

/-- The tile waits no longer for an effect that is taken back (R150, R170). -/
def unsee (o : LaybyOp) (s : State) : State :=
  let k := tctl s o.tile
  if k.last = o.lastNow then setTctl o.tile { k with last := o.lastWas } s else s
/-- Take back what pushes or pops of the cycle have entered, with the slot as it stood before them (R170). -/
def laybyUndo (ops : List LaybyOp) (s : State) : State :=
  match ops with
  | [] => s
  | o :: _ =>
    let gone := fun {α : Type} [DecidableEq α] (g : LaybyOp → List α) (l : List α) =>
      l.filter fun x => !(ops.any fun o => (g o).contains x)
    let asked := ops.flatMap (·.ags)
    let s := ops.foldl (fun s o => unsee o s) (setLayby o.slot.val o.before s)
    { s with
      pl := { s.pl with
        ivals := gone (·.ivs) s.pl.ivals, pw := gone (·.pws) s.pl.pw, frames := gone (·.fus) s.pl.frames,
        sysent := gone (·.ens) s.pl.sysent, ports := gone (·.pus) s.pl.ports, flows := gone (·.fls) s.pl.flows,
        hreads := gone (·.hrs) s.pl.hreads, xfers := gone (·.xfs) s.pl.xfers },
      agenda := s.agenda.filter fun x => !asked.contains x }

/-- Whether an operation's transfer may be made, and its effect, once the pseudocode has given its address. The bytes of a
spilled push stand in memory from s + OVF_D on (R172). -/
def laybyMove (push : Bool) (t : Tile) (ld sh : W64) (slot : LaybySlot) (a : Nat) (spilled : Bool) (f : Fields)
    (pc : Nat) (s : State) : Option Nat × State :=
  let opc := if push then 0x26 else 0x27
  let d := lsDesc ld
  let z := shapeOf sh
  if spilled then
    let r : SysReqT := ⟨a, z.len, slot.ovfD, if push then 0 else beats z.len⟩
    match sysCheck t r 65536 s with
    | some c => (some c, s)
    | none => (none, if push then sysSave t ld sh r (s.cyc + max r.d (beats r.n)) opc f pc s else sysLoad t ld sh r opc f pc s)
  else
    match mvhCheck t d z a (if push then none else some 188) s with
    | some c => (some c, s)
    | none => (none, if push then hbmStore t ld sh a s else hbmLoad t ld sh a s)

/-- LPUSH and LPOP: the operation joins those of its slot and cycle (R169), one whose transfer then faults too (DEDUCED, entry
159). `x` is the state as issue found it. -/
def laybyOp (push : Bool) (t : Tile) (f : Fields) (x : State) (s : State) : State :=
  let q := mvF f
  let z := shapeOf (sreg x t q.sn)
  let slot : Slot := ⟨q.slot % 16, by omega⟩
  let k := laybySlot s slot.val
  let pc := (tctl x t).pc
  let opc := if push then 0x26 else 0x27
  let now := laybyNow s slot.val
  let op : LaybyOp := { slot := slot, cycle := s.cyc, isPush := push, tile := t, pc := pc,
                        word := BitVec.ofNat 64 (wordOf opc f), before := k }
  let note := fun (o : LaybyOp) (s : State) => { s with pl := { s.pl with laybyq := s.pl.laybyq ++ [o] } }
  let mixed := now.any (·.isPush) && now.any (fun o => !o.isPush)
  if mixed then note op s
  else if now.any (fun o => o.isPush ≠ push) then note op (laybyUndo now s)
  else if now.any (·.bad) then note op s
  else
    match (if push then laybyPush k z.len else laybyPop k z.len) with
    | .fault code =>
      note { op with bad := true }
        (schedFault code (srcOf 1 t.val) s.cyc 0 (pc % 2 ^ 15 + slot.val * 2 ^ 32) (wordOf opc f) false s)
    | .at_ a spilled k' =>
      match laybyMove push t (sreg x t q.sl) (sreg x t q.sn) k a spilled f pc s with
      | (some code, s) =>
        note { op with lastWas := (tctl s t).last, lastNow := (tctl s t).last }
          (schedFault code (srcOf 1 t.val) s.cyc 0 (pc % 2 ^ 15 + slot.val * 2 ^ 32) (wordOf opc f) false s)
      | (none, u) =>
        note { op with
          ivs := u.pl.ivals.drop s.pl.ivals.length, pws := u.pl.pw.drop s.pl.pw.length,
          fus := u.pl.frames.drop s.pl.frames.length, ens := u.pl.sysent.drop s.pl.sysent.length,
          pus := u.pl.ports.drop s.pl.ports.length, ags := u.agenda.drop s.agenda.length,
          fls := u.pl.flows.drop s.pl.flows.length,
          hrs := u.pl.hreads.drop s.pl.hreads.length, xfs := u.pl.xfers.drop s.pl.xfers.length, lastWas := (tctl s t).last, lastNow := (tctl u t).last }
          (setLayby slot.val k' u)

/-- The faults of LPUSH and LPOP before the slot is looked at. -/
def laybyCheck (t : Tile) (f : Fields) (s : State) : Option (Nat × Nat) :=
  let q := mvF f
  if !(mvForm f true false true false false && shapeOk (shapeOf (sreg s t q.sn)) && localOk (lsDesc (sreg s t q.sl)) (shapeOf (sreg s t q.sn))) then
    some (eMoverDesc, q.slot * 2 ^ 32)
  else none

/-- The issue of LPUSH and LPOP. -/
def laybyIssue (push : Bool) (t : Tile) (f : Fields) (s : State) : State :=
  let q := mvF f
  moverOnly s (issue { t := t, opc := if push then 0x26 else 0x27, f := f, enc := mvEnc f,
                       reads := [q.sl, q.sn] } (laybyCheck t f) (laybyOp push t f s) s)

/-- LPUSH: pushes local-store bytes onto a slot's stack, in HBM or spilled. -/
def execLpush (t : Tile) (f : Fields) (s : State) : Host.Outcome State Fault Refusal := .next (laybyIssue true t f s)
/-- LPOP: pops the top bytes of a slot's stack back into local store. -/
def execLpop (t : Tile) (f : Fields) (s : State) : Host.Outcome State Fault Refusal := .next (laybyIssue false t f s)

/-- LAYBY_MIX at the end of a cycle: one record for each slot, naming the lowest tile (R164, R170). -/
def laybyEnd (s : State) : State :=
  let s := (List.range 16).foldl (fun s k =>
    let now := laybyNow s k
    match now with
    | [] => s
    | o :: r =>
      if now.any (·.isPush) && now.any (fun x => !x.isPush) then
        let low := r.foldl (fun a b => if b.tile.val < a.tile.val then b else a) o
        schedFault eLaybyMix (srcOf 1 low.tile.val) s.cyc 0 (low.pc % 2 ^ 15 + k * 2 ^ 32) low.word.toNat false s
      else s) s
  { s with pl := { s.pl with laybyq := s.pl.laybyq.filter fun o => s.cyc < o.cycle } }

/-- LAYBY_CLEAR: HBM_PTR and OVF_PTR of one slot become 0; stack bytes are not touched (R173). -/
def execLaybyClear (k : Slot) (s : State) : Host.Outcome State Fault Refusal :=
  .next (setLayby k.val { laybySlot s k.val with hbmPtr := 0, ovfPtr := 0 } s)

end Sys2Proof.Machine
end

