-- ==== Sys2Proof/Machine/Image.lean ====
section
/-! DEFINITION. The schedule image: its layout, the checks of a load, staging and activation (09_schedule_image). -/

namespace Sys2Proof.Machine

/-! ## Byte layouts -/

/-- Every byte that no field names is 0 (R204); fields are (offset, size). -/
def onlyNamed (e : List Byte) (fields : List (Nat × Nat)) : Bool :=
  (List.range e.length).all fun i => fields.any (fun f => f.1 ≤ i && i < f.1 + f.2) || e.getD i 0 = 0

/-- A section directory entry (R206). -/
structure Sect where
  ty : Nat
  count : Nat
  off : Nat
  len : Nat
  esz : Nat
  clean : Bool
  deriving DecidableEq, Repr

/-- Read a directory entry. -/
def sectOf (e : List Byte) : Sect :=
  { ty := leField e 0 2, count := leField e 4 4, off := leField e 8 8, len := leField e 16 8, esz := leField e 24 4,
    clean := onlyNamed e [(0, 2), (4, 4), (8, 8), (16, 8), (24, 4)] }

/-- ENTRY_SIZE of each section type (Table 9.2); 0 for a type that does not exist. -/
def entrySize : Nat → Nat
  | 1 => 32 | 2 => 64 | 3 => 16 | 4 => 8 | 5 => 16 | 6 => 16 | 7 => 64 | 8 => 48 | 9 => 40 | 10 => 16 | _ => 0

/-- The directory of an image. -/
def imgSects (bs : List Byte) : List Sect :=
  tabulate (leField bs 0x20 4) fun i => sectOf (slice bs (0x100 + 32 * i) 32)
/-- The section of a type; an absent section holds no entries (R206). -/
def imgSect (bs : List Byte) (ty : Nat) : Sect :=
  ((imgSects bs).find? fun x => x.ty = ty).getD ⟨ty, 0, 0, 0, entrySize ty, true⟩
/-- The entries of a section. -/
def imgEntries (bs : List Byte) (ty : Nat) : List (List Byte) :=
  let x := imgSect bs ty
  tabulate x.count fun i => slice bs (x.off + i * entrySize ty) (entrySize ty)

/-- Header fields (Table 9.1). -/
def imgSigned (bs : List Byte) : Nat := leField bs 0x10 8
def imgTotal (bs : List Byte) : Nat := leField bs 0x18 8
def imgWsys (bs : List Byte) : Nat := leField bs 0x24 2
def imgSegCount (bs : List Byte) : Nat := leField bs 0x26 2
def imgHasSig (bs : List Byte) : Bool := bitOf (leField bs 0x0C 4) 0
/-- The signature block: everything from SIGNED_LEN on. -/
def imgBlock (bs : List Byte) : List Byte := (bs.take (imgTotal bs)).drop (imgSigned bs)

/-! ## Step 1: header and directory (R204-R206, R187) -/

/-- Sections do not overlap. -/
def sectsApart : List Sect → Bool
  | [] => true
  | x :: r => r.all (fun y => min (x.off + x.len) (y.off + y.len) ≤ max x.off y.off) && sectsApart r
/-- No type appears twice. -/
def sectsOnce : List Sect → Bool
  | [] => true
  | x :: r => r.all (fun y => y.ty ≠ x.ty) && sectsOnce r

/-- The header of an image whose command names `len` bytes. -/
def imgHeaderOk (len : Nat) (bs : List Byte) : Bool :=
  let h := slice bs 0 0x100
  let f := fun o n => leField h o n
  onlyNamed h [(0, 0x2F), (0x30, 0x38)] && f 0 4 = 0x49535854 && f 4 2 = 1 && f 6 2 = 0x100 && f 0x0C 4 < 2 &&
  f 0x10 8 % 64 = 0 && f 0x18 8 = len && f 0x18 8 ≤ 0x100000000 && 3 ≤ f 0x20 4 && f 0x20 4 ≤ 10 &&
  256 ≤ f 0x24 2 && f 0x24 2 ≤ 2048 && f 0x24 2 % 256 = 0 && 1 ≤ f 0x26 2 && f 0x26 2 ≤ 4096 &&
  f 0x28 1 = 4 && f 0x29 1 = 4 && 1 ≤ f 0x2A 1 && f 0x2A 1 ≤ 4 && 1 ≤ f 0x2B 1 && f 0x2B 1 ≤ 64 &&
  f 0x2C 2 < 16 * f 0x2A 1 && f 0x2E 1 < f 0x2B 1

/-- The directory. -/
def imgDirOk (bs : List Byte) : Bool :=
  let xs := imgSects bs
  let top := 0x100 + 32 * xs.length
  xs.all (fun x => x.clean && entrySize x.ty ≠ 0 && x.esz = entrySize x.ty && x.len = x.count * x.esz &&
    x.off % 64 = 0 && (x.len = 0 || top ≤ x.off) && x.off + x.len ≤ imgSigned bs) &&
  sectsOnce xs && sectsApart xs && [1, 2, 4].all (fun t => xs.any fun x => x.ty = t) &&
  (imgSect bs 1).count = imgSegCount bs

/-- TOTAL_LEN of an image with and without a signature block (R215). -/
def imgLengthOk (bs : List Byte) : Bool :=
  if imgHasSig bs then
    imgTotal bs = ceilDiv (imgSigned bs + 104 + leField (imgBlock bs) 2 2) 64 * 64
  else imgTotal bs = imgSigned bs

/-! ## Step 2: digest and signature (R215, R216, R423) -/

/-- The image digest: SHA-384 of bytes [0, SIGNED_LEN) (R215). -/
def imgDigest (bs : List Byte) : Digest := sha384D (bs.take (imgSigned bs))
/-- Unnamed bytes of the signature block are 0. -/
def imgBlockClean (bs : List Byte) : Bool :=
  let b := imgBlock bs
  !imgHasSig bs || onlyNamed b [(0, 4), (8, 96), (104, leField b 2 2)]
/-- A block that is present verifies against OWK on an owned package; none is refused only under REQSIG (R216, R423). -/
def imgSignatureOk (s : State) (bs : List Byte) : Bool :=
  if imgHasSig bs then
    (match s.sec.owner with
    | none => false
    | some o => blockVerifies o.point (imgBlock bs) (sha384 (bs.take (imgSigned bs))))
  else match s.sec.owner with | none => true | some o => !o.reqsig

/-! ## Entries -/

/-- A two's-complement 64-bit field. -/
def sField (e : List Byte) (off : Nat) : Int := signOf 64 (leField e off 8)

/-- Segment table entry (R207). -/
def segOf (e : List Byte) : ImgSeg :=
  { slot := ⟨leField e 2 1 % 16, by omega⟩, tileFirst := leField e 4 4, declFirst := leField e 8 4,
    declCount := leField e 12 2 }
/-- Page descriptor i of a tile stream header. -/
def pageOf (e : List Byte) (i : Nat) : ImgPage :=
  ⟨leField e (16 + 8 * i) 4, leField e (20 + 8 * i) 2, leField e (22 + 8 * i) 2⟩
/-- Tile stream header (R207). -/
def tileHdrOf (e : List Byte) : ImgTile :=
  { entry := leField e 0 2, presetFirst := leField e 4 4, presetCount := leField e 8 2,
    pages := tabulate (min 4 (leField e 2 2)) (pageOf e) }
/-- Register preset (R208). -/
def presetOf (e : List Byte) : ImgPreset := ⟨leField e 0 1, leField e 1 1 = 1, BitVec.ofNat 64 (leField e 8 8)⟩
/-- HBM frame grant (R210). -/
def frameOf (e : List Byte) : ImgFrame :=
  { seg := if leField e 0 2 = 0xFFFF then none else some (leField e 0 2), chan := leField e 2 1, die := leField e 3 1,
    start := leField e 4 2, len := leField e 6 2 }
/-- NRU mode entry (R211). -/
def nruOf (e : List Byte) : ImgNru :=
  { seg := leField e 0 2,
    range := { unit := nruIdOf (leField e 2 1),
               mode := if leField e 3 1 = 1 then .compensated else if leField e 3 1 = 2 then .exact else .plain,
               first := leField e 4 4, count := leField e 8 4 } }
/-- A u24 local-store pointer as a byte address (R333). -/
def ptr24 (e : List Byte) (off : Nat) : Nat := bitsOf (leField e off 3) 18 0 * 64
/-- Bits [23:19] of a u24 pointer. -/
def ptr24Bad (e : List Byte) (off : Nat) : Bool := bitsOf (leField e off 3) 23 19 ≠ 0

/-- Exchange table entry (Tables 9.3, 14.1, 14.2). -/
def exchOf (e : List Byte) : ImgExch :=
  let role := leField e 2 1
  let mode := leField e 32 1
  { group := leField e 0 1, port := portOf (leField e 1 1), rx := bitOf role 7, tx := bitOf role 6, outf := bitOf role 3,
    outc := bitOf role 2, add := BitVec.ofNat 2 role, hop := leField e 4 2, earliest := sField e 8, winOpen := sField e 16,
    winClose := sField e 24, mode := BitVec.ofNat 2 mode, rpl := BitVec.ofNat 2 (mode / 4), clrst := bitOf mode 4,
    wst := bitOf mode 5, ef := bitOf mode 6, oport := portOf (leField e 33 1), nflit := leField e 34 2,
    blk0 := leField e 36 4, nblk := leField e 40 2, src := ptr24 e 42, res := ptr24 e 45, nres := ptr24 e 48,
    cbuf := ptr24 e 51, dst := ptr24 e 54, side := ptr24 e 57,
    badBits := bitsOf role 5 4 ≠ 0 || bitOf mode 7 || leField e 33 1 / 8 ≠ 0 || leField e 60 4 ≠ 0 ||
      [42, 45, 48, 51, 54, 57].any (ptr24Bad e) }

/-- Layby quota entry (R213). -/
def laybyOf (e : List Byte) : LaybySlot :=
  { hbmBase := leField e 0 8, hbmQuota := leField e 8 8, ovfBase := leField e 16 8, ovfQuota := leField e 24 8,
    ovfD := leField e 32 4, ovfEn := leField e 36 1 = 1 }
/-- Layby declaration (R213). -/
def declOf (e : List Byte) : ImgDecl :=
  { slot := leField e 0 1, hbmEntry := leField e 8 8, ovfEntry := leField e 16 8, hbmPeak := leField e 24 8,
    ovfPeak := leField e 32 8 }
/-- Scale table entry (R214). -/
def scaleOf (e : List Byte) : ImgScale := ⟨leField e 0 1, leField e 1 1, leField e 4 4, leField e 8 8⟩

/-! ## Step 4: tables (R207-R214, R345) -/

/-- No element of a list equals another one. -/
def allOnce : List Nat → Bool
  | [] => true
  | x :: r => !r.contains x && allOnce r
/-- Half-open intervals that share no point. -/
def allApart : List (Nat × Nat) → Bool
  | [] => true
  | x :: r => r.all (fun y => min x.2 y.2 ≤ max x.1 y.1) && allApart r

/-- Segment table, with its declarations (R207, R213). -/
def imgSegsOk (bs : List Byte) : Bool :=
  let es := imgEntries bs 1
  let tiles := (imgSect bs 2).count
  let decls := (imgEntries bs 9).map declOf
  (List.range es.length).all fun g =>
    let e := es.getD g []
    let x := segOf e
    onlyNamed e [(0, 3), (4, 4), (8, 6)] && leField e 0 2 = g && leField e 2 1 < 16 && x.tileFirst + 128 ≤ tiles &&
    (x.declCount = 0 || x.declFirst + x.declCount ≤ decls.length) &&
    allOnce (((decls.drop x.declFirst).take x.declCount).map (·.slot))

/-- Tile stream headers with their pages and presets (R207, R208). -/
def imgTilesOk (bs : List Byte) : Bool :=
  let code := (imgSect bs 4).count
  let pre := (imgEntries bs 3).map presetOf
  (imgEntries bs 2).all fun e =>
    let x := tileHdrOf e
    let n := leField e 2 2
    n ≤ 4 && onlyNamed e [(0, 10), (16, 8 * n)] && x.entry ≤ 32767 && x.presetCount ≤ 63 &&
    (x.presetCount = 0 || x.presetFirst + x.presetCount ≤ pre.length) &&
    allOnce (((pre.drop x.presetFirst).take x.presetCount).map (·.reg)) &&
    x.pages.all (fun p => p.dest % 8 = 0 && p.words % 8 = 0 && 8 ≤ p.words && p.words ≤ 32768 &&
      p.dest + p.words ≤ 32768 && p.src + p.words ≤ code) &&
    allApart (x.pages.map fun p => (p.dest, p.dest + p.words))

/-- Register presets (R208). -/
def imgPresetsOk (bs : List Byte) : Bool :=
  (imgEntries bs 3).all fun e =>
    onlyNamed e [(0, 2), (8, 8)] && 1 ≤ leField e 0 1 && leField e 0 1 ≤ 63 && leField e 1 1 ≤ 1

/-- HBM frame grants: at most two on any position of a channel for one segment (R210). -/
def imgFramesOk (bs : List Byte) : Bool :=
  let es := imgEntries bs 5
  let fs := es.map frameOf
  let segs : List (Option Nat) := none :: fs.map (·.seg)
  es.all (fun e =>
    let x := frameOf e
    onlyNamed e [(0, 8)] && (match x.seg with | none => true | some g => g < imgSegCount bs) && x.chan < 192 && x.die < 8 &&
    x.start + x.len ≤ 4096 - imgWsys bs) &&
  segs.all fun g => fs.all fun x =>
    let inForce := fun (y : ImgFrame) => y.chan = x.chan && (y.seg = none || y.seg = g)
    x.len = 0 || !inForce x || (fs.filter fun y => inForce y && y.start ≤ x.start && x.start < y.start + y.len).length ≤ 2

/-- NRU mode entries (R211). -/
def imgNruOk (bs : List Byte) : Bool :=
  let es := imgEntries bs 6
  let xs := es.map nruOf
  let bytes := fun (r : NruRange) => (r.first * nruB r.mode, (r.first + r.count) * nruB r.mode)
  es.all (fun e =>
    let r := (nruOf e).range
    onlyNamed e [(0, 12)] && leField e 0 2 < imgSegCount bs && leField e 2 1 < 12 && leField e 3 1 ≤ 2 &&
    r.first % nruEps r.mode = 0 && r.count % nruEps r.mode = 0 && (bytes r).2 ≤ 33554432) &&
  (List.range (xs.length - 1)).all (fun i =>
    (xs.map (·.seg)).getD i 0 ≤ (xs.map (·.seg)).getD (i + 1) 0) &&
  xs.all fun x => allApart ((xs.filter fun y => y.seg = x.seg && y.range.unit = x.range.unit).map fun y => bytes y.range)

/-- INT8 or INT16. -/
def intMode (x : ImgExch) : Bool := x.mode = 0 || x.mode = 1
/-- A replay entry of pass `r` that belongs to a main entry (R345). -/
def replayOf (r : BitVec 2) (x y : ImgExch) : Bool :=
  y.rpl = r && y.outf && y.group = x.group && y.blk0 = x.blk0 && y.nblk = x.nblk && y.src = x.src && y.res = x.res &&
    y.nres = x.nres && y.dst = x.dst && y.side = x.side

/-- Exchange table (R212, R345); wire format 0b11 of MODE is a reserved format code (R31, Table 14.4). -/
def imgExchOk (bs : List Byte) : Bool :=
  let es := imgEntries bs 7
  let xs := es.map exchOf
  es.all (fun e =>
    let x := exchOf e
    onlyNamed e [(0, 3), (4, 2), (8, 56)] && x.group ≤ 11 && leField e 1 1 ≤ 7 &&
    (if 6 ≤ leField e 1 1 then x.winOpen = 0 && x.winClose = 0 else x.winOpen < x.winClose) &&
    x.mode ≠ 3 && !(x.mode = 2 && x.rpl ≠ 0)) &&
  xs.all fun x =>
    !(x.rpl = 0 && x.outf && intMode x) || (xs.any (replayOf 1 x) && xs.any (replayOf 2 x))

/-- Layby quota section and declarations (R213). -/
def imgLaybyOk (bs : List Byte) : Bool :=
  let es := imgEntries bs 8
  (!((imgSects bs).any fun x => x.ty = 8) || es.length = 16) &&
  es.all (fun e => onlyNamed e [(0, 37)] && leField e 36 1 ≤ 1) &&
  (imgEntries bs 9).all fun e => onlyNamed e [(0, 1), (8, 32)] && leField e 0 1 < 16

/-- Scale tables (R214). -/
def imgScalesOk (bs : List Byte) : Bool :=
  let es := imgEntries bs 10
  es.all (fun e =>
    let x := scaleOf e
    onlyNamed e [(0, 2), (4, 12)] && x.group ≤ 11 && x.headroom ≤ 7 && x.offset + x.count ≤ imgTotal bs &&
    (slice bs x.offset x.count).all fun b => b ≠ 0xFF) &&
  allOnce (es.map fun e => (scaleOf e).group)

/-- Every table is well formed. -/
def imgTablesOk (bs : List Byte) : Bool :=
  imgSegsOk bs && imgTilesOk bs && imgPresetsOk bs && imgFramesOk bs && imgNruOk bs && imgExchOk bs && imgLaybyOk bs &&
    imgScalesOk bs

/-- The sixteen grants of an image; none when the section is absent (R213). -/
def imgGrants (bs : List Byte) : List LaybySlot :=
  let es := imgEntries bs 8
  tabulate 16 fun k => match es[k]? with | some e => laybyOf e | none => {}

/-- The Layby grants obey R168, with bases and quotas in whole 64 KiB (Table 7.1). -/
def grantsOk (s : State) (ks : List LaybySlot) : Bool :=
  let sum := fun (xs : List Nat) => xs.foldl (· + ·) 0
  let spill := ks.filter (·.ovfEn)
  ks.all (fun k => k.hbmBase % 65536 = 0 && k.hbmQuota % 65536 = 0 &&
    (k.hbmQuota = 0 || (inHbm k.hbmBase && rgnCovers s (fun e => e.own = 1) 65 k.hbmBase k.hbmQuota))) &&
  allApart (ks.map fun k => (k.hbmBase, k.hbmBase + k.hbmQuota)) && sum (ks.map (·.hbmQuota)) ≤ 384 * 2 ^ 30 &&
  spill.all (fun k => k.ovfBase % 65536 = 0 && k.ovfQuota % 65536 = 0 && 2560 ≤ k.ovfD &&
    (k.ovfQuota = 0 || (inLp k.ovfBase && rgnHolds s 2 k.ovfBase k.ovfQuota))) &&
  allApart (spill.map fun k => (k.ovfBase, k.ovfBase + k.ovfQuota)) && sum (spill.map (·.ovfQuota)) ≤ 256 * 2 ^ 30

/-! ## The image, and the checks in their order (R217, R218) -/

/-- The image as its tables give it, at a load address. -/
def imageOf (load : Nat) (bs : List Byte) : Image :=
  { load := load, len := imgTotal bs, digest := imgDigest bs, setDigest := BitVec.ofNat 384 (leField bs 0x30 48),
    build := BitVec.ofNat 64 (leField bs 0x60 8), wsys := imgWsys bs, podZ := leField bs 0x2A 1, pods := leField bs 0x2B 1,
    segs := (imgEntries bs 1).map segOf, tiles := (imgEntries bs 2).map tileHdrOf,
    presets := (imgEntries bs 3).map presetOf, codeOff := (imgSect bs 4).off, frames := (imgEntries bs 5).map frameOf,
    nru := (imgEntries bs 6).map nruOf, exch := (imgEntries bs 7).map exchOf, layby := imgGrants bs,
    decls := (imgEntries bs 9).map declOf, scales := (imgEntries bs 10).map scaleOf }

/-- Step 3: shape and position (R217). -/
def imgShapeOk (s : State) (bs : List Byte) : Bool :=
  leField bs 8 4 = 0xA0 && leField bs 0x2A 1 = myPodZ s && leField bs 0x2B 1 = myPods s && leField bs 0x2C 2 = myRank s &&
  leField bs 0x2E 1 = myPod s &&
  (imgEntries bs 7).all fun e => leField e 1 1 ≥ 8 || portEn s (portOf (leField e 1 1))

/-- TP0 to TP5 that are up with a hop count more than 2 TCLK from an entry's HOP (R200, R315). -/
def hopWrong (s : State) (im : Image) (p : Port) : Bool :=
  p.val < 6 && portUp s p && im.exch.any fun x =>
    x.port = p && (x.hop + 2 < (portSt s p).hop.toNat || (portSt s p).hop.toNat + 2 < x.hop)

/-- The refusal of an image of `len` bytes by steps 1 to 4; none when it passes. -/
def imgRefusal (s : State) (len : Nat) (bs : List Byte) : Option Nat :=
  if !(imgHeaderOk len bs && imgDirOk bs && imgLengthOk bs) then some rImageMalformed
  else if !imgBlockClean bs then some rImageMalformed
  else if !imgSignatureOk s bs then some rImageSignature
  else if !imgShapeOk s bs then some rImageShape
  else if !imgTablesOk bs then some rImageMalformed
  else if !grantsOk s (imgGrants bs) then some rLaybyGrant
  else none

/-- Log HOP_MISMATCH for a port (R200, R320). -/
def reportHop (p : Port) (s : State) : State :=
  report eHopMismatch (srcOf 9 p.val) s.cyc 0 0 (portSt s p).hoprc.toNat false false s

/-! ## Activation (R187, R213, R219, R220, R320, R363) -/

/-- The bytes of a live scale table (R344). -/
def liveScales (s : State) (im : Image) (x : ImgScale) : List Byte := readBytes s (im.load + x.offset) x.count

/-- What the start of a step retains (R363). -/
def retain (s : State) : State :=
  let ptrs := tabulate 16 fun k => ((smapGet {} s.pl.layby k).hbmPtr, (smapGet {} s.pl.layby k).ovfPtr)
  let scales := match s.pl.active with
    | none => []
    | some im => im.scales.map fun x => (x.group, liveScales s im x)
  { s with pl := { s.pl with retained := { ptrs := ptrs, scales := scales, step := s.cm.step, cg := s.cm.cg } } }

/-- Compare SET_DIGEST with package 0's of the pod: IMAGE_SET_MISMATCH fails every RUN until a matching image is active
(R220). It is done when package 0's arrives and when a RUN is admitted; between the activation of an image and the arrival of
the digest that package 0 sends on the same fence nothing is logged (DESIGN CHOICE, entry 76). -/
def checkSet (s : State) : State :=
  match s.pl.active, s.tp.podDigest with
  | some im, some d =>
    if im.setDigest = d then { s with pl := { s.pl with imgBlock := false } }
    else if s.pl.imgBlock then s
    else reportNow eImageSet 0 { s with pl := { s.pl with imgBlock := true } }
  | _, _ => s

/-- A matching image has become active: the block of R220 is lifted. -/
def liftBlock (s : State) : State :=
  match s.pl.active, s.tp.podDigest with
  | some im, some d => if im.setDigest = d then { s with pl := { s.pl with imgBlock := false } } else s
  | _, _ => s

/-- An image becomes active: Wsys and the Layby grants take its values, SET_DIGEST is sent, and the hop counts of the
ports that are up are compared. -/
def activate (im : Image) (s : State) : State :=
  let grant := fun (k : Nat) (g : LaybySlot) (m : SMap LaybySlot) =>
    let old := smapGet {} m k
    smapSet {} k { g with hbmPtr := old.hbmPtr, ovfPtr := old.ovfPtr } m
  let layby := (List.range 16).foldl (fun m k => grant k (im.layby.getD k {}) m) s.pl.layby
  let s := { s with pl := { s.pl with active := some im, wsys := im.wsys, layby := layby, hopBlock := false } }
  let s := post (.setDigest im.setDigest) s
  let s := if myRank s = 0 then { s with tp := { s.tp with podDigest := some im.setDigest } } else s
  let s := liftBlock s
  let bad := allPorts.filter fun p => hopWrong s im p
  bad.foldl (fun s p => reportHop p s) { s with pl := { s.pl with hopBlock := !bad.isEmpty } }

/-- A checked image is staged, or becomes active at once when no image is active (R219). -/
def stageImage (im : Image) (s : State) : State :=
  match s.pl.active with
  | none => retain (activate im s)
  | some _ => { s with pl := { s.pl with staged := some im } }

/-- The half of the image area that the active image does not take. -/
def freeHalf (s : State) : Nat :=
  match s.pl.active with
  | none => imageBase 0
  | some im => if im.load = imageBase 0 then imageBase 1 else imageBase 0

/-- The checks of a loaded image that has been copied, and their outcome (R217 to R219); `keep` stores its bytes when they are
not in the image area yet. Every port whose hop count differs is logged (R200). -/
def imageChecked (d : Desc) (len load : Nat) (bs : List Byte) (keep : State → State) (s : State) : State :=
  match imgRefusal s len bs with
  | some code => failCmd d code s
  | none =>
    let im := imageOf load bs
    match allPorts.filter (fun p => hopWrong s im p) with
    | [] => doneCmd d (stageImage im (keep s))
    | ps => failCmd d eHopMismatch (ps.foldl (fun s p => reportHop p s) s)
/-- The image is copied into the free half and checked (R217). Where a staged image stands there, which a refused image leaves
as it was (R218), its bytes are replaced once the checks have passed (DESIGN CHOICE, entry 65). -/
def loadChecked (d : Desc) (len load : Nat) (bs : List Byte) (s : State) : State :=
  let copy := sysStore dmaPort load bs
  if s.pl.staged.isSome then imageChecked d len load bs copy s else imageChecked d len load bs id (copy s)

/-- LOAD_IMAGE: ARG0 host address, ARG1 TOTAL_LEN. -/
def execLoadImage (d : Desc) (s : State) : Host.Outcome State Fault Refusal :=
  let a := d.a0.toNat
  let n := d.a1.toNat
  .next (hostOnly s (withLink d (fun s =>
    if 0x100000000 < n ∨ Config.imageShare < n then failCmd d rImageTooLarge s
    else if !hostOk s a n then failCmd d rAddrRefused (dmaRefused (hostBase + a % 2 ^ 48) s)
    else withRanges d [(hostBase + a, n)] (fun s =>
      let ((bs, _), s) := dmaRead (iop d) (hostBase + a) n s
      loadChecked d n (freeHalf s) bs s) s) s))

/-- SET_DIGEST: the SET_DIGEST of package 0 of the pod arrives on VC0 (R220). -/
def execSetDigest (d : Digest) (s : State) : Host.Outcome State Fault Refusal :=
  .next (tpOnly s (checkSet { s with tp := { s.tp with podDigest := some d } }))

end Sys2Proof.Machine
end

