-- ==== Sys2Proof/Machine/Wire.lean ====
section
/-! DEFINITION. The Turnpike's wire: positions, virtual channels, flits and their bytes, retry, what leaves and what is taken,
routing, broadcasts and tokens as flits (13_turnpike_links R303-R313, R315, R317-R319; 15 R354, R357). -/

namespace Sys2Proof.Machine

/-! ## Positions (R303) -/

/-- The position of a frame of length `per` that begins on tile cycle `c`. -/
def posAt (per c : Nat) : Option Nat := (List.range 25).find? fun j => per * j / 25 = c % per
/-- Positions 23 and 24 are system positions. -/
def sysPos (j : Nat) : Bool := 23 ≤ j
/-- Ordinal of a system position of the port. -/
def sysOrd (per c j : Nat) : Nat := 2 * (c / per) + (j - 23)

/-! ## Virtual channels and credits (Table 13.3, R308) -/

/-- Credits a sender holds for a channel. -/
def vcCredits (v : Nat) : Nat := if v = 0 then 32 else if v = 1 then 8 else if v = 14 then 48 else if v = 15 then 40 else 160
/-- VC2 to VC13 use tensor positions. -/
def tensorVc (v : Nat) : Bool := 2 ≤ v && v ≤ 13
/-- Credits of a channel in use at a port. -/
def vcUsed (x : PortSt) (v : Nat) : Nat := smapGet 0 x.used v
/-- A credit is left. -/
def vcFree (x : PortSt) (v : Nat) : Bool := vcUsed x v < vcCredits v
/-- Take a credit. -/
def vcTake (v : Nat) (x : PortSt) : PortSt := { x with used := smapSet 0 v (vcUsed x v + 1) x.used }
/-- Flits the replay buffer holds (R306). -/
def replayCap : Nat := 1024

/-! ## The state of a port -/

/-- A port goes down or is disabled: its replay buffer and the flits handed over are discarded (R307). -/
def portStop (p : Port) (st : BitVec 3) (s : State) : State :=
  setPort p { portSt s p with state := st, replay := [], rq := [], ttx := [], btx := [], sends := [], used := [], ret := [],
                              dropping := false, nakDue := false, txSeq := 0, rxSeq := 0xFFF, ackSent := 0xFFF } s
/-- Ports follow TP.PCTLn.EN and R313: a disabled port is in state disabled, an enabled one trains. -/
def refreshPorts (s : State) : State :=
  allPorts.foldl (fun s p =>
    let st := (portSt s p).state
    if inBlockReset s (4 + p.val) then s
    else if !portEn s p then (if st = 0 then s else portStop p 0 s)
    else if st = 0 then setPort p { portSt s p with state := stTraining } s else s) s

/-- A DET record of a port (R437): lane in INFO0[3:0], INFO1 a sequence number, HOPRC or far end. -/
def portDet (code : Nat) (p : Port) (i0 i1 : Nat) (inj : Bool) (s : State) : State :=
  report code (srcOf 9 p.val) s.cyc 0 i0 i1 inj false s

/-- TP_LINK_DOWN: the port goes down and will train again (R307). -/
def linkFails (p : Port) (inj : Bool) (s : State) : State := portStop p stDown (portDet eTpLinkDown p 0 0 inj s)

/-- A lane fails: the port goes down, and trains again when DEGR allows and a good lane is left (R319). -/
def laneFails (p : Port) (lane : Nat) (inj : Bool) (s : State) : State :=
  let s := portDet eTpLaneFail p lane 0 inj s
  let good := (portSt s p).lgood &&& ~~~(1#4 <<< lane)
  let st := if bitOf (pctl s p) 4 && good ≠ 0 then stTraining else stDown
  let s := portStop p st s
  setPort p { portSt s p with lgood := good, narrow := true } s

/-! ## Flits and their bytes (R304, R305) -/

/-- Bytes 0x00 to 0xFB of a flit (Table 13.2). -/
def flitHead (f : Flit) : List Byte :=
  leBytes 1 (f.vc.toNat * 16 + f.ty.toNat) ++ leBytes 2 f.seq.toNat ++ leBytes 2 (f.ack.toNat + b2n f.nak * 2 ^ 15) ++
  leBytes 1 f.crv.toNat ++ leBytes 1 f.crn.toNat ++ zeros 1 ++ leBytes 4 f.tag.toNat ++ slice f.payload 0 240
/-- The CRC of a flit. -/
def flitCrc (f : Flit) : W32 := crc32 (flitHead f)
/-- The 256 bytes of a flit. -/
def flitBytes (f : Flit) : List Byte := flitHead f ++ leBytes 4 f.crc.toNat
/-- A received flit's CRC holds. -/
def crcOk (f : Flit) : Bool := f.crc = flitCrc f
/-- A flit of a channel and type with a TAG and a payload; the fields of its departure are filled in as it leaves. -/
def newFlit (vc ty : BitVec 4) (tag : W32) (payload : List Byte) : Flit :=
  { vc := vc, ty := ty, seq := 0, ack := 0, nak := false, crv := 0, crn := 0, tag := tag, payload := payload }

/-! ## Departure (R304-R310) -/

/-- CRV and CRN of a flit formed now: the first channel that has credits to return. -/
def withCredits (x : PortSt) (f : Flit) : Flit × PortSt :=
  match x.ret with
  | [] => ({ f with crv := 0, crn := 0 }, x)
  | (v, n) :: _ =>
    let k := min n 255
    ({ f with crv := BitVec.ofNat 4 v, crn := BitVec.ofNat 8 k }, { x with ret := smapSet 0 v (n - k) x.ret })

/-- Put a flit on the wire at the present cycle, with the port's ACK and NAK and the CRC over all of it (R304-R306). -/
def onWire (p : Port) (f : Flit) (s : State) : State :=
  let x := portSt s p
  let f := { f with ack := x.rxSeq, nak := x.nakDue }
  emit (.flit p s.cyc { f with crc := flitCrc f }) (setPort p { x with nakDue := false, ackSent := x.rxSeq } s)
/-- Put a flit on the wire that is not held for a retry: it carries the next sequence number unused (Table 13.2, R306). -/
def sendUnheld (p : Port) (f : Flit) (s : State) : State :=
  let (f, x) := withCredits (portSt s p) f
  onWire p { f with seq := x.txSeq } (setPort p x s)
/-- Put a flit on the wire under the next sequence number and hold it in the replay buffer, credits returned included (R306). -/
def sendHeld (p : Port) (f : Flit) (s : State) : State :=
  let (f, x) := withCredits (portSt s p) f
  let f := { f with seq := x.txSeq }
  onWire p f (setPort p { x with txSeq := x.txSeq + 1, replay := x.replay ++ [f],
                                 sends := smapSet 0 f.seq.toNat 1 x.sends } s)

/-- Errors forced on the next flit of a port (Table 19.10, group LINK): corrected symbols, a failed send that is retried,
nine failed sends, the loss of a lane. -/
def linkInject (p : Port) (seq : BitVec 12) (s : State) : State :=
  let src := srcOf 9 p.val
  let any := fun (_ _ : Nat) => true
  let s := match injEvent eTpFecCe src any s with
    | (some (pos, _), s) => report eTpFecCe src s.cyc 0 0 pos true false s
    | (none, s) => s
  let s := match injEvent eTpRetry src any s with
    | (some _, s) =>
      let x := portSt s p
      setPort p { x with rq := x.replay } (report eTpRetry src s.cyc 0 0 seq.toNat true false s)
    | (none, s) => s
  let s := match injEvent eTpLinkDown src any s with
    | (some _, s) => linkFails p true s
    | (none, s) => s
  match injEvent eTpLaneFail src any s with
  | (some (pos, _), s) => laneFails p (pos % 4) true s
  | (none, s) => s

/-- Send a new flit of a port that is up (R306); errors forced on it follow. -/
def sendNew (p : Port) (f : Flit) (s : State) : State := linkInject p (portSt s p).txSeq (sendHeld p f s)

/-- An idle flit leaves; one that carries nothing new is not shown. -/
def sendIdle (p : Port) (s : State) : State :=
  let x := portSt s p
  if x.nakDue || !x.ret.isEmpty || x.ackSent ≠ x.rxSeq then sendUnheld p (newFlit 0 0 0 []) s else s

/-- Times a held flit has been sent (R307). -/
def sentOf (x : PortSt) (f : Flit) : Nat := smapGet 0 x.sends f.seq.toNat
/-- Send the front of the replay again when the position is of its class. -/
def sendAgain (p : Port) (sys : Bool) (s : State) : State :=
  let x := portSt s p
  match x.rq with
  | f :: r =>
    if tensorVc f.vc.toNat = sys then sendIdle p s
    else onWire p f (setPort p { x with rq := r, sends := smapSet 0 f.seq.toNat (sentOf x f + 1) x.sends } s)
  | [] => sendIdle p s

/-- A tensor position: a replayed flit, else the first flit handed over, unless the replay buffer is full (R306, R309). -/
def serveTensor (p : Port) (s : State) : State :=
  let x := portSt s p
  if !x.rq.isEmpty then sendAgain p false s
  else match x.ttx with
    | f :: r => if x.replay.length < replayCap then sendNew p f (setPort p { x with ttx := r } s) else sendIdle p s
    | [] => sendIdle p s

/-- The flit of a beacon, and the beacon of a received flit (R317). -/
def beaconFlit (b : BeaconPkt) : Flit :=
  newFlit 1 2 (BitVec.ofNat 32 (1 + 2 ^ 16 * b.hops.toNat))
    (leBytes 1 b.origin.toNat ++ zeros 7 ++ leBytes 8 b.carried.toNat ++ leBytes 4 b.latency.toNat ++ zeros 220)
def beaconOf (f : Flit) : Option BeaconPkt :=
  if f.vc = 1 ∧ f.ty = 2 ∧ f.tag.toNat % 2 ^ 16 = 1 then
    some { origin := BitVec.ofNat 8 (leField f.payload 0 1), carried := BitVec.ofNat 64 (leField f.payload 8 8),
           latency := BitVec.ofNat 32 (leField f.payload 16 4), hops := BitVec.ofNat 8 (f.tag.toNat / 2 ^ 16) }
  else none
/-- A measurement flit: departure in root cycles and, once it is returned, the far end's arrival and departure (R315). -/
def measureFlit (depart : Nat) (far : Option (Nat × Nat)) : Flit :=
  newFlit 1 Config.measureKind.1 Config.measureKind.2 (Config.measurePayload depart far)
/-- What waits on VC1 as it leaves on cycle `c` (R315, R317, R318): an edge is four root cycles. -/
def vc1Flit (c : Nat) : Vc1Msg → Flit
  | .formed b => beaconFlit { b with carried := BitVec.ofNat 64 c, latency := 0 }
  | .forward b n => beaconFlit { b with latency := b.latency + BitVec.ofNat 32 (4 * n), hops := b.hops + 1 }
  | .answer d a n => measureFlit d (some (a, a + 4 * n))
/-- One more edge has been waited. -/
def vc1Wait : Vc1Msg → Vc1Msg
  | .formed b => .formed b
  | .forward b n => .forward b (n + 1)
  | .answer d a n => .answer d a (n + 1)
/-- Every port's VC1 waits one more edge. -/
def waitVc1 (s : State) : State :=
  { s with tp := { s.tp with ports := s.tp.ports.map fun x => (x.1, { x.2 with btx := x.2.btx.map vc1Wait }) } }

/-- The next system flit of a channel that has a credit. -/
def nextOf (x : PortSt) (v : Nat) : Option Flit :=
  if vcFree x v && x.replay.length < replayCap then x.txq.find? fun f => f.vc.toNat = v else none
/-- Take the first flit of a channel off the queue. -/
def dropFirst (v : Nat) : List Flit → List Flit
  | [] => []
  | f :: r => if f.vc.toNat = v then r else f :: dropFirst v r

/-! ## Tokens as flits (R357, Tables 15.4, 15.5) -/

/-- The payload of a token, and the token of a payload. -/
def tokenBytes (k : Token) : List Byte :=
  leBytes 8 k.step.toNat ++ leBytes 1 (b2n k.cg) ++ leBytes 1 k.phase.toNat ++ leBytes 2 k.code.toNat ++
  leBytes 1 k.spod.toNat ++ leBytes 1 k.srank.toNat ++ zeros 2 ++ leBytes 48 k.digest.toNat ++ zeros 176
def tokenOf (bs : List Byte) : Token :=
  { step := BitVec.ofNat 64 (leField bs 0 8), cg := bitOf (leField bs 8 1) 0, phase := BitVec.ofNat 8 (leField bs 9 1),
    code := BitVec.ofNat 16 (leField bs 10 2), spod := BitVec.ofNat 8 (leField bs 12 1),
    srank := BitVec.ofNat 8 (leField bs 13 1), digest := BitVec.ofNat 384 (leField bs 16 48) }
/-- The row of a token type (Table 15.4). -/
def tokenRow (ty : Nat) : Option (Token → Instr) :=
  if ty = 0x0101 then some .ready else if ty = 0x0102 then some .proceed else if ty = 0x0103 then some .updated
  else if ty = 0x0104 then some .commit else if ty = 0x0105 then some .abort else if ty = 0x0106 then some .hostLost
  else if ty = 0x0107 then some .statusQuery else if ty = 0x0108 then some .status else if ty = 0x0109 then some .fault
  else if ty = 0x0201 then some .snapDone else if ty = 0x0202 then some .snapFail else none
/-- The types that go to the set (Table 15.4). -/
def toTheSet (ty : Nat) : Bool := ty = 0x0102 || (0x0104 ≤ ty && ty ≤ 0x0107) || ty = 0x0109
/-- The channel of a token type. -/
def tokenVc (ty : Nat) : BitVec 4 := if ty / 256 = 2 then 14 else 0
/-- The message type of a flit of VC0, VC14 or VC15. -/
def msgType (f : Flit) : Nat := f.tag.toNat / 65536
/-- The token that a flit carries. -/
def flitToken (f : Flit) : Option Instr :=
  if f.vc = tokenVc (msgType f) then (tokenRow (msgType f)).map fun mk => mk (tokenOf f.payload) else none
/-- A message is delivered to this package: a token is taken on this cycle. -/
def deliver (f : Flit) (s : State) : State :=
  let s := emit (.delivered f) s
  match flitToken f with | some i => schedNow i s | none => s

/-- Send the next flit of a channel. Package 0 delivers a broadcast of its own tree when the first copy leaves (R311, R359). -/
def sendSys (p : Port) (f : Flit) (s : State) : State :=
  let x := portSt s p
  let s := sendNew p f (setPort p (vcTake f.vc.toNat { x with txq := dropFirst f.vc.toNat x.txq }) s)
  if s.tp.coming.contains f then deliver f { s with tp := { s.tp with coming := s.tp.coming.erase f } } else s
/-- Send what waits on VC1, which is never retried (R306, R318). -/
def sendVc1 (p : Port) (m : Vc1Msg) (s : State) : State :=
  let x := portSt s p
  sendUnheld p (vc1Flit s.cyc m) (setPort p (vcTake 1 { x with btx := x.btx.drop 1 }) s)

/-- A system position (R310): VC1, VC0, VC14, VC15; every fourth goes to VC14 or VC15 when either has a flit waiting. -/
def serveSystem (p : Port) (ord : Nat) (s : State) : State :=
  let x := portSt s p
  let late := if x.rq.isEmpty then (nextOf x 14).orElse fun _ => nextOf x 15 else none
  match (if ord % 4 = 3 then late else none) with
  | some f => sendSys p f s
  | none =>
    match x.btx, vcFree x 1 with
    | m :: _, true => sendVc1 p m s
    | _, _ =>
      if !x.rq.isEmpty then sendAgain p true s
      else match (nextOf x 0).orElse fun _ => late with
        | some f => sendSys p f s
        | none => sendIdle p s

/-- What leaves a port in a position of one class that begins on the present cycle: a system position is served as the cycle
begins, a tensor position after the hand-overs of the cycle (R303, R309). -/
def portTick (sys : Bool) (p : Port) (s : State) : State :=
  if portUp s p then
    let per := frameP (portSt s p).width
    match posAt per s.cyc with
    | none => s
    | some j =>
      if sysPos j ≠ sys then s else if sys then serveSystem p (sysOrd per s.cyc j) s else serveTensor p s
  else s

/-! ## Topology, routing and broadcast (R310-R312, R318) -/

/-- Coordinates of a rank. -/
def rankX (r : Nat) : Nat := r % 4
def rankY (r : Nat) : Nat := r / 4 % 4
def rankZ (r : Nat) : Nat := r / 16
/-- The rank at coordinates. -/
def rankAt (x y z : Nat) : Nat := x + 4 * y + 16 * z

/-- Pod, rank and port of the neighbour that a port expects (Table 13.4). -/
def neighbour (s : State) (p : Port) : Nat × Nat × Nat :=
  let r := myRank s
  let (x, y, z) := (rankX r, rankY r, rankZ r)
  let zs := myPodZ s
  let ps := myPods s
  match p.val with
  | 0 => (myPod s, rankAt ((x + 1) % 4) y z, 1)
  | 1 => (myPod s, rankAt ((x + 3) % 4) y z, 0)
  | 2 => (myPod s, rankAt x ((y + 1) % 4) z, 3)
  | 3 => (myPod s, rankAt x ((y + 3) % 4) z, 2)
  | 4 => (myPod s, rankAt x y ((z + 1) % zs), 5)
  | 5 => (myPod s, rankAt x y ((z + zs - 1) % zs), 4)
  | 6 => ((myPod s + 1) % ps, r, 7)
  | _ => ((myPod s + ps - 1) % ps, r, 6)

/-- The port along one ring towards a coordinate: the shorter direction, ties to the + port; none when there already. -/
def ringHop (size mine there : Nat) (plus minus : Port) : Option Port :=
  let d := (there + size - mine % size) % size
  if d = 0 then none else if 2 * d ≤ size then some plus else some minus

/-- The port on which a message for (pod, rank) leaves; none when it is for this package (R310). -/
def routeTo (s : State) (pod rank : Nat) : Option Port :=
  let r := myRank s
  (ringHop 4 (rankX r) (rankX rank) 0 1).orElse fun _ =>
  (ringHop 4 (rankY r) (rankY rank) 2 3).orElse fun _ =>
  (ringHop (myPodZ s) (rankZ r) (rankZ rank) 4 5).orElse fun _ =>
  ringHop (myPods s) (myPod s) pod 6 7

/-- One axis of the beacon tree: coordinate 0 sends both ways, coordinate 1 sends on in the + direction. -/
def treeAxis (k : Nat) (plus minus : Port) : List Port := if k = 0 then [plus, minus] else if k = 1 then [plus] else []
/-- The Z pattern, cut to the planes that exist. -/
def treeZ (zs z : Nat) : List Port :=
  if zs = 2 then (if z = 0 then [4] else [])
  else if zs = 3 then (if z = 0 then [4, 5] else [])
  else if zs = 4 then treeAxis z 4 5
  else []
/-- The hops of the beacon tree from a package (R318). -/
def treePorts (zs rank : Nat) : List Port :=
  let (x, y, z) := (rankX rank, rankY rank, rankZ rank)
  (if y = 0 ∧ z = 0 then treeAxis x 0 1 else []) ++ (if z = 0 then treeAxis y 2 3 else []) ++ treeZ zs z

/-- A port takes messages: it is not disabled. Those for a port that is training or down wait until it is up. -/
def portTakes (s : State) (p : Port) : Bool := (portSt s p).state ≠ 0
/-- Queue a system flit on a port. -/
def queueFlit (p : Port) (f : Flit) (s : State) : State :=
  if portTakes s p then setPort p { portSt s p with txq := (portSt s p).txq ++ [f] } s else s
/-- Queue a flit on every hop of the tree. -/
def queueTree (f : Flit) (s : State) : State := (treePorts (myPodZ s) (myRank s)).foldl (fun s p => queueFlit p f s) s
/-- The destination of a flit with another low half. -/
def withDest (f : Flit) (d : Nat) : Flit := { f with tag := BitVec.ofNat 32 (f.tag.toNat / 65536 * 65536 + d) }

/-- Package 0 sends a broadcast down the tree, and delivers it when the first copy leaves; where its tree has no port it
delivers it at once (R311). -/
def downTree (f : Flit) (s : State) : State :=
  let s := queueTree f s
  if (treePorts (myPodZ s) (myRank s)).any (portTakes s) then { s with tp := { s.tp with coming := s.tp.coming ++ [f] } }
  else deliver f s
/-- Queue a flit on the port towards a package; none when that is this package. -/
def queueTo (pod rank : Nat) (f : Flit) (s : State) : Option State := (routeTo s pod rank).map fun q => queueFlit q f s
/-- A broadcast in this pod, formed here or received as a cross-pod copy, goes to package 0 and down the tree (R311). -/
def spread (f : Flit) (s : State) : State :=
  match (if myRank s = 0 then none else queueTo (myPod s) 0 (withDest f 0xFFFE) s) with
  | some s => s
  | none => downTree (withDest f 0xFFFF) s

/-- Route or deliver a message of VC0, VC14 or VC15 (R310, R311, R354). -/
def routeMsg (f : Flit) (s : State) : State :=
  let d := f.tag.toNat % 65536
  if d = 0xFFFF then queueTree f (deliver f s)
  else if d = 0xFFFE then spread f s
  else match queueTo (d % 256) (d / 256) f s with
    | some s => s
    | none => if (flitToken f).isSome && toTheSet (msgType f) then spread f s else deliver f s

/-! ## Messages formed here (R220, R354, R357) -/

/-- The flit of a token, its destination still to come. -/
def tokenFlit (ty : BitVec 16) (k : Token) : Flit :=
  newFlit (tokenVc ty.toNat) 2 (BitVec.ofNat 32 (ty.toNat * 65536)) (tokenBytes k)
/-- The pods other than this one, in ascending order. -/
def otherPods (s : State) : List Nat := (List.range (myPods s)).filter fun q => q ≠ myPod s
/-- A message is handed to the ports: a token to the set is a pod broadcast and a copy to the package of this rank in every
other pod (R354); SET_DIGEST is a pod broadcast. -/
def postMsg (m : OutMsg) (s : State) : State :=
  match m with
  | .token ty none k =>
    let f := tokenFlit ty k
    let rank := myRank s
    (otherPods s).foldl (fun s q => routeMsg (withDest f (q + 256 * rank)) s) (spread f s)
  | .token ty (some d) k => routeMsg (withDest (tokenFlit ty k) (d.1.toNat + 256 * d.2.toNat)) s
  | .setDigest d =>
    spread (newFlit 0 2 (BitVec.ofNat 32 (Config.digestType.toNat * 65536)) (Config.digestPayload (myPod s) (myRank s) d)) s
/-- Every message formed so far is handed to the ports, in order. -/
def postAll (s : State) : State := s.outbox.foldl (fun s m => postMsg m s) { s with outbox := [] }

/-- Before a reset that its own rule applies, the package hands over what it has formed, and the flits of VC0 that wait leave
on the present cycle (R444). -/
def sendBeforeReset (s : State) : State :=
  let s := postAll s
  allPorts.foldl (fun s p =>
    if portUp s p then
      ((portSt s p).txq.filter fun f => f.vc = 0).foldl (fun s f => sendHeld p f s)
        (setPort p { portSt s p with txq := (portSt s p).txq.filter fun f => f.vc ≠ 0 } s)
    else s) s

end Sys2Proof.Machine
end

