-- ==== Sys2Proof/Machine/Turnpike.lean ====
section
/-! DEFINITION. The Turnpike's rows: arrival of flits, beacons, training, hop measurement, lane loss (13_turnpike_links
R302-R320; 08_determinism_hierarchy R191-R193). -/

namespace Sys2Proof.Machine

/-! ## Arrival (R305, R306, R308) -/

/-- Free the flits acknowledged: everything up to sequence number `a` when the buffer holds it. -/
def ackTo (a : BitVec 12) (x : PortSt) : PortSt :=
  if x.replay.any fun f => f.seq = a then
    let left := (x.replay.dropWhile fun f => f.seq ≠ a).drop 1
    { x with replay := left, rq := x.rq.filter fun f => left.contains f,
             sends := x.sends.filter fun n => left.any fun f => f.seq.toNat = n.1 }
  else x

/-- A flit that its receiver drops: later ones are dropped too, and the next flit sent back carries NAK (R305, R306). -/
def dropFlit (x : PortSt) : PortSt := { x with dropping := true, nakDue := true }
/-- Whether a received flit is taken, and the port after it (R305, R306): one whose CRC fails is dropped, and then every later
one until the flit that follows the last good one comes; one that is neither idle nor of VC1 becomes the last good one. -/
def takeFlit (f : Flit) (x : PortSt) : Bool × PortSt :=
  let held := f.ty ≠ 0 && f.vc ≠ 1
  if !crcOk f then (false, dropFlit x)
  else if x.dropping && (f.seq ≠ x.rxSeq + 1 || (f.vc = 1 && f.ty ≠ 0)) then (false, x)
  else (true, { x with dropping := false, rxSeq := if held then f.seq else x.rxSeq })
/-- A flit arrives at a port that is up: what follows when it is taken. -/
def arrive (p : Port) (f : Flit) (k : State → State) (s : State) : State :=
  if portUp s p then
    let r := takeFlit f (portSt s p)
    let s := setPort p r.2 s
    if r.1 then k s else s
  else s

/-- Return a credit of a channel to the far end. -/
def giveBack (p : Port) (v : Nat) (s : State) : State :=
  let x := portSt s p
  setPort p { x with ret := smapSet 0 v (smapGet 0 x.ret v + 1) x.ret } s

/-- FLIT_CRC_FAIL: the flit is dropped with every later one, and the next flit sent back carries NAK. -/
def execFlitCrcFail (p : Port) (s : State) : Host.Outcome State Fault Refusal :=
  .next (tpOnly s (if portUp s p then setPort p (dropFlit (portSt s p)) s else s))

/-- CREDITS_RETURNED: the header of a received flit frees replay-buffer entries and returns credits. -/
def execCreditsReturned (p : Port) (x : Flit) (s : State) : Host.Outcome State Fault Refusal :=
  .next (tpOnly s (arrive p x (fun s =>
    let y := ackTo x.ack (portSt s p)
    setPort p { y with used := smapSet 0 x.crv.toNat (vcUsed y x.crv.toNat - x.crn.toNat) y.used } s) s))

/-- NAK: the sender replays from the flit after ACK; a flit sent nine times takes the port down (R306, R307). -/
def execNak (p : Port) (x : Flit) (s : State) : Host.Outcome State Fault Refusal :=
  .next (tpOnly s (arrive p x (fun s =>
    if x.nak then
      let y := ackTo x.ack (portSt s p)
      match y.replay with
      | [] => setPort p y s
      | f :: _ =>
        if y.replay.any fun f => 9 ≤ sentOf y f then linkFails p false s
        else setPort p { y with rq := y.replay } (report eTpRetry (srcOf 9 p.val) s.cyc 0 0 f.seq.toNat false false s)
    else s) s))

/-- MANAGEMENT_MESSAGE: a message between Rolmir instances is routed or delivered. -/
def execManagementMessage (p : Port) (x : Flit) (s : State) : Host.Outcome State Fault Refusal :=
  .next (tpOnly s (arrive p x (fun s =>
    let v := x.vc.toNat
    if x.ty ≠ 0 && (v = 0 || v = 14 || v = 15) then routeMsg x (giveBack p v s) else s) s))

/-! ## Time beacons (R191-R193, R317, R318) -/

/-- Queue on VC1 of a port. -/
def queueVc1 (p : Port) (m : Vc1Msg) (s : State) : State :=
  if portUp s p then setPort p { portSt s p with btx := (portSt s p).btx ++ [m] } s else s
/-- Queue a beacon on every hop of the tree. -/
def queueBeacon (m : Vc1Msg) (s : State) : State :=
  (treePorts (myPodZ s) (myRank s)).foldl (fun s p => queueVc1 p m s) s

/-- BEACON_SEND: package 0 forms a beacon on a cycle whose low 16 bits are 0. -/
def execBeaconSend (s : State) : Host.Outcome State Fault Refusal :=
  .next (tpOnly s (
    if myRank s = 0 ∧ s.cyc % 65536 = 0 then
      queueBeacon (.formed { origin := BitVec.ofNat 8 (myPod s), carried := 0, latency := 0, hops := 1 }) s
    else s))

/-- The offset of R192, in TCLK: own cycle less carried value and accumulated latency (root cycles), rounded to the nearest
even number with ties toward zero. The two 64-bit cycles are compared across their wrap (R142). -/
def beaconOffset (own carried lat : Nat) : Int :=
  let q : Int := 4 * (BitVec.ofInt 64 ((own : Int) - (carried : Int))).toInt - (lat : Int)
  let m : Int := ((q.natAbs + 3) / 8 * 2 : Nat)
  if q < 0 then -m else m

/-- A 64-bit two's-complement item of a record. -/
def itemOf (x : Int) : Nat := wrapInt 64 x

/-- A package applies a beacon: the counter follows while no segment runs, the offset is recorded, and a large one logs
TIME_SKEW once per segment. -/
def applyBeacon (b : BeaconPkt) (s : State) : State :=
  let off := beaconOffset s.cyc b.carried.toNat b.latency.toNat
  let big := 8 < off.natAbs && !s.tp.skewLogged
  let (log, inj, s) := evtDetect eTimeSkew 0 big s
  let s := if log then
      report eTimeSkew 0 s.cyc 0 (itemOf off) 0 inj false { s with tp := { s.tp with skewLogged := true } }
    else s
  let c := if running s then s.cyc else wrapInt 64 ((s.cyc : Int) - off)
  { s with cyc := c, tp := { s.tp with boff := off, missed := 0, lastBeacon := c } }

/-- A beacon is taken: HOPRC of the arrival port is added, the beacon is forwarded along the tree and applied; a forced loss
logs TIME_BEACON_LOST. -/
def takeBeacon (p : Port) (b : BeaconPkt) (s : State) : State :=
  match injEvt eTimeBeaconLost 0 s with
  | (some _, s) => report eTimeBeaconLost 0 s.cyc 0 0 0 true false s
  | (none, s) =>
    let b := { b with latency := b.latency + (portSt s p).hoprc.setWidth 32 }
    applyBeacon b (queueBeacon (.forward b 0) s)
/-- BEACON: a VC1 flit of type 0x2 brings a time beacon (R317); package 0 of a pod, the root of the tree, takes none. -/
def execBeacon (p : Port) (x : Flit) (s : State) : Host.Outcome State Fault Refusal :=
  .next (arrive p x (fun s =>
    match beaconOf x with
    | some b =>
      let s := giveBack p 1 s
      if myRank s = 0 then s else takeBeacon p b s
    | none => s) s)

/-- TIME_BEACON_LOST: no beacon for four intervals in a row. -/
def execTimeBeaconLost (s : State) : Host.Outcome State Fault Refusal :=
  .next (tpOnly s (
    if myRank s ≠ 0 ∧ s.tp.lastBeacon + 4 * 65536 ≤ s.cyc then
      reportNow eTimeBeaconLost 0 { s with tp := { s.tp with missed := s.tp.missed + 4, lastBeacon := s.cyc } }
    else s))

/-! ## Training (R314, R315, R319, R320) -/

/-- HOPRC from a round trip less the dwell, and H from HOPRC (R315). -/
def hoprcOf (round : Nat) : Nat := ceilDiv round 2
def hopOf (rc : Nat) : Nat := ceilDiv rc 4
/-- Bits of the lanes given. -/
def lanesGood (good : BitVec 4) (m : BitVec 4) : Bool := good &&& m = m

/-- The width code that a port trains to; none when it stays down, as it does after a lane loss with DEGR = 0 (R319). -/
def trainWidth (s : State) (p : Port) (good : BitVec 4) : Option (BitVec 2) :=
  let maxw := bitsOf (pctl s p) 6 5
  let degr := bitOf (pctl s p) 4
  let full := maxw ≥ 2 && !(portSt s p).narrow && good = 0xF
  let two := maxw ≥ 1 && (lanesGood good 3 || lanesGood good 0xC)
  if (portSt s p).narrow && !degr then none
  else if full then some 2
  else if two && (maxw = 1 || degr) then some 1
  else if good ≠ 0 && (maxw = 0 || degr) then some 0
  else none

/-- The cage's module lets the ports of its cage come up (R321). -/
def cageOk (s : State) (p : Port) : Bool :=
  let c := smapGet {} s.tp.cages (cageOf p).val
  c.present && (c.app || c.flat)

/-- After a port comes up its hop is compared with the active image's (R320). -/
def hopCheck (p : Port) (s : State) : State :=
  let real := match s.pl.active with | some im => hopWrong s im p | none => false
  let (bad, inj, s) := evtDetect eHopMismatch (srcOf 9 p.val) real s
  if bad then
    report eHopMismatch (srcOf 9 p.val) s.cyc 0 0 (portSt s p).hoprc.toNat inj false { s with pl := { s.pl with hopBlock := true } }
  else s

/-- Whether an injection forces a record that names the port. -/
def portForced (code : Nat) (p : Port) (s : State) : Bool × State :=
  match injEvent code (srcOf 9 p.val) (fun _ _ => true) s with
  | (some _, s) => (true, s)
  | (none, s) => (false, s)

/-- The flit of the identity exchange: pod, rank, port and package serial number go to the neighbour on VC0 (R314). -/
def identFlit (s : State) (p : Port) : Flit :=
  let n := neighbour s p
  newFlit 0 2 (BitVec.ofNat 32 (n.1 + 256 * n.2.1 + 65536 * Config.identType.toNat))
    (Config.identPayload (myPod s) (myRank s) p.val s.fd.serial)
/-- Steps 2 and 3 of a training: the identity and the measurement flit leave, and the far end's identity flit, its first, has
been received (R314, R315). -/
def trainSends (p : Port) (s : State) : State :=
  let s := sendUnheld p (measureFlit (4 * s.cyc) none) (sendHeld p (identFlit s p) s)
  setPort p { portSt s p with rxSeq := 0 } s

/-- PORT_TRAINING: lanes, identity exchange and hop measurement; the port comes up, or stays down with its record. -/
def execPortTraining (p : Port) (r : TrainResult) (s : State) : Host.Outcome State Fault Refusal :=
  .next (tpOnly s (
    if !portEn s p ∨ portUp s p ∨ inBlockReset s (4 + p.val) then s
    else if !cageOk s p then portStop p stDown s
    else
      let s := setPort p { portSt s p with lgood := r.good } s
      match trainWidth s p r.good with
      | none => portStop p stDown s
      | some w =>
        let rc := hoprcOf r.round
        let far := (r.pod.toNat, r.rank.toNat, r.port.toNat)
        let (forcedWire, s) := portForced eTpMiswire p s
        let (forcedHop, s) := portForced eTpHopLong p s
        let s := trainSends p (portStop p stTraining s)
        let s := setPort p { portSt s p with width := w, hoprc := BitVec.ofNat 16 rc, hop := BitVec.ofNat 12 (hopOf rc),
                                             peer := r.serial } s
        if forcedWire || far ≠ neighbour s p then
          portStop p stDown (portDet eTpMiswire p 0 (far.1 * 2 ^ 16 + far.2.1 * 2 ^ 8 + far.2.2) forcedWire s)
        else if forcedHop || 2800 < hopOf rc then portStop p stDown (portDet eTpHopLong p 0 rc forcedHop s)
        else hopCheck p (setPort p { portSt s p with state := stUp } s)))

/-- HOP_MEASUREMENT: the far end's flit is returned with the times of its arrival and departure; one that comes back gives
HOPRC, half of the round trip less the far end's dwell, rounded up (R315), and a port that is up is compared again (R200). -/
def execHopMeasurement (p : Port) (h : HopTimes) (s : State) : Host.Outcome State Fault Refusal :=
  .next (tpOnly s (
    let st := (portSt s p).state
    if (st = stTraining ∨ st = stUp) ∧ !(portSt s p).dropping then
      let s := if st = stUp then giveBack p 1 s else s
      if h.returned then
        let rc := hoprcOf ((h.arrive - h.depart) - (h.farDepart - h.farArrive))
        let s := setPort p { portSt s p with hoprc := BitVec.ofNat 16 rc, hop := BitVec.ofNat 12 (hopOf rc) } s
        if st = stUp then hopCheck p s else s
      else if st = stUp then queueVc1 p (.answer h.depart h.farArrive 0) s
      else sendUnheld p (measureFlit h.depart (some (h.farArrive, h.farArrive))) s
    else s))

/-- RETRAIN: the port goes down and trains again, at full width if it can (R316, R319). -/
def retrainPort (p : Port) (s : State) : State :=
  if portEn s p then
    let s := portStop p stTraining s
    setPort p { portSt s p with narrow := false } s
  else s
/-- RETRAIN. -/
def execRetrain (p : Port) (s : State) : Host.Outcome State Fault Refusal := .next (tpOnly s (retrainPort p s))

/-- TP_LANE_FAIL. -/
def execTpLaneFail (p : Port) (lane : Fin 4) (s : State) : Host.Outcome State Fault Refusal :=
  .next (tpOnly s (if portUp s p then laneFails p lane.val false s else s))

end Sys2Proof.Machine
end

