-- ==== Sys2Proof/Machine/Collective.lean ====
section
/-! DEFINITION. Collective exchanges: XCH, the timeline of an entry, quantising, adding, finalising, replays, checksums and
arrival windows (14_collective_reduction R327-R352; 06 R156; 08 R194-R198). -/

namespace Sys2Proof.Machine

/-! ## What an entry uses (R329, R333, R334, R336, R346) -/

/-- The table entry EXI of the active image. -/
def exchAt (s : State) (i : Nat) : Option ImgExch := match s.pl.active with | some im => im.exch[i]? | none => none
/-- FP32 mode. -/
def xFp (e : ImgExch) : Bool := e.mode = 2
/-- The flits carry INT16 codes: INT16 mode, and every second replay. -/
def xWide (e : ImgExch) : Bool := e.mode = 1 || e.rpl = 2
/-- Blocks per flit of the integer modes. -/
def xBpf (e : ImgExch) : Nat := if xWide e then 3 else 6
/-- Q of the codes carried. -/
def xQ (e : ImgExch) : Int := if xWide e then 32767 else 127
/-- Q of the group's wire mode (R343). -/
def xGroupQ (e : ImgExch) : Nat := if e.mode = 1 then 32767 else 127
/-- Bytes of a block record. -/
def xRec (e : ImgExch) : Nat := if xWide e then 128 else 64
/-- NS of Table 14.3. -/
def xNs (e : ImgExch) : Nat := 64 * ceilDiv e.nblk 64
/-- What the pass adds to the table scale byte. -/
def xBoost (e : ImgExch) : Nat := if e.rpl = 0 then 0 else if e.rpl = 1 then 4 else if e.mode = 1 then 8 else 4
/-- The sending port. -/
def xOut (e : ImgExch) : Port := if e.rx && e.tx then e.oport else e.port
/-- The virtual channel (R212). -/
def xVc (e : ImgExch) : Nat := 2 + e.group % 12
/-- P: the largest frame length among the ports the entry uses. -/
def xPer (s : State) (e : ImgExch) : Nat :=
  let p := frameP (portSt s e.port).width
  if e.rx && e.tx then max p (frameP (portSt s e.oport).width) else p
/-- c_k. -/
def xCyc (start per k : Nat) : Nat := start + 24 + per * k / 23
/-- B of R330. -/
def xBeats (per n : Nat) : Nat := ceilDiv (per * n) 23
/-- INFO0 of a record of an exchange at a port (R437). -/
def xInfo (e : ImgExch) (exi : Nat) : Nat := xVc e * 2 ^ 8 + exi * 2 ^ 16

/-! ## COLL_DESC (R335) -/

/-- Least flits that hold the range; a replay entry holds a selection and needs one (R336, R346, R347). -/
def xNeed (e : ImgExch) : Nat :=
  if xFp e then ceilDiv (32 * e.nblk) 48 else if e.rpl = 0 then ceilDiv e.nblk (xBpf e) else 1
/-- Error feedback is in force for the range: some entry of the image quantises it with EF = 1. -/
def rangeEf (s : State) (e : ImgExch) : Bool :=
  match s.pl.active with
  | some im => im.exch.any fun y => y.group = e.group && y.add = 1 && y.ef && y.src = e.src && y.res = e.res && y.nres = e.nres
  | none => false
/-- A replay's OUTF entry forms the new residuals of its range again (R346). -/
def xRedo (s : State) (e : ImgExch) : Bool := e.rpl ≠ 0 && e.outf && rangeEf s e
/-- Ends of the local-store areas the entry addresses; `redo` as `xRedo` gives. -/
def xEnds (e : ImgExch) (redo : Bool) : List Nat :=
  let vec := 128 * e.nblk
  let recs := if e.rpl = 0 then e.nblk else min e.nblk (e.nflit * xBpf e)
  let cb := if xFp e then vec else recs * xRec e
  (if e.add = 1 || redo then [e.src + vec] else []) ++ (if e.ef || redo then [e.res + vec] else []) ++
  (if (e.ef && e.rpl = 0) || redo then [e.nres + vec] else []) ++
  (if e.add = 2 || e.outc then [e.cbuf + cb] else []) ++ (if e.outf then [e.dst + vec] else []) ++
  (if xFp e then [] else [e.side + e.nblk]) ++
  (if !xFp e && (e.outf || !e.rx) then [e.side + xNs e + e.nblk] else []) ++
  (if !xFp e && (e.outf || e.rpl ≠ 0) then [e.side + 2 * xNs e + ceilDiv e.nblk 8] else []) ++
  (if e.wst then [e.side + 2 * xNs e + 192] else [])
/-- The entry breaks Tables 14.1 to 14.3. -/
def collDescBad (e : ImgExch) (redo : Bool) : Bool :=
  (!e.rx && !e.tx) || (e.add = 0 && !e.rx) || e.add = 3 || (e.ef && (e.add ≠ 1 || xFp e)) || e.mode = 3 || e.rpl = 3 ||
  (xFp e && e.rpl ≠ 0) || e.nblk < 1 || 960 < e.nblk || e.nflit < 1 || 160 < e.nflit || e.nflit < xNeed e || e.badBits ||
  (xEnds e redo).any fun x => lsSize < x

/-! ## Blocks -/

/-- A block as a flit or a record carries it. -/
structure Blk where
  idx : Nat
  codes : List Int
  nf : Bool
  clip : Bool
  nx : Nat
  deriving DecidableEq, Repr

/-- The cycle on which the source bytes of flit k are read, in the issue interval (R330). -/
def xReadCyc (x : XchRun) (k : Nat) : Nat := x.start + x.per * k / 23
/-- Bytes of local store as the engine reads them for flit k. -/
def xRead (s : State) (x : XchRun) (k off n : Nat) : List Byte := lsBytes s x.tile .mainRead (xReadCyc x k) off n
/-- An FP32 element. -/
def xWord (bs : List Byte) (i : Nat) : W32 := BitVec.ofNat 32 (leField bs (4 * i) 4)

/-- One quantised element (R338): code, whether it clipped, the new residual, flags. -/
structure QElem where
  q : Int
  clip : Bool
  rn : W32
  fl : Flags
  deriving DecidableEq, Repr

/-- Quantise one element at scale byte `x`; a clip is an overflow (R47). A sum that overflows to infinity clips. -/
def quantElem (qmax : Int) (x : Nat) (v r : W32) : QElem :=
  let (u, f) := addF32 v r
  match f32 u with
  | .fin neg m e =>
    let (k, ix) := roundMag .rne 0 ⟨m, e + 127 - (x : Int), false⟩ 0
    let clip := decide (qmax < (k : Int))
    let mag : Int := if clip then qmax else k
    let q := if neg then -mag else mag
    let back := if q = 0 then Val.fin true 0 0 else intVal (-q) ((x : Int) - 127)
    { q := q, clip := clip, rn := (toF32 .rne (sumVal (f32 u) back).1).1, fl := f ||| flIf clip flOF ||| flIf (ix || clip) flNX }
  | .inf neg => { q := if neg then -qmax else qmax, clip := true, rn := u, fl := f }
  | .nan _ => { q := 0, clip := false, rn := u, fl := f }

/-- A member's own block from SRC and RES as read for flit k, its new residuals and its flags; nothing is rounded in a
non-finite block, which raises QN and NV alone (R52, R338, R348). -/
def quantBlock (r : XchRun) (k : Nat) (ef : Bool) (x : Nat) (idx : Nat) (s : State) : Blk × List W32 × Flags :=
  let e := r.entry
  let vs := xRead s r k (e.src + 128 * idx) 128
  let rs := if ef then xRead s r k (e.res + 128 * idx) 128 else zeros 128
  let es := tabulate 32 fun j => quantElem (xQ e) x (xWord vs j) (xWord rs j)
  let nf := (List.range 32).any fun j => nonFinite32 (xWord vs j) || nonFinite32 (xWord rs j)
  let fl := flAll (es.map (·.fl))
  if nf then ({ idx := idx, codes := List.replicate 32 0, nf := true, clip := false, nx := 0 },
              tabulate 32 fun j => xWord rs j, fl &&& (flQN ||| flNV))
  else ({ idx := idx, codes := es.map (·.q), nf := false, clip := es.any (·.clip), nx := 0 }, es.map (·.rn), fl)

/-- Width of a code in bytes. -/
def xCw (e : ImgExch) : Nat := if xWide e then 2 else 1
/-- The codes of a block from bytes. -/
def codesAt (e : ImgExch) (bs : List Byte) (off : Nat) : List Int :=
  tabulate 32 fun j => signOf (8 * xCw e) (leField bs (off + xCw e * j) (xCw e))
/-- The codes as bytes. -/
def codeBytes (e : ImgExch) (cs : List Int) : List Byte :=
  (tabulate 32 fun j => leBytes (xCw e) (wrapInt (8 * xCw e) (cs.getD j 0))).flatten

/-- The block record at a position of CBUF (R334). -/
def recAt (r : XchRun) (k idx pos : Nat) (s : State) : Blk :=
  let e := r.entry
  let bs := xRead s r k (e.cbuf + pos * xRec e) (xRec e)
  let st := leField bs (32 * xCw e) 1
  { idx := idx, codes := codesAt e bs 0, clip := bitOf st 0, nf := bitOf st 1, nx := 0 }
/-- Its bytes. -/
def recOut (e : ImgExch) (b : Blk) : List Byte :=
  let st := codeBytes e b.codes ++ [BitVec.ofNat 8 (b2n b.clip + 2 * b2n b.nf)] ++
    (if e.rpl = 0 then [] else leBytes 2 b.idx)
  st ++ zeros (xRec e - st.length)

/-- The indices a flit carries, with the position of the first (R336, R346). -/
def flitIdx (x : XchRun) (k : Nat) : List Nat :=
  let all := if x.entry.rpl = 0 then List.range x.entry.nblk else x.sel
  (all.drop (k * xBpf x.entry)).take (xBpf x.entry)

/-! ## Checksums (R341) -/

/-- The modulus P′. -/
def csMod : Int := 2147483647
/-- The weighted sum of a block's values, residue in [0, P′). -/
def blkSum (idx : Nat) (vs : List Int) : Int :=
  (List.range vs.length).foldl (fun (a : Int) (j : Nat) => (a + Int.ofNat (32 * idx + j + 1) * vs.getD j 0) % csMod) 0
/-- The weighted sum over the blocks of a flit. -/
def flitSum (bs : List Blk) : Int := bs.foldl (fun a b => (a + blkSum b.idx b.codes) % csMod) 0
/-- The weighted sum of FP32 bit patterns from element `first` on. -/
def fpSum (first : Nat) (vs : List W32) : Int :=
  (List.range vs.length).foldl (fun (a : Int) (j : Nat) => (a + Int.ofNat ((first + j + 1) * (vs.getD j 0).toNat)) % csMod) 0

/-- The blocks that a payload carries; a main-pass flit's indices follow from its number. -/
def blksOf (e : ImgExch) (k : Nat) (bs : List Byte) : List Blk :=
  tabulate (min (xBpf e) (leField bs 199 1)) fun i =>
    { idx := if e.rpl = 0 then k * xBpf e + i else leField bs (208 + 2 * i) 2,
      codes := codesAt e bs (32 * xCw e * i), nf := leField bs (192 + i) 1 = 0xFF, clip := bitOf (leField bs 198 1) i,
      nx := leField bs (200 + i) 1 }
/-- The FP32 elements of a payload that lie in the range. -/
def fpsOf (e : ImgExch) (k : Nat) (bs : List Byte) : List W32 :=
  tabulate (min 48 (32 * e.nblk - 48 * k)) fun i => xWord bs i

/-- W, R and C of a payload. -/
def payW (bs : List Byte) : Int := (leField bs 220 4 : Int)
def payR (bs : List Byte) : Int := (leField bs 224 4 : Int)
def payC (bs : List Byte) : Int := (leField bs 228 4 : Int)
/-- W matches the carried codes, and W + C ≡ R. -/
def sumsOk (e : ImgExch) (k : Nat) (bs : List Byte) : Bool :=
  if xFp e then payW bs = fpSum (48 * k) (fpsOf e k bs)
  else payW bs = flitSum (blksOf e k bs) && (payW bs + payC bs) % csMod = payR bs % csMod

/-- A checksum as 4 bytes. -/
def csBytes (x : Int) : List Byte := leBytes 4 (x % csMod).toNat
/-- The payload of an integer flit; `scale` gives a block's scale byte in force (Table 14.5). -/
def payOf (e : ImgExch) (scale : Nat → Nat) (bs : List Blk) (r c : Int) : List Byte :=
  let codes := (bs.map fun b => codeBytes e b.codes).flatten
  let sc := bs.map fun b => BitVec.ofNat 8 (if b.nf then 0xFF else scale b.idx)
  let fb := (List.range bs.length).foldl (fun a i => a + (if ((bs.map (·.clip)).getD i false) then 2 ^ i else 0)) 0
  let nx := bs.map fun b => BitVec.ofNat 8 b.nx
  let bi := if e.rpl = 0 then [] else (bs.map fun b => leBytes 2 b.idx).flatten
  slice codes 0 192 ++ slice sc 0 6 ++ [BitVec.ofNat 8 fb, BitVec.ofNat 8 bs.length] ++ slice nx 0 8 ++ slice bi 0 12 ++
    csBytes (flitSum bs) ++ csBytes r ++ csBytes c ++ zeros 8
/-- The payload of an FP32 flit. -/
def payFp (k : Nat) (vs : List W32) : List Byte :=
  slice ((vs.map fun v => leBytes 4 v.toNat).flatten) 0 220 ++ csBytes (fpSum (48 * k) vs) ++ zeros 16

/-! ## Adding (R340) -/

/-- A received block plus the member's own: sums saturated to ±Q, with the weighted amount that saturation took. -/
def addBlk (qmax : Int) (a b : Blk) : Blk × Int :=
  let ex := tabulate 32 fun j => a.codes.getD j 0 + b.codes.getD j 0
  let sat := ex.map fun v => if qmax < v then qmax else if v < -qmax then -qmax else v
  let lost := blkSum a.idx (tabulate 32 fun j => ex.getD j 0 - sat.getD j 0)
  ({ a with codes := sat, nf := a.nf || b.nf, clip := a.clip || b.clip || ex != sat }, lost)

/-! ## The next scale (R343) -/

/-- The least k with m × 2^h ≤ Q × 2^k, for m above 0. -/
def scaleStep (m h q : Nat) : Int :=
  let a := m * 2 ^ h
  if a ≤ q then
    -(((List.range 64).foldl (fun k i => if k = i && a * 2 ^ (i + 1) ≤ q then i + 1 else k) 0 : Nat) : Int)
  else
    ((List.range 64).foldl (fun k i => if k = i && q * 2 ^ i < a then i + 1 else k) 0 : Nat)

/-- The next scale byte of a block. -/
def nextScale (xt xu m h q : Nat) (faulted nonfinite unresolved : Bool) : Nat :=
  if nonfinite then xt
  else if unresolved then min (xt + 8) 0xE7
  else
    let x : Int := if m = 0 then (xt : Int) - 1 else (xu : Int) + scaleStep m h q
    let x := max x ((xt : Int) - 1)
    let x := if faulted then max x ((xt : Int) + 1) else x
    (min (max x 0) 0xE7).toNat

/-- HEADROOM of a group (R214). -/
def headroomOf (s : State) (g : Nat) : Nat :=
  match s.pl.active with
  | some im => (match im.scales.find? fun x => x.group = g with | some x => x.headroom | none => 0)
  | none => 0
/-- Largest magnitude of a block's codes. -/
def blkMax (b : Blk) : Nat := b.codes.foldl (fun m c => max m c.natAbs) 0

/-! ## Writing results -/

/-- Result bytes written to local store, visible to reads from c_k + 10 (R330). -/
def xWrite (t : Tile) (ws : List (Nat × Byte × Byte)) (s : State) : State :=
  let c := s.cyc + 9
  useFree (addWrites (lsWrites t true s.fresh c ws) s)
/-- FP32 values as bytes. -/
def fpBytes (vs : List W32) : List Byte := (vs.map fun v => leBytes 4 v.toNat).flatten
/-- The counters of a group. -/
def groupCnt (s : State) (g : Nat) : GroupCnt := smapGet {} s.pl.groups g
/-- Change them. -/
def bumpGroup (g : Nat) (f : GroupCnt → GroupCnt) (s : State) : State :=
  { s with pl := { s.pl with groups := smapSet {} g (f (groupCnt s g)) s.pl.groups } }
/-- A block of the range is non-finite: QN or OF, and the command's count and first index (R290, R342, R347). -/
def xNonFinite (x : XchRun) (idx : Nat) (f : Flags) (s : State) : State :=
  let nfi := BitVec.ofNat 32 (x.tile.val * 2 ^ 25 + 32 * idx)
  let nff := match s.pl.xnff with
    | none => some (x.start, nfi)
    | some (c, i) => if x.start < c ∨ (x.start = c ∧ nfi.ult i) then some (x.start, nfi) else some (c, i)
  { s with pl := { s.pl with uflags := s.pl.uflags ||| f, xnfb := satAdd s.pl.xnfb 1, xnff := nff } }

/-- DST values of a block at its scale byte (R342): exact. -/
def dstVals (x : Nat) (b : Blk) : List W32 :=
  if b.nf then List.replicate 32 0x7FC00000#32
  else b.codes.map fun c => (toF32 .rne (intVal c ((x : Int) - 127))).1
/-- A write of one bit of the fault bitmap. -/
def bitWrite (e : ImgExch) (idx : Nat) (v : Bool) : Nat × Byte × Byte :=
  let m : Byte := 1#8 <<< (idx % 8)
  (e.side + 2 * xNs e + idx / 8, if v then m else 0, m)
/-- Finalise one block of a main pass (R342). -/
def finalMain (x : XchRun) (sc : Nat) (b : Blk) (s : State) : State :=
  let e := x.entry
  let s := xWrite x.tile (wholeBytes (e.dst + 128 * b.idx) (fpBytes (dstVals sc b)) ++
    [bitWrite e b.idx (b.clip && !b.nf), (e.side + xNs e + b.idx, BitVec.ofNat 8 b.nx, 0xFF)]) s
  let s := bumpGroup e.group (fun g => { g with nfblk := satAdd g.nfblk (b2n b.nf), clip := satAdd g.clip (b2n b.clip) }) s
  if b.nf then xNonFinite x b.idx flQN s else s

/-- Finalise one selected block of a replay (R346): a block that clipped again keeps its bit. -/
def finalReplay (x : XchRun) (k : Nat) (ef : Bool) (sc : Nat) (b : Blk) (s : State) : State :=
  let e := x.entry
  if b.clip && !b.nf then s
  else
    let nres := if ef then wholeBytes (e.nres + 128 * b.idx) (fpBytes (quantBlock x k true sc b.idx s).2.1) else []
    let s := xWrite x.tile (wholeBytes (e.dst + 128 * b.idx) (fpBytes (dstVals sc b)) ++ nres ++
      [bitWrite e b.idx false, (e.side + xNs e + b.idx, BitVec.ofNat 8 b.nx, 0xFF)]) s
    let s := bumpGroup e.group (fun g =>
      { g with nfblk := satAdd g.nfblk (b2n b.nf), res1 := satAdd g.res1 (b2n (!b.nf && e.rpl = 1)),
               res2 := satAdd g.res2 (b2n (!b.nf && e.rpl = 2)) }) s
    if b.nf then xNonFinite x b.idx flQN s else s

/-- A block left unresolved after the second replay (R347). -/
def finalUnresolved (x : XchRun) (ef : Bool) (xt idx : Nat) (s : State) : State :=
  let e := x.entry
  let nres := if ef then wholeBytes (e.nres + 128 * idx) (xRead s x (e.nflit - 1) (e.res + 128 * idx) 128) else []
  let s := xWrite x.tile (wholeBytes (e.dst + 128 * idx) (fpBytes (List.replicate 32 0x7FC00000#32)) ++ nres ++
    [(e.side + xNs e + idx, BitVec.ofNat 8 (nextScale xt xt 0 0 (xGroupQ e) true false true), 0xFF)]) s
  let s := bumpGroup e.group (fun g => { g with nfblk := satAdd g.nfblk 1, unres := satAdd g.unres 1 }) s
  xNonFinite x idx flOF s

/-- The status word (R349). -/
def statusWord (g : GroupCnt) : List Byte :=
  leBytes 4 g.nfblk.toNat ++ leBytes 4 g.clip.toNat ++ leBytes 4 g.res1.toNat ++ leBytes 4 g.res2.toNat ++
  leBytes 4 g.unres.toNat ++ leBytes 4 (b2n (g.nfblk ≠ 0)) ++ zeros 40

/-- Blocks of the range whose fault-bitmap bit is set, as a read on cycle `c` sees them. -/
def faultBits (e : ImgExch) (t : Tile) (c : Nat) (s : State) : List Nat :=
  let bs := bytesAt s c (lsBase t + e.side + 2 * xNs e) (ceilDiv e.nblk 8)
  (List.range e.nblk).filter fun b => bitOf (bs.getD (b / 8) 0).toNat (b % 8)

/-- What follows the last flit: blocks left unresolved, then the status word (R347, R349). -/
def xchLast (x : XchRun) (s : State) : State :=
  let e := x.entry
  let s := if e.rpl = 2 && e.outf && !xFp e then
      let ef := rangeEf s e
      let tb := xRead s x (e.nflit - 1) e.side e.nblk
      (faultBits e x.tile (s.cyc + 10) s).foldl (fun s b => finalUnresolved x ef (tb.getD b 0).toNat b s) s
    else s
  if e.wst then xWrite x.tile (wholeBytes (e.side + 2 * xNs e + 128) (statusWord (groupCnt s e.group))) s else s

/-! ## One flit (R332, R338-R342) -/

/-- COLL_CHECK at a port (R341): a DET record, and the step aborts. -/
def collCheck (p : Port) (e : ImgExch) (exi seq : Nat) (inj : Bool) (s : State) : State :=
  detAbort eCollCheck (srcOf 9 p.val) s.cyc 0 (xInfo e exi) seq inj s

/-- The FP32 work of flit k: the sums, their flags, and CBUF and DST (R350). -/
def xchFp (x : XchRun) (k : Nat) (rv : Option (List Byte)) (s : State) : List Byte × State :=
  let e := x.entry
  let n := min 48 (32 * e.nblk - 48 * k)
  let own := fun (off : Nat) => let bs := xRead s x k (off + 192 * k) (4 * n); tabulate n fun i => xWord bs i
  let mine := if e.add = 1 then own e.src else if e.add = 2 then own e.cbuf else List.replicate n 0
  let got := match rv with | some bs => fpsOf e k bs | none => []
  let res := tabulate n fun i =>
    if !e.rx then (mine.getD i 0, (0 : Flags)) else if e.add = 0 then (got.getD i 0, 0) else addF32 (got.getD i 0) (mine.getD i 0)
  let vs := res.map (·.1)
  let s := { s with pl := { s.pl with uflags := s.pl.uflags ||| flAll (res.map (·.2)) } }
  let s := if e.outc then xWrite x.tile (wholeBytes (e.cbuf + 192 * k) (fpBytes vs)) s else s
  let s := if e.outf then xWrite x.tile (wholeBytes (e.dst + 192 * k) (fpBytes vs)) s else s
  (payFp k vs, s)

/-- The own block of an entry: its codes, its residuals to write and its flags. -/
def ownBlk (x : XchRun) (k sc pos idx : Nat) (s : State) : Blk × List W32 × Flags :=
  if x.entry.add = 1 then quantBlock x k x.entry.ef sc idx s else (recAt x k idx pos s, [], 0)

/-- The integer work of flit k: quantise, add, record, finalise, and form the flit sent; the received flit's scale bytes
and replay indices are checked before, and the checksum relation after. -/
def xchInt (x : XchRun) (p : Port) (k : Nat) (rv : Option (Flit × List Byte)) (s : State) : List Byte × State :=
  let e := x.entry
  let tb := xRead s x k e.side e.nblk
  let scale := fun (b : Nat) => (tb.getD b 0).toNat + xBoost e
  let ids := flitIdx x k
  let zero := fun (b : Nat) => ({ idx := b, codes := List.replicate 32 0, nf := false, clip := false, nx := 0 } : Blk)
  let got := match rv with | some (_, bs) => blksOf e k bs | none => []
  let bad : Bool := match rv with
    | some (_, bs) =>
      (List.range got.length).any (fun i =>
        let sc := leField bs (192 + i) 1
        sc ≠ 0xFF && sc ≠ scale (got.map (·.idx) |>.getD i 0)) ||
      (e.rpl ≠ 0 && got.map (·.idx) != ids)
    | none => false
  let s := if bad then collCheck p e x.exi.toNat (match rv with | some (f, _) => f.seq.toNat | none => 0) false s else s
  let h := headroomOf s e.group
  let own := tabulate ids.length fun i =>
    let b := ids.getD i 0
    if e.add = 0 then (zero b, [], (0 : Flags)) else ownBlk x k (scale b) (if e.rpl = 0 then b else k * xBpf e + i) b s
  let sums := tabulate ids.length fun i =>
    let b := ids.getD i 0
    let mine := (own.getD i (zero b, [], 0)).1
    if !e.rx then (mine, (0 : Int))
    else if e.add = 0 then ({ got.getD i (zero b) with idx := b }, 0)
    else addBlk (xQ e) { got.getD i (zero b) with idx := b } mine
  let side := xRead s x k (e.side + xNs e) e.nblk
  let blks := sums.map fun r =>
    let b := r.1
    let xt := (tb.getD b.idx 0).toNat
    let nx := if e.outf && e.add ≠ 0 then nextScale xt (scale b.idx) (blkMax b) h (xGroupQ e) (b.clip || e.rpl ≠ 0) b.nf false
      else if e.rx then b.nx
      else (side.getD b.idx 0).toNat
    { b with nx := nx }
  let ownSum := own.foldl (fun a o => (a + blkSum o.1.idx o.1.codes) % csMod) 0
  let lost := sums.foldl (fun a r => (a + r.2) % csMod) 0
  let (r0, c0) := match rv with | some (_, bs) => (payR bs, payC bs) | none => (0, 0)
  let pay := payOf e scale blks (if e.add = 0 then r0 else r0 + ownSum) (c0 + lost)
  let s := if e.rx && e.add ≠ 0 && (payW pay + payC pay) % csMod ≠ payR pay % csMod then
      collCheck p e x.exi.toNat (match rv with | some (f, _) => f.seq.toNat | none => 0) false s
    else s
  let taken := flIf (e.add ≠ 0 && got.any (·.nf)) flQN
  let s := { s with pl := { s.pl with uflags := s.pl.uflags ||| flAll (own.map (·.2.2)) ||| taken } }
  let s := if e.ef && e.rpl = 0 then
      own.foldl (fun s o => xWrite x.tile (wholeBytes (e.nres + 128 * o.1.idx) (fpBytes o.2.1)) s) s
    else s
  let s := if e.outc then
      (List.range blks.length).foldl (fun s i =>
        let b := blks.getD i (zero 0)
        xWrite x.tile (wholeBytes (e.cbuf + (if e.rpl = 0 then b.idx else k * xBpf e + i) * xRec e) (recOut e b)) s) s
    else s
  let ef := rangeEf s e
  let s := if e.outf then
      blks.foldl (fun s b => if e.rpl = 0 then finalMain x (scale b.idx) b s else finalReplay x k ef (scale b.idx) b s) s
    else s
  (pay, s)

/-- A table scale byte above 0xE7 that flit k uses (R339). -/
def scaleBad (x : XchRun) (k : Nat) (s : State) : Bool :=
  !xFp x.entry && (flitIdx x k).any fun b => 0xE7 < (xRead s x k (x.entry.side + b) 1).headD 0

/-- The work of flit k at port `p`, and what follows the last one; none when COLL_SCALE stops it. -/
def xchFlit (x : XchRun) (p : Port) (k : Nat) (rv : Option (Flit × List Byte)) (s : State) : Option (List Byte) × State :=
  if scaleBad x k s then
    (none, schedFault eCollScale (srcOf 9 p.val) s.cyc 0 (xInfo x.entry x.exi.toNat) 0 false s)
  else
    let (pay, s) := if xFp x.entry then xchFp x k (rv.map (·.2)) s else xchInt x p k rv s
    (some pay, if k + 1 = x.entry.nflit then xchLast x s else s)

/-! ## The entry's run -/

/-- The run of an entry whose flit k falls on this cycle. -/
def xchFind (s : State) (exi : BitVec 16) (k : Nat) : Option XchRun :=
  s.pl.xchs.find? fun x => x.exi = exi && xCyc x.start x.per k = s.cyc
/-- Replace a run. -/
def xchPut (x : XchRun) (s : State) : State :=
  { s with pl := { s.pl with xchs := s.pl.xchs.map fun y => if y.exi = x.exi && y.start = x.start then x else y } }
/-- A run is over after its last flit. -/
def xchDone (x : XchRun) (k : Nat) (s : State) : State :=
  if k + 1 = x.entry.nflit then
    { s with pl := { s.pl with xchs := s.pl.xchs.filter fun y => !(y.exi = x.exi && y.start = x.start) } }
  else s

/-- TAG of flit k of an exchange (Table 13.2). -/
def xTag (exi k : Nat) : W32 := BitVec.ofNat 32 (exi + 2 ^ 16 * (k % 2 ^ 16))
/-- A received flit of an exchange that waits in a port's buffer. -/
def rxFlit (s : State) (p : Port) (e : ImgExch) (exi k : Nat) : Option Flit :=
  ((portSt s p).rx.find? fun r => r.2.tag = xTag exi k && r.2.vc.toNat = xVc e).map (·.2)
/-- Take it out. -/
def rxDrop (p : Port) (f : Flit) (s : State) : State :=
  let x := portSt s p
  setPort p { x with rx := x.rx.filter fun r => !(r.2.tag = f.tag && r.2.vc = f.vc) } s

/-- XCH_HANDOVER: flit k goes to the sending port, or XCH_CREDIT is raised when no credit remains (R309). -/
def execXchHandover (p : Port) (exi : BitVec 16) (k : Nat) (s : State) : Host.Outcome State Fault Refusal :=
  .next (linkOnly s (
    match xchFind s exi k with
    | none => s
    | some x =>
      let e := x.entry
      if !e.tx || xOut e ≠ p then s
      else
        let (pay, s) := if e.rx then ((x.sent.find? fun q => q.1 = k).map (·.2), s) else xchFlit x p k none s
        let s := match pay with
          | none => s
          | some bs =>
            if !portUp s p then s
            else if vcFree (portSt s p) (xVc e) then
              let f := newFlit (BitVec.ofNat 4 (xVc e)) 1 (xTag exi.toNat k) bs
              let y := vcTake (xVc e) (portSt s p)
              setPort p { y with ttx := y.ttx ++ [f] } s
            else schedFault eXchCredit (srcOf 9 p.val) s.cyc 0 (xInfo e exi.toNat) 0 false s
        xchDone x k s))

/-- XCH_CONSUME: received flit k is taken from the buffer, used, and its results are written (R329, R351). -/
def execXchConsume (p : Port) (exi : BitVec 16) (k : Nat) (s : State) : Host.Outcome State Fault Refusal :=
  .next (linkOnly s (
    match xchFind s exi k with
    | none => s
    | some x =>
      let e := x.entry
      if !e.rx || e.port ≠ p then s
      else
        let s := match rxFlit s p e exi.toNat k with
          | none =>
            if 6 ≤ p.val then schedFault eXchWindow (srcOf 9 p.val) s.cyc 0 (xInfo e exi.toNat) 0 false s else s
          | some f =>
            let x := { x with took := x.took ++ [k] }
            let s := xchPut x (giveBack p (xVc e) (rxDrop p f s))
            let (pay, s) := xchFlit x p k (some (f, f.payload)) s
            (match pay with
            | some bs => if e.tx then xchPut { x with sent := x.sent ++ [(k, bs)] } s else s
            | none => s)
        if e.tx then s else xchDone x k s))

/-! ## Arrival (R194, R341) -/

/-- The window of an entry in this package's tile cycles. -/
def xWindow (s : State) (e : ImgExch) : Int × Int := (segBase s + e.winOpen, segBase s + e.winClose)
/-- Some flit of the exchange waits in the buffer. -/
def rxAny (s : State) (p : Port) (e : ImgExch) (exi : Nat) : Bool :=
  (portSt s p).rx.any fun r => r.2.tag.toNat % 65536 = exi && r.2.vc.toNat = xVc e
/-- XCH_WINDOW of an entry at a port. -/
def xWindowFault (p : Port) (e : ImgExch) (exi : Nat) (s : State) : State :=
  schedFault eXchWindow (srcOf 9 p.val) s.cyc 0 (xInfo e exi) 0 false s
/-- The check at the close follows, once. -/
def schedWindow (p : Port) (e : ImgExch) (exi : BitVec 16) (s : State) : State :=
  let c := (xWindow s e).2.toNat
  if p.val < 6 && running s && s.cyc ≤ c && !(s.agenda.any fun a => a.2 = .xchWindow p exi) then sched c (.xchWindow p exi) s
  else s

/-- A flit of an entry enters the buffer: its window, then its checksums. -/
def flitEnters (p : Port) (x : Flit) (e : ImgExch) (s : State) : State :=
  let exi := x.tag.toNat % 65536
  let (lo, hi) := xWindow s e
  let early := (s.cyc : Int) < lo
  let late := hi ≤ (s.cyc : Int) && !rxAny s p e exi
  let s := if p.val < 6 && running s && (early || late) then xWindowFault p e exi s else s
  let forced := injEvent eCollCheck (srcOf 9 p.val) (fun _ _ => true) s
  let s := forced.2
  let bad := !sumsOk e (x.tag.toNat / 65536) x.payload
  let s := if bad || forced.1.isSome then collCheck p e exi x.seq.toNat forced.1.isSome s else s
  schedWindow p e (BitVec.ofNat 16 exi) s

/-- COLLECTIVE_DATA_FLIT: a flit of VC2 to VC13 enters the port buffer. -/
def execCollectiveDataFlit (p : Port) (x : Flit) (s : State) : Host.Outcome State Fault Refusal :=
  .next (linkOnly s (
    arrive p x (fun s =>
      if !tensorVc x.vc.toNat || x.ty = 0 then s
      else
        let s := match exchAt s (x.tag.toNat % 65536) with
          | some e => if e.rx && e.port = p && xVc e = x.vc.toNat then flitEnters p x e s else s
          | none => s
        setPort p { portSt s p with rx := (portSt s p).rx ++ [(s.cyc, x)] } s) s))

/-- XCH_WINDOW: at the close of a window every flit has arrived, or the fault is raised. -/
def execXchWindow (p : Port) (exi : BitVec 16) (s : State) : Host.Outcome State Fault Refusal :=
  .next (linkOnly s (
    match exchAt s exi.toNat with
    | none => s
    | some e =>
      let here := fun (k : Nat) => (rxFlit s p e exi.toNat k).isSome ||
        s.pl.xchs.any fun x => x.exi = exi && x.took.contains k
      if running s && e.rx && e.port = p && p.val < 6 && decide ((xWindow s e).2 ≤ (s.cyc : Int)) &&
          !(List.range e.nflit).all here then
        xWindowFault p e exi.toNat s
      else s))

/-! ## XCH (R156, R328-R330, R335) -/

/-- The cycles of an entry issued now. -/
def xCycles (s : State) (e : ImgExch) : List Nat := tabulate e.nflit (xCyc s.cyc (xPer s e))
/-- An engine would hand over or consume two flits on one cycle. -/
def xEngineBusy (s : State) (e : ImgExch) : Bool :=
  (xCycles s e).any fun c =>
    (e.tx && heldDuring s (.engineHand (xOut e)) c (c + 1)) || (e.rx && heldDuring s (.engineCons e.port) c (c + 1))

/-- The checks of XCH at issue. -/
def xchCheck (t : Tile) (exi : Nat) (s : State) : Option Nat :=
  match exchAt s exi with
  | none => some eCollDesc
  | some e =>
    if chanBusy s t (xBeats (xPer s e) e.nflit) (some 33) then some eMoverBusy
    else if (s.cyc : Int) < segBase s + e.earliest then some eXchEarly
    else if collDescBad e (xRedo s e) then some eCollDesc
    else if xEngineBusy s e then some eXchEngine
    else if e.rx && e.port.val < 6 && decide ((s.cyc : Int) + 24 < segBase s + e.winClose) then some eXchConsume
    else none

/-- The effect of XCH: the channel and the engines are held, the flits' steps are scheduled. -/
def xchStart (t : Tile) (exi : BitVec 16) (e : ImgExch) (s : State) : State :=
  let c := s.cyc
  let per := xPer s e
  let b := xBeats per e.nflit
  let s := chanHold t b (some 33) s
  let reads := e.add ≠ 0 || !xFp e
  let writes := e.outf || e.outc || e.ef || e.wst
  let s := usePort t .mainRead c (if reads then b else 0) 256 s
  let s := usePort t .mainWrite (c + 33) (if writes then b else 0) 256 s
  let sel := if e.rpl = 0 then [] else (faultBits e t c s).take (e.nflit * xBpf e)
  let run : XchRun := { tile := t, exi := exi, entry := e, start := c, base := segBase s, per := per, sent := [], took := [], sel := sel }
  let s := { s with pl := { s.pl with xchs := s.pl.xchs ++ [run] } }
  let s := if e.clrst then bumpGroup e.group (fun _ => {}) s else s
  let s := if e.rx && e.port.val < 6 then
      (if (xWindow s e).2 < (c : Int) && s.cm.abortCode = 0 && !rxAny s e.port e exi.toNat then schedNow (.xchWindow e.port exi) s
       else schedWindow e.port e exi s)
    else s
  let s := (List.range e.nflit).foldl (fun s k =>
    let ck := xCyc c per k
    let s := if e.rx then sched ck (.xchConsume e.port exi k) (hold (.engineCons e.port) ck (ck + 1) s) else s
    if e.tx then sched ck (.xchHandover (xOut e) exi k) (hold (.engineHand (xOut e)) ck (ck + 1) s) else s) s
  seenBy t (xCyc c per (e.nflit - 1) + 10) s

/-- XCH: starts exchange-table entry EXI on the port's collective engine. -/
def execXch (t : Tile) (f : Fields) (s : State) : Host.Outcome State Fault Refusal :=
  let q := mvF f
  .next (tileOnly s (issue { t := t, opc := 0x28, f := f, enc := mvEnc f }
    (fun s => (if mvForm f true false false false true then xchCheck t q.exi s else some eMoverDesc).map fun c =>
      (c, q.exi * 2 ^ 16))
    (fun u => match exchAt u q.exi with
      | some e => xchStart t (BitVec.ofNat 16 q.exi) e u
      | none => u) s))

end Sys2Proof.Machine
end

