-- ==== Sys2Proof/Machine/Accum.lean ====
section
/-! DEFINITION. Accumulation: the run accumulator, the full accumulator, the die tree's addition, NRU adds, fixed Verge
trees (04_accumulation R92-R112). -/

namespace Sys2Proof.Machine

/-! ## Special tags (Table 4.3) -/

/-- 0b00 finite, 0b01 +∞, 0b10 −∞, 0b11 NaN (Table 4.4). -/
abbrev SpTag := BitVec 2

/-- Combine two special tags; opposite infinities give NaN and NV (Table 4.3). -/
def joinTag (a b : SpTag) : SpTag × Flags :=
  if a = 3 ∨ b = 3 then (3, 0)
  else if a = 0 then (b, 0)
  else if b = 0 then (a, 0)
  else if a = b then (a, 0)
  else (3, flNV)

/-- The tag of a value. -/
def valTag : Val → SpTag
  | .nan _ => 3
  | .inf false => 1
  | .inf true => 2
  | .fin .. => 0

/-- The value a tag stands for, or the finite value. -/
def tagVal (t : SpTag) (v : Val) : Val :=
  if t = 3 then .nan false else if t = 1 then .inf false else if t = 2 then .inf true else v

/-! ## The full accumulator (R97-R100) -/

/-- The exact finite value S × 2^Q. -/
def faDy (f : Fa) : Dy := ⟨f.s.toInt, f.q.toInt⟩

/-- One exact addition and one rounding to odd into 62 significant bits (R98). -/
def faAddDy (f : Fa) (v : Dy) (vix : Bool) : Fa :=
  let w := addDy (faDy f) v
  if w.m = 0 then { f with s := 0, q := BitVec.ofInt 12 (-2048), ix := f.ix || vix }
  else
    let a := w.m.natAbs
    let h := (Nat.log2 a : Int) + w.e
    let q := max (h - 61) (-2048)
    let (t, ix) := roundMag .rto q ⟨a, w.e, false⟩ 0
    { f with s := BitVec.ofInt 64 (if w.m < 0 then -(t : Int) else t), q := BitVec.ofInt 12 q, ix := f.ix || vix || ix }

/-- Add one FA word into another (R98, R102), with the NV of infinities that meet. -/
def faAdd (f g : Fa) : Fa × Flags :=
  let (t, nv) := joinTag f.tag g.tag
  ({ faAddDy f (faDy g) g.ix with tag := t }, nv)

/-- The value a drain converts: the tag's, or the exact S × 2^Q, an exact zero being +0 (R100). -/
def faVal (f : Fa) : Val :=
  tagVal f.tag (let d := faDy f; if d.m = 0 then .fin false 0 0 else dyVal d)

/-! ## The run accumulator (R92-R96) -/

/-- One run's outcome: the exact promoted value, inexact bit, special tag and flags. -/
structure RunSum where
  v : Dy
  ix : Bool
  tag : SpTag
  flags : Flags
  deriving DecidableEq, Repr

/-- Unbiased exponent of a finite nonzero element whose format has `fb` fraction bits, or 1 − bias of a subnormal (R92). -/
def elemExp (fb : Nat) : Val → Int
  | .fin _ _ e => e + fb
  | _ => 0
/-- Finite and nonzero. -/
def finNz (v : Val) : Bool := v.isFin && !v.isZero

/-- A product whose factors are not both finite and nonzero: its tag and flags (R96). -/
def specialProduct (a b : Val) : SpTag × Flags :=
  match a, b with
  | .nan _, _ => (3, useFlags a ||| useFlags b)
  | _, .nan _ => (3, useFlags a ||| useFlags b)
  | _, _ => let (v, f) := mulVal a b; (valTag v, f)

/-- The join of the special tags of a run, by rising k: where a run holds a NaN and infinities of both signs, NV rises when
both infinities come before the NaN (DESIGN CHOICE, entry 154). -/
def runTags (ps : List (Val × Val)) : SpTag × Flags :=
  ps.foldl (fun acc p =>
    let (t, f) := specialProduct p.1 p.2
    let (u, g) := joinTag acc.1 t
    (u, acc.2 ||| f ||| g)) (0, 0)

/-- A floating-point run: exponent pre-pass, 26-bit window, truncation of each product below it (R92, R93, R96).
`fa`, `fb` are the fraction widths of the two element formats; factors carry no block scale. -/
def runFloat (fa fb : Nat) (ps : List (Val × Val)) : RunSum :=
  let good := ps.filter fun p => finNz p.1 && finNz p.2
  let (tag, flags) := runTags (ps.filter fun p => !(finNz p.1 && finNz p.2))
  match good with
  | [] => ⟨⟨0, 0⟩, false, tag, flags⟩
  | p :: r =>
    let ex := fun (p : Val × Val) => elemExp fa p.1 + elemExp fb p.2
    let estar := r.foldl (fun m p => max m (ex p)) (ex p) + 2
    let lsb := estar - 20
    let (ra, ix) := good.foldl (fun acc p =>
      match (mulVal p.1 p.2).1 with
      | .fin neg m e =>
        let (t, d) := if lsb ≤ e then (m * 2 ^ (e - lsb).toNat, false)
          else (m >>> (lsb - e).toNat, m % 2 ^ (lsb - e).toNat ≠ 0)
        (acc.1 + (if neg then -(t : Int) else t), acc.2 || d)
      | _ => acc) ((0 : Int), false)
    ⟨⟨ra, lsb⟩, ix, tag, flags⟩

/-- An integer run: the exact sum of the codes' products, times 2^lsb (R94). -/
def runInt (lsb : Int) (ps : List (Int × Int)) : RunSum :=
  ⟨⟨ps.foldl (fun a p => a + p.1 * p.2) 0, lsb⟩, false, 0, 0⟩

/-- Promote a run into a full accumulator, multiplied by 2^k for its block scales (R98). -/
def promote (f : Fa) (r : RunSum) (k : Int) : Fa × Flags :=
  let (t, nv) := joinTag f.tag r.tag
  ({ faAddDy f ⟨r.v.m, r.v.e + k⟩ r.ix with tag := t }, r.flags ||| nv)

/-! ## NRU adds (R105-R109) -/

/-- A plain add: acc = RNE(acc + x); only the arriving x is an input (R57, R109). -/
def nruPlain (acc x : W32) : W32 × Flags :=
  let (v, f) := sumVal (f32 acc) (f32 x)
  let (y, g) := toF32 .rne v
  (y, useFlags (f32 x) ||| f ||| g)

/-- The FP32 result of a RNE sum without flags other than NX. -/
def rneSum (a b : W32) : W32 × Flags :=
  let (y, g) := toF32 .rne (sumVal (f32 a) (f32 b)).1
  (y, g &&& flNX)

/-- A compensated add into (hi, lo) (R106). -/
def nruComp (hi lo x : W32) : W32 × W32 × Flags :=
  let (s, fs) := nruPlain hi x
  if nonFinite32 s then (s, 0, fs)
  else
    let (t, f1) := rneSum s (negF32 hi)
    let (st, f2) := rneSum s (negF32 t)
    let (a, f3) := rneSum hi (negF32 st)
    let (b, f4) := rneSum x (negF32 t)
    let (e, f5) := rneSum a b
    let (l, f6) := rneSum lo e
    (s, l, fs ||| f1 ||| f2 ||| f3 ||| f4 ||| f5 ||| f6)

/-- An exact-mode element: the 328-bit two's-complement W = c : A, and its special tag (R107). -/
structure ExactAcc where
  w : BitVec 328
  tag : SpTag
  deriving DecidableEq, Repr

/-- A finite FP32 value in units of 2^−190 (exact: every finite FP32 value is a multiple of 2^−149). -/
def exactUnits (v : Val) : Int := let d := valDy v; d.m * 2 ^ (d.e + 190).toNat

/-- An exact add: W modulo 2^328, or the join of the tag (R107); raises no NX (R109). -/
def exactAdd (a : ExactAcc) (x : W32) : ExactAcc × Flags :=
  let v := f32 x
  if v.isFin then ({ a with w := a.w + BitVec.ofInt 328 (exactUnits v) }, 0)
  else
    let (t, nv) := joinTag a.tag (valTag v)
    ({ a with tag := t }, useFlags v ||| nv)

/-- The value an exact READ converts: W × 2^−190, or the tag's (R107); an exact zero is +0 (R463). -/
def exactVal (a : ExactAcc) : Val :=
  tagVal a.tag (let i := a.w.toInt; if i = 0 then .fin false 0 0 else intVal i (-190))

/-! ## Fixed trees of the Verge (R111, R112, R130) -/

/-- A leaf or partial sum of a tree: an exact value (rounded when it is a sum). -/
abbrev TreeVal := Val

/-- Add two tree positions with one FP32 RNE rounding (R111). -/
def treeAdd (a b : TreeVal) : TreeVal × Flags :=
  let (v, f) := sumVal a b
  let (y, g) := toF32 .rne v
  (f32 y, f ||| g)

/-- One level of the fixed tree over positions that may be absent: pairs 2i and 2i + 1; a position with no partner
passes its value up (R111). -/
def treeLevel : List (Option TreeVal) → List (Option TreeVal) × Flags
  | [] => ([], 0)
  | [a] => ([a], 0)
  | a :: b :: r =>
    let (xs, f) := treeLevel r
    match a, b with
    | some x, some y => let (s, g) := treeAdd x y; (some s :: xs, f ||| g)
    | some x, none => (some x :: xs, f)
    | none, y => (y :: xs, f)

/-- The fixed tree, level by level (`fuel` bounds the levels: 13 suffice for 4,096 positions). -/
def treeSum : Nat → List (Option TreeVal) → Option TreeVal × Flags
  | 0, xs => (xs.headD none, 0)
  | n + 1, xs =>
    match xs with
    | [] => (none, 0)
    | [x] => (x, 0)
    | _ => let (ys, f) := treeLevel xs; let (z, g) := treeSum n ys; (z, f ||| g)

/-- A whole tree sum as FP32: an unpaired leaf is rounded once; no participant gives +0 (R130). -/
def treeF32 (xs : List (Option TreeVal)) : W32 × Flags :=
  match treeSum 16 xs with
  | (none, f) => (0, f)
  | (some v, f) => let (y, g) := toF32 .rne v; (y, f ||| g)

/-- The order of R112 on non-NaN values, −0 below +0: an integer key of the FP32 pattern. -/
def orderKey (x : W32) : Int := if x.msb then -((x.toNat : Int) - 2 ^ 31) - 1 else x.toNat

/-- Maximum or minimum of participating (index, value) pairs: value, index, flags (R112). -/
def treeBest (isMax : Bool) (xs : List (Nat × W32)) : W32 × W32 × Flags :=
  let fl := flAll (xs.map fun p => useFlags (f32 p.2))
  match xs.find? (fun p => (f32 p.2).isNan) with
  | some p => (0x7FC00000, BitVec.ofNat 32 p.1, fl)
  | none =>
    match xs with
    | [] => (if isMax then 0xFF800000 else 0x7F800000, 0xFFFFFFFF, 0)
    | p :: r =>
      let b := r.foldl (fun a q =>
        let better := if isMax then orderKey a.2 < orderKey q.2 else orderKey q.2 < orderKey a.2
        if better then q else a) p
      (b.2, BitVec.ofNat 32 b.1, fl)

end Sys2Proof.Machine
end

