-- ==== Sys2Proof/Machine/Nru.lean ====
section
/-! DEFINITION. The near-memory reduction units (04_accumulation R104-R110, R113; 09 R211; 10 R225). -/

namespace Sys2Proof.Machine

/-- Window address of a byte offset of unit `u` (Table 10.1). -/
def nruAddr (u : NruId) (off : Nat) : Nat := nruBase + u.val * 0x2000000 + off
/-- Tag word of exact-mode element e (R225). -/
def nruTagAddr (u : NruId) (e : Nat) : Nat := tagBase + u.val * 0x200000 + 2 * e

/-- A little-endian field of memory. -/
def memLe (s : State) (a n : Nat) : Nat := leNat (memRead s.mem a n)
/-- Write a little-endian field of memory. -/
def putLe (a n v : Nat) (s : State) : State := { s with mem := memWrite s.mem a (leBytes n v) }

/-- The element of an exact range that starts at window offset `off`: W = c : A and the tag (R107, R110, R225). -/
def exactGet (s : State) (u : NruId) (off : Nat) : ExactAcc :=
  let t := memLe s (nruTagAddr u (off / 40)) 2
  { w := BitVec.ofNat 328 (memLe s (nruAddr u off) 40 + t % 256 * 2 ^ 320), tag := BitVec.ofNat 2 (t / 256) }
/-- Write it. -/
def exactPut (u : NruId) (off : Nat) (a : ExactAcc) (s : State) : State :=
  putLe (nruTagAddr u (off / 40)) 2 (a.w.toNat / 2 ^ 320 + a.tag.toNat * 256)
    (putLe (nruAddr u off) 40 (a.w.toNat % 2 ^ 320) s)

/-- Add one FP32 element into the range element at window offset `off` (R105-R107, R109). -/
def nruAddElem (m : NruMode) (u : NruId) (off : Nat) (x : W32) (s : State) : State × Flags :=
  match m with
  | .plain =>
    let (r, f) := nruPlain (BitVec.ofNat 32 (memLe s (nruAddr u off) 4)) x
    (putLe (nruAddr u off) 4 r.toNat s, f)
  | .compensated =>
    let (hi, lo, f) := nruComp (BitVec.ofNat 32 (memLe s (nruAddr u off) 4))
      (BitVec.ofNat 32 (memLe s (nruAddr u (off + 4)) 4)) x
    (putLe (nruAddr u off) 8 (hi.toNat + lo.toNat * 2 ^ 32) s, f)
  | .exact =>
    let (a, f) := exactAdd (exactGet s u off) x
    (exactPut u off a s, f)

/-- The value a READ converts, and the flags of forming it (R106, R107). -/
def nruValue (m : NruMode) (u : NruId) (off : Nat) (s : State) : Val × Flags :=
  match m with
  | .plain => (f32 (BitVec.ofNat 32 (memLe s (nruAddr u off) 4)), 0)
  | .compensated =>
    let hi : W32 := BitVec.ofNat 32 (memLe s (nruAddr u off) 4)
    if nonFinite32 hi then (f32 hi, 0)
    else
      let (v, _) := sumVal (f32 hi) (f32 (BitVec.ofNat 32 (memLe s (nruAddr u (off + 4)) 4)))
      let (r, f) := toF32 .rne v
      (f32 r, f)
  | .exact => (exactVal (exactGet s u off), 0)

/-- Zero one element: +0, (+0, +0), or zero with tag finite (Table 4.6). -/
def nruZero (m : NruMode) (u : NruId) (off : Nat) (s : State) : State :=
  match m with
  | .exact => exactPut u off ⟨0, 0⟩ s
  | m => putLe (nruAddr u off) (nruB m) 0 s

/-- Every element of an operation lies in a range in force of its mode (R211). -/
def nruCovered (s : State) (u : NruId) (m : NruMode) (off n : Nat) : Bool :=
  (List.range n).all fun i => s.pl.nruRanges.any fun r =>
    r.unit = u && r.mode = m && r.first * nruB m ≤ off + i * nruB m &&
      off + (i + 1) * nruB m ≤ (r.first + r.count) * nruB m

/-- The parts of State that an NRU operation leaves alone. -/
def nruOnly (s s' : State) : State :=
  { s' with cyc := s.cyc, hf := s.hf, tp := s.tp, sp := s.sp, ck := keepCk s s', pwr := s.pwr, tel := s.tel, sec := s.sec,
            log := s.log, fd := s.fd, i3c := s.i3c, coh := s.coh, pending := s.pending }

/-- Accrue flags to the command of the running segment (R109). -/
def accrueUnit (f : Flags) (s : State) : State := { s with pl := { s.pl with uflags := s.pl.uflags ||| f } }

/-- NRU.OPSu counts an applied operation, wrapping modulo 2^64 (R455). -/
def nruCount (u : NruId) (s : State) : State :=
  { s with pl := { s.pl with nruOps := smapSet 0 u.val (smapGet 0 s.pl.nruOps u.val + 1) s.pl.nruOps } }

/-! ## Arrival (R104, R211) -/

/-- TCLK from the arrival of an operation to its application: 40 MCLK (R104). -/
def nruDelay : Nat := 80
/-- First offset and elements of an operation. -/
def nruSpan : NruKind → Nat × Nat
  | .add p | .clear p => (p.off, p.n)
  | .read p => (p.off, p.n)
/-- The tile that sent an operation. -/
def nruSender : NruKind → Tile
  | .add p | .clear p => p.tile
  | .read p => p.tile

/-- The arrival of one operation: one slot per MCLK (NRU_SLOT), ranges (NRU_RANGE); an operation accepted is applied later,
in the mode of the range that holds its first byte (DEDUCED, entry 152). -/
def nruArrive (u : NruId) (k : NruKind) (s : State) : State :=
  let (off, n) := nruSpan k
  let m := nruModeAt s u.val off
  if s.pl.nruSlots.contains (u.val, s.cyc / 2) then
    schedFault eNruSlot (srcOf 3 u.val) s.cyc (nruAddr u off) 0 0 false s
  else
    let s := { s with pl := { s.pl with nruSlots := s.pl.nruSlots ++ [(u.val, s.cyc / 2)] } }
    if !nruCovered s u m off n then schedFault eNruRange (srcOf 3 u.val) s.cyc (nruAddr u off) 0 0 false s
    else { s with pl := { s.pl with nruFlight := s.pl.nruFlight ++ [⟨u, m, s.cyc + nruDelay, k⟩] } }

/-- ADD: FP32 elements into the range, in element order (R104). -/
def execNruAdd (u : NruId) (p : NruPkt) (s : State) : Host.Outcome State Fault Refusal :=
  .next (nruOnly s (nruArrive u (.add p) s))
/-- READ: converts elements to FP32 or BF16 and writes them to local store (R104, R152, R153). -/
def execNruRead (u : NruId) (p : NruRdPkt) (s : State) : Host.Outcome State Fault Refusal :=
  .next (nruOnly s (nruArrive u (.read p) s))
/-- CLEAR: sets elements to zero (Table 4.6). -/
def execNruClear (u : NruId) (p : NruPkt) (s : State) : Host.Outcome State Fault Refusal :=
  .next (nruOnly s (nruArrive u (.clear p) s))

/-! ## Application (R104-R109) -/

/-- NRU_RESIDUE forced at positions of the operation being applied (R113). -/
def nruResidue (u : NruId) (m : NruMode) (off n : Nat) (s : State) : State :=
  let (ks, s) := injEvents eNruResidue (srcOf 3 u.val) (· % 2 ^ 16) (fun p => bitsOf p 15 0 < n) s
  ks.foldl (fun s i => detAbort eNruResidue (srcOf 3 u.val) s.cyc (nruAddr u (off + i * nruB m)) i 0 true s) s

/-- ADD on its elements in order, with the flags. -/
def nruAddAll (u : NruId) (m : NruMode) (p : NruPkt) (s : State) : State :=
  let (s, f) := (List.range p.n).foldl (fun (acc : State × Flags) i =>
    let (s, f) := nruAddElem m u (p.off + i * nruB m) (p.data.getD i 0) acc.1
    (s, acc.2 ||| f)) (s, 0)
  accrueUnit f s
/-- Zero the elements of an operation. -/
def nruZeroAll (u : NruId) (m : NruMode) (off n : Nat) (s : State) : State :=
  (List.range n).foldl (fun s i => nruZero m u (off + i * nruB m) s) s

/-- One converted element of a READ: its code, flags, and whether it is non-finite. -/
def nruConvert (s : State) (u : NruId) (m : NruMode) (p : NruRdPkt) (i : Nat) : Nat × Flags × Bool :=
  let fmt := p.fmt.toNat
  let rnd := rndOf p.rnd.toNat
  let (v, f0) := nruValue m u (p.off + i * nruB m) s
  let r := if rnd = .sr then philoxWord p.seed.toNat (p.base.toNat + p.first + i) 0 else 0
  let (c, f) := convScalar fmt rnd false r v
  (c, f0 ||| f, !v.isFin || codeNonFinite fmt c)
/-- READ: the elements, converted, reach the local store half on each of two TCLK, the first 144 TCLK after the arrival; CLR
clears each element after it is read. -/
def nruReadAll (u : NruId) (m : NruMode) (p : NruRdPkt) (s : State) : State :=
  let d := lsDesc p.ldesc
  let z := shapeOf p.shape
  let w := if p.fmt = 1 then 2 else 4
  let conv := tabulate p.n (nruConvert s u m p)
  let ws := (List.range p.n).flatMap fun i =>
    let c := s.cyc + (144 - nruDelay) + i / (nruEps m / 2)
    let x := (conv.getD i (0, 0, false)).1
    (List.range w).map fun k =>
      (⟨c, c + 1, lsBase p.tile + localOff d z (w * (p.first + i) + k), BitVec.ofNat 8 (x >>> (8 * k)), 0xFF, s.fresh, 1⟩ :
        PendWrite)
  let bad := (List.range p.n).filterMap fun i => if (conv.getD i (0, 0, false)).2.2 then some (i / 32, i) else none
  let (nb, first) := nfSummary bad []
  let s := useFree (addWrites ws s)
  let s := accrueNf p.tile p.issue nb first (accrueUnit (flAll (conv.map (·.2.1))) s)
  if p.clr then nruZeroAll u m p.off p.n s else s

/-- The operation changes the SRAM. -/
def nruWrites : NruKind → Bool
  | .add _ | .clear _ => true
  | .read p => p.clr
/-- The bytes of the SRAM and of the tag array that an operation touches, as (address, length) pairs (R110, R225). -/
def nruTouched (u : NruId) (m : NruMode) (off n : Nat) : List (Nat × Nat) :=
  (nruAddr u off, n * nruB m) :: (if m = .exact then [(nruTagAddr u (off / 40), 2 * n)] else [])

/-- An operation is applied: it sees every earlier one (R104). Errors met by what it reads are reported, and a write settles
the injection points of its lines (R244, R245, R247). -/
def nruApply (s : State) (o : NruOp) : State :=
  let (off, n) := nruSpan o.kind
  let bs := nruTouched o.unit o.mode off n
  let s := match o.kind with
    | .clear _ => s
    | _ => eccTensor (diePort (nruSender o.kind)) (fun l => bs.any fun b => lineHit b.1 b.2 l) s.cyc s
  let s := nruCount o.unit (nruResidue o.unit o.mode off n s)
  let s := match o.kind with
    | .add p => nruAddAll o.unit o.mode p s
    | .read p => nruReadAll o.unit o.mode p s
    | .clear p => nruZeroAll o.unit o.mode p.off p.n s
  if nruWrites o.kind then bs.foldl (fun s b => memTouched b.1 b.2 s) s else s

/-- The operations that are due are applied in order of arrival (R104). -/
def nruTick (s : State) : State :=
  let due := s.pl.nruFlight.filter fun o => o.due ≤ s.cyc
  due.foldl nruApply { s with pl := { s.pl with nruFlight := s.pl.nruFlight.filter fun o => s.cyc < o.due } }

end Sys2Proof.Machine
end

