-- ==== Sys2Proof/Machine/RegMap.lean ====
section
/-! DEFINITION. Which bits of each word of the register map hold a field that the configuration image sets, and which a
software write sets (20_register_map R448, R451, Table 20.1; 16 R395). -/

namespace Sys2Proof.Machine

/-! ## Fields whose Reset is Cfg -/

/-- Of a snapshot port's block (Table 20.7). -/
def spCfgMask (o : Nat) : W32 :=
  if o = 0 then 0xFFFFF800
  else if o = 8 ∨ o = 0x10 then 0xFFFFFFFF
  else if o = 0xC ∨ o = 0x14 then 0x0000FFFF
  else if 0x18 ≤ o ∧ o < 0x38 then 0xFFFFFFFF
  else if o = 0x38 ∨ o = 0x3C ∨ o = 0x40 then 0x00FFFFFF
  else if 0x44 ≤ o ∧ o < 0x50 then 0xFFFFFFFF
  else 0
/-- Of every other word below 0x6_0000. -/
def workCfgMask (off : Nat) : W32 :=
  if 8 ≤ off ∧ off < 0x18 then 0xFFFFFFFF
  else if off = 0x2008 then 0xC0003F00
  else if off = 0x3008 then 0x03FFF03F
  else if off = 0x3010 then 0xFFFFFFFC
  else if off = 0x3014 then 0x000FFFFF
  else if off = 0x11000 then 0x00003FFF
  else if 0x20000 ≤ off ∧ off < 0x20200 then (if off % 8 = 0 then 0xFFFFFFFF else 0xF7FFFFFF)
  else if off = 0x30000 then 0x0007FFFF
  else if 0x50000 ≤ off ∧ off < 0x50080 ∧ off % 16 = 0 then 0x00000071
  else if off = 0x50100 then 0x00FFFFFF
  else 0
/-- The bits of a word that lie in fields whose Reset is Cfg. -/
def cfgMask (off : Nat) : W32 :=
  if off % 4 ≠ 0 then 0
  else if off < 0x60000 then workCfgMask off
  else if off = 0x60000 then 0x0000FFFF
  else if off = 0x60004 then 0xFFFF0000
  else if off = 0x60020 ∨ off = 0x60028 ∨ off = 0x60030 then 0xFFFF0000
  else if off = 0x60024 then 0x000FFFFF
  else if off = 0x6002C ∨ off = 0x60034 then 0x0000FFFF
  else if off = 0x60038 then 0xFFFFFF80
  else if off = 0x6003C then 0xFFFFFFFF
  else if 0x60100 ≤ off ∧ off < 0x60300 then spCfgMask (off % 0x100)
  else if off = 0x70000 ∨ off = 0x70004 then 0xFFFFFFFF
  else if off = 0x7000C then 0x000003FF
  else 0

/-! ## Fields that a software write sets -/

/-- A 64-bit register lies at the offset (Table 20.1). -/
def wideReg (off : Nat) : Bool :=
  off % 8 = 0 &&
  (off = 8 || off = 0x10 || off = 0x1008 || off = 0x2010 || off = 0x2018 || off = 0x3000 || off = 0x3010 ||
   (0x10000 ≤ off && off < 0x11000 && off % 0x40 < 0x18) || (0x20000 ≤ off && off < 0x20400) ||
   (0x40000 ≤ off && off < 0x400C0 && off % 16 = 8) || (0x50000 ≤ off && off < 0x50080 && off % 16 = 8) ||
   (0x60000 ≤ off && off < 0x60040) ||
   (0x60100 ≤ off && off < 0x60300 && 8 ≤ off % 0x100 && off % 0x100 ≤ 0x50 && off % 0x100 ≠ 0x40) ||
   off = 0x70000 || off = 0x80000 || off = 0x90008 || (0x90100 ≤ off && off < 0x90180) || off = 0xF01000)

/-- RW bits of a ring's words; BASE and ADDR straddle bit 32, so only a 64-bit write reaches them (R448). -/
def ringRwMask (wide : Bool) (o : Nat) : W32 :=
  if o = 0 then (if wide then 0xFFFFF000 else 0)
  else if o = 8 then (if wide then 0xFFFFFFC0 else 0)
  else if o = 4 ∨ o = 0xC then (if wide then 0x0000FFFF else 0)
  else if o = 0x18 then 0xFFFF9F1F
  else 0
/-- RW bits of a snapshot port's words other than EN: all but the straddling fields in a 32-bit write. -/
def spRwMask (wide : Bool) (o : Nat) : W32 :=
  if o = 0 then 0x7FFFF800
  else if o = 0x38 ∨ o = 0x3C ∨ o = 0x40 ∨ o = 0x44 then spCfgMask o
  else if wide then spCfgMask o
  else 0
/-- RW bits of the word that a software write sets, in a 32-bit write or in a 64-bit write of its register. -/
def rwMask (wide : Bool) (off : Nat) : W32 :=
  if off = 0x2008 ∨ off = 0x11000 ∨ off = 0x30000 ∨ off = 0x50100 then cfgMask off
  else if 0x10000 ≤ off ∧ off < 0x11000 then ringRwMask wide (off % 0x40)
  else if off = 0x11004 then 0x00001F00
  else if 0x20200 ≤ off ∧ off < 0x20400 then
    (if off % 8 = 0 then (if wide then 0xFFFFFFFF else 0x0FFFFFFF) else (if wide then 0xF7FFFFFF else 0xF0000000))
  else if 0x50000 ≤ off ∧ off < 0x50080 then cfgMask off
  else if off = 0x60000 ∨ off = 0x60004 ∨ off = 0x70000 ∨ off = 0x70004 ∨ off = 0x7000C then cfgMask off
  else if off = 0x60010 then (if wide then 0xFFFFFFC0 else 0)
  else if off = 0x60014 then (if wide then 0xFFFFFFFF else 0xFFF00000)
  else if 0x60020 ≤ off ∧ off < 0x60040 then (if wide then cfgMask off else 0)
  else if 0x60100 ≤ off ∧ off < 0x60300 then spRwMask wide (off % 0x100)
  else if off = 0x80010 then 0x00001FFF
  else if off = 0x90004 then 0xF00FFFFF
  else if 0x90100 ≤ off ∧ off < 0x90180 ∧ 8 ≤ off % 16 then (if wide then 0xFFFFFFFF else 0)
  else if 0xF00000 ≤ off ∧ off < 0xF00200 then
    (if off % 16 = 0 then 0xFFFFFFFC else if off % 16 = 12 then 1 else 0xFFFFFFFF)
  else 0

end Sys2Proof.Machine
end

