-- ==== Sys2Proof/Machine/Modules.lean ====
section
/-! DEFINITION. Cages, pluggable modules and their life records (13_turnpike_links R321-R325). -/

namespace Sys2Proof.Machine

/-! ## Records and their keys (R322) -/

/-- The state of a cage. -/
def cageSt (s : State) (c : Cage) : CageSt := smapGet {} s.tp.cages c.val
/-- Replace it. -/
def setCage (c : Cage) (x : CageSt) (s : State) : State :=
  { s with tp := { s.tp with cages := smapSet {} c.val x s.tp.cages } }
/-- The record of the module in a cage. -/
def lifeMatch (x : CageSt) (r : LifeRec) : Bool := r.oui = x.oui && r.serial = x.serial
/-- The record of the module in a cage, if it has one. -/
def lifeOf (s : State) (c : Cage) : Option LifeRec :=
  if (cageSt s c).present then s.tp.life.find? (lifeMatch (cageSt s c)) else none
/-- Change the record of the module in a cage. -/
def lifeMap (c : Cage) (f : LifeRec → LifeRec) (s : State) : State :=
  { s with tp := { s.tp with life := s.tp.life.map fun r => if lifeMatch (cageSt s c) r then f r else r } }
/-- The even and the odd port of a cage (Table 13.1). -/
def portsOf (c : Cage) : List Port := [portOf (2 * c.val), portOf (2 * c.val + 1)]
/-- All four cages. -/
def allCages : List Cage := List.finRange 4

/-- Records the area of FD holds (R322). -/
def lifeCap : Nat := 4096
/-- The 512 bytes of a record (Table 13.7). -/
def lifeBytes (r : LifeRec) : List Byte :=
  let means := fun (n : Nat) (xs : List (BitVec 16)) => (tabulate n fun i => leBytes 2 (xs.getD i 0).toNat).flatten
  leBytes 3 r.oui.toNat ++ [r.ver] ++ leBytes 16 r.serial.toNat ++ leBytes 16 r.pn.toNat ++ leBytes 8 r.date.toNat ++
  leBytes 4 r.hours.toNat ++ leBytes 4 r.first.toNat ++ leBytes 4 r.last.toNat ++ [r.cage] ++ leBytes 1 r.warn.toNat ++
  zeros 6 ++ (tabulate 16 fun i => leBytes 4 (r.temp.getD i 0).toNat).flatten ++ means 8 r.base ++ means 96 r.trend ++
  leBytes 1 r.tidx ++ zeros 175
/-- A record read back from FD. The sums of the means under way are not in it; a record of at least 168 hours has its BASE, and
one mean for each 720 of its hours (DESIGN CHOICE, entry 173). -/
def lifeParse (bs : List Byte) : LifeRec :=
  let u16 := fun (o i : Nat) => BitVec.ofNat 16 (leField bs (o + 2 * i) 2)
  let hours := leField bs 0x2C 4
  { oui := BitVec.ofNat 24 (leField bs 0 3), ver := BitVec.ofNat 8 (leField bs 3 1),
    serial := BitVec.ofNat 128 (leField bs 4 16), pn := BitVec.ofNat 128 (leField bs 0x14 16),
    date := BitVec.ofNat 64 (leField bs 0x24 8), hours := BitVec.ofNat 32 hours, first := BitVec.ofNat 32 (leField bs 0x30 4),
    last := BitVec.ofNat 32 (leField bs 0x34 4), cage := BitVec.ofNat 8 (leField bs 0x38 1),
    warn := BitVec.ofNat 4 (leField bs 0x39 1), temp := tabulate 16 fun i => BitVec.ofNat 32 (leField bs (0x40 + 4 * i) 4),
    base := if hours < 168 then [] else tabulate 8 (u16 0x80), trend := tabulate 96 (u16 0x90),
    tidx := leField bs 0x150 1, biasSum := List.replicate 8 0, biasN := 0, means := hours / 720 }
/-- Write the records to FD, with the mirror of the powered hours (R323, R383). -/
def lifeToFd (s : State) : State := { s with fd := { s.fd with life := s.tp.life.map lifeBytes, hoursMirror := s.ck.hours } }

/-- Log a module record (R437): INFO0 the OUI, INFO1 the first 8 bytes of the serial number. -/
def modRecord (code : Nat) (c : Cage) (inj : Bool) (s : State) : State :=
  let x := cageSt s c
  report code (srcOf 10 c.val) s.cyc 0 x.oui.toNat (x.serial.toNat % 2 ^ 64) inj false s
/-- Evaluate a module detector and log its record when it fires. -/
def modDetect (code : Nat) (c : Cage) (real : Bool) (s : State) : Bool × State :=
  let (hit, inj, s) := evtDetect code (srcOf 10 c.val) real s
  (hit, if hit then modRecord code c inj s else s)

/-! ## Arrival and removal (R325) -/

/-- A new record. -/
def lifeNew (s : State) (c : Cage) (m : ModuleInfo) : LifeRec :=
  { oui := m.oui, ver := 1, serial := m.serial, pn := m.pn, date := m.date, hours := 0, first := s.ck.hours, last := s.ck.hours,
    cage := BitVec.ofNat 8 c.val, warn := 0, temp := List.replicate 16 0, base := [], trend := List.replicate 96 0,
    tidx := 0, biasSum := List.replicate 8 0, biasN := 0, means := 0 }

/-- The module of a record is in a cage. -/
def inCage (s : State) (r : LifeRec) : Bool := allCages.any fun c => (cageSt s c).present && lifeMatch (cageSt s c) r

/-- The lowest LAST among records whose module is in no cage (R323). -/
def oldestLast (s : State) : Option W32 :=
  (s.tp.life.filter fun r => !inCage s r).foldl
    (fun m r => match m with | none => some r.last | some x => some (if r.last.ult x then r.last else x)) none

/-- Drop the first record with the lowest LAST among those in no cage. -/
def dropOldest (s : State) : List LifeRec :=
  match oldestLast s with
  | none => s.tp.life
  | some x =>
    match s.tp.life.find? (fun r => r.last = x && !inCage s r) with
    | none => s.tp.life
    | some old => s.tp.life.filter fun r => !(r.oui = old.oui && r.serial = old.serial)

/-- Resume or create the record of the module in a cage. -/
def lifeResume (c : Cage) (m : ModuleInfo) (s : State) : State :=
  if (lifeOf s c).isSome then
    lifeMap c (fun r => { r with cage := BitVec.ofNat 8 c.val, last := s.ck.hours }) s
  else
    let old := if s.tp.life.length < lifeCap then s.tp.life else dropOldest s
    { s with tp := { s.tp with life := old ++ [lifeNew s c m] } }

/-- Both ports of a cage go down. -/
def cageDown (c : Cage) (s : State) : State :=
  (portsOf c).foldl (fun s p => if (portSt s p).state = 0 then s else portStop p stDown s) s
/-- Enabled ports of a cage that are down train again. -/
def trainCage (c : Cage) (s : State) : State :=
  (portsOf c).foldl (fun s p =>
    if portEn s p && (portSt s p).state = stDown then setPort p { portSt s p with state := stTraining } s else s) s

/-- MOD_INSERTED: the module is released from reset, identified and recorded; one without the application of R321 leaves both
ports down and stays in low power. -/
def execModInserted (c : Cage) (m : ModuleInfo) (s : State) : Host.Outcome State Fault Refusal :=
  .next (modOnly s (
    if (cageSt s c).present then s
    else
      let s := setCage c { present := true, app := m.app, flat := m.flat, silent := !m.answers, rst := false,
                           lowPower := !(m.app || m.flat), oui := m.oui, serial := m.serial,
                           hiBias := m.hiBias } s
      let s := (modDetect eModInserted c true s).2
      let s := lifeResume c m s
      let s := (modDetect eModCmis c (!m.answers) s).2
      let (noApp, s) := modDetect eModApp c (!m.app && !m.flat) s
      if noApp then cageDown c (setCage c { cageSt s c with app := false, lowPower := true } s) else trainCage c s))

/-- A module leaves its cage: both ports go down, the record is closed and written to FD (R323, R325). -/
def moduleGone (c : Cage) (inj : Bool) (s : State) : State :=
  let s := cageDown c s
  let s := modRecord eModRemoved c inj s
  let s := lifeMap c (fun r => { r with last := s.ck.hours }) s
  lifeToFd (setCage c {} s)

/-- MOD_REMOVED. -/
def execModRemoved (c : Cage) (s : State) : Host.Outcome State Fault Refusal :=
  .next (modOnly s (
    if (cageSt s c).present then
      let (_, inj, s) := evtDetect eModRemoved (srcOf 10 c.val) true s
      moduleGone c inj s
    else s))

/-- MODULE_INTERRUPT: the flags are read; an alarm or warning flag logs MOD_ALARM (R324). -/
def execModuleInterrupt (c : Cage) (flags : W64) (s : State) : Host.Outcome State Fault Refusal :=
  .next (modOnly s (if (cageSt s c).present then (modDetect eModAlarm c (flags ≠ 0) s).2 else s))

/-! ## Lane monitors and powered hours (R321, R322) -/

/-- The TEMP bin of a case temperature (Table 13.7). -/
def tempBin (t : Int) : Nat := if t < 20 then 0 else if 90 ≤ t then 15 else ((t - 15) / 5).toNat
/-- Raise one of sixteen counts. -/
def bumpAt (n : Nat) (xs : List W32) : List W32 := tabulate 16 fun k => let v := xs.getD k 0; if k = n then satAdd v 1 else v

/-- Add one reading to a record. -/
def lifeSample (x : LaneSample) (r : LifeRec) : LifeRec :=
  { r with biasSum := tabulate 8 (fun k => r.biasSum.getD k 0 + (x.bias.getD k 0).toNat), biasN := r.biasN + 1,
           temp := if x.minute then bumpAt (tempBin x.temp) r.temp else r.temp }

/-- One cage's reading: a module that has stopped answering logs MOD_CMIS once; its ports stay up. -/
def pollCage (c : Cage) (x : LaneSample) (s : State) : State :=
  let y := cageSt s c
  if !y.present then s
  else
    let (gone, inj, s) := evtDetect eModRemoved (srcOf 10 c.val) false s
    if gone then moduleGone c inj s
    else
      let s := (modDetect eModCmis c (!x.answers && !y.silent) s).2
      let s := setCage c { y with silent := !x.answers } s
      if x.answers && !y.flat then lifeMap c (lifeSample x) s else s

/-- The second's corrected FEC symbols of one lane: TP_FEC_CE counts them, and a rate above 1 in 10^4 fails the lane (R319,
R326). -/
def fecLane (p : Port) (lane : Nat) (n all : Nat) (s : State) : State :=
  if !portUp s p || n = 0 then s
  else
    let s := report eTpFecCe (srcOf 9 p.val) s.cyc 0 lane n false false s
    if all < 10000 * n then laneFails p lane false s else s
/-- The lanes of a cage: port lane k is module lane k of the even port and k + 4 of the odd one, from 0 (R302). -/
def fecCage (c : Cage) (x : LaneSample) (s : State) : State :=
  (List.range 8).foldl (fun s i =>
    let y := x.fec.getD i (0, 0)
    fecLane (portOf (2 * c.val + i / 4)) (i % 4) y.1 y.2 s) s

/-- LANE_MONITOR_POLL: the reading of each cage in order. -/
def execLaneMonitorPoll (xs : List LaneSample) (s : State) : Host.Outcome State Fault Refusal :=
  .next (modOnly s (allCages.foldl (fun s c => match xs[c.val]? with | some x => pollCage c x (fecCage c x s) | none => s) s))

/-- The means of the readings summed so far. -/
def biasMeans (r : LifeRec) : List (BitVec 16) :=
  tabulate 8 fun k => if r.biasN = 0 then 0 else BitVec.ofNat 16 (r.biasSum.getD k 0 / r.biasN)

/-- One powered hour of a module: BASE after 168 hours, a TREND mean every 720 hours (Table 13.7). -/
def lifeHour (hours : W32) (flat : Bool) (r : LifeRec) : LifeRec :=
  let h := satAdd r.hours 1
  let r := { r with hours := h, last := hours }
  if flat then r
  else
    let r := if h = 168 then { r with base := biasMeans r } else r
    if h.toNat % 720 = 0 then
      let m := biasMeans r
      { r with trend := tabulate 96 (fun i => if i % 12 = r.tidx then m.getD (i / 12) 0 else r.trend.getD i 0),
               tidx := (r.tidx + 1) % 12, means := r.means + 1, biasSum := List.replicate 8 0, biasN := 0 }
    else r

/-- POWERED_HOUR: the always-on counter advances, and with it the hours of every module in a cage. -/
def execPoweredHour (s : State) : Host.Outcome State Fault Refusal :=
  let h := s.ck.hours + 1
  .next (modOnly s (allCages.foldl (fun s c =>
    if (cageSt s c).present then lifeMap c (lifeHour h (cageSt s c).flat) s else s) { s with ck := { s.ck with hours := h } }))

/-! ## Warnings (R324, Table 13.8) -/

/-- The means of a lane, latest last: the last `n` of the ring. -/
def laneMeans (r : LifeRec) (lane n : Nat) : List Nat :=
  tabulate n fun i => (r.trend.getD (12 * lane + (r.tidx + 24 - n + i) % 12) 0).toNat

/-- The least-squares line through six points one period apart reaches `hi` at the sixth point or within two periods of it.
With S = 6 Σxy − Σx Σy the line at x is Σy / 6 + S (2x − 5) / 210. -/
def trendReaches (hi : Nat) (ys : List Nat) : Bool :=
  let sy : Int := ys.foldl (fun (a : Int) (y : Nat) => a + Int.ofNat y) 0
  let sxy : Int := (List.range 6).foldl (fun (a : Int) (i : Nat) => a + Int.ofNat (i * ys.getD i 0)) 0
  let sl := 6 * sxy - 15 * sy
  decide (210 * (hi : Int) ≤ 35 * sy + 9 * sl) || decide (210 * (hi : Int) ≤ 35 * sy + 5 * sl)

/-- The WARN bits that a record meets now, given the hour limit and the module's high-bias threshold. -/
def lifeWarn (limit hi : Nat) (r : LifeRec) : BitVec 4 :=
  let lanes := List.range 8
  let ratio := 0 < r.means && !r.base.isEmpty &&
    lanes.any fun k => 13 * (r.base.getD k 0).toNat < 10 * (laneMeans r k 1).getD 0 0
  let trend := 6 ≤ r.means && lanes.any fun k => trendReaches hi (laneMeans r k 6)
  let all := r.temp.foldl (fun n x => n + x.toNat) 0
  let hot := (r.temp.drop 11).foldl (fun n x => n + x.toNat) 0
  BitVec.ofNat 4 (b2n ratio + 2 * b2n trend + 4 * b2n (decide (limit ≤ r.hours.toNat)) +
    8 * b2n (10080 ≤ all && all < 20 * hot))

/-- The warnings of one cage's module: the first time a bit is set logs MOD_WEAR. -/
def warnCage (c : Cage) (s : State) : State :=
  match lifeOf s c with
  | none => s
  | some r =>
    let w := lifeWarn (bitsOf (reg32 s 0x50100).toNat 23 0) (cageSt s c).hiBias.toNat r
    let fresh := (List.range 4).filter fun b => bitOf w.toNat b && !bitOf r.warn.toNat b
    let s := lifeMap c (fun r => { r with warn := r.warn ||| w }) s
    let s := if fresh.isEmpty then (modDetect eModWear c false s).2 else s
    fresh.foldl (fun s _ => (modDetect eModWear c true s).2) s

/-- LIFE_RECORD_UPDATE: the daily update evaluates the warnings and writes the records to FD. -/
def execLifeRecordUpdate (s : State) : Host.Outcome State Fault Refusal :=
  .next (modOnly s (lifeToFd (allCages.foldl (fun s c => warnCage c s) s)))

end Sys2Proof.Machine
end

