-- ==== Sys2Proof/Machine/Region.lean ====
section
/-! DEFINITION. The region table at a fence, the system windows of HBM and the scrubs (10_memory_system R227-R238,
R246). -/

namespace Sys2Proof.Machine

/-! ## The staged table (R228, R232, R233) -/

/-- An entry lies within one range of Table 10.1, with an owner that the range allows. -/
def rgnEntryOk (e : RgnEnt) : Bool :=
  e.own ≠ 0 && e.size ≠ 0 &&
  ((e.base + e.size ≤ hbmEnd && e.own ≠ 3 && (e.own ≠ 1 || hbmStack e.base = hbmStack (e.base + e.size - 1))) ||
   (lpBase ≤ e.base && e.base + e.size ≤ lpEnd && e.own = 2) ||
   (hostBase ≤ e.base && e.base + e.size ≤ hostEnd && e.own = 3))

/-- The table meets R228. -/
def rgnTableOk (es : List RgnEnt) : Bool :=
  let v := es.filter (·.v)
  v.all rgnEntryOk && allApart (v.map fun e => (e.base, e.base + e.size))

/-- The address is system-owned under a table. A retired entry counts by its OWN field: retirement alone leaves the range in
system ownership, so that it makes no dirty test (DESIGN CHOICE, entry 162). -/
def rgnSystem (es : List RgnEnt) (a : Nat) : Bool := es.any fun e => e.v && e.own = 2 && e.base ≤ a && a < e.base + e.size

/-- The first active system-owned range that would leave system ownership while a snoop filter holds a line of it
(R233). -/
def rgnDirty (s : State) (new : List RgnEnt) : Option RgnEnt :=
  (rgnActive s).find? fun e => e.v && e.own = 2 && s.coh.dir.any fun p =>
    dirUsed p.2 && e.base ≤ p.1 * 64 && p.1 * 64 < e.base + e.size && !rgnSystem new (p.1 * 64)

/-- Write the L3's dirty lines of ranges that leave system ownership to memory, and drop them. -/
def flushL3 (old new : List RgnEnt) (s : State) : State :=
  let gone := s.coh.l3.filter fun p => p.2.valid && rgnSystem old (p.1 * 64) && !rgnSystem new (p.1 * 64)
  gone.foldl (fun s p =>
    let s := setL3 (BitVec.ofNat 46 p.1) {} s
    if p.2.dirty then lineToMem (p.1 * 64) p.2.data (BitVec.allOnes 64) p.2.poison s else s) s

/-- RGN.CTRL with ARM cleared and further bits set by hardware (R9); no retirement is staged any more (RETIRE of Table
17.5). -/
def rgnCtrl (set : Nat) (s : State) : State :=
  edgeNote false 0x20400 (BitVec.ofNat 32 set)
    (setReg32 0x20400 ((reg32 s 0x20400 &&& ~~~w1sBits s 0x20400 1#32) ||| BitVec.ofNat 32 set)
      { s with tel := { s.tel with retire := 0 } })

/-- Apply the staged table, as a whole or not at all (R232, R233). -/
def applyRegions (s : State) : State :=
  let new := rgnStaged s
  if !rgnTableOk new then rgnCtrl 2 s
  else match rgnDirty s new with
    | some e => report eRegionDirty 0 s.cyc e.base 0 0 false false (rgnCtrl 4 s)
    | none =>
      let s := flushL3 (rgnActive s) new s
      rgnCtrl 0 ((List.range 64).foldl (fun s n => setReg64 (0x20000 + 8 * n) (reg64 s (0x20200 + 8 * n)) s) s)

/-- The region table's part of a fence (R190, R232). -/
def fenceRegions (s : State) : State := if bitOf (reg32 s 0x20400).toNat 0 then applyRegions s else s

/-- ARM: the staged table waits for the next fence, or for the next SCLK edge while no image is active (R232). -/
def execArm (s : State) : Host.Outcome State Fault Refusal :=
  .next (edgeNote true 0x20400 1#32 (setReg32 0x20400 (reg32 s 0x20400 ||| 1#32) s))

/-- While no image is active, an armed table is applied on the SCLK edge after ARM was set (R232). -/
def armEdge (s : State) : State :=
  if s.cyc % 4 = 0 && s.pl.active.isNone && bitOf (reg32 s 0x20400).toNat 0 && edgeBits s true 0x20400 &&& 1#32 = 0 then
    applyRegions s
  else s

/-! ## System windows and scrubs (R189, R237, R238, R246) -/

/-- SYSTEM_WINDOW_OPEN: the channel's requests whose positions have come are served, first in, first out (R238). -/
def execSystemWindowOpen (c : Chan) (s : State) : Host.Outcome State Fault Refusal :=
  .next (memOnly s (hbmOpen c.val s))

/-- One scrub read of a line: a corrected line is written back, an uncorrectable one is poisoned in place. -/
def scrubLine (l : Nat) (s : State) : State :=
  if s.coh.flips.any (fun e => e.line = l && (memCodes (l * 64)).contains e.code.toNat) then
    let (ue, s) := eccSys 0 l (memCodes (l * 64)) s
    let s := dropFlips l (memCodes (l * 64)) s
    if ue then setPoison l true s else memWrote l s
  else s

/-- Lines of one HBM channel and of one LPDDR5X stack (R225). -/
def hbmChanLines : Nat := 0x900000000 / 1024
def lpStackLines : Nat := 0x1000000000 / 64
/-- Line n of an HBM channel, and line n of an LPDDR5X stack. -/
def hbmChanLine (c n : Nat) : Nat := (c / 16 * 0x900000000 + (n * 16 + c % 16) * 64) / 64
def lpStackLine (k n : Nat) : Nat := (lpBase + (n / 64 * 12 + k) * 4096 + n % 64 * 64) / 64

/-- PATROL_SCRUB: one line of each HBM channel in each frame. -/
def execPatrolScrub (s : State) : Host.Outcome State Fault Refusal :=
  let n := s.coh.scrub
  let s := (List.range 192).foldl (fun s c => scrubLine (hbmChanLine c n) s) s
  .next (memOnly s { s with coh := { s.coh with scrub := (n + 1) % hbmChanLines } })

/-- LPDDR5X_SCRUB: one line of each LPDDR5X channel, four to a stack, every 4,096 MCLK. -/
def execLpddr5xScrub (s : State) : Host.Outcome State Fault Refusal :=
  let n := s.coh.lpScrub
  let s := (List.range 12).foldl (fun s k => (List.range 4).foldl (fun s j => scrubLine (lpStackLine k (4 * n + j)) s) s) s
  .next (memOnly s { s with coh := { s.coh with lpScrub := (n + 1) % (lpStackLines / 4) } })

end Sys2Proof.Machine
end

