-- ==== Sys2Proof/Machine/Errors.lean ====
section
/-! DEFINITION. The log writer, the two logs, Rolmir's retirement policy and the injection slots (19, R248). -/

namespace Sys2Proof.Machine

/-! ## Classes -/

/-- Rank of a class when a full log makes room: COR, SCH, DET, FAT (R439). -/
def classRank (code : Nat) : Nat :=
  match codeClass code with
  | 1 => 0 | 3 => 1 | 2 => 2 | _ => 3
/-- Vector enable bit and vector number of a class in ERR.VEC (Table 19.8). -/
def classVec (s : State) (code : Nat) : Bool × BitVec 5 :=
  let v := (reg32 s 0x90004).toNat
  match codeClass code with
  | 1 => (bitOf v 28, BitVec.ofNat 5 (bitsOf v 4 0))
  | 2 => (bitOf v 29, BitVec.ofNat 5 (bitsOf v 9 5))
  | 3 => (bitOf v 30, BitVec.ofNat 5 (bitsOf v 14 10))
  | _ => (bitOf v 31, BitVec.ofNat 5 (bitsOf v 19 15))

/-- Records the volatile log holds. -/
def logCap : Nat := 4096
/-- Records the persistent log holds (R441). -/
def plogCap : Nat := 16384

/-- Put a record into the volatile log; a full log replaces the oldest record of its lowest class, or drops the new one
when that class is above the new record's (R439). -/
def logInsert (r : Rec) (l : ErrLog) : ErrLog :=
  if l.recs.length < logCap then { l with recs := l.recs ++ [r] }
  else
    let low := l.recs.foldl (fun m x => min m (classRank x.code.toNat)) 3
    if low ≤ classRank r.code.toNat then
      match l.recs.find? (fun x => classRank x.code.toNat = low) with
      | some old => { l with recs := l.recs.filter (fun x => x.seq ≠ old.seq) ++ [r] }
      | none => l
    else { l with lost := satAdd l.lost 1 }

/-- Copy a record into the circular persistent log (R441). -/
def plogPut (r : Rec) (l : List Rec) : List Rec := if l.length < plogCap then l ++ [r] else l.drop 1 ++ [r]

/-- The held record that a COR record merges into (R440). -/
def mergesWith (s : State) (d : Detect) (x : Rec) : Bool :=
  x.code = d.code && x.src = d.src && x.addr.toNat / 0x200000 = d.addr.toNat / 0x200000 && s.tel.logSeq.toNat < x.seq.toNat

/-! ## Retirement (R248) -/

/-- The two-MiB granule of an address. -/
def granule (a : Nat) : Nat := a / 0x200000
/-- 24 hours in TCLK, at 2.25 GHz (Table 0.3). -/
def dayTclk : Nat := 24 * 3600 * 2250000000
/-- A corrected error of HBM or LPDDR5X. -/
def memCe (c : Nat) : Bool := c = eHbmCe || c = eLpCe || c = eHbmOdecc || c = eLpLink
/-- Count a corrected error against its granule, and forget those older than 24 hours (R248). -/
def noteCe (d : Detect) (s : State) : State :=
  if memCe d.code.toNat then
    let new := (s.log.ces.filter fun x => d.tcyc.toNat < x.cycle + dayTclk) ++ [⟨granule d.addr.toNat, d.tcyc.toNat⟩]
    { s with log := { s.log with ces := new } }
  else s
/-- The granule meets Rolmir's policy: an uncorrectable error, or more than 64 corrected ones within 24 hours. -/
def retires (s : State) (d : Detect) : Bool :=
  let c := d.code.toNat
  c = eHbmUe || c = eLpUe || (memCe c && 64 < (s.log.ces.filter fun x => x.granule = granule d.addr.toNat).length)

/-- The 64 bits of an entry of Table 10.3. -/
def rgnBits (e : RgnEnt) : Nat :=
  b2n e.v * 2 ^ 63 + e.own * 2 ^ 61 + b2n e.ret * 2 ^ 60 + e.base / 0x200000 * 2 ^ 28 + e.size / 0x200000

/-- A table with the granule of its entry split off and retired (R249); none when nothing changes or no entry is left. -/
def retireIn (es : List RgnEnt) (a : Nat) : Option (List RgnEnt) :=
  let g := granule a * 0x200000
  match es.find? (fun e => e.v && e.base ≤ g && g < e.base + e.size) with
  | none => none
  | some e =>
    if e.ret then none
    else
      let parts : List RgnEnt := [{ e with size := g - e.base }, { e with base := g, size := 0x200000, ret := true },
                    { e with base := g + 0x200000, size := e.base + e.size - (g + 0x200000) }].filter fun p => p.size ≠ 0
      let new : List RgnEnt := (es.filter fun x => x.v && x ≠ e) ++ parts
      if 64 < new.length then none
      else some (new ++ List.replicate (64 - new.length) ⟨false, 0, false, 0, 0⟩)

/-- Rolmir stages the retirement of an address's granule for the next fence, on the armed staged table or else on the
active one, and counts it for telemetry. -/
def stageRetire (a : Nat) (s : State) : State :=
  let armed := bitOf (reg32 s 0x20400).toNat 0
  match retireIn (if armed then rgnStaged s else rgnActive s) a with
  | none => s
  | some es =>
    let s := (List.range 64).foldl (fun s n => setReg64 (0x20200 + 8 * n) (rgnBits (es.getD n ⟨false, 0, false, 0, 0⟩)) s) s
    let s := { s with tel := { s.tel with retire := satAdd s.tel.retire 1 } }
    edgeNote true 0x20400 1#32 (setReg32 0x20400 (reg32 s 0x20400 ||| 1#32) s)

/-! ## The log writer (R438-R442) -/

/-- A class vector is raised for the record: class enabled, link up, and for COR not yet in the telemetry interval. -/
def recRaises (s : State) (code : Nat) : Bool :=
  (classVec s code).1 && s.hf.linkUp && !(codeClass code = 1 && s.tel.corRaised)
/-- Raise it. -/
def recRaise (code : Nat) (s : State) : State :=
  if recRaises s code then
    let s := if codeClass code = 1 then { s with tel := { s.tel with corRaised := true } } else s
    raiseVec (classVec s code).2 s
  else s

/-- The record of a detection, with its SEQ. -/
def recOf (s : State) (d : Detect) (rebuilt : Bool) : Rec :=
  { code := d.code, src := d.src, seq := s.log.seq + 1, tcyc := d.tcyc, addr := d.addr, info0 := d.info0, info1 := d.info1,
    count := 1,
    flags := BitVec.ofNat 4 (b2n d.inj + 2 * b2n rebuilt + 4 * b2n d.pod + 8 * b2n (recRaises s d.code.toNat)),
    step := d.step, hours := s.ck.hours }

/-- Log a new record: volatile log, persistent log for DET, SCH and FAT, vector, retirement. -/
def logNew (d : Detect) (r : Rec) (s : State) : State :=
  let s := { s with log := { logInsert r s.log with seq := r.seq } }
  let s := if codeClass d.code.toNat = 1 then s else { s with fd := { s.fd with plog := plogPut r s.fd.plog } }
  let s := noteCe d (recRaise d.code.toNat s)
  if retires s d then stageRetire d.addr.toNat s else s

/-- Log one detection. -/
def logRecord (d : Detect) (s : State) : State :=
  if codeClass d.code.toNat = 1 ∧ s.log.recs.any (mergesWith s d) then
    let bump := fun (x : Rec) => if mergesWith s d x then { x with count := satAdd x.count 1 } else x
    let s := noteCe d (recRaise d.code.toNat { s with log := { s.log with recs := s.log.recs.map bump } })
    if retires s d then stageRetire d.addr.toNat s else s
  else logNew d (recOf s d false) s

/-- A detection comes before another: ascending edge, CODE, SRC (R438). -/
def detectBefore (a b : Nat × Detect) : Bool :=
  a.1 < b.1 || (a.1 = b.1 && (a.2.code.toNat < b.2.code.toNat || (a.2.code = b.2.code && a.2.src.toNat < b.2.src.toNat)))
/-- Insert in that order. -/
def detectPut (x : Nat × Detect) : List (Nat × Detect) → List (Nat × Detect)
  | [] => [x]
  | y :: r => if detectBefore x y then x :: y :: r else y :: detectPut x r
/-- The detections of an agenda due by cycle `c`, in the order in which they are logged. -/
def detectsDue (c : Nat) (ag : List (Nat × Instr)) : List (Nat × Detect) :=
  ag.foldl (fun acc x => match x.2 with
    | .errorRecordLog r => if x.1 ≤ c then detectPut (x.1, r) acc else acc
    | _ => acc) []
/-- The log writer logs every record detected so far. -/
def flushRecords (s : State) : State :=
  ((detectsDue (sclkAfter s.cyc) s.agenda).filter fun x => !x.2.late).foldl (fun s x => logRecord x.2 s)
    { s with agenda := s.agenda.filter fun x => match x.2 with | .errorRecordLog _ => sclkAfter s.cyc < x.1 | _ => true }

/-- ERROR_RECORD_LOG: the log writer logs a record; a check that fails on this cycle sends its record on and aborts the
step (R362, R438). -/
def execErrorRecordLog (r : Detect) (s : State) : Host.Outcome State Fault Refusal :=
  .next (if r.late then abortOn r s else logOnly s (logRecord r s))

/-- FAULT to the set; none leaves a package in bring-up, whose ports are not up (R444). -/
def faultToken (code : Nat) (s : State) : State :=
  if s.ck.inReset then s else sendBeforeReset (post (.token 0x0109 none (myToken s (stepInFlight s) code)) s)
/-- A FAT record whose rule applies a reset: it is logged and copied before the reset, and FAULT is broadcast first
(R441, R444). -/
def fatalNow (code src addr i0 : Nat) (inj : Bool) (s : State) : State :=
  let s := faultToken code s
  logRecord (detect s code src s.cyc addr i0 0 inj true) s

/-- CLR: the volatile log is emptied. -/
def execClr (s : State) : Host.Outcome State Fault Refusal := .next { s with log := { s.log with recs := [] } }
/-- PCLR: the persistent log is emptied. -/
def execPclr (s : State) : Host.Outcome State Fault Refusal := .next { s with fd := { s.fd with plog := [] } }

/-! ## Injection slots (R445, R446) -/

/-- FAT and SEC_ codes need debug level 2 (R446). -/
def injGuarded (c : Nat) : Bool := codeClass c = 4 || c = eSecUnlock || (eSecFwBad ≤ c && c ≤ eSecToken)
/-- MODE as a write leaves it. -/
def injMode (s : State) (v : Nat) : Nat :=
  let mode := bitsOf v 63 62
  let code := bitsOf v 15 0
  let kind := bitsOf v 31 28
  if mode = 3 ∨ !codeKnown code ∨ !(srcKinds code).contains kind ∨ (injGuarded code ∧ s.sec.level.toNat < 2) then 0 else mode

/-- Firings of slot n on the present SCLK edge. -/
def firedNow (s : State) (n : Nat) : Nat :=
  (s.ck.edges.filter fun e => e.edge = sclkEdge s && e.off = injCtl n + 4 && !e.sw && e.bits.getLsbD 29).length
/-- INJECTION_SLOT_WRITE: a 64-bit write of ERR.INJCTLn; COUNT restarts, and a firing on the edge of the write counts (R445);
FIRED is write-one-to-clear (R9). A MODE written over one in force stands against a firing on the same edge. -/
def execInjectionSlotWrite (n : Fin 8) (v : W64) (s : State) : Host.Outcome State Fault Refusal :=
  let old := reg64 s (injCtl n.val)
  let x := v.toNat
  let fired := bitOf old 61 && !(w1cBits s (injCtl n.val + 4) (BitVec.ofNat 32 (x / 2 ^ 32))).getLsbD 29
  let note := fun (s : State) => if bitsOf old 63 62 = 0 then s else edgeNote true (injCtl n.val + 4) 0xC0000000#32 s
  .next (note (setReg64 (injCtl n.val)
    (injMode s x * 2 ^ 62 + b2n fired * 2 ^ 61 + bitsOf x 59 48 * 2 ^ 48 + min 0xFFFF (firedNow s n.val) * 2 ^ 32 + x % 2 ^ 32) s))

end Sys2Proof.Machine
end

