-- ==== Sys2Proof/Machine/Rings.lean ====
section
/-! DEFINITION. The command rings, descriptors, Waymarks, the loss of the host and the park (12_host_interface). -/

namespace Sys2Proof.Machine

/-! ## Ring registers and status records (R278-R280) -/

/-- A ring's running state. -/
def ring (s : State) (r : Ring) : RingSt := smapGet {} s.hf.rings r.val
/-- Replace it. -/
def setRing (r : Ring) (x : RingSt) (s : State) : State :=
  { s with hf := { s.hf with rings := smapSet {} r.val x s.hf.rings } }
/-- Ring number from a Nat. -/
def ringOf (n : Nat) : Ring := ⟨n % 64, by omega⟩
/-- BAR0 offset of ring n's registers (Table 20.1). -/
def ringReg (r : Ring) : Nat := 0x10000 + 0x40 * r.val
/-- HOST.RBASEn.BASE × 4,096. -/
def ringBase (s : State) (r : Ring) : Nat := bitsOf (reg64 s (ringReg r)) 47 12 * 4096
/-- HOST.RSTATn.ADDR × 64. -/
def ringStat (s : State) (r : Ring) : Nat := bitsOf (reg64 s (ringReg r + 8)) 47 6 * 64
/-- HOST.RCFGn. -/
def ringCfg (s : State) (r : Ring) : Nat := (reg32 s (ringReg r + 0x18)).toNat
/-- SIZE: log2 of the slot count. -/
def ringSize (s : State) (r : Ring) : Nat := bitsOf (ringCfg s r) 12 8
/-- The slot count. -/
def ringSlots (s : State) (r : Ring) : Nat := 2 ^ ringSize s r
/-- SCHED. -/
def ringSched (s : State) (r : Ring) : Bool := bitOf (ringCfg s r) 15
/-- VEC. -/
def ringVec (s : State) (r : Ring) : BitVec 5 := BitVec.ofNat 5 (ringCfg s r)
/-- MAXINFL; 0 means 65,536. -/
def ringMax (s : State) (r : Ring) : Nat := let m := bitsOf (ringCfg s r) 31 16; if m = 0 then 65536 else m
/-- Accepted commands of a ring that are not final. -/
def inflight (s : State) (r : Ring) : Nat := (s.hf.cmds.filter fun c => c.desc.ring = r).length

/-- The 16 bytes of a ring status record (R280). -/
def statusBytes (x : RingSt) (st infl : Nat) (seq : BitVec 16) : List Byte :=
  leBytes 4 x.c.toNat ++ leBytes 2 x.haltCode.toNat ++ leBytes 1 st ++ [0] ++ leBytes 4 infl ++ leBytes 2 seq.toNat ++ [0, 0]
/-- STATE of the record. -/
def ringStateCode (x : RingSt) : Nat := if x.torn then 3 else if x.halted then 2 else 1

/-- Write the ring's status record; while the hold timer runs its request waits in its order for the link (R280, R298). -/
def writeStatus (r : Ring) (s : State) : State :=
  let x := ring s r
  if s.hf.linkUp || s.hf.hold then
    let q := x.seq + 1
    let s := setRing r { x with seq := q, lastCons := x.c } s
    sysStore dmaPort (hostBase + ringStat s r) (statusBytes x (ringStateCode x) (inflight s r) q) s
  else s

/-- A ring halts: HALTED, HALT_CODE, status record, vector (R281, R285, R294). -/
def haltRing (r : Ring) (code : Nat) (s : State) : State :=
  let s := setRing r { ring s r with halted := true, haltCode := BitVec.ofNat 16 code } s
  raiseVec (ringVec s r) (writeStatus r s)

/-! ## Doorbells (R281, R297) -/

/-- DOORBELL: D is the stamp of the first slot not yet filled; differences are modulo 2^32. -/
def execDoorbell (r : Ring) (v : W32) (s : State) : Host.Outcome State Fault Refusal :=
  let x := ring s r
  let older := (x.a - v).toNat
  .next (hostOnly s (
    if !x.en || x.halted then s
    else if 1 ≤ older ∧ older ≤ 0x80000000 then s
    else if ringSlots s r < (v - x.c).toNat then haltRing r rDoorbellRange s
    else setRing r { x with a := v, hwm := BitVec.ofNat 17 (max x.hwm.toNat (v - x.c).toNat) } s))

/-! ## Descriptors (R283-R285) -/

/-- Slots of a descriptor by its SIZE byte; a reserved SIZE counts as one slot. -/
def slotsOf (size : Nat) : Nat := if size = 1 then 2 else if size = 2 then 4 else 1
/-- CRC-32C of a descriptor with bytes 0x0C to 0x0F taken as zero (R283). -/
def descCrc (bs : List Byte) : Nat := (crc32c (patch bs 0x0C (zeros 4))).toNat
/-- Read a descriptor (Table 12.3). -/
def descOf (r : Ring) (bs : List Byte) : Desc :=
  let q := fun o => BitVec.ofNat 64 (leField bs o 8)
  { ring := r, opc := bs.getD 0 0, size := bs.getD 1 0, tag := BitVec.ofNat 16 (leField bs 2 2),
    stamp := BitVec.ofNat 32 (leField bs 4 4), flags := BitVec.ofNat 32 (leField bs 8 4), wmk := q 0x10, a0 := q 0x18,
    a1 := q 0x20, a2 := q 0x28, a3 := q 0x30, a4 := q 0x38, payload := bs.drop 0x40 }

/-- The progress granule is a multiple of 65,536 in 32 bits. -/
def granuleOk (d : Desc) : Bool := d.a3.toNat < 2 ^ 32 && d.a3.toNat % 65536 = 0
/-- The arguments are in range, and unused ones are 0 (R284, R285, R356, R375, Table 12.4). -/
def argsOk (d : Desc) : Bool :=
  let n := d.opc.toNat
  (n = 5 || d.size = 0) &&
  (if n = 0 then d.a0 = 0 && d.a1 = 0 && d.a2 = 0 && d.a3 = 0 && d.a4 = 0
  else if n = 1 then d.a0.toNat < 4096 && d.a2 = 0 && d.a3 = 0 && d.a4 = 0
  else if n = 2 then d.a0.toNat % 64 = 0 && d.a2 = 0 && d.a3 = 0 && d.a4 = 0
  else if n = 3 || n = 4 then 1 ≤ d.a2.toNat && d.a2.toNat ≤ 2 ^ 40 && granuleOk d && d.a4 = 0
  else if n = 5 then
    (d.size = 1 || d.size = 2) && 1 ≤ d.a1.toNat && d.a1.toNat ≤ (if d.size = 1 then 64 else 192) && d.a2 = 0 &&
      d.a3 = 0 && d.a4 = 0
  else if n = 6 then
    1 ≤ d.a0.toNat && d.a0.toNat ≤ 4 && d.a1.toNat < 2 ^ 48 && d.a2 = 0 && d.a3 = 0 && d.a4 = 0
  else if n = 7 then
    let op := d.a0.toNat % 256
    d.a0.toNat < 512 && 1 ≤ op && op ≤ 3 && d.a4 = 0 && (op = 2 || d.a3 = 0) &&
      (op ≠ 1 || d.a1.toNat % 64 = 0) && (op ≠ 3 || (d.a1 = 0 && d.a2 = 0))
  else if n = 8 then d.a0.toNat < 16 && d.a3 = 0 && d.a4 = 0
  else if n = 9 then d.a1 = 0 && d.a2 = 0 && d.a3 = 0 && d.a4 = 0
  else d.a0.toNat ≤ 4 && d.a2.toNat % 64 = 0 && d.a3 = 0 && d.a4 = 0)

/-- The code that refuses a descriptor that is not stale; none when it is accepted (R285). -/
def descRefusal (s : State) (r : Ring) (d : Desc) (pastEnd : Bool) : Option Nat :=
  if 0x0A < d.opc.toNat ∨ 2 < d.size.toNat ∨ 8 ≤ d.flags.toNat then some rDescOpcode
  else if pastEnd ∨ !argsOk d then some rDescMalformed
  else if schedClass d.opc ∧ !ringSched s r then some rDescRing
  else if (findCmd s d.tag).isSome then some rTagInUse
  else none

/-- The Waymark address can report (R285). -/
def wmkOk (s : State) (d : Desc) : Bool := d.wmk.toNat % 32 = 0 && hostOk s d.wmk.toNat 32

/-- C passes `n` slots; the status record follows when C has gained a quarter of the ring or reached A (R280). -/
def advanceC (r : Ring) (n : Nat) (s : State) : State :=
  let x := ring s r
  let x := { x with c := x.c + BitVec.ofNat 32 n }
  let s := setRing r x s
  if 2 ^ (ringSize s r - 2) ≤ (x.c - x.lastCons).toNat ∨ x.c = x.a then writeStatus r s else s

/-- A descriptor is accepted: it waits, reports queued when it asked for progress, and starts when it may; a NOP is final at once
(R284-R289). -/
def acceptDesc (d : Desc) (s : State) : State :=
  if d.opc = 0 then schedNow (.nopCommand d) s
  else startCmds (progMark d 1 0 { s with hf := { s.hf with cmds := s.hf.cmds ++ [{ desc := d, started := false, seq := 0 }] } })

/-- The outcome of looking at the slot of stamp C. -/
inductive SlotAns where
  | wait
  | stale
  | halt
  | refuse (code : Nat) (d : Desc) (n : Nat)
  | take (d : Desc) (n : Nat)
  deriving DecidableEq, Repr

/-- Host address of the slot of stamp C in the host window. -/
def slotAddr (s : State) (r : Ring) : Nat := hostBase + ringBase s r + 64 * ((ring s r).c.toNat % ringSlots s r)
/-- Look at the descriptor whose first slot has stamp C, `room` slots of the fetch being left (R282, R283, R285, R294). -/
def lookSlot (r : Ring) (room : Nat) (s : State) : SlotAns :=
  let x := ring s r
  let idx := x.c.toNat % ringSlots s r
  let a := slotAddr s r
  let head := readBytes s a 64
  let size := leField head 1 1
  let n := slotsOf size
  let have_ := (x.a - x.c).toNat
  let pastEnd := ringSlots s r < idx + n
  if leField head 4 4 ≠ x.c.toNat then .stale
  else if have_ < n ∨ room < n then .wait
  else
    let bs := if pastEnd then head else readBytes s a (64 * n)
    if !pastEnd ∧ descCrc bs ≠ leField bs 0x0C 4 then .stale
    else
      let d := descOf r bs
      if d.opc ≠ 0 ∧ !wmkOk s d then .halt
      else match descRefusal s r d pastEnd with
        | some code => .refuse code d n
        | none => .take d n

/-- The ring's fetch is stopped by a limit (R296, R297). -/
def fetchLimited (s : State) (r : Ring) : Bool := ringMax s r ≤ inflight s r || 65536 ≤ s.hf.cmds.length
/-- The ring may fetch. -/
def mayFetch (s : State) (r : Ring) : Bool :=
  let x := ring s r
  x.en && !x.halted && x.a ≠ x.c && !fetchLimited s r && s.hf.linkUp && s.ck.ready

/-- A ring halts on a stale descriptor: RING_STALE names the ring and the stamp (R294). -/
def staleHalt (r : Ring) (inj : Bool) (s : State) : State :=
  let x := ring s r
  haltRing r rStaleDescriptor
    (report eRingStale (srcOf 12 r.val) s.cyc 0 x.c.toNat 0 inj false (setRing r { x with refetch := 0 } s))

/-- Take one look at the front slot, `room` slots of the fetch being left: answers whether the ring may go on to the next. -/
def fetchOne (r : Ring) (room : Nat) (s : State) : Bool × State :=
  match lookSlot r room s with
  | .wait => (false, s)
  | .stale =>
    let x := ring s r
    let (dead, inj, s) := evtDetect eRingStale (srcOf 12 r.val) (32 ≤ x.refetch) s
    (false, if dead then staleHalt r inj s else setRing r { x with refetch := x.refetch + 1 } s)
  | .halt => (false, haltRing r rDescWaymark s)
  | .refuse code d n =>
    let s := advanceC r n (setRing r { ring s r with refetch := 0 } s)
    (true, if d.opc = 0 then s else schedNow (.waymark (finalMark d 1 code 0 0 s.cyc 0 0)) s)
  | .take d n => (true, advanceC r n (acceptDesc d (setRing r { ring s r with refetch := 0 } s)))

/-- The descriptors within the 8 slots of one fetch, from stamp `k` on (R282). -/
def fetchLoop (r : Ring) (k : W32) : Nat → State → State
  | 0, s => s
  | fuel + 1, s =>
    if !mayFetch s r || 8 ≤ ((ring s r).c - k).toNat then s
    else
      let (go, s) := fetchOne r (8 - ((ring s r).c - k).toNat) s
      if go then fetchLoop r k fuel s else s
/-- The slots that one fetch asks for: up to 8 consecutive ones, not beyond A or the ring's end (R282). -/
def fetchSpan (s : State) (r : Ring) : Nat :=
  let x := ring s r
  min (min 8 (x.a - x.c).toNat) (ringSlots s r - x.c.toNat % ringSlots s r)
/-- One fetch of a ring: its slots are read by Peeks, and looked at in order; while a line of them is busy the fetch waits (R256,
R277). -/
def fetchRing (r : Ring) (s : State) : State :=
  let a := slotAddr s r
  let n := 64 * fetchSpan s r
  if !mayFetch s r then s
  else if !rangesFree s [(a, n)] then
    sched (s.cyc + 1) (if (ring s r).refetch = 0 then .descriptorFetch r [] else .staleRefetch r []) s
  else fetchLoop r (ring s r).c 8 (askCurrs a n s)

/-- The schedule ring. -/
def schedRing (s : State) : Option Ring := (List.finRange 64).find? fun r => (ring s r).en && ringSched s r
/-- The rings that the arbiter serves when ring `r` asks, in order: the schedule ring, then the others in round-robin order from
the one served last to `r` (R296). -/
def turnsTo (s : State) (r : Ring) : List Ring :=
  let k := s.hf.rr.val
  let first := schedRing s
  let others := tabulate ((r.val + 63 - k) % 64 + 1) fun i => ringOf (k + 1 + i)
  let ready := fun (q : Ring) => (ring s q).refetch = 0 && mayFetch s q
  (first.toList.filter ready) ++ (if first = some r then [] else others.filter fun q => some q ≠ first && (q = r || ready q))
/-- The rings of one ring's turn and those before it are served, up to 8 slots each (R296). -/
def arbitrate (r : Ring) (s : State) : State :=
  if !mayFetch s r then s
  else
    let s := (turnsTo s r).foldl (fun s q => fetchRing q s) s
    if schedRing s = some r then s else { s with hf := { s.hf with rr := r } }

/-- The host's own stores, as a fetch sees them. -/
def hostStores (vis : List HostStore) (s : State) : State :=
  vis.foldl (fun s v => if v.addr + v.bytes.length ≤ 2 ^ 48 then memPut (hostBase + v.addr) v.bytes s else s) s

/-- DESCRIPTOR_FETCH: a ring asks for its turn; fetched slots are checked and their descriptors accepted, refused, or found
stale. -/
def execDescriptorFetch (r : Ring) (vis : List HostStore) (s : State) : Host.Outcome State Fault Refusal :=
  let s := hostStores vis s
  .next (hostOnly s (if (ring s r).refetch = 0 then arbitrate r s else s))

/-- STALE_REFETCH: the same slots are fetched again; the 32nd stale refetch halts the ring (R294). -/
def execStaleRefetch (r : Ring) (vis : List HostStore) (s : State) : Host.Outcome State Fault Refusal :=
  let s := hostStores vis s
  .next (hostOnly s (if (ring s r).refetch = 0 then s else fetchRing r s))

/-! ## Waymarks (R289, R292, R300) -/

/-- The 32 bytes of a Waymark (Table 12.5). -/
def markBytes (w : WaymarkReq) (state prior : BitVec 4) : List Byte :=
  leBytes 2 w.desc.tag.toNat ++ leBytes 2 w.seq.toNat ++ [BitVec.ofNat 8 (state.toNat + 16 * prior.toNat)] ++
  [BitVec.ofNat 8 w.flags.toNat] ++ leBytes 2 w.err.toNat ++ leBytes 6 w.vt.toNat ++ [0, 0] ++ leBytes 8 w.cyc.toNat ++
  leBytes 4 w.nfb.toNat ++ leBytes 4 w.nfi.toNat
/-- A final state. -/
def markFinal (w : WaymarkReq) : Bool := w.state = 4 || w.state = 5
/-- One orphan-log entry: the Waymark as orphaned, its address, the stamp and the ring (R300). -/
def orphanBytes (o : Orphan) : List Byte :=
  let w := o.mark
  markBytes w 6 w.state ++ leBytes 8 w.desc.wmk.toNat ++ leBytes 4 w.desc.stamp.toNat ++ leBytes 1 w.desc.ring.val ++ zeros 3

/-- A final Waymark that cannot be delivered goes to the orphan log: 48 bytes of the reserved LPDDR5X range (R300). -/
def orphan (w : WaymarkReq) (s : State) : State :=
  let a := orphanBase + 48 * s.hf.orphans.length
  sysStore dmaPort a (orphanBytes ⟨w⟩) { s with hf := { s.hf with orphans := s.hf.orphans ++ [⟨w⟩] } }
/-- The record is written by one Merge, after the completion of the record before it (R289). Every write of the command's data
has completed by then; the zero-length read puts the Waymark behind posted writes too. DESIGN CHOICE (entry 166): its completion
comes at once (R292). -/
def writeMark (w : WaymarkReq) (s : State) : State :=
  let a := w.desc.wmk.toNat % 2 ^ 48
  let s := if w.vt ≠ 0 || markFinal w then emit (.ioRead a) s else s
  let (ns, s) := storeReqs dmaPort (hostBase + a) (markBytes w w.state 0) false s
  let open_ := s.hf.heldMarks.filter fun x => reqOpen s x.no
  { s with hf := { s.hf with heldMarks := open_ ++ ns.map fun n => ⟨w, n.1⟩ } }
/-- Deliver a Waymark, hold it while the hold timer runs, or log a final one as orphaned (R298). -/
def deliverMark (w : WaymarkReq) (s : State) : State :=
  if s.hf.linkUp then writeMark w s
  else if s.hf.hold then sched (s.cyc + 1) (.waymark w) s
  else if markFinal w then orphan w s
  else s

/-- A torn-down ring whose last command is final shows INFLIGHT 0 (R301). -/
def tornStatus (r : Ring) (s : State) : State :=
  if (ring s r).torn && inflight s r = 0 then writeStatus r s else s

/-- WAYMARK: the record is written to host memory; a torn-down ring's status follows its last command. -/
def execWaymark (w : WaymarkReq) (s : State) : Host.Outcome State Fault Refusal :=
  let u := deliverMark w s
  .next (hostOnly s (if markFinal w && !s.hf.hold then tornStatus w.desc.ring u else u))

/-! ## Set-up and tear-down (R278, R280, R286, R301) -/

/-- The ring's addresses, size and SCHED allow its enabling. -/
def ringAllowed (s : State) (r : Ring) : Bool :=
  6 ≤ ringSize s r && ringSize s r ≤ 16 && hostOk s (ringBase s r) (64 * ringSlots s r) && hostOk s (ringStat s r) 16 &&
  !(ringSched s r && (List.finRange 64).any fun q => q ≠ r && (ring s q).en && ringSched s q)

/-- RING_ENABLE: EN changes from 0 to 1. -/
def execRingEnable (r : Ring) (s : State) : Host.Outcome State Fault Refusal :=
  let x := ring s r
  .next (hostOnly s (
    if !s.ck.ready ∨ x.en then s
    else if !ringAllowed s r then setRing r { x with haltCode := BitVec.ofNat 16 rRingAddr } s
    else
      let k := BitVec.ofNat 32 (ringSlots s r)
      writeStatus r (setRing r { x with en := true, halted := false, haltCode := 0, c := k, a := k, seq := 0, lastCons := k,
                                        refetch := 0, torn := false } s)))

/-- RING_TEARDOWN: EN is cleared; nothing more is fetched, and accepted commands run on. -/
def execRingTeardown (r : Ring) (s : State) : Host.Outcome State Fault Refusal :=
  let x := ring s r
  .next (hostOnly s (
    if !x.en then s
    else writeStatus r (setRing r { x with en := false, halted := false, haltCode := 0, refetch := 0, torn := true } s)))

/-- LDCLR: HOST.RLOADn is cleared. -/
def execLdclr (r : Ring) (s : State) : Host.Outcome State Fault Refusal :=
  .next (hostOnly s (setRing r { ring s r with hwm := 0, stall := 0, waited := 0 } s))

/-! ## Loss of the host (R275, R298-R301, R388) -/

/-- LINK_DOWN: the link leaves DL_Up; the hold timer starts. -/
def execLinkDown (s : State) : Host.Outcome State Fault Refusal :=
  .next (hostOnly s (if s.hf.linkUp then { s with hf := { s.hf with linkUp := false, hold := true } } else s))

/-- LINK_UP: requests without a completion are issued again in their order; while parked the return raises HOST.PARK.VEC. -/
def execLinkUp (s : State) : Host.Outcome State Fault Refusal :=
  .next (hostOnly s (
    if s.hf.linkUp ∨ s.ck.bring < 6 then s
    else
      let s := linkAgain { s with hf := { s.hf with linkUp := true, hold := false } }
      if s.hf.parked then raiseVec (BitVec.ofNat 5 (bitsOf (reg32 s 0x11004).toNat 12 8)) s else s))

/-- The command must still read or write host memory: one whose host data has been read, and whose writes go to the device, need
not (R298). -/
def needsHost (s : State) (d : Desc) : Bool :=
  let reads := d.opc = 2 || d.opc = 3 || d.opc = 8 || (d.opc = 7 && d.a0.toNat % 256 ≠ 3)
  d.opc = 4 || d.opc = 0x0A || (reads && (jobOf s d).isNone)
/-- A command ends failed with HOST_LOST; a copy's record carries the prefix that was final (R291). -/
def hostLost (d : Desc) (s : State) : State :=
  let vt := match jobOf s d with | some j => if d.opc = 4 then jobVt s j else 0 | none => 0
  finishCmd d rHostLost 0 vt 0 0 (dropJob d s)
/-- Forget scheduled steps of a command that has become final. -/
def unschedule (d : Desc) (s : State) : State := { s with agenda := s.agenda.filter fun x => x.2 ≠ rowOf d }

/-- The front-end reset's first four consequences (R298, R388). -/
def frontEndReset (s : State) : State :=
  let s := (List.range 64).foldl (fun s n =>
    let o := 0x10000 + 0x40 * n
    setReg32 (o + 0x18) 0 (setReg64 (o + 8) 0 (setReg64 o 0 s))) s
  let marks := (s.hf.heldMarks.filter fun x => reqOpen s x.no && markFinal x.mark).map (·.mark)
  let lost := s.hf.cmds.filter fun c => needsHost s c.desc
  let s := lost.foldl (fun s c => hostLost c.desc (unschedule c.desc s)) s
  let s := dropDma { s with hf := { s.hf with rings := [], heldMarks := [], hold := false, lost := true } }
  withCause 4 (marks.foldl (fun s w => orphan w s) s)

/-- The park of R299 is decided: at the first MILESTONE that becomes final, when the schedule commands are exhausted,
or at once. -/
def beginPark (s : State) : State :=
  if s.hf.parked then s else parkIfDue false { s with hf := { s.hf with parkPending := true } }

/-- The whole of a hold expiry: the front end resets, host loss is announced, and the park is decided (R298, R299). -/
def holdExpired (s : State) : State :=
  let s := frontEndReset s
  beginPark (post (.token 0x0106 none (myToken s s.cm.step.toNat 0)) s)

/-- A FRONT END reset that is accepted during a larger reset or its bring-up only records its cause (R387). -/
def frontEndReach (k : State → State) (s : State) : State :=
  if s.ck.inReset then withCause 4 s else k s

/-- HOLD_TIMER_EXPIRY. -/
def execHoldTimerExpiry (s : State) : Host.Outcome State Fault Refusal :=
  .next (segOnly s (if s.hf.hold then frontEndReach holdExpired s else s))

/-- PARK: the tensor plane parks when the park of R299 is due. -/
def execPark (s : State) : Host.Outcome State Fault Refusal := .next (hostOnly s (parkIfDue false s))

/-- RESUME clears PARKED and LOST. -/
def resumed (s : State) : State := { s with hf := { s.hf with parked := false, lost := false } }
/-- RESUME. -/
def execResume (s : State) : Host.Outcome State Fault Refusal := .next (hostOnly s (resumed s))

/-- Entry i of the orphan log. -/
def orphanEntry (s : State) (i : Nat) : List Byte := readBytes s (orphanBase + 48 * i) 48
/-- DELIVER: with RESUME, each entry is written to its Waymark address, fenced as every Waymark, and the log is emptied (R300). -/
def execDeliver (s : State) : Host.Outcome State Fault Refusal :=
  .next (hostOnly s (resumed (
    if s.hf.linkUp then
      let s := (List.range s.hf.orphans.length).foldl (fun s i =>
        let e := orphanEntry s i
        let a := leField e 32 8 % 2 ^ 48
        sysStore dmaPort (hostBase + a) (e.take 32) (emit (.ioRead a) s)) s
      { s with hf := { s.hf with orphans := [] } }
    else s)))

/-- OCLR: the orphan log is emptied. -/
def execOclr (s : State) : Host.Outcome State Fault Refusal := .next (hostOnly s { s with hf := { s.hf with orphans := [] } })

/-- FUNCTION_LEVEL_RESET, and a write of RST.BLOCK.HFE: the front end resets without announcing host loss or parking
(R388). -/
def execFunctionLevelReset (s : State) : Host.Outcome State Fault Refusal := .next (segOnly s (frontEndReach frontEndReset s))

end Sys2Proof.Machine
end

