-- ==== Sys2Proof/Machine/Commands.lean ====
section
/-! DEFINITION. The general host commands: copies, inline writes, scale tables, FENCE and QUERY (12 R284-R295, 14 R344,
19 R438, 20 R453). -/

namespace Sys2Proof.Machine

/-- NOP: final on acceptance, without a Waymark (Table 12.4); no command is kept for it. -/
def execNopCommand (_ : Desc) (s : State) : Host.Outcome State Fault Refusal := .next (hostOnly s (startCmds s))

/-- FENCE: it starts when every earlier command of the named rings is final, and is then final itself (R287). -/
def execFence (d : Desc) (s : State) : Host.Outcome State Fault Refusal := .next (hostOnly s (doneCmd d s))

/-- A command that meets a local store, an NRU window or a tag array waits while a segment runs (R240). -/
def withTensor (d : Desc) (a : Nat) (k : State → State) (s : State) : State :=
  if heldSpace a && running s && !issueStopped s then sched (s.cyc + 1) (rowOf d) s else k s

/-! ## Copies (R277, R288, R291) -/

/-- Move [off, n) in pieces of 64 bytes until one is refused: how many bytes have been moved, the refused address, the writes
without completion, the state. -/
def copyLoop (io : Bool) (src dst n : Nat) : Nat → Nat → List (TxnNo × Nat) → State → DmaJob → DmaJob × State
  | 0, off, ws, s, j => ({ j with n := off, writes := ws }, s)
  | fuel + 1, off, ws, s, j =>
    if n ≤ off then ({ j with n := n, writes := ws }, s)
    else
      let k := min 64 (n - off)
      let stop := fun (a : Nat) => ({ j with n := off, err := rAddrRefused, writes := ws }, dmaRefused a s)
      if !dmaMay s (src + off) k then stop (src + off)
      else if !dmaMay s (dst + off) k then stop (dst + off)
      else
        let ((bs, po), s) := dmaRead io (src + off) k s
        let (w, s) := dmaWrite io (dst + off) bs po s
        copyLoop io src dst n fuel (off + k) ((w.map fun x => (x.1, x.2 + off)) ++ ws) s j

/-- A copy from `src` to `dst`. -/
def copyCmd (d : Desc) (src dst : Nat) (s : State) : State :=
  let n := d.a2.toNat
  withRanges d [(src, n)] (runJob d fun s => copyLoop (iop d) src dst n (ceilDiv n 64) 0 [] s (endJob d 0 0)) s

/-- The host window address of a host physical address. -/
def hostAddr (x : W64) : Nat := if x.toNat < 2 ^ 48 then hostBase + x.toNat else 2 ^ 52

/-- COPY_IN: host to device. -/
def execCopyIn (d : Desc) (s : State) : Host.Outcome State Fault Refusal :=
  .next (hostOnly s (withLink d (withTensor d d.a1.toNat (copyCmd d (hostAddr d.a0) d.a1.toNat)) s))
/-- COPY_OUT: device to host. -/
def execCopyOut (d : Desc) (s : State) : Host.Outcome State Fault Refusal :=
  .next (hostOnly s (withLink d (withTensor d d.a0.toNat (copyCmd d d.a0.toNat (hostAddr d.a1))) s))

/-- INLINE_WRITE: the payload's first bytes into device memory. DEDUCED: R291 gives it no VT, so that VT is 0. -/
def execInlineWrite (d : Desc) (s : State) : Host.Outcome State Fault Refusal :=
  let a := d.a0.toNat
  let n := d.a1.toNat
  .next (hostOnly s (withTensor d a (runJob d fun s =>
    if dmaMay s a n then
      let (ws, s) := dmaWrite false a (slice d.payload 0 n) false s
      ({ endJob d 0 0 with writes := ws.map fun w => (w.1, 0) }, s)
    else (endJob d 0 rAddrRefused, dmaRefused a s)) s))

/-! ## Scale tables (R344) -/

/-- The scale table entry of a group in the active image. -/
def scaleEntry (s : State) (g : Nat) : Option (Image × ImgScale) :=
  match s.pl.active with
  | none => none
  | some im => (im.scales.find? fun x => x.group = g).map fun x => (im, x)

/-- SET_SCALES: replaces the COUNT bytes of a group's live table. -/
def setScalesCmd (d : Desc) (s : State) : DmaJob × State :=
  match scaleEntry s d.a0.toNat with
  | none => (endJob d 0 rDescMalformed, s)
  | some (im, x) =>
    if d.a2.toNat ≠ x.count then (endJob d 0 rDescMalformed, s)
    else if !(x.count = 0 || hostOk s d.a1.toNat x.count) then (endJob d 0 rAddrRefused, dmaRefused (hostAddr d.a1) s)
    else
      let ((bs, _), s) := dmaRead (iop d) (hostAddr d.a1) x.count s
      if bs.any fun b => 0xE7 < b.toNat then (endJob d 0 rDescMalformed, s)
      else
        let (ws, s) := storeReqs dmaPort (im.load + x.offset) bs false s
        ({ endJob d 0 0 with writes := ws.map fun w => (w.1, 0) }, s)
/-- SET_SCALES: ARG0[3:0] group, ARG1 host address, ARG2 count. -/
def execSetScales (d : Desc) (s : State) : Host.Outcome State Fault Refusal := .next (hostOnly s (withLink d (withRanges d [(hostAddr d.a1, d.a2.toNat)] (runJob d (setScalesCmd d))) s))

/-! ## QUERY (R295, Table 12.8) -/

/-- Write a result, cut at the buffer's end; VT is the bytes written (R291, R295). -/
def queryCmd (d : Desc) (res : State → List Byte) (s : State) : State :=
  runJob d (fun s =>
    let bs := (res s).take d.a2.toNat
    let a := hostAddr d.a1
    if bs.isEmpty then (endJob d 0 0, s)
    else if dmaMay s a bs.length then
      let (ws, s) := dmaWrite (iop d) a bs false s
      ({ endJob d bs.length 0 with writes := ws }, s)
    else (endJob d 0 rAddrRefused, dmaRefused a s)) s

/-- A result with its full length in front. -/
def withLength (bs : List Byte) : List Byte := leBytes 8 (bs.length + 8) ++ bs

/-- The 24 bytes of the identification registers (R453). -/
def idBytes (s : State) : List Byte := (tabulate 6 fun i => leBytes 4 (regWord s (4 * i)).toNat).flatten
/-- The status records of all 64 rings; that of a ring that has not been enabled holds zeros (DEDUCED, entry 66). -/
def ringRecords (s : State) : List Byte :=
  (List.finRange 64).flatMap fun r =>
    let x := ring s r
    statusBytes x (if x.en || x.torn then ringStateCode x else 0) (inflight s r) x.seq
/-- QUERY 0x03: length, 56 zero bytes, volatile log, persistent log (R438). -/
def logResult (s : State) : List Byte :=
  withLength (zeros 56 ++ (s.log.recs.flatMap recBytes) ++ s.fd.plog.flatMap recBytes)
/-- The telemetry record in force; before the first interval closes only its LEN is not 0. -/
def telRecord (s : State) : List Byte := if s.tel.record.isEmpty then leBytes 8 0xA0 ++ zeros 152 else s.tel.record

/-- QUERY 0x00. -/
def execQueryIdentification (d : Desc) (s : State) : Host.Outcome State Fault Refusal :=
  .next (hostOnly s (withLink d (queryCmd d fun s => withLength (idBytes s)) s))
/-- The orphan log as its range holds it, oldest entry first (R300). -/
def orphanLog (s : State) : List Byte := readBytes s orphanBase (48 * s.hf.orphans.length)
/-- QUERY 0x01. -/
def execQueryOrphanLog (d : Desc) (s : State) : Host.Outcome State Fault Refusal :=
  .next (hostOnly s (withLink d (withRanges d [(orphanBase, 48 * s.hf.orphans.length)] (queryCmd d fun s => withLength (orphanLog s))) s))
/-- QUERY 0x02. -/
def execQueryRingStatus (d : Desc) (s : State) : Host.Outcome State Fault Refusal :=
  .next (hostOnly s (withLink d (queryCmd d fun s => withLength (ringRecords s)) s))
/-- QUERY 0x03. -/
def execQueryErrorRecords (d : Desc) (s : State) : Host.Outcome State Fault Refusal :=
  .next (hostOnly s (withLink d (queryCmd d logResult) s))
/-- QUERY 0x04. -/
def execQueryTelemetry (d : Desc) (s : State) : Host.Outcome State Fault Refusal :=
  .next (hostOnly s (withLink d (queryCmd d telRecord) s))

end Sys2Proof.Machine
end

