-- ==== Sys2Proof/Machine/Trans.lean ====
section
/-! DEFINITION. Division, roots and the transcendental functions as correctly rounded results (R119, Table 5.5).

Quotients and roots are computed exactly (remainder as sticky bit). The transcendental functions are computed in fixed
point with 320 fraction bits and handed to the rounding as an interval of about 250 significant bits; DEDUCED: a result
closer than that to a rounding boundary does not occur for an FP32 argument (assumption log 27). -/

namespace Sys2Proof.Machine

/-- A function's result before rounding: an exact value with its flags, or a magnitude with its sign. -/
inductive FnRes where
  | val (v : Val) (f : Flags)
  | mag (neg : Bool) (x : Mag)
  deriving DecidableEq, Repr

/-- Round a result to a format (R118, R119). -/
def roundFn (p : FFmt) (rnd : Rnd) : FnRes → Nat × Flags
  | .val v f => let (x, g) := convF p rnd false 0 v; (x, f ||| g)
  | .mag neg x => roundF p rnd false 0 neg x

/-- Integer square root, one result bit per step from bit `k − 1` down. -/
def isqrtGo (n : Nat) : Nat → Nat → Nat
  | 0, r => r
  | k + 1, r =>
    let c := r + 2 ^ k
    isqrtGo n k (if c * c ≤ n then c else r)
/-- floor(√n). -/
def isqrt (n : Nat) : Nat := isqrtGo n (Nat.log2 n / 2 + 1) 0

/-- a / b of nonzero magnitudes (exact quotient with sticky remainder). -/
def divMag (m : Nat) (e : Int) (n : Nat) (g : Int) : Mag :=
  let k := 160 + Nat.log2 n
  let a := m * 2 ^ k
  ⟨a / n, e - g - k, a % n ≠ 0⟩

/-- √(m × 2^e), m ≠ 0. -/
def sqrtMag (m : Nat) (e : Int) : Mag :=
  let (m, e) := if e % 2 = 0 then (m, e) else (2 * m, e - 1)
  let a := m * 2 ^ 320
  let r := isqrt a
  ⟨r, e / 2 - 160, r * r ≠ a⟩

/-- 1 / √(m × 2^e), m ≠ 0. -/
def rsqrtMag (m : Nat) (e : Int) : Mag :=
  let (m, e) := if e % 2 = 0 then (m, e) else (2 * m, e - 1)
  let k := 160 + Nat.log2 m
  let r := isqrt (2 ^ (2 * k) / m)
  ⟨r, -(e / 2) - k, r * r * m ≠ 2 ^ (2 * k)⟩

/-- Fraction bits of the fixed-point work. -/
def fixF : Nat := 320

/-- ln 2 in fixed point: Σ 1 / (k 2^k). -/
def ln2Fix : Nat := (List.range (fixF + 8)).foldl (fun a k => a + 2 ^ (fixF + 16) / ((k + 1) * 2 ^ (k + 1))) 0 / 2 ^ 16

/-- Σ r^k / k! in fixed point, from term `k` on. -/
def expSeries (r : Nat) : Nat → Nat → Nat → Nat → Nat
  | 0, _, _, acc => acc
  | n + 1, k, term, acc =>
    let t := term * r / 2 ^ fixF / k
    expSeries r n (k + 1) t (acc + t)

/-- e^r in fixed point, 0 ≤ r < 1. -/
def expFix (r : Nat) : Nat := expSeries r 90 1 (2 ^ fixF) (2 ^ fixF)

/-- Σ z^(2i+1) / (2i+1) in fixed point. -/
def atanhSeries (z2 : Nat) : Nat → Nat → Nat → Nat → Nat
  | 0, _, _, acc => acc
  | n + 1, i, pw, acc => atanhSeries z2 n (i + 1) (pw * z2 / 2 ^ fixF) (acc + pw / (2 * i + 1))

/-- Drop 40 guard bits: the irrational result lies strictly inside the interval. -/
def fixMag (x : Nat) (e : Int) : Mag := ⟨x >>> 40, e + 40 - fixF, true⟩

/-- m × 2^e as a fixed-point number (exact for e ≥ −320). -/
def toFix (m : Nat) (e : Int) : Nat :=
  if 0 ≤ e + fixF then m * 2 ^ (e + fixF).toNat else m >>> (-(e + fixF)).toNat

/-- A magnitude above every format's range, and one below. -/
def hugeMag : Mag := ⟨1, 20000, true⟩
def tinyMag : Mag := ⟨1, -20000, true⟩
/-- Below 1 by less than 2^−99: tanh from 64 and the sigmoid from 128 round as it does. -/
def nearOne : Mag := ⟨2 ^ 100 - 1, -100, true⟩

/-- e^x of a fixed-point x with its sign, |x| < 2^12. -/
def expSigned (neg : Bool) (x : Nat) : Mag :=
  let n := x / ln2Fix
  let r := x % ln2Fix
  if neg then
    -- e^−x = 2^−(n+1) e^(ln2 − r)
    fixMag (expFix (ln2Fix - r)) (-(n : Int) - 1)
  else fixMag (expFix r) n

/-- ln of m × 2^e: sign and fixed-point magnitude, with the power of two taken out. -/
def lnParts (m : Nat) (e : Int) : Int × Bool × Nat :=
  let k := (Nat.log2 m : Int) + e
  let y := m * 2 ^ (fixF - Nat.log2 m)             -- in [1, 2)
  let (k, y) := if 3 * 2 ^ (fixF - 1) ≤ y then (k + 1, y / 2) else (k, y)
  let one := 2 ^ fixF
  let neg := y < one
  let z := (if neg then one - y else y - one) * one / (y + one)
  (k, neg, 2 * atanhSeries (z * z / one) 100 0 z 0)

/-- ln x: signed result. -/
def lnMag (m : Nat) (e : Int) : Bool × Mag :=
  let (k, neg, l) := lnParts m e
  let v : Int := k * ln2Fix + (if neg then -(l : Int) else l)
  (v < 0, fixMag v.natAbs 0)

/-- log2 x: signed result; the power of two is exact. -/
def log2Mag (m : Nat) (e : Int) : Bool × Mag :=
  let (k, neg, l) := lnParts m e
  let q := l * 2 ^ fixF / ln2Fix
  let v : Int := k * 2 ^ fixF + (if neg then -(q : Int) else q)
  (v < 0, fixMag v.natAbs 0)

/-- The functions of opcodes 0x60 to 0x68. -/
inductive Fn where
  | exp | exp2 | log | log2 | rcp | rsq | sqrt | tanh | sigm
  deriving DecidableEq, Repr

/-- |x| of m × 2^e is at least 2^k. -/
def atLeastPow (m : Nat) (e k : Int) : Bool := m ≠ 0 && k ≤ (Nat.log2 m : Int) + e

/-- e^x of a finite nonzero x. -/
def expRes (neg : Bool) (m : Nat) (e : Int) : FnRes :=
  if atLeastPow m e 11 then .mag false (if neg then tinyMag else hugeMag)
  else .mag false (expSigned neg (toFix m e))

/-- 2^x of a finite nonzero x; exact for an integer. -/
def exp2Res (neg : Bool) (m : Nat) (e : Int) : FnRes :=
  if atLeastPow m e 14 then .mag false (if neg then tinyMag else hugeMag)
  else
    let x := toFix m e
    let n := x / 2 ^ fixF
    let f := x % 2 ^ fixF
    if f = 0 then .val (.fin false 1 (if neg then -(n : Int) else n)) 0
    else if neg then .mag false (fixMag (expFix ((2 ^ fixF - f) * ln2Fix / 2 ^ fixF)) (-(n : Int) - 1))
    else .mag false (fixMag (expFix (f * ln2Fix / 2 ^ fixF)) n)

/-- tanh |x|: (1 − t) / (1 + t) with t = e^(−2|x|). -/
def tanhRes (neg : Bool) (m : Nat) (e : Int) : FnRes :=
  if !atLeastPow m e (-60) then .mag neg ⟨m * 2 ^ 80 - 1, e - 80, true⟩
  else if atLeastPow m e 6 then .mag neg nearOne
  else
    let t := expSigned true (toFix m (e + 1))
    let tf := toFix t.m t.e
    let q := (2 ^ fixF - tf) * 2 ^ fixF / (2 ^ fixF + tf)
    .mag neg (fixMag q 0)

/-- The logistic sigmoid: 1 / (1 + t) or t / (1 + t) with t = e^(−|x|). -/
def sigmRes (neg : Bool) (m : Nat) (e : Int) : FnRes :=
  if atLeastPow m e 11 then .mag false (if neg then tinyMag else nearOne)
  else if !neg && atLeastPow m e 7 then .mag false nearOne
  else
    let t := expSigned true (toFix m e)
    if neg then
      let d := 2 ^ fixF + toFix t.m t.e
      .mag false ⟨t.m * 2 ^ fixF / d, t.e, true⟩
    else .mag false (fixMag (2 ^ (2 * fixF) / (2 ^ fixF + toFix t.m t.e)) 0)

/-- The exact result of a function, with the special results of Table 5.5. The QN and NV of a NaN input are `useFlags`. -/
def fnRes (fn : Fn) (v : Val) : FnRes :=
  match fn, v with
  | _, .nan _ => .val (.nan false) 0
  | .exp, .inf neg => .val (if neg then .fin false 0 0 else .inf false) 0
  | .exp2, .inf neg => .val (if neg then .fin false 0 0 else .inf false) 0
  | .exp, .fin neg m e => if m = 0 then .val (.fin false 1 0) 0 else expRes neg m e
  | .exp2, .fin neg m e => if m = 0 then .val (.fin false 1 0) 0 else exp2Res neg m e
  | .log, .inf neg => .val (if neg then .nan false else .inf false) (flIf neg flNV)
  | .log2, .inf neg => .val (if neg then .nan false else .inf false) (flIf neg flNV)
  | .log, .fin neg m e =>
    if m = 0 then .val (.inf true) 0 else if neg then .val (.nan false) flNV
    else if m = 2 ^ Nat.log2 m ∧ (Nat.log2 m : Int) + e = 0 then .val (.fin false 0 0) 0
    else let (s, x) := lnMag m e; .mag s x
  | .log2, .fin neg m e =>
    if m = 0 then .val (.inf true) 0 else if neg then .val (.nan false) flNV
    else if m = 2 ^ Nat.log2 m then .val (intVal ((Nat.log2 m : Int) + e) 0) 0
    else let (s, x) := log2Mag m e; .mag s x
  | .rcp, .inf neg => .val (.fin neg 0 0) 0
  | .rcp, .fin neg m e => if m = 0 then .val (.inf neg) 0 else .mag neg (divMag 1 0 m e)
  | .rsq, .inf neg => .val (if neg then .nan false else .fin false 0 0) (flIf neg flNV)
  | .rsq, .fin neg m e =>
    if m = 0 then .val (.inf neg) 0 else if neg then .val (.nan false) flNV else .mag false (rsqrtMag m e)
  | .sqrt, .inf neg => .val (if neg then .nan false else .inf false) (flIf neg flNV)
  | .sqrt, .fin neg m e =>
    if m = 0 then .val (.fin neg 0 0) 0 else if neg then .val (.nan false) flNV else .mag false (sqrtMag m e)
  | .tanh, .inf neg => .val (.fin neg 1 0) 0
  | .tanh, .fin neg m e => if m = 0 then .val (.fin neg 0 0) 0 else tanhRes neg m e
  | .sigm, .inf neg => .val (if neg then .fin false 0 0 else .fin false 1 0) 0
  | .sigm, .fin neg m e => if m = 0 then .val (.fin false 1 (-1)) 0 else sigmRes neg m e

/-- a / b (Table 5.5). -/
def divRes (a b : Val) : FnRes :=
  match a, b with
  | .nan _, _ => .val (.nan false) 0
  | _, .nan _ => .val (.nan false) 0
  | .inf _, .inf _ => .val (.nan false) flNV
  | .inf x, .fin y _ _ => .val (.inf (x != y)) 0
  | .fin x _ _, .inf y => .val (.fin (x != y) 0 0) 0
  | .fin x m e, .fin y n g =>
    if n = 0 then (if m = 0 then .val (.nan false) flNV else .val (.inf (x != y)) 0)
    else if m = 0 then .val (.fin (x != y) 0 0) 0
    else .mag (x != y) (divMag m e n g)

end Sys2Proof.Machine
end

