-- ==== Sys2Proof/Machine/Verge.lean ====
section
/-! DEFINITION. The Verge's arithmetic path: registers, operands, hazards and the element-wise instructions
(05_verge_vector_engine R114-R125, R132-R137). An instruction is checked at issue; it then reads its elements and
computes on the cycles of R124, a beat a cycle, and its results become visible L cycles later. -/

namespace Sys2Proof.Machine

/-! ## Registers (R114) -/

/-- Keys of element i of vector register v, and of bit i of mask register m. -/
def vKey (t : Tile) (v i : Nat) : Nat := t.val * 131072 + v * 4096 + i
def mKey (t : Tile) (m i : Nat) : Nat := t.val * 32768 + m * 4096 + i
/-- Element i of a vector register. -/
def vGet (s : State) (t : Tile) (v i : Nat) : W32 := smapGet 0 s.pl.vregs (vKey t v i)
/-- Bit i of a mask register. -/
def mGet (s : State) (t : Tile) (m i : Nat) : Bool := smapGet 0 s.pl.masks (mKey t m i) = 1
/-- Results reach their register. -/
def vLand (s : State) (w : VWrite) : State :=
  let n := w.vals.length
  if w.isMask then
    { s with pl := { s.pl with masks := smapReplace 0 (mKey w.tile w.reg w.first) n (fun i =>
        match w.vals.getD i none with
        | some x => if x = 0 then 0 else 1
        | none => if mGet s w.tile w.reg (w.first + i) then 1 else 0) s.pl.masks } }
  else
    { s with pl := { s.pl with vregs := smapReplace 0 (vKey w.tile w.reg w.first) n (fun i =>
        (w.vals.getD i none).getD (vGet s w.tile w.reg (w.first + i))) s.pl.vregs } }
/-- Every result visible by the present cycle stands in its register. -/
def landVerge (s : State) : State :=
  let due := s.pl.vwrites.filter fun w => w.vis ≤ s.cyc
  due.foldl vLand { s with pl := { s.pl with vwrites := s.pl.vwrites.filter fun w => s.cyc < w.vis } }
/-- Put results on their way. -/
def vPutOut (ws : List VWrite) (s : State) : State := { s with pl := { s.pl with vwrites := s.pl.vwrites ++ ws } }

/-! ## Arithmetic-path fields (Table 5.1) -/

/-- The fields of an arithmetic-path instruction. -/
structure VArith where
  vd : Nat
  va : Nat
  vb : Nat
  vc : Nat
  n : Nat
  bm : Nat
  men : Bool
  ms : Nat
  zm : Bool
  pr : Nat
  rnd : Nat
  sl : Nat
  ofm : Bool
  rsv : Nat
  deriving DecidableEq, Repr

/-- Read the fields. -/
def vArith (f : Fields) : VArith :=
  { vd := fld f 55 50, va := fld f 49 44, vb := fld f 43 38, vc := fld f 37 32, n := fld f 31 20 + 1, bm := fld f 19 18,
    men := fbit f 17, ms := fld f 16 14, zm := fbit f 13, pr := fld f 12 11, rnd := fld f 10 9, sl := fld f 8 3,
    ofm := fbit f 2, rsv := fld f 1 0 }

/-- Lr: bits [12:0] of scalar register sSL (R117). -/
def vLr (s : State) (t : Tile) (q : VArith) : Nat := (sreg s t q.sl).toNat % 2 ^ 13
/-- Lr lies in its range. -/
def lrOk (s : State) (t : Tile) (q : VArith) : Bool := 1 ≤ vLr s t q && vLr s t q ≤ 4096

/-- Element i of operand B by BM (R117). -/
def vB (s : State) (t : Tile) (q : VArith) (i : Nat) : W32 :=
  if q.bm = 0 then vGet s t q.vb i
  else if q.bm = 1 then (sreg s t q.vb).setWidth 32
  else vGet s t q.vb (i / vLr s t q)
/-- Element i is processed (R116). -/
def vOn (s : State) (t : Tile) (q : VArith) (i : Nat) : Bool := !q.men || mGet s t q.ms i

/-! ## Hazards (R123-R125) -/

/-- First and last cycle on which an entry's element i is accessed. -/
def vEarly (p : VPend) (i : Nat) : Nat := if p.rate = 0 then p.base else p.base + i * p.mul / p.rate
def vLate (p : VPend) (i : Nat) : Nat := if p.rate = 0 then p.base else p.base + min (i * p.mul + p.late) p.top / p.rate
/-- Two entries concern the same register of the same tile. -/
def vSame (a b : VPend) : Bool := a.tile = b.tile && a.isMask = b.isMask && a.reg = b.reg
/-- Some common element meets a condition. -/
def vClash (a b : VPend) (bad : Nat → Bool) : Bool := vSame a b && (List.range (min a.n b.n)).any bad

/-- VERGE_RAW, VERGE_WAW and VERGE_WAR of an instruction's reads and writes against the pending ones (R125). -/
def vHazard (s : State) (reads writes : List VPend) : Option Nat :=
  let pw := s.pl.vpend.filter fun p => p.isWrite
  let pr := s.pl.vpend.filter fun p => !p.isWrite
  if reads.any fun r => pw.any fun w => vClash r w fun i => vEarly r i < vEarly w i then some eVergeRaw
  else if writes.any fun x => pw.any fun w => vClash x w fun i => s.cyc < vEarly w i && vEarly x i ≤ vEarly w i then
    some eVergeWaw
  else if writes.any fun x => pr.any fun r => vClash x r fun i => vEarly x i ≤ vLate r i then some eVergeWar
  else none

/-- What a Verge instruction asks of issue. -/
structure VDecl where
  opc : Nat
  legal : Bool
  /-- transfer path instead of arithmetic path -/
  xfer : Bool := false
  sreads : List Nat := []
  swrite : Option (Nat × Nat) := none
  /-- issue interval -/
  i : Nat
  reads : List VPend := []
  writes : List VPend := []
  /-- last cycle of visibility -/
  vis : Nat
  deriving DecidableEq, Repr

/-- The path an instruction occupies (R123). -/
def vPath (t : Tile) (d : VDecl) : Res := if d.xfer then .vergeXfer t else .vergeArith t

/-- The faults of a Verge instruction, in the order of Table 5.7. -/
def vCheck (t : Tile) (d : VDecl) (s : State) : Option (Nat × Nat) :=
  if !d.legal then some (eVergeDesc, 0)
  else if heldDuring s (vPath t d) s.cyc (s.cyc + 1) then some (eVergeBusy, 0)
  else (vHazard s d.reads d.writes).map fun c => (c, 0)

/-! ## Forced residue and parity errors (R139, R140, Table 19.10) -/

/-- Targets an instruction uses: vector registers, units, mask registers and tables of R437. -/
structure VUse where
  regs : List Nat := []
  /-- registers of which one element is read for each row, with the row length Lr (R117) -/
  rows : List (Nat × Nat) := []
  units : List Nat := []
  masks : List Nat := []
  tables : List Nat := []
  n : Nat
  rate : Nat
  i : Nat
  deriving DecidableEq, Repr

/-- One target that may fire: its code, number and how the detection cycle follows from the element index. -/
def vInjOne (t : Tile) (code target n : Nat) (at_ : Nat → Nat) (s : State) : State :=
  injAborts code (srcOf 1 t.val) (fun p => target * 2 ^ 20 + p % 2 ^ 16)
    (fun p => bitsOf p 27 20 = target && bitsOf p 15 0 < n) (fun k => at_ (k % 2 ^ 16)) s

/-- Every target of an instruction issued now. A register named twice is one target of the instruction, and an element counts as
used whatever its mask bit holds, as it is read (R116, Table 19.10; DESIGN CHOICE, entry 155). -/
def vInj (t : Tile) (u : VUse) (s : State) : State :=
  let c := s.cyc
  let group := fun i => c + i / u.rate
  let s := u.regs.eraseDups.foldl (fun s v => vInjOne t eVergeResidue v u.n group s) s
  let s := u.rows.foldl (fun s v => vInjOne t eVergeResidue v.1 (ceilDiv u.n (max v.2 1)) (fun r => group (r * v.2)) s) s
  let s := u.units.foldl (fun s x =>
    vInjOne t eVergeResidue x u.n (if x = 35 then fun _ => c + u.i - 1 else group) s) s
  let s := u.masks.eraseDups.foldl (fun s m => vInjOne t eVergeParity m u.n group s) s
  u.tables.foldl (fun s x => vInjOne t eVergeParity x 1 (fun _ => c) s) s

/-! ## Issue and beats (R123, R124) -/

/-- An instruction of the Verge: what it asks of issue, what it uses, the ports it takes, and one of its beats, which answers
what is left of it. -/
structure VOp where
  decl : Tile → Fields → State → VDecl
  use : Tile → Fields → State → VUse
  ports : Tile → Fields → State → State := fun _ _ s => s
  beat : VRun → State → VRun × State

/-- The instruction as it begins: the scalar registers it reads are read now (R124). -/
def vRunOf (t : Tile) (f : Fields) (d : VDecl) (s : State) : VRun :=
  { tile := t, opc := d.opc, ctl := f, start := s.cyc, len := d.i, who := s.fresh, reads := d.reads,
    sregs := d.sreads.foldl (fun m r => smapSet 0 (64 * t.val + r) (sreg s t r) m) [] }

/-- What the issue of a Verge instruction enters: its path, its pending reads and writes, and the instruction in progress. -/
def vEnter (t : Tile) (f : Fields) (d : VDecl) (s : State) : State :=
  let s := hold (vPath t d) s.cyc (s.cyc + d.i) s
  let sp := match d.swrite with | some (r, vis) => [(⟨64 * t.val + r, vis⟩ : SPend)] | none => []
  seenBy t d.vis { s with pl := { s.pl with
    vpend := s.pl.vpend ++ d.reads ++ d.writes, spend := s.pl.spend ++ sp, vruns := s.pl.vruns ++ [vRunOf t f d s] } }

/-- Issue a Verge instruction. -/
def vIssue (o : VOp) (t : Tile) (f : Fields) (s : State) : State :=
  let d := o.decl t f s
  tileOnly s (issue { t := t, opc := d.opc, f := f, reads := d.sreads, write := d.swrite } (vCheck t d) (fun u =>
    useFree (vEnter t f d (vInj t (o.use t f s) (o.ports t f u)))) s)

/-- The state as an instruction in progress sees it: its scalar operands are those of its issue, and so is the cycle that its
element numbers count from. -/
def vView (x : VRun) (s : State) : State := { s with cyc := x.start, fresh := x.who, pl := { s.pl with sregs := x.sregs } }
/-- The present cycle is the last on which the instruction reads. -/
def vLast (x : VRun) (s : State) : Bool := x.start + x.len ≤ s.cyc + 1
/-- The elements of the present cycle's group: the first and how many, of `n` at `rate` a cycle. -/
def vGroup (x : VRun) (s : State) (rate n : Nat) : Nat × Nat :=
  let lo := (s.cyc - x.start) * rate
  (lo, min rate (n - lo))

/-- A reduction keeps what it reads on the present cycle. -/
def vCapture (x : VRun) (s : State) : VRun :=
  x.reads.foldl (fun x p =>
    let j := s.cyc - p.base
    let lo := j * p.rate / p.mul
    let n := min p.n (((j + 1) * p.rate - 1) / p.mul + 1) - lo
    if p.isMask then
      { x with capM := smapReplace 0 (mKey p.tile p.reg lo) n (fun i => if mGet s p.tile p.reg (lo + i) then 1 else 0) x.capM }
    else { x with cap := smapReplace 0 (vKey p.tile p.reg lo) n (fun i => vGet s p.tile p.reg (lo + i)) x.cap }) x
/-- The state as a reduction sees it once it has read everything. -/
def vCaught (x : VRun) (s : State) : State :=
  let v := vView x s
  { v with pl := { v.pl with vregs := x.cap, masks := x.capM } }

/-! ## Operand lists of arithmetic instructions -/

/-- Reads of element i of a vector register at rate r. -/
def rdV (s : State) (t : Tile) (v n r : Nat) : VPend := ⟨t, false, false, v, n, s.cyc, r, 1, 0, n - 1⟩
/-- Reads of a mask register. -/
def rdM (s : State) (t : Tile) (m n r : Nat) : VPend := ⟨t, true, false, m, n, s.cyc, r, 1, 0, n - 1⟩
/-- Reads of operand B (R117, R124). -/
def rdB (s : State) (t : Tile) (q : VArith) (r : Nat) : List VPend :=
  if q.bm = 0 then [rdV s t q.vb q.n r]
  else if q.bm = 2 then
    let lr := vLr s t q
    [⟨t, false, false, q.vb, ceilDiv q.n (max lr 1), s.cyc, r, lr, lr - 1, q.n - 1⟩]
  else []
/-- Reads of the governing mask. -/
def rdMen (s : State) (t : Tile) (q : VArith) (r : Nat) : List VPend := if q.men then [rdM s t q.ms q.n r] else []
/-- An element-wise write visible from s + c + L. -/
def wrV (s : State) (t : Tile) (v n r lat : Nat) : VPend := ⟨t, false, true, v, n, s.cyc + lat, r, 1, 0, n - 1⟩
def wrM (s : State) (t : Tile) (m n r lat : Nat) : VPend := ⟨t, true, true, m, n, s.cyc + lat, r, 1, 0, n - 1⟩
/-- A write whose every element is visible from one cycle. -/
def wrAll (t : Tile) (v n vis : Nat) : VPend := ⟨t, false, true, v, n, vis, 0, 1, 0, n - 1⟩

/-- Operand B as a register read once for each row (R117). -/
def bRows (s : State) (t : Tile) (q : VArith) : List (Nat × Nat) := if q.bm = 2 then [(q.vb, vLr s t q)] else []
/-- Scalar registers that operand B and row lengths read. -/
def sB (q : VArith) : List Nat := if q.bm = 1 then [q.vb] else if q.bm = 2 then [q.sl] else []
/-- Operand B's register and Lr are legal (R117). -/
def bLegal (s : State) (t : Tile) (q : VArith) : Bool :=
  if q.bm = 0 then q.vb < 32 else if q.bm = 2 then q.vb < 32 && lrOk s t q else q.bm ≠ 3
/-- Reserved values common to every arithmetic-path instruction (R117, R118, R119, R137, Table 5.7); `vc` is the largest value
of VC that the instruction uses. -/
def vCommon (q : VArith) (prZero : Bool) (vc : Nat) : Bool :=
  q.rsv = 0 && q.bm ≠ 3 && q.pr ≠ 3 && q.rnd ≠ 3 && (!prZero || q.pr = 0) && q.vc ≤ vc
/-- The register that operand B names, one element for each element or one for each row. -/
def bRegs (q : VArith) : List Nat := if q.bm = 0 then [q.vb] else []
/-- The mask that governs the instruction. -/
def menRegs (q : VArith) : List Nat := if q.men then [q.ms] else []
/-- RND = 0b10 is not permitted. -/
def noSr (q : VArith) : Bool := q.rnd ≠ 2

/-! ## Precision (R118) -/

/-- The format of a precision. -/
def prFmt (pr : Nat) : FFmt := if pr = 1 then fmtBf16 else if pr = 2 then fmtFp16 else fmtFp32
/-- Elements per TCLK. -/
def prRate (pr : Nat) : Nat := if pr = 0 then 512 else 1024
/-- An input in the precision, with the flags of consuming and converting it. -/
def prIn (pr : Nat) (x : W32) : Val × Flags :=
  if pr = 0 then (f32 x, useFlags (f32 x))
  else let (c, f) := convF (prFmt pr) .rne false 0 (f32 x); (decodeF (prFmt pr) c, useFlags (f32 x) ||| f)
/-- The FP32 encoding of a result in the precision. -/
def prWiden (pr c : Nat) : W32 :=
  if pr = 0 then BitVec.ofNat 32 c else (toF32 .rne (decodeF (prFmt pr) c)).1
/-- Round a result to the precision and write it as FP32. -/
def prOut (pr rnd : Nat) (x : FnRes) : W32 × Flags :=
  let (c, f) := roundFn (prFmt pr) (rndOf rnd) x
  (prWiden pr c, f)

/-! ## Element-wise application (R115, R116) -/

/-- One beat of an element-wise instruction: `g` on every processed element of the group, one word per destination register,
vector or mask, from VD on, and flags (R115, R116). -/
def groupBeat (isMask : Bool) (rate lat dests : Nat) (g : Tile → VArith → State → Nat → List W32 × Flags) (x : VRun)
    (s : State) : VRun × State :=
  let q := vArith x.ctl
  let v := vView x s
  let (lo, n) := vGroup x s rate q.n
  let ys := tabulate n fun i => if vOn v x.tile q (lo + i) then some (g x.tile q v (lo + i)) else none
  let off := if q.zm then some 0 else none
  let ws := tabulate dests fun j => (⟨x.tile, isMask, q.vd + j, lo, s.cyc + lat, ys.map fun y =>
    match y with | some y => some (y.1.getD j 0) | none => off⟩ : VWrite)
  (x, accrue x.tile (flAll (ys.map fun y => match y with | some y => y.2 | none => 0)) (vPutOut ws s))
/-- A beat of an instruction that writes vector registers. -/
def vecBeat (rate lat dests : Nat) (g : Tile → VArith → State → Nat → List W32 × Flags) : VRun → State → VRun × State :=
  groupBeat false rate lat dests g
/-- A beat of an instruction that writes a mask register. -/
def maskBeat (rate lat : Nat) (g : Tile → VArith → State → Nat → Bool × Flags) : VRun → State → VRun × State :=
  groupBeat true rate lat 1 fun t q v k => let (b, fl) := g t q v k; ([if b then 1 else 0], fl)

/-- What an element-wise floating-point instruction asks of issue. -/
def vFloatDecl (opc lat : Nat) (useB useC : Bool) (t : Tile) (f : Fields) (s : State) : VDecl :=
  let q := vArith f
  let r := prRate q.pr
  let i := ceilDiv q.n r
  let legal := vCommon q false (if useC then 31 else 0) && noSr q && q.vd < 32 && q.va < 32 && (!useB || bLegal s t q)
  let reads := [rdV s t q.va q.n r] ++ (if useB then rdB s t q r else []) ++
    (if useC then [rdV s t q.vc q.n r] else []) ++ rdMen s t q r
  { opc := opc, legal := legal, sreads := if useB then sB q else [], i := i, reads := reads,
    writes := [wrV s t q.vd q.n r lat], vis := s.cyc + i - 1 + lat }

/-- Element k of an element-wise floating-point instruction: operands in the precision, the operation, one rounding (R118,
R119). -/
def vFloatElem (useB useC : Bool) (op : Val → Val → Val → FnRes) (t : Tile) (q : VArith) (s : State) (k : Nat) :
    List W32 × Flags :=
  let (a, fa) := prIn q.pr (vGet s t q.va k)
  let (b, fb) := if useB then prIn q.pr (vB s t q k) else (.fin false 0 0, 0)
  let (c, fc) := if useC then prIn q.pr (vGet s t q.vc k) else (.fin false 0 0, 0)
  let (x, fx) := prOut q.pr q.rnd (op a b c)
  ([x], fa ||| fb ||| fc ||| fx)

/-- What an arithmetic-path instruction uses: registers, operand B, units, tables, at `rate` elements a cycle. -/
def arithUse (regs : VArith → List Nat) (useB : Bool) (units : VArith → List Nat) (tables : List Nat) (rate : VArith → Nat)
    (t : Tile) (f : Fields) (s : State) : VUse :=
  let q := vArith f
  { regs := regs q ++ (if useB then bRegs q else []), rows := if useB then bRows s t q else [], units := units q,
    masks := menRegs q, tables := tables, n := q.n, rate := rate q, i := ceilDiv q.n (rate q) }

/-- An element-wise floating-point instruction on va, B and, for VFMA and VFNMA, vc. -/
def vFloat (opc lat unit : Nat) (useB useC : Bool) (tables : List Nat) (op : Val → Val → Val → FnRes) : VOp :=
  { decl := vFloatDecl opc lat useB useC
    use := arithUse (fun q => [q.va] ++ (if useC then [q.vc] else [])) useB (fun _ => [unit]) tables (fun q => prRate q.pr)
    beat := fun x => vecBeat (prRate (vArith x.ctl).pr) lat 1 (vFloatElem useB useC op) x }

/-- A value with flags as a function result. -/
def asRes (p : Val × Flags) : FnRes := .val p.1 p.2

/-- The larger or smaller of two values by R133. -/
def pick (isMax : Bool) (a b : Val) : FnRes :=
  if a.isNan || b.isNan then .val (.nan false) 0
  else
    let ka := orderKey (toF32 .rne a).1
    let kb := orderKey (toF32 .rne b).1
    .val (if isMax then (if ka < kb then b else a) else (if kb < ka then b else a)) 0

/-- VADD: vd = va + B. -/
def vaddOp : VOp := vFloat 0x50 11 33 true false [] (fun a b _ => asRes (sumVal a b))
/-- VADD: issue. -/
def execVadd (t : Tile) (f : Fields) (s : State) : Host.Outcome State Fault Refusal := .next (vIssue vaddOp t f s)
/-- VSUB: vd = va − B. -/
def vsubOp : VOp := vFloat 0x51 11 33 true false [] (fun a b _ => asRes (sumVal a (negVal b)))
/-- VSUB: issue. -/
def execVsub (t : Tile) (f : Fields) (s : State) : Host.Outcome State Fault Refusal := .next (vIssue vsubOp t f s)
/-- VMUL: vd = va × B. -/
def vmulOp : VOp := vFloat 0x52 11 33 true false [] (fun a b _ => asRes (mulVal a b))
/-- VMUL: issue. -/
def execVmul (t : Tile) (f : Fields) (s : State) : Host.Outcome State Fault Refusal := .next (vIssue vmulOp t f s)
/-- a × b + c with one rounding. -/
def fmaRes (a b c : Val) : FnRes :=
  let (p, f) := mulVal a b
  let (v, g) := sumVal p c
  .val v (f ||| g)
/-- VFMA: vd = va × B + vc. -/
def vfmaOp : VOp := vFloat 0x53 11 33 true true [] fmaRes
/-- VFMA: issue. -/
def execVfma (t : Tile) (f : Fields) (s : State) : Host.Outcome State Fault Refusal := .next (vIssue vfmaOp t f s)
/-- VFNMA: vd = vc − va × B. -/
def vfnmaOp : VOp := vFloat 0x54 11 33 true true [] (fun a b c => fmaRes (negVal a) b c)
/-- VFNMA: issue. -/
def execVfnma (t : Tile) (f : Fields) (s : State) : Host.Outcome State Fault Refusal := .next (vIssue vfnmaOp t f s)
/-- VMAX (R133). -/
def vmaxOp : VOp := vFloat 0x55 11 33 true false [] (fun a b _ => pick true a b)
/-- VMAX: issue. -/
def execVmax (t : Tile) (f : Fields) (s : State) : Host.Outcome State Fault Refusal := .next (vIssue vmaxOp t f s)
/-- VMIN (R133). -/
def vminOp : VOp := vFloat 0x56 11 33 true false [] (fun a b _ => pick false a b)
/-- VMIN: issue. -/
def execVmin (t : Tile) (f : Fields) (s : State) : Host.Outcome State Fault Refusal := .next (vIssue vminOp t f s)
/-- VABS: the sign bit cleared. -/
def vabsOp : VOp := vFloat 0x57 11 33 false false [] (fun a _ _ => .val (absVal a) 0)
/-- VABS: issue. -/
def execVabs (t : Tile) (f : Fields) (s : State) : Host.Outcome State Fault Refusal := .next (vIssue vabsOp t f s)
/-- VNEG: the sign bit inverted. -/
def vnegOp : VOp := vFloat 0x58 11 33 false false [] (fun a _ _ => .val (negVal a) 0)
/-- VNEG: issue. -/
def execVneg (t : Tile) (f : Fields) (s : State) : Host.Outcome State Fault Refusal := .next (vIssue vnegOp t f s)
/-- VDIV: vd = va / B. -/
def vdivOp : VOp := vFloat 0x59 19 34 true false [] (fun a b _ => divRes a b)
/-- VDIV: issue. -/
def execVdiv (t : Tile) (f : Fields) (s : State) : Host.Outcome State Fault Refusal := .next (vIssue vdivOp t f s)

/-- A function of va, with its table for the parity check (R139, R437). -/
def vFn (opc table : Nat) (fn : Fn) : VOp := vFloat opc 19 34 false false [table] (fun a _ _ => fnRes fn a)
/-- VEXP of va. -/
def vexpOp : VOp := vFn 0x60 8 .exp
/-- VEXP: issue. -/
def execVexp (t : Tile) (f : Fields) (s : State) : Host.Outcome State Fault Refusal := .next (vIssue vexpOp t f s)
/-- VEXP2 of va. -/
def vexp2Op : VOp := vFn 0x61 9 .exp2
/-- VEXP2: issue. -/
def execVexp2 (t : Tile) (f : Fields) (s : State) : Host.Outcome State Fault Refusal := .next (vIssue vexp2Op t f s)
/-- VLOG of va. -/
def vlogOp : VOp := vFn 0x62 10 .log
/-- VLOG: issue. -/
def execVlog (t : Tile) (f : Fields) (s : State) : Host.Outcome State Fault Refusal := .next (vIssue vlogOp t f s)
/-- VLOG2 of va. -/
def vlog2Op : VOp := vFn 0x63 11 .log2
/-- VLOG2: issue. -/
def execVlog2 (t : Tile) (f : Fields) (s : State) : Host.Outcome State Fault Refusal := .next (vIssue vlog2Op t f s)
/-- VRCP of va. -/
def vrcpOp : VOp := vFn 0x64 12 .rcp
/-- VRCP: issue. -/
def execVrcp (t : Tile) (f : Fields) (s : State) : Host.Outcome State Fault Refusal := .next (vIssue vrcpOp t f s)
/-- VRSQ of va. -/
def vrsqOp : VOp := vFn 0x65 13 .rsq
/-- VRSQ: issue. -/
def execVrsq (t : Tile) (f : Fields) (s : State) : Host.Outcome State Fault Refusal := .next (vIssue vrsqOp t f s)
/-- VSQRT of va. -/
def vsqrtOp : VOp := vFn 0x66 14 .sqrt
/-- VSQRT: issue. -/
def execVsqrt (t : Tile) (f : Fields) (s : State) : Host.Outcome State Fault Refusal := .next (vIssue vsqrtOp t f s)
/-- VTANH of va. -/
def vtanhOp : VOp := vFn 0x67 15 .tanh
/-- VTANH: issue. -/
def execVtanh (t : Tile) (f : Fields) (s : State) : Host.Outcome State Fault Refusal := .next (vIssue vtanhOp t f s)
/-- VSIGM of va. -/
def vsigmOp : VOp := vFn 0x68 16 .sigm
/-- VSIGM: issue. -/
def execVsigm (t : Tile) (f : Fields) (s : State) : Host.Outcome State Fault Refusal := .next (vIssue vsigmOp t f s)

/-! ## Bitwise and integer instructions -/

/-- What an element-wise instruction on bits asks of issue. -/
def vBitsDecl (opc : Nat) (useA useB : Bool) (t : Tile) (f : Fields) (s : State) : VDecl :=
  let q := vArith f
  let i := ceilDiv q.n 512
  let legal := vCommon q true 0 && noSr q && q.vd < 32 && (!useA || q.va < 32) && (!useB || bLegal s t q)
  let reads := (if useA then [rdV s t q.va q.n 512] else []) ++ (if useB then rdB s t q 512 else []) ++ rdMen s t q 512
  { opc := opc, legal := legal, sreads := if useB then sB q else [], i := i, reads := reads,
    writes := [wrV s t q.vd q.n 512 11], vis := s.cyc + i - 1 + 11 }

/-- Element k of an element-wise instruction on bits. -/
def vBitsElem (op : VArith → W32 → W32 → W32 × Flags) (t : Tile) (q : VArith) (s : State) (k : Nat) : List W32 × Flags :=
  let (x, fl) := op q (vGet s t q.va k) (vB s t q k)
  ([x], fl)

/-- An element-wise instruction on the bits of va and B with PR = 0 and 512 elements per TCLK. -/
def vBits (opc unit : Nat) (useA useB : Bool) (op : VArith → W32 → W32 → W32 × Flags) : VOp :=
  { decl := vBitsDecl opc useA useB
    use := arithUse (fun q => if useA then [q.va] else []) useB (fun _ => [unit]) [] (fun _ => 512)
    beat := vecBeat 512 11 1 (vBitsElem op) }

/-- No flags. -/
def plain (op : W32 → W32 → W32) (_ : VArith) (a b : W32) : W32 × Flags := (op a b, 0)

/-- VMOV: vd = B, bits unchanged. -/
def vmovOp : VOp := vBits 0x5A 33 false true (plain fun _ b => b)
/-- VMOV: issue. -/
def execVmov (t : Tile) (f : Fields) (s : State) : Host.Outcome State Fault Refusal := .next (vIssue vmovOp t f s)
/-- VADDI. -/
def vaddiOp : VOp := vBits 0x80 32 true true (plain fun a b => a + b)
/-- VADDI: issue. -/
def execVaddi (t : Tile) (f : Fields) (s : State) : Host.Outcome State Fault Refusal := .next (vIssue vaddiOp t f s)
/-- VSUBI. -/
def vsubiOp : VOp := vBits 0x81 32 true true (plain fun a b => a - b)
/-- VSUBI: issue. -/
def execVsubi (t : Tile) (f : Fields) (s : State) : Host.Outcome State Fault Refusal := .next (vIssue vsubiOp t f s)
/-- VMULI: low 32 bits of the product. -/
def vmuliOp : VOp := vBits 0x82 32 true true (plain fun a b => a * b)
/-- VMULI: issue. -/
def execVmuli (t : Tile) (f : Fields) (s : State) : Host.Outcome State Fault Refusal := .next (vIssue vmuliOp t f s)
/-- VMAXI: signed maximum. -/
def vmaxiOp : VOp := vBits 0x83 32 true true (plain fun a b => if a.slt b then b else a)
/-- VMAXI: issue. -/
def execVmaxi (t : Tile) (f : Fields) (s : State) : Host.Outcome State Fault Refusal := .next (vIssue vmaxiOp t f s)
/-- VMINI: signed minimum. -/
def vminiOp : VOp := vBits 0x84 32 true true (plain fun a b => if b.slt a then b else a)
/-- VMINI: issue. -/
def execVmini (t : Tile) (f : Fields) (s : State) : Host.Outcome State Fault Refusal := .next (vIssue vminiOp t f s)
/-- VAND. -/
def vandOp : VOp := vBits 0x85 32 true true (plain fun a b => a &&& b)
/-- VAND: issue. -/
def execVand (t : Tile) (f : Fields) (s : State) : Host.Outcome State Fault Refusal := .next (vIssue vandOp t f s)
/-- VOR. -/
def vorOp : VOp := vBits 0x86 32 true true (plain fun a b => a ||| b)
/-- VOR: issue. -/
def execVor (t : Tile) (f : Fields) (s : State) : Host.Outcome State Fault Refusal := .next (vIssue vorOp t f s)
/-- VXOR. -/
def vxorOp : VOp := vBits 0x87 32 true true (plain fun a b => a ^^^ b)
/-- VXOR: issue. -/
def execVxor (t : Tile) (f : Fields) (s : State) : Host.Outcome State Fault Refusal := .next (vIssue vxorOp t f s)
/-- VSHL: by B[4:0]. -/
def vshlOp : VOp := vBits 0x88 32 true true (plain fun a b => a <<< (b.toNat % 32))
/-- VSHL: issue. -/
def execVshl (t : Tile) (f : Fields) (s : State) : Host.Outcome State Fault Refusal := .next (vIssue vshlOp t f s)
/-- VSRA: by B[4:0]. -/
def vsraOp : VOp := vBits 0x89 32 true true (plain fun a b => a.sshiftRight (b.toNat % 32))
/-- VSRA: issue. -/
def execVsra (t : Tile) (f : Fields) (s : State) : Host.Outcome State Fault Refusal := .next (vIssue vsraOp t f s)
/-- VSRL: by B[4:0]. -/
def vsrlOp : VOp := vBits 0x8A 32 true true (plain fun a b => a >>> (b.toNat % 32))
/-- VSRL: issue. -/
def execVsrl (t : Tile) (f : Fields) (s : State) : Host.Outcome State Fault Refusal := .next (vIssue vsrlOp t f s)

/-- FP32 to i32 (Table 5.5): NaN gives 0 with QN and NV, a value beyond the range saturates with NV and NX. -/
def f2i (rnd : Rnd) (x : W32) : W32 × Flags :=
  match f32 x with
  | .nan sg => (0, useFlags (.nan sg) ||| flNV)
  | .inf neg => (if neg then 0x80000000 else 0x7FFFFFFF, flNV ||| flNX)
  | .fin neg m e =>
    if m = 0 then (0, 0)
    else
      let (k, ix) := roundMag rnd 0 ⟨m, e, false⟩ 0
      let v : Int := if neg then -(k : Int) else k
      if v < -2147483648 then (0x80000000, flNV ||| flNX)
      else if 2147483647 < v then (0x7FFFFFFF, flNV ||| flNX)
      else (BitVec.ofInt 32 v, flIf ix flNX)
/-- VF2I. -/
def vf2iOp : VOp := vBits 0x8B 32 true false (fun q a _ => f2i (rndOf q.rnd) a)
/-- VF2I: issue. -/
def execVf2i (t : Tile) (f : Fields) (s : State) : Host.Outcome State Fault Refusal := .next (vIssue vf2iOp t f s)
/-- VI2F. -/
def vi2fOp : VOp := vBits 0x8C 32 true false (fun q a _ => toF32 (rndOf q.rnd) (intVal a.toInt 0))
/-- VI2F: issue. -/
def execVi2f (t : Tile) (f : Fields) (s : State) : Host.Outcome State Fault Refusal := .next (vIssue vi2fOp t f s)

/-! ## VCVT and VRNG -/

/-- Round an FP32 value to a format 0x0 to 0x5 and hold it as FP32 (R114, R119). -/
def cvtElem (c : Cvt) (i : Nat) (x : W32) : W32 × Flags :=
  let v := f32 x
  let (code, fl) := convScalar c.fmt c.rnd c.ofm (cvtWord c i) v
  ((toF32 .rne (decodeElem c.fmt code)).1, useFlags v ||| fl)

/-- What VCVT asks of issue. -/
def vcvtDecl (t : Tile) (f : Fields) (s : State) : VDecl :=
  let q := vArith f
  let i := ceilDiv q.n 512
  let sr := decide (q.rnd = 2)
  let legal := vCommon q true 5 && q.vd < 32 && q.va < 32 && !(sr && q.vb = 63)
  { opc := 0x5B, legal := legal, sreads := if sr && q.vb ≠ 63 then [q.vb, q.vb + 1] else [], i := i,
    reads := [rdV s t q.va q.n 512] ++ rdMen s t q 512, writes := [wrV s t q.vd q.n 512 11],
    vis := s.cyc + i - 1 + 11 }
/-- Element k of VCVT. -/
def vcvtElem (t : Tile) (q : VArith) (s : State) (k : Nat) : List W32 × Flags :=
  let c : Cvt := ⟨q.vc, rndOf q.rnd, q.ofm, false, (sreg s t q.vb).toNat⟩
  let (x, fl) := cvtElem c ((sreg s t (q.vb + 1)).toNat + k) (vGet s t q.va k)
  ([x], fl)

/-- VCVT: vd = va rounded to format VC[3:0]; seed in sVB, index base in the next register. -/
def vcvtOp : VOp :=
  { decl := vcvtDecl
    use := arithUse (fun q => [q.va]) false (fun q => 33 :: (if q.rnd = 2 then [37] else [])) [] (fun _ => 512)
    beat := vecBeat 512 11 1 vcvtElem }
/-- VCVT: issue. -/
def execVcvt (t : Tile) (f : Fields) (s : State) : Host.Outcome State Fault Refusal := .next (vIssue vcvtOp t f s)

/-- The word or uniform value of VRNG (R137). -/
def rngElem (uniform : Bool) (seed i : Nat) : W32 :=
  let r := philoxWord seed i 1
  if uniform then (toF32 .rne (.fin false (r >>> 8) (-24))).1 else BitVec.ofNat 32 r

/-- What VRNG asks of issue. -/
def vrngDecl (t : Tile) (f : Fields) (s : State) : VDecl :=
  let q := vArith f
  let i := ceilDiv q.n 512
  let legal := vCommon q true 1 && noSr q && q.vd < 32 && q.vb ≠ 63
  { opc := 0x9B, legal := legal, sreads := if q.vb ≠ 63 then [q.vb, q.vb + 1] else [], i := i,
    reads := rdMen s t q 512, writes := [wrV s t q.vd q.n 512 19], vis := s.cyc + i - 1 + 19 }
/-- Element k of VRNG. -/
def vrngElem (t : Tile) (q : VArith) (s : State) (k : Nat) : List W32 × Flags :=
  ([rngElem (q.vc = 1) (sreg s t q.vb).toNat ((sreg s t (q.vb + 1)).toNat + k)], 0)

/-- VRNG: generator words with c2 = 1. -/
def vrngOp : VOp :=
  { decl := vrngDecl
    use := arithUse (fun _ => []) false (fun _ => [37]) [] (fun _ => 512)
    beat := vecBeat 512 19 1 vrngElem }
/-- VRNG: issue. -/
def execVrng (t : Tile) (f : Fields) (s : State) : Host.Outcome State Fault Refusal := .next (vIssue vrngOp t f s)

/-! ## Reductions (R111, R112, R130, R131) -/

/-- Indices lo to lo + n − 1 that take part. -/
def onIdx (s : State) (t : Tile) (q : VArith) (lo n : Nat) : List (Option Nat) :=
  tabulate n fun j => if vOn s t q (lo + j) then some (lo + j) else none

/-- Sum of leaves along the fixed tree; `leaf` answers the exact leaf and its flags. -/
def redSum (s : State) (t : Tile) (q : VArith) (lo n : Nat) (leaf : Nat → Val × Flags) : W32 × Flags :=
  let xs := (onIdx s t q lo n).map fun o => o.map leaf
  let (x, f) := treeF32 (xs.map fun o => o.map (·.1))
  (x, f ||| flAll (xs.map fun o => match o with | some p => p.2 | none => 0))

/-- An element as a leaf. -/
def leafV (x : W32) : Val × Flags := (f32 x, useFlags (f32 x))
/-- An exact product as a leaf. -/
def leafMul (x y : W32) : Val × Flags :=
  let (v, f) := mulVal (f32 x) (f32 y)
  (v, f ||| useFlags (f32 x) ||| useFlags (f32 y))

/-- Maximum or minimum of elements lo to lo + n − 1 with the index counted from lo. -/
def redBest (isMax : Bool) (s : State) (t : Tile) (q : VArith) (lo n : Nat) : W32 × W32 × Flags :=
  treeBest isMax ((onIdx s t q lo n).filterMap fun o => o.map fun i => (i - lo, vGet s t q.va i))

/-- What a reduction to a scalar register asks of issue. -/
def vReduceDecl (opc : Nat) (useB : Bool) (t : Tile) (f : Fields) (s : State) : VDecl :=
  let q := vArith f
  let i := ceilDiv q.n 512
  let vis := s.cyc + i + 18
  let legal := vCommon q true 0 && noSr q && q.va < 32 && (!useB || bLegal s t q)
  { opc := opc, legal := legal, sreads := if useB then sB q else [], swrite := some (q.vd, vis), i := i,
    reads := [rdV s t q.va q.n 512] ++ (if useB then rdB s t q 512 else []) ++ rdMen s t q 512, vis := vis }

/-- A value computed by an instruction reaches its scalar register, whose cycle of visibility was entered at issue (R144). -/
def regNow (t : Tile) (r : Nat) (v : W64) (s : State) : State :=
  if r = 0 then s else { s with pl := { s.pl with sregs := smapSet 0 (64 * t.val + r) v s.pl.sregs } }
/-- One beat of an instruction with a scalar result: the elements of the cycle are read, and the last beat forms the result. -/
def scalarBeat (val : Tile → State → VArith → W32 × W32 × Flags) (x : VRun) (s : State) : VRun × State :=
  let y := vCapture x s
  if vLast x s then
    let q := vArith x.ctl
    let (lo, hi, fl) := val x.tile (vCaught y s) q
    (y, accrue x.tile fl (regNow x.tile q.vd (hi ++ lo) s))
  else (y, s)

/-- A reduction to a scalar register, visible from s + I + 18. -/
def vReduce (opc : Nat) (useB : Bool) (val : Tile → State → VArith → W32 × W32 × Flags) : VOp :=
  { decl := vReduceDecl opc useB
    use := arithUse (fun q => [q.va]) useB (fun _ => [35]) [] (fun _ => 512)
    beat := scalarBeat val }

/-- The values of the scalar reductions: low word, high word, flags (Table 5.3). -/
def vrsumVal (t : Tile) (s : State) (q : VArith) : W32 × W32 × Flags :=
  let (x, fl) := redSum s t q 0 q.n fun i => leafV (vGet s t q.va i)
  (x, 0, fl)
def vrbestVal (isMax : Bool) (t : Tile) (s : State) (q : VArith) : W32 × W32 × Flags := redBest isMax s t q 0 q.n
def vrdotVal (t : Tile) (s : State) (q : VArith) : W32 × W32 × Flags :=
  let (x, fl) := redSum s t q 0 q.n fun i => leafMul (vGet s t q.va i) (vB s t q i)
  (x, 0, fl)

/-- VRSUM. -/
def vrsumOp : VOp := vReduce 0x70 false vrsumVal
/-- VRSUM: issue. -/
def execVrsum (t : Tile) (f : Fields) (s : State) : Host.Outcome State Fault Refusal := .next (vIssue vrsumOp t f s)
/-- VRMAX. -/
def vrmaxOp : VOp := vReduce 0x71 false (vrbestVal true)
/-- VRMAX: issue. -/
def execVrmax (t : Tile) (f : Fields) (s : State) : Host.Outcome State Fault Refusal := .next (vIssue vrmaxOp t f s)
/-- VRMIN. -/
def vrminOp : VOp := vReduce 0x72 false (vrbestVal false)
/-- VRMIN: issue. -/
def execVrmin (t : Tile) (f : Fields) (s : State) : Host.Outcome State Fault Refusal := .next (vIssue vrminOp t f s)
/-- VRDOT. -/
def vrdotOp : VOp := vReduce 0x73 true vrdotVal
/-- VRDOT: issue. -/
def execVrdot (t : Tile) (f : Fields) (s : State) : Host.Outcome State Fault Refusal := .next (vIssue vrdotOp t f s)

/-- What a row instruction asks of issue. -/
def vRowsDecl (opc dests : Nat) (useB useC : Bool) (t : Tile) (f : Fields) (s : State) : VDecl :=
  let q := vArith f
  let i := ceilDiv q.n 512
  let vis := s.cyc + i + 18
  let lr := vLr s t q
  let legal := vCommon q true (if useC then 31 else 0) && noSr q && q.vd + dests ≤ 32 && q.va < 32 &&
    (!useB || bLegal s t q) && lrOk s t q && q.n % (max lr 1) = 0
  { opc := opc, legal := legal, sreads := [q.sl] ++ (if useB then sB q else []), i := i,
    reads := [rdV s t q.va q.n 512] ++ (if useB then rdB s t q 512 else []) ++
      (if useC then [rdV s t q.vc q.n 512] else []) ++ rdMen s t q 512,
    writes := (List.range dests).map fun j => wrAll t (q.vd + j) (q.n / max lr 1) vis, vis := vis }

/-- One beat of a row instruction (R131): the elements of the cycle are read, and the last beat puts one result per row on its
way into each of `dests` registers from vd on, visible 19 TCLK later. -/
def rowsBeat (dests : Nat) (row : Tile → State → VArith → Nat → Nat → List W32 × Flags) (x : VRun) (s : State) :
    VRun × State :=
  let y := vCapture x s
  if vLast x s then
    let q := vArith x.ctl
    let v := vCaught y s
    let lr := vLr v x.tile q
    let rs := tabulate (q.n / max lr 1) fun r => row x.tile v q (r * lr) lr
    let ws := tabulate dests fun j => (⟨x.tile, false, q.vd + j, 0, s.cyc + 19, rs.map fun r => some (r.1.getD j 0)⟩ : VWrite)
    (y, accrue x.tile (flAll (rs.map (·.2))) (vPutOut ws s))
  else (y, s)

/-- A row instruction. -/
def vRows (opc dests : Nat) (useB useC : Bool) (row : Tile → State → VArith → Nat → Nat → List W32 × Flags) : VOp :=
  { decl := vRowsDecl opc dests useB useC
    use := arithUse (fun q => [q.va] ++ (if useC then [q.vc] else [])) useB (fun _ => [35]) [] (fun _ => 512)
    beat := rowsBeat dests row }

/-- The values of one row of the row instructions (Table 5.3). -/
def rowSum (t : Tile) (s : State) (q : VArith) (lo n : Nat) : List W32 × Flags :=
  let (x, fl) := redSum s t q lo n fun i => leafV (vGet s t q.va i)
  ([x], fl)
def rowBest (isMax : Bool) (t : Tile) (s : State) (q : VArith) (lo n : Nat) : List W32 × Flags :=
  let (x, k, fl) := redBest isMax s t q lo n
  ([x, k], fl)
def rowDot (t : Tile) (s : State) (q : VArith) (lo n : Nat) : List W32 × Flags :=
  let (x, fl) := redSum s t q lo n fun i => leafMul (vGet s t q.va i) (vB s t q i)
  ([x], fl)
def rowDot2 (t : Tile) (s : State) (q : VArith) (lo n : Nat) : List W32 × Flags :=
  let (x, fx) := redSum s t q lo n fun i => leafMul (vGet s t q.va i) (vB s t q i)
  let (y, fy) := redSum s t q lo n fun i => leafMul (vGet s t q.va i) (vGet s t q.vc i)
  ([x, y], fx ||| fy)
def rowSq2 (t : Tile) (s : State) (q : VArith) (lo n : Nat) : List W32 × Flags :=
  let (x, fx) := redSum s t q lo n fun i => leafV (vGet s t q.va i)
  let (y, fy) := redSum s t q lo n fun i => leafMul (vGet s t q.va i) (vGet s t q.va i)
  ([x, y], fx ||| fy)

/-- VROWSUM. -/
def vrowsumOp : VOp := vRows 0x74 1 false false rowSum
/-- VROWSUM: issue. -/
def execVrowsum (t : Tile) (f : Fields) (s : State) : Host.Outcome State Fault Refusal := .next (vIssue vrowsumOp t f s)
/-- VROWMAX: value in vd, index within the row in v(d+1). -/
def vrowmaxOp : VOp := vRows 0x75 2 false false (rowBest true)
/-- VROWMAX: issue. -/
def execVrowmax (t : Tile) (f : Fields) (s : State) : Host.Outcome State Fault Refusal := .next (vIssue vrowmaxOp t f s)
/-- VROWMIN: value in vd, index within the row in v(d+1). -/
def vrowminOp : VOp := vRows 0x76 2 false false (rowBest false)
/-- VROWMIN: issue. -/
def execVrowmin (t : Tile) (f : Fields) (s : State) : Host.Outcome State Fault Refusal := .next (vIssue vrowminOp t f s)
/-- VROWDOT. -/
def vrowdotOp : VOp := vRows 0x77 1 true false rowDot
/-- VROWDOT: issue. -/
def execVrowdot (t : Tile) (f : Fields) (s : State) : Host.Outcome State Fault Refusal := .next (vIssue vrowdotOp t f s)
/-- VROWDOT2: Σ va × B and Σ va × vc. -/
def vrowdot2Op : VOp := vRows 0x78 2 true true rowDot2
/-- VROWDOT2: issue. -/
def execVrowdot2 (t : Tile) (f : Fields) (s : State) : Host.Outcome State Fault Refusal :=
  .next (vIssue vrowdot2Op t f s)
/-- VROWSQ2: Σ va and Σ va × va. -/
def vrowsq2Op : VOp := vRows 0x79 2 false false rowSq2
/-- VROWSQ2: issue. -/
def execVrowsq2 (t : Tile) (f : Fields) (s : State) : Host.Outcome State Fault Refusal := .next (vIssue vrowsq2Op t f s)

/-! ## Masks -/

/-- FP32 comparison (Table 5.5): −0 equals +0. -/
def cmpF (pred : Nat) (x y : W32) : Bool × Flags :=
  let a := f32 x
  let b := f32 y
  let fl := useFlags a ||| useFlags b
  if a.isNan || b.isNan then
    (pred = 1 || pred = 4, fl ||| flIf (pred = 2 || pred = 3) flNV)
  else
    let key := fun (w : W32) => if (f32 w).isZero then 0 else orderKey w
    let ka := key x
    let kb := key y
    (if pred = 0 then ka = kb else if pred = 1 then ka ≠ kb else if pred = 2 then ka < kb else if pred = 3 then ka ≤ kb
     else false, 0)
/-- i32 comparison. -/
def cmpI (pred : Nat) (x y : W32) : Bool :=
  if pred = 0 then x = y else if pred = 1 then x ≠ y else if pred = 2 then x.slt y else !y.slt x

/-- What a comparison asks of issue. -/
def vCompareDecl (opc maxPred : Nat) (t : Tile) (f : Fields) (s : State) : VDecl :=
  let q := vArith f
  let i := ceilDiv q.n 512
  let legal := vCommon q true maxPred && noSr q && q.vd < 8 && q.va < 32 && bLegal s t q
  { opc := opc, legal := legal, sreads := sB q, i := i,
    reads := [rdV s t q.va q.n 512] ++ rdB s t q 512 ++ rdMen s t q 512,
    writes := [wrM s t q.vd q.n 512 11], vis := s.cyc + i - 1 + 11 }
/-- Bit k of a comparison. -/
def vCompareElem (op : Nat → W32 → W32 → Bool × Flags) (t : Tile) (q : VArith) (s : State) (k : Nat) : Bool × Flags :=
  op q.vc (vGet s t q.va k) (vB s t q k)

/-- A comparison into a mask register. -/
def vCompare (opc unit maxPred : Nat) (op : Nat → W32 → W32 → Bool × Flags) : VOp :=
  { decl := vCompareDecl opc maxPred
    use := arithUse (fun q => [q.va]) true (fun _ => [unit]) [] (fun _ => 512)
    beat := maskBeat 512 11 (vCompareElem op) }

/-- VCMP. -/
def vcmpOp : VOp := vCompare 0x90 33 4 cmpF
/-- VCMP: issue. -/
def execVcmp (t : Tile) (f : Fields) (s : State) : Host.Outcome State Fault Refusal := .next (vIssue vcmpOp t f s)
/-- VCMPI. -/
def vcmpiOp : VOp := vCompare 0x91 32 3 (fun p a b => (cmpI p a b, 0))
/-- VCMPI: issue. -/
def execVcmpi (t : Tile) (f : Fields) (s : State) : Host.Outcome State Fault Refusal := .next (vIssue vcmpiOp t f s)

/-- VMLOG's operations (Table 5.3). -/
def mlog (op : Nat) (a b : Bool) : Bool :=
  if op = 0 then a && b else if op = 1 then a || b else if op = 2 then a != b else if op = 3 then a && !b
  else if op = 4 then false else true

/-- What VMLOG asks of issue. -/
def vmlogDecl (t : Tile) (f : Fields) (s : State) : VDecl :=
  let q := vArith f
  let legal := vCommon q true 5 && noSr q && q.vd < 8 && q.va < 8 && q.vb < 8
  { opc := 0x92, legal := legal, i := 1,
    reads := [rdM s t q.va q.n 4096, rdM s t q.vb q.n 4096] ++ rdMen s t q 4096,
    writes := [wrM s t q.vd q.n 4096 11], vis := s.cyc + 11 }
/-- Bit k of VMLOG. -/
def vmlogElem (t : Tile) (q : VArith) (s : State) (k : Nat) : Bool × Flags := (mlog q.vc (mGet s t q.va k) (mGet s t q.vb k), 0)

/-- VMLOG: reads every bit on cycle s; visible from s + 11; occupies the path 1 TCLK (R124, R125). -/
def vmlogOp : VOp :=
  { decl := vmlogDecl
    use := fun _ f _ => let q := vArith f
      { masks := [q.va, q.vb] ++ menRegs q, n := q.n, rate := 4096, i := 1 }
    beat := maskBeat 4096 11 vmlogElem }
/-- VMLOG: issue. -/
def execVmlog (t : Tile) (f : Fields) (s : State) : Host.Outcome State Fault Refusal := .next (vIssue vmlogOp t f s)

/-- What VMPOP asks of issue. -/
def vmpopDecl (t : Tile) (f : Fields) (s : State) : VDecl :=
  let q := vArith f
  let legal := vCommon q true 0 && noSr q && q.va < 8
  { opc := 0x93, legal := legal, swrite := some (q.vd, s.cyc + 11), i := 1,
    reads := [rdM s t q.va q.n 4096] ++ rdMen s t q 4096, vis := s.cyc + 11 }
/-- VMPOP's count, as the two words of its result. -/
def vmpopVal (t : Tile) (s : State) (q : VArith) : W32 × W32 × Flags :=
  (BitVec.ofNat 32 ((List.range q.n).filter fun k => vOn s t q k && mGet s t q.va k).length, 0, 0)

/-- VMPOP: counts set bits among bits 0 to n − 1 of ma, those the governing mask processes; visible from s + 11. -/
def vmpopOp : VOp :=
  { decl := vmpopDecl
    use := fun _ f _ => let q := vArith f
      { masks := [q.va] ++ menRegs q, n := q.n, rate := 4096, i := 1 }
    beat := scalarBeat vmpopVal }
/-- VMPOP: issue. -/
def execVmpop (t : Tile) (f : Fields) (s : State) : Host.Outcome State Fault Refusal := .next (vIssue vmpopOp t f s)

/-! ## Pieces for the split modes (R134-R136) -/

/-- The three BF16 pieces of R80 as FP32 words, with the flags of R134. -/
def split3 (x : W32) : List W32 × Flags :=
  let v := f32 x
  match v with
  | .nan _ => ([0x7FC00000, 0, 0], useFlags v)
  | .inf neg => ([if neg then 0xFF800000 else 0x7F800000, 0, 0], 0)
  | .fin neg _ _ =>
    let sub := fun (a b : Val) => dyVal (addDy (valDy a) (valDy (negVal b)))
    let (c0, f0) := convF fmtBf16 .rne false 0 v
    let c0 := if f0 &&& flOF ≠ 0 then (if neg then 0xFF7F else 0x7F7F) else c0
    let r1 := sub v (decodeF fmtBf16 c0)
    let (c1, _) := convF fmtBf16 .rne false 0 r1
    let r2 := sub r1 (decodeF fmtBf16 c1)
    let (c2, f2) := convF fmtBf16 .rne false 0 r2
    ([BitVec.ofNat 32 (c0 * 65536), BitVec.ofNat 32 (c1 * 65536), BitVec.ofNat 32 (c2 * 65536)], f2)

/-- What VSPL3 asks of issue. -/
def vspl3Decl (t : Tile) (f : Fields) (s : State) : VDecl :=
  let q := vArith f
  let i := ceilDiv q.n 512
  let legal := vCommon q true 0 && noSr q && q.vd + 3 ≤ 32 && q.va < 32
  { opc := 0x98, legal := legal, i := i, reads := [rdV s t q.va q.n 512] ++ rdMen s t q 512,
    writes := (List.range 3).map fun j => wrV s t (q.vd + j) q.n 512 11, vis := s.cyc + i - 1 + 11 }
/-- VSPL3. -/
def vspl3Op : VOp :=
  { decl := vspl3Decl
    use := arithUse (fun q => [q.va]) false (fun _ => [33]) [] (fun _ => 512)
    beat := vecBeat 512 11 3 fun t q s k => split3 (vGet s t q.va k) }
/-- VSPL3: issue. -/
def execVspl3 (t : Tile) (f : Fields) (s : State) : Host.Outcome State Fault Refusal := .next (vIssue vspl3Op t f s)

/-- Binary64 element i of an even-odd register pair (R128). -/
def vPair (s : State) (t : Tile) (v i : Nat) : Nat := (vGet s t v i).toNat + 2 ^ 32 * (vGet s t (v + 1) i).toNat

/-- The exponent class of a binary64 value (R135). -/
def ilog64 (x : Nat) : Int :=
  match decodeF fmtF64 x with
  | .fin _ m e => if m = 0 then -1074 else (Nat.log2 m : Int) + e
  | _ => 32765

/-- What VILOG64 asks of issue. -/
def vilog64Decl (t : Tile) (f : Fields) (s : State) : VDecl :=
  let q := vArith f
  let i := ceilDiv q.n 256
  let legal := vCommon q true 0 && noSr q && q.vd < 32 && q.va < 32 && q.va % 2 = 0
  { opc := 0x99, legal := legal, i := i,
    reads := [rdV s t q.va q.n 256, rdV s t (q.va + 1) q.n 256] ++ rdMen s t q 256,
    writes := [wrV s t q.vd q.n 256 11], vis := s.cyc + i - 1 + 11 }
/-- Element k of VILOG64. -/
def vilog64Elem (t : Tile) (q : VArith) (s : State) (k : Nat) : List W32 × Flags :=
  ([BitVec.ofInt 32 (ilog64 (vPair s t q.va k))], 0)
/-- VILOG64. -/
def vilog64Op : VOp :=
  { decl := vilog64Decl
    use := arithUse (fun q => [q.va, q.va + 1]) false (fun _ => [32]) [] (fun _ => 256)
    beat := vecBeat 256 11 1 vilog64Elem }
/-- VILOG64: issue. -/
def execVilog64 (t : Tile) (f : Fields) (s : State) : Host.Outcome State Fault Refusal := .next (vIssue vilog64Op t f s)

/-- The digits d1 to d6 from t, lowest first, and what is left (R83). -/
def digitsGo : Nat → Int → List Int → List Int
  | 0, t, acc => t :: acc
  | n + 1, t, acc =>
    let d := signOf 8 (wrapInt 8 t)
    digitsGo n ((t - d) / 256) (d :: acc)

/-- The digits d0 to d6 of a binary64 value under an exponent entry, with flags (R136). -/
def slice64 (x : Nat) (e : Int) : List W32 × Flags :=
  let v := decodeF fmtF64 x
  let zero : List W32 := List.replicate 7 0
  match v with
  | .nan _ => (zero, useFlags v)
  | .inf _ => (zero, 0)
  | .fin neg m g =>
    if e = 32767 then (zero, 0)
    else if e < -1072 ∨ 1025 < e then (zero, flNV)
    else
      let (k, ix) := if m = 0 then (0, false) else roundMag .rne 0 ⟨m, g + 55 - e, false⟩ 0
      let big := decide (2 ^ 54 ≤ k)
      let k := if big then 2 ^ 54 - 1 else k
      ((digitsGo 6 (if neg then -(k : Int) else k) []).map fun d => BitVec.ofInt 32 d,
       flIf ix flNX ||| flIf big flNV)

/-- What VSLC64 asks of issue. -/
def vslc64Decl (t : Tile) (f : Fields) (s : State) : VDecl :=
  let q := vArith f
  let i := ceilDiv q.n 256
  let legal := vCommon q true 0 && noSr q && q.vd + 7 ≤ 32 && q.va < 32 && q.va % 2 = 0 && bLegal s t q
  { opc := 0x9A, legal := legal, sreads := sB q, i := i,
    reads := [rdV s t q.va q.n 256, rdV s t (q.va + 1) q.n 256] ++ rdB s t q 256 ++ rdMen s t q 256,
    writes := (List.range 7).map fun j => wrV s t (q.vd + j) q.n 256 11, vis := s.cyc + i - 1 + 11 }
/-- VSLC64. -/
def vslc64Op : VOp :=
  { decl := vslc64Decl
    use := arithUse (fun q => [q.va, q.va + 1]) true (fun _ => [36]) [] (fun _ => 256)
    beat := vecBeat 256 11 7 fun t q s k => slice64 (vPair s t q.va k) (vB s t q k).toInt }
/-- VSLC64: issue. -/
def execVslc64 (t : Tile) (f : Fields) (s : State) : Host.Outcome State Fault Refusal := .next (vIssue vslc64Op t f s)

end Sys2Proof.Machine
end

