-- ==== Sys2Proof/Machine/Segment.lean ====
section
/-! DEFINITION. A segment's life: admission of RUN, placement, start, completion and the stop of issue (R143, R150, R164,
R174, R209, R211, R286, R290), with the block resets that wait for its end (R391). -/

namespace Sys2Proof.Machine

/-! ## Block resets of a tensor die and an NRU -/

/-- A step of a tile's own that is due later. -/
def stepOf (t : Tile) (i : Instr) : Bool := match i with | .drain x _ => x = t | _ => false
/-- Clear a tensor die's local stores, instruction memories, scalar, vector and mask registers and Hedge banks. What its
tiles still have in progress, products, drains, tree reductions, Verge beats, mover beats and writes under way to its local stores, ends
without further effect, as the block is held in reset (R391, R392; DESIGN CHOICE, entry 153). -/
def clearDie (k : Die) (s : State) : State :=
  let lo := 16 * k.val
  let cut := fun {β : Type} (w : Nat) (m : SMap β) => smapClear (lo * w) ((lo + 16) * w) m
  let mine := fun (t : Tile) => t.val / 16 = k.val
  let store := fun (a : Nat) => lsBase (tileOf lo) ≤ a && a < lsBase (tileOf lo) + 16 * 0x2000000
  let mem := (List.range 16).foldl (fun m i =>
    memClear m (lsBase (tileOf (lo + i))) (lsBase (tileOf (lo + i)) + lsSize)) s.mem
  { s with
    mem := mem
    agenda := s.agenda.filter fun x => !((List.range 16).any fun i => stepOf (tileOf (lo + i)) x.2)
    pl := { s.pl with
      sregs := cut 64 s.pl.sregs, vregs := cut (32 * 4096) s.pl.vregs, masks := cut (8 * 4096) s.pl.masks,
      imem := cut 32768 s.pl.imem, fas := cut 131072 s.pl.fas,
      prods := s.pl.prods.filter fun x => !mine x.tile, drains := s.pl.drains.filter fun x => !mine x.tile,
      trees := s.pl.trees.filter fun x => x.root / 16 ≠ k.val, vruns := s.pl.vruns.filter fun x => !mine x.tile,
      vwrites := s.pl.vwrites.filter fun x => !mine x.tile, flows := s.pl.flows.filter fun x => !mine x.tile,
      pw := s.pl.pw.filter fun w => !store w.addr, ipages := s.pl.ipages.filter fun p => !mine p.tile,
      hreads := s.pl.hreads.filter fun x => !mine x.tile, xfers := s.pl.xfers.filter fun x => !mine x.tile } }

/-- Clear an NRU's SRAM and tag array, and its ranges in force; its operation counter restarts, and operations that it has
not applied end without effect (R391, R392, R455; DESIGN CHOICE, entry 153). -/
def clearNru (u : NruId) (s : State) : State :=
  let mem := memClear s.mem (nruBase + u.val * 0x2000000) (nruBase + (u.val + 1) * 0x2000000)
  { s with mem := memClear mem (tagBase + u.val * 0x200000) (tagBase + (u.val + 1) * 0x200000),
           pl := { s.pl with nruRanges := s.pl.nruRanges.filter (fun r => r.unit ≠ u), nruOps := smapSet 0 u.val 0 s.pl.nruOps,
                             nruFlight := s.pl.nruFlight.filter fun o => o.unit ≠ u } }

/-- Start the die and NRU resets that RST.BLOCK holds pending: a die is held for 64 TCLK, an NRU for 64 MCLK (R391, R392). -/
def pendingResets (s : State) : State :=
  let due := fun (s : State) b => s.ck.blockPend.getLsbD b && !inBlockReset s b
  let s := (List.finRange 8).foldl (fun s k => if due s (24 + k.val) then holdBlock (24 + k.val) 64 (clearDie k s) else s) s
  (List.finRange 12).foldl (fun s u => if due s (12 + u.val) then holdBlock (12 + u.val) 128 (clearNru u s) else s) s

/-- A die or NRU reset is pending or in force, and a placement waits for it (R209, R391). -/
def placementWaits (s : State) : Bool := s.ck.blockPend &&& 0xFFFFF000#32 ≠ 0

/-! ## Admission (R174, R219, R220, R286, R299, R320, R375, R444) -/

/-- The segment table entry of a RUN in the active image. -/
def segEntry (s : State) (g : Nat) : Option ImgSeg := match s.pl.active with | none => none | some im => im.segs[g]?

/-- The declared pointers and peaks of a segment agree with the grants and the pointers in force (R174). -/
def laybyDeclared (s : State) (g : Nat) : Bool :=
  match s.pl.active, segEntry s g with
  | some im, some e =>
    ((im.decls.drop e.declFirst).take e.declCount).all fun d =>
      let k := laybySlot s d.slot
      d.hbmPeak ≤ k.hbmQuota && (if k.ovfEn then d.ovfPeak ≤ k.ovfQuota else d.ovfPeak = 0 && d.ovfEntry = 0) &&
        d.hbmEntry = k.hbmPtr && d.ovfEntry = k.ovfPtr
  | _, _ => false

/-- The code with which every RUN ends failed until a matching image is active: SET_DIGEST or a hop count differs (R220, R320). -/
def runBlock (s : State) : Option Nat :=
  if s.pl.imgBlock then some eImageSet else if s.pl.hopBlock then some eHopMismatch else none

/-- The code that refuses a RUN at its admission. -/
def runRefusal (s : State) (seg base : Nat) : Option Nat :=
  if s.hf.parked then some rParked
  else if s.cm.phase = .restoring then some rRestoring
  else if s.pl.fatCode ≠ 0 then some s.pl.fatCode.toNat
  else if (segEntry s seg).isNone then some rImageSegment
  else if (runBlock s).isSome then runBlock s
  else if base ≤ s.cyc then some rRunLate
  else if base % 73728 ≠ 0 then some rRunGrid
  else none

/-- Words that a segment's placement writes. -/
def placeWords (s : State) (g : Nat) : Nat :=
  match s.pl.active, segEntry s g with
  | some im, some e => ((im.tiles.drop e.tileFirst).take 128).foldl (fun n h => h.pages.foldl (fun n p => n + p.words) n) 0
  | _, _ => 0

/-- Begin the placement of the oldest admitted RUN on cycle `c`, after its Layby check; a RUN that fails the check ends
failed and the next is taken (structural in the list). While a die or NRU reset is in force it waits. -/
def beginPlacement (c : Nat) : List RunAdm → State → State
  | [], s => { s with pl := { s.pl with runs := [] } }
  | r :: rest, s =>
    if r.placed.isSome || placementWaits s then { s with pl := { s.pl with runs := r :: rest } }
    else if !laybyDeclared s r.seg then beginPlacement c rest (failCmd r.desc rLaybyQuota s)
    else
      let e := c + Config.placementTime (placeWords s r.seg)
      sched e .segmentPlacement { s with pl := { s.pl with runs := { r with placed := some e } :: rest } }

/-! ## Exchanges of a segment, and the step barrier (R182, R194, R198, R351) -/

/-- The exchange-table entries that the XCH words of a segment's pages name (DESIGN CHOICE, entry 95). -/
def segExis (s : State) (im : Image) (g : ImgSeg) : List Nat :=
  let words := fun (p : ImgPage) =>
    let bs := readBytes s (im.load + im.codeOff + 8 * p.src) (8 * p.words)
    tabulate p.words fun i => leField bs (8 * i) 8
  let ws := (List.range 128).flatMap fun t => ((im.tiles.getD (g.tileFirst + t) ⟨0, 0, 0, []⟩).pages).flatMap words
  ((ws.filter fun w => w / 2 ^ 56 = 0x28).map fun w => (mvF (BitVec.ofNat 56 w)).exi).eraseDups
/-- Every flit of a receiving entry waits in its port's buffer. -/
def flitsIn (s : State) (e : ImgExch) (exi : Nat) : Bool :=
  (List.range e.nflit).all fun k => (portSt s e.port).rx.any fun r =>
    r.2.tag.toNat = exi + 2 ^ 16 * (k % 2 ^ 16) && r.2.vc.toNat = 2 + e.group
/-- Some flit of a spine receiving entry of the segment has not entered its port's buffer (R351). -/
def spineMissing (s : State) (g : Nat) : Bool :=
  match s.pl.active, segEntry s g with
  | some im, some e => (segExis s im e).any fun exi =>
    match im.exch[exi]? with
    | some x => x.rx && 6 ≤ x.port.val && !flitsIn s x exi
    | none => false
  | _, _ => false
/-- A RUN waits at the step barrier: spine flits of its segment are missing, or a RUN before it waits. -/
def runWaits (s : State) (d : Desc) (g : Nat) : Bool :=
  match s.pl.runWait with
  | x :: _ => x.tag ≠ d.tag || spineMissing s g
  | [] => spineMissing s g
/-- Take a RUN off the list of those that wait. -/
def unwait (d : Desc) (s : State) : State :=
  { s with pl := { s.pl with runWait := s.pl.runWait.filter fun x => x.tag ≠ d.tag } }

/-- A RUN is admitted: its placement begins at once when no segment is before it. -/
def admitRun (d : Desc) (seg base : Nat) (s : State) : State :=
  let s := if s.pl.runWait.isEmpty then s else leaveBarrier (unwait d s)
  let s := if s.pl.runWait.isEmpty then s else reachBarrier s
  let runs := s.pl.runs ++ [{ desc := d, seg := seg, base := base, placed := none }]
  let s := sched base .segmentStart { s with pl := { s.pl with runs := runs } }
  if running s then s else beginPlacement s.cyc runs s

/-- RUN: ARG0[11:0] segment, ARG1 SEGBASE. It is admitted, or waits at the step barrier for the spine flits of its segment. -/
def execRun (d : Desc) (s : State) : Host.Outcome State Fault Refusal :=
  let seg := d.a0.toNat % 4096
  let base := d.a1.toNat
  .next (hostOnly s (
    let s := checkSet s
    match runRefusal s seg base with
    | some code => failCmd d code (unwait d s)
    | none =>
      if runWaits s d seg then
        let late := if s.pl.runWait.contains d then [] else [d]
        reachBarrier { s with pl := { s.pl with runWait := s.pl.runWait ++ late } }
      else admitRun d seg base s))

/-- The barrier on each cycle: the first RUN that waits is admitted once its spine flits are in; it ends failed when the step
has aborted (DESIGN CHOICE, entry 95), and is forgotten when its command is no longer there. -/
def barrierTick (s : State) : State :=
  match s.pl.runWait with
  | [] => s
  | d :: _ =>
    if (findCmd s d.tag).isNone then unwait d s
    else if s.cm.phase = .aborted then failCmd d rStepAborted (unwait d s)
    else if spineMissing s (d.a0.toNat % 4096) then s
    else schedNow (.run d) s

/-! ## Placement and start -/

/-- Write one tile's pages of a segment into its instruction memory (R209). -/
def placeTile (im : Image) (t : Tile) (h : ImgTile) (s : State) : State :=
  h.pages.foldl (fun s p =>
    let bs := readBytes s (im.load + im.codeOff + 8 * p.src) (8 * p.words)
    imemPut t p.dest (tabulate p.words fun i => BitVec.ofNat 64 (leField bs (8 * i) 8)) s) s

/-- SEGMENT_PLACEMENT: each tile's pages stand in instruction memory when the placement ends (R209). -/
def execSegmentPlacement (s : State) : Host.Outcome State Fault Refusal :=
  .next (segOnly s (
    match s.pl.runs, s.pl.active with
    | r :: _, some im =>
      (match r.placed, segEntry s r.seg with
      | some e, some g =>
        if e ≤ s.cyc then
          (List.finRange 128).foldl (fun s t => placeTile im t (im.tiles.getD (g.tileFirst + t.val) ⟨0, 0, 0, []⟩) s) s
        else s
      | _, _ => s)
    | _, _ => s))

/-- Take away a range of one unit that the segment's new set does not keep: its elements are cleared (R105, R211). -/
def clearRange (r : NruRange) (s : State) : State :=
  let a := nruBase + r.unit.val * 0x2000000
  let s := { s with mem := memClear s.mem (a + r.first * nruB r.mode) (a + (r.first + r.count) * nruB r.mode) }
  if r.mode = .exact then
    let b := tagBase + r.unit.val * 0x200000
    { s with mem := memClear s.mem (b + 2 * r.first) (b + 2 * (r.first + r.count)) }
  else s

/-- The NRU ranges of segment `g` replace those of the units it names (R211). -/
def startRanges (im : Image) (g : Nat) (s : State) : State :=
  let new := (im.nru.filter fun x => x.seg = g).map (·.range)
  let s := (new.filter fun r => !s.pl.nruRanges.contains r).foldl (fun s r => clearRange r s) s
  let keep := s.pl.nruRanges.filter fun r => !(new.any fun x => x.unit = r.unit)
  { s with pl := { s.pl with nruRanges := keep ++ new } }

/-- A tile at SEGBASE: PC at its entry, presets in its registers, flags and counts clear (R143, R208). -/
def startTile (im : Image) (base : Nat) (t : Tile) (h : ImgTile) (s : State) : State :=
  let pre := (im.presets.drop h.presetFirst).take h.presetCount
  let regs := smapClear (64 * t.val) (64 * t.val + 64) s.pl.sregs
  let regs := pre.foldl (fun m p =>
    smapSet 0 (64 * t.val + p.reg % 64) (if p.addLoad then p.value + BitVec.ofNat 64 im.load else p.value) m) regs
  let ctl : TileCtl := { pc := h.entry, next := base, run := true, last := base }
  { s with pl := { s.pl with sregs := regs, spend := s.pl.spend.filter (fun p => p.key / 64 ≠ t.val),
                             tiles := smapSet {} t.val ctl s.pl.tiles } }

/-- The check at the close of every arrival window of the segment: an exchange received in the pod (R194). -/
def windowChecks (im : Image) (g : ImgSeg) (base : Nat) (s : State) : State :=
  (segExis s im g).foldl (fun s exi =>
    match im.exch[exi]? with
    | some x =>
      if x.rx && x.port.val < 6 then
        sched (max s.cyc ((base : Int) + x.winClose).toNat) (.xchWindow x.port (BitVec.ofNat 16 exi)) s
      else s
    | none => s) s

/-- The segment of an admitted RUN starts. -/
def startSegment (im : Image) (g : ImgSeg) (r : RunAdm) (s : State) : State :=
  let err := if s.pl.stopAt.isSome then s.pl.segErr else 0
  let s := { s with
    pl := { s.pl with cur := some r, segSlot := g.slot, segErr := err, uflags := 0, xnfb := 0, xnff := none },
    tp := { s.tp with skewLogged := false } }
  let s := startRanges im r.seg s
  let s := windowChecks im g r.base s
  let s := (List.finRange 128).foldl (fun s t => startTile im r.base t (im.tiles.getD (g.tileFirst + t.val) ⟨0, 0, 0, []⟩) s) s
  progMark r.desc 2 0 s

/-- SEGMENT_START: on SEGBASE the placed segment starts; a RUN whose placement has not ended fails with
IMAGE_PLACE_LATE and no tile issues (R209), and one admitted before a mismatch was found fails with its code (R220, R320). -/
def execSegmentStart (s : State) : Host.Outcome State Fault Refusal :=
  .next (segOnly s (
    match s.pl.runs.find? (fun r => r.base ≤ s.cyc), s.pl.active with
    | some r, some im =>
      let rest := s.pl.runs.filter fun x => x.desc.tag ≠ r.desc.tag
      let first := match s.pl.runs with | x :: _ => x.desc.tag = r.desc.tag | [] => false
      let placed := match r.placed with | some e => decide (e < r.base) | none => false
      (match segEntry s r.seg with
      | some g =>
        let ends := fun (code : Nat) =>
          let s := failCmd r.desc code { s with pl := { s.pl with runs := rest } }
          if running s then s else beginPlacement s.cyc rest s
        if !(first && placed && !running s) then ends rImagePlaceLate
        else match runBlock s with
          | some code => ends code
          | none => startSegment im g r { s with pl := { s.pl with runs := rest } }
      | none => s)
    | _, _ => s))

/-! ## Completion (R150, R164, R240, R290) -/

/-- The lowest (cycle, NFI) of two first non-finite outputs. -/
def firstNf (a b : Option (Nat × Nat)) : Option (Nat × Nat) :=
  match a, b with
  | none, y => y
  | x, none => x
  | some (c, i), some (d, j) => if d < c ∨ (d = c ∧ j / 2 ^ 25 < i / 2 ^ 25) then some (d, j) else some (c, i)

/-- The merged flags, non-finite count and first non-finite output of the segment (R290). -/
def segResults (s : State) : BitVec 5 × Nat × Option (Nat × Nat) :=
  let ts := (List.finRange 128).map fun t => (t, tctl s t)
  let fl := ts.foldl (fun f x => f ||| x.2.flags) s.pl.uflags
  let nfb := min 0xFFFFFFFF (ts.foldl (fun n x => n + x.2.nfb.toNat) s.pl.xnfb.toNat)
  let mine := ts.map fun x => x.2.nff.map fun y => (y.1, x.1.val * 2 ^ 25 + y.2 % 65536)
  let nf := mine.foldl firstNf (s.pl.xnff.map fun x => (x.1, x.2.toNat))
  (fl, nfb, if nfb = 0 then none else nf)

/-- No tile issues any more. -/
def stopTiles (m : SMap TileCtl) : SMap TileCtl :=
  (m.map fun p => (p.1, { p.2 with run := false })).filter fun p => p.2 ≠ {}

/-- The running segment ends: its RUN becomes final with the merged results, held accesses and pending block resets are
served, and the next admitted RUN's placement begins on the next cycle. -/
def endSegment (err : Nat) (s : State) : State :=
  match s.pl.cur with
  | none => s
  | some r =>
    let err := if err = 0 then (runBlock s).getD 0 else err
    let (fl, nfb, nf) := segResults s
    let (vt, nfi) := match nf with | some (c, i) => (c - r.base, i) | none => (0, 0)
    let s := { s with pl := { s.pl with cur := none, stopAt := none, segErr := 0, tiles := stopTiles s.pl.tiles } }
    let s := finishCmd r.desc err fl vt nfb nfi s
    let s := pendingResets (serveHeld s)
    beginPlacement (s.cyc + 1) s.pl.runs s

/-- ISSUE_STOP: sixteen TCLK after a schedule fault or a step abort no tile issues, and held accesses and pending block
resets are served (R164, R240, R391). What has issued completes its effects, and with the last of them the segment (R150,
R164). -/
def execIssueStop (s : State) : Host.Outcome State Fault Refusal :=
  .next (segOnly s (
    match s.pl.stopAt with
    | none => s
    | some c =>
      if s.cyc < c then s
      else if running s then
        if s.cyc < lastEffect s then
          sched (lastEffect s) .segmentComplete
            (pendingResets (serveHeld { s with pl := { s.pl with tiles := stopTiles s.pl.tiles } }))
        else endSegment s.pl.segErr.toNat s
      else { s with pl := { s.pl with stopAt := none, segErr := 0 } }))

/-- SEGMENT_COMPLETE: every tile's part is complete (R150); after a fault the command ends failed (R164). -/
def execSegmentComplete (s : State) : Host.Outcome State Fault Refusal :=
  .next (segOnly s (
    if !running s ∨ anyIssuing s then s
    else if s.cyc < lastEffect s then sched (lastEffect s) .segmentComplete s
    else endSegment s.pl.segErr.toNat s))

end Sys2Proof.Machine
end

