-- ==== Sys2Proof/Machine/Snapshot.lean ====
section
/-! DEFINITION. Milestones: the snapshot list, the freeze, the staging copy, the stream, the manifest and the set record
(15_failure_survival R366-R373; 20 R457, R458; 17 R407). -/

namespace Sys2Proof.Machine

/-! ## Registers (Tables 15.2, 20.6, 20.7) -/

/-- MS.CTL.K and MS.CTL.TMO. -/
def msK (s : State) : Nat := bitsOf (reg64 s 0x60000) 63 48
def msTmo (s : State) : Nat := bitsOf (reg64 s 0x60000) 15 0
/-- MS.LIST: entries, and the address of the list. -/
def msCount (s : State) : Nat := bitsOf (reg64 s 0x60010) 63 52
def msAddr (s : State) : Nat := bitsOf (reg64 s 0x60010) 51 6 * 64
/-- SNAP registers, in bytes. -/
def stageBase (s : State) : Nat := bitsOf (reg64 s 0x60020) 51 16 * 65536
def stageLen (s : State) : Nat := bitsOf (reg64 s 0x60028) 47 16 * 65536
def slotLen (s : State) : Nat := bitsOf (reg64 s 0x60030) 47 16 * 65536
def setRecVa (s : State) : Nat := bitsOf (reg64 s 0x60038) 63 7 * 128
/-- First offset of the block of a snapshot port. -/
def spBase (p : SnapPort) : Nat := 0x60100 + 0x100 * p.val
/-- SPn.CTL fields: MTU in bytes, RETRY, EN. -/
def spMtu (s : State) (p : SnapPort) : Nat := 1024 * 2 ^ min 2 (bitsOf (reg32 s (spBase p)).toNat 29 28)
def spRetry (s : State) (p : SnapPort) : Nat := bitsOf (reg32 s (spBase p)).toNat 18 16
def spEn (s : State) (p : SnapPort) : Bool := bitOf (reg32 s (spBase p)).toNat 31
/-- SPn.RVA. -/
def spRva (s : State) (p : SnapPort) : Nat := reg64 s (spBase p + 0x48)
/-- The state of a snapshot port. -/
def spSt (s : State) (p : SnapPort) : SpSt := smapGet {} s.sp p.val
/-- Replace it. -/
def setSp (p : SnapPort) (x : SpSt) (s : State) : State := { s with sp := smapSet {} p.val x s.sp }
/-- The head of a port's RDMA WRITE; with V6 = 0 an address is its bytes 0 to 3 (R458, Table 20.7). -/
def roceHead (s : State) (p : SnapPort) : RoceHead :=
  let b := spBase p
  let c := (reg32 s b).toNat
  let v6 := bitOf c 30
  let ip := fun (o : Nat) => BitVec.ofNat 128 (if v6 then reg64 s (b + o + 8) * 2 ^ 64 + reg64 s (b + o) else reg64 s (b + o) % 2 ^ 32)
  let qp := reg64 s (b + 0x38)
  { port := p, lmac := BitVec.ofNat 48 (reg64 s (b + 8)), nmac := BitVec.ofNat 48 (reg64 s (b + 0x10)), v6 := v6, lip := ip 0x18,
    rip := ip 0x28, dscp := BitVec.ofNat 6 (bitsOf c 27 22), pcp := BitVec.ofNat 3 (bitsOf c 21 19),
    udpSrc := BitVec.ofNat 16 (0xC000 + qp % 2 ^ 14), udpDst := 4791, qpn := BitVec.ofNat 24 (bitsOf qp 55 32), psn := (spSt s p).psn,
    rkey := reg32 s (b + 0x44), mtu := spMtu s p }
/-- An RDMA WRITE leaves on a port: its packets take the next PSNs, and its tries are counted anew (R369, R458). -/
def rdmaWrite (p : SnapPort) (va : Nat) (bs : List Byte) (s : State) : State :=
  let y := spSt s p
  let n := ceilDiv bs.length (spMtu s p)
  emit (.rdma (roceHead s p) va bs) (setSp p { y with psn := y.psn + BitVec.ofNat 24 n, tries := 0 } s)
/-- Both snapshot ports. -/
def snapPorts : List SnapPort := [0, 1]

/-! ## The snapshot list (R366, R457) -/

/-- An entry of the list. -/
structure ListEnt where
  addr0 : Nat
  addr1 : Nat
  len : Nat
  gen : Bool
  clean : Bool
  deriving DecidableEq, Repr

/-- Read the list. -/
def msList (s : State) : List ListEnt :=
  tabulate (msCount s) fun i =>
    let e := readBytes s (msAddr s + 32 * i) 32
    { addr0 := leField e 0 8, addr1 := leField e 8 8, len := leField e 16 8, gen := bitOf (leField e 24 4) 0,
      clean := leField e 24 4 < 2 && leField e 28 4 = 0 }
/-- Every range that an entry names. -/
def entRanges (e : ListEnt) : List (Nat × Nat) :=
  if e.gen then [(e.addr0, e.len), (e.addr1, e.len)] else [(e.addr0, e.len)]
/-- The range that an entry saves under a value of CG. -/
def entSaved (cg : Bool) (e : ListEnt) : Nat × Nat := (if e.gen && cg then e.addr1 else e.addr0, e.len)
/-- Two ranges share a byte. -/
def rangesMeet (a an b bn : Nat) : Bool := a < b + bn && b < a + an && an ≠ 0 && bn ≠ 0
/-- A range lies in one valid, unretired region of HBM or LPDDR5X. -/
def savedRegion (s : State) (a n : Nat) : Bool :=
  (inHbm a || inLp a) && (rgnActive s).any fun e => e.v && !e.ret && e.base ≤ a && a + n ≤ e.base + e.size

/-- Lay items one after another from an offset on. -/
def layItems : Nat → List SnapItem → List SnapItem
  | _, [] => []
  | off, x :: r => { x with off := off } :: layItems (off + x.len) r

/-- The items of a snapshot in slot order: state record, list ranges, Layby bytes, live scale tables (R369). -/
def snapItems (s : State) (cg : Bool) : List SnapItem :=
  let es := msList s
  let mk := fun (kind index : Nat) (srcs : List (Nat × Nat)) =>
    ({ kind := kind, index := index, srcs := srcs, len := srcs.foldl (fun n r => n + r.2) 0, off := 0 } : SnapItem)
  let ranges := tabulate es.length fun i => mk 1 i [entSaved cg (es.getD i ⟨0, 0, 0, false, true⟩)]
  let lay := tabulate 16 fun k => let x := laybySlot s k; mk 2 k [(x.hbmBase, x.hbmPtr), (x.ovfBase, x.ovfPtr)]
  let scales := tabulate 12 fun g =>
    match scaleEntry s g with
    | some (im, x) => mk 4 g [(im.load + x.offset, x.count)]
    | none => mk 4 g []
  layItems 0 ({ kind := 3, index := 0, srcs := [], len := 65536, off := 0 } :: ranges ++ lay ++ scales)

/-- S of R366. -/
def snapTotal (xs : List SnapItem) : Nat :=
  let sum := fun (k : Nat) => (xs.filter fun x => x.kind = k).foldl (fun n x => n + x.len) 0
  sum 1 + sum 2 + 65536 + ceilDiv (sum 4) 65536 * 65536

/-- The list, its ranges and the staging area meet R366 and R457. -/
def msListOk (s : State) (cg : Bool) : Bool :=
  let es := msList s
  let rs := es.flatMap entRanges
  let total := snapTotal (snapItems s cg)
  let sb := stageBase s
  let sl := stageLen s
  es.all (fun e => e.clean && e.len % 65536 = 0) && rs.all (fun r => savedRegion s r.1 r.2) &&
  allApart (rs.map fun r => (r.1, r.1 + r.2)) &&
  rs.all (fun r => !(reservedRange r.1 r.2) && !rangesMeet r.1 r.2 sb sl) &&
  (es.isEmpty || rgnHolds s 2 (msAddr s) (32 * es.length)) && total ≤ sl &&
  inLp sb && rgnHolds s 2 sb sl && !reservedRange sb sl && 0x100000 + total ≤ slotLen s

/-! ## The state record (Table 15.7) -/

/-- One ring's part. -/
def recRing (s : State) (r : Ring) : List Byte :=
  leBytes 4 (ring s r).c.toNat ++ leBytes 4 (ring s r).a.toNat ++ leBytes 4 (ringCfg s r) ++ leBytes 4 (inflight s r)
/-- One port's part: sequence numbers sent and received, HOPRC, PSTAT[15:11]. -/
def recPort (s : State) (p : Port) : List Byte :=
  let x := portSt s p
  leBytes 2 (x.txSeq - 1).toNat ++ leBytes 2 x.rxSeq.toNat ++ leBytes 2 x.hoprc.toNat ++
    [BitVec.ofNat 8 (x.width.toNat * 8 + x.state.toNat), 0]
/-- The bitmap of accepted tags that are not final. -/
def recTags (s : State) : List Byte :=
  s.hf.cmds.foldl (fun bs c =>
    let n := c.desc.tag.toNat
    patch bs (n / 8) [bs.getD (n / 8) 0 ||| (1#8 <<< (n % 8))]) (zeros 8192)
/-- COUNT of each group's live table. -/
def recCounts (s : State) : List Byte :=
  (tabulate 12 fun g => leBytes 4 (match scaleEntry s g with | some (_, x) => x.count | none => 0)).flatten
/-- The 64 KiB state record. -/
def stateRecord (fence : Nat) (s : State) : List Byte :=
  let ptrs := (tabulate 16 fun k => let x := laybySlot s k; leBytes 8 x.hbmPtr ++ leBytes 8 x.ovfPtr).flatten
  let rgn := (tabulate 64 fun n => leBytes 8 (reg64 s (0x20000 + 8 * n))).flatten
  let head := leBytes 8 s.cm.step.toNat ++ leBytes 8 fence ++ [BitVec.ofNat 8 (b2n s.cm.cg)] ++ zeros 7 ++ ptrs ++ rgn ++
    (List.finRange 64).flatMap (recRing s) ++ allPorts.flatMap (recPort s) ++ recTags s
  let full := head ++ zeros (0x2800 - head.length) ++ recCounts s
  full ++ zeros (65536 - full.length)

/-! ## The end of the pause after a fence (R359, R367, R407) -/

/-- The COMMIT in progress ends done with CYC on cycle `c`. -/
def commitDone (c : Nat) (s : State) : State :=
  match s.cm.cmd with
  | some d =>
    if d.opc = 6 && d.a0.toNat = 2 then finishAt c d 0 0 0 0 0 { s with cm := { s.cm with cmd := none } } else s
  | none => s
/-- Throttle frames follow the fence or the freeze, from cycle `c` on (R407). -/
def pauseEnd (c : Nat) (s : State) : State :=
  if s.cm.frames = 0 then commitDone c s
  else
    let e := c + s.cm.frames * 65536
    sched e .throttleFramesEnd { s with cm := { s.cm with framesEnd := e } }

/-! ## Freeze and copy (R367) -/

/-- FRZ. -/
def freezeLen (total : Nat) : Nat := 4096 + ceilDiv total 160

/-- Open the freeze of the snapshot due: the state record, with the cycle of the fence, is written into the staging area. -/
def openFreeze (s : State) : State :=
  match s.cm.snap with
  | none => s
  | some _ =>
    let s := { s with cm := { s.cm with frozen := true, freezeDue := false, freezeAt := s.cyc } }
    let s := sysStore mdPort (stageBase s) (stateRecord s.cm.lastCommit s) s
    sched (s.cyc + freezeLen s.cm.total) .freezeClose s

/-- Lines of a range whose latest data is not in memory: a cache holds them, or a write waits at their channel. -/
def cachedLines (s : State) (a n : Nat) : List Nat :=
  let waits : List Nat := s.coh.hbmq.flatMap fun (c : Nat × HbmChan) => (c.2.q ++ c.2.wait).map fun r => r.req.addr / 64
  (s.coh.l3.map (fun p => p.1) ++ s.coh.dir.map (fun p => p.1) ++ waits).filter fun l => lineHit a n l
/-- A line of a range is poisoned. -/
def rangePoison (s : State) (a n : Nat) : Bool :=
  (s.coh.poison ++ cachedLines s a n).any fun l => lineHit a n l && (cohLine s (BitVec.ofNat 46 l)).2
/-- The snapshot engine beside the stack of an address (R251, R367). -/
def enginePort (a : Nat) : ReqPort := ⟨137 + (if inHbm a then hbmStack a else lpStack a) % 12, by omega⟩
/-- The first address of [a, a + n) that no valid, unretired entry of the region table holds (R229). -/
def rgnGap (s : State) : Nat → Nat → Nat → Option Nat
  | 0, a, n => if n = 0 then none else some a
  | fuel + 1, a, n =>
    if n = 0 then none
    else match rgnAt s a with
      | none => some a
      | some e => if e.ret then some a else let k := min n (e.base + e.size - a); rgnGap s fuel (a + k) (n - k)
/-- Lines of a range that may meet an injection point, and its first burst on each channel (R247). -/
def probeLines (s : State) (a n : Nat) : List Nat :=
  let armed := (List.range 8).map fun k => bitsOf (reg64 s (injPar k)) 51 6
  let bursts := ((List.range 16).map (64 * ·) ++ (List.range 12).map (4096 * ·)).filterMap fun o =>
    if o < n then some ((a + o) / 64) else none
  if injOn s then ((s.coh.flips.map (·.line) ++ armed ++ bursts).filter fun l => lineHit a n l).eraseDups
  else ((s.coh.flips.map (·.line)).filter fun l => lineHit a n l).eraseDups

/-- Move `n` bytes of memory, as the coherent fabric shows them, from `src` to `dst` (sparse: what is not listed reads as
memory does); poison moves with them. -/
def moveRange (src dst n : Nat) (s : State) : State :=
  let bytes := (s.mem.filter fun c => src ≤ c.1 && c.1 < src + n).map fun c => (c.1 - src + dst, c.2)
  let lines := cachedLines s src n
  let upon := lines.flatMap fun l => (List.range 64).filterMap fun i =>
    let a := 64 * l + i
    if src ≤ a && a < src + n then some (a - src + dst, readByte s a) else none
  let mem := (bytes ++ upon).foldl (fun m c => memSet m c.1 c.2) (memClear s.mem dst (dst + n))
  let bad := (s.coh.poison.filter fun l => lineHit src n l).map fun l => (64 * l - src + dst) / 64
  let keep := s.coh.poison.filter fun l => !lineHit dst n l
  let s := { s with mem := mem, coh := { s.coh with poison := keep } }
  let s := bad.foldl (fun s l => setPoison l true s) s
  (cachedLines s dst n).foldl (fun s l =>
    homeWrite (BitVec.ofNat 46 l) (bytesLine (memRead s.mem (64 * l) 64)) (BitVec.allOnes 64) s) s
/-- One copy by the snapshot engines. A range that is not wholly in valid, unretired entries is refused: it reads as zeros, or is
not written, with a record (R229, R231). Errors met on the way are recorded, and an uncorrectable line is poisoned in the copy
(R245); what is written meets its injection points (R247). -/
def copyRange (src dst n : Nat) (s : State) : State :=
  match rgnGap s 65 src n, rgnGap s 65 dst n with
  | _, some a => regionAccess (enginePort a) a false s
  | some a, none => { regionAccess (enginePort a) a false s with mem := memClear s.mem dst (dst + n) }
  | none, none =>
    let (bad, s) := (probeLines s src n).foldl (fun (acc : List Nat × State) l =>
      let (ue, s) := eccLines (enginePort (64 * l)) (64 * l) 64 (linkBurst (64 * l) acc.2)
      (if ue then l :: acc.1 else acc.1, s)) ([], s)
    let s := bad.foldl (fun s l => setPoison ((64 * l - src + dst) / 64) true s) (moveRange src dst n s)
    (probeLines s dst n).foldl (fun s l => memWrote l s) s

/-- Copy an item's sources, one after another, from an offset of the staging area on. -/
def copySrcs (dst : Nat) : List (Nat × Nat) → State → State
  | [], s => s
  | r :: rest, s => copySrcs (dst + r.2) rest (copyRange r.1 dst r.2 s)
/-- The snapshot engines copy every item but the state record. -/
def stageItems (x : Snap) (s : State) : State :=
  x.items.foldl (fun s i => copySrcs (stageBase s + i.off) i.srcs s) s
/-- The staging copy, from f′ + 2,048 on (R367). DESIGN CHOICE (entry 102): all of it on that cycle. -/
def freezeTick (s : State) : State :=
  match s.cm.snap with
  | none => s
  | some x =>
    if s.cm.frozen && !x.staged && s.cm.freezeAt + 2048 ≤ s.cyc then
      let s := stageItems x s
      { s with cm := { s.cm with snap := some { x with staged := true } } }
    else s

/-! ## The stream (R369-R372, R428, R458) -/

/-- A segment of the slot: the item it belongs to, its offset in the staging area and in the slot, its length. -/
structure SnapSeg where
  kind : Nat
  index : Nat
  stage : Nat
  slot : Nat
  len : Nat
  deriving DecidableEq, Repr

/-- Segments of one item: 1 GiB each, the last one shorter. -/
def itemSegs (i : SnapItem) : List SnapSeg :=
  tabulate (ceilDiv i.len 0x40000000) fun k =>
    let o := k * 0x40000000
    ⟨i.kind, i.index, i.off + o, 0x100000 + i.off + o, min 0x40000000 (i.len - o)⟩
/-- All segments in slot order. -/
def snapSegs (x : Snap) : List SnapSeg := x.items.flatMap itemSegs
/-- The port of segment k. -/
def segPort (k : Nat) : SnapPort := if k % 2 = 0 then 0 else 1
/-- Remote address of an offset of the Milestone's slot, on a port. -/
def slotVa (s : State) (p : SnapPort) (m off : Nat) : Nat := spRva s p + m % 2 * slotLen s + off

/-- Send a snapshot token to the coordinator on VC14; the coordinator takes its own at once. -/
def snapToken (ty : BitVec 16) (step : Nat) (s : State) : State :=
  let k := myToken s step 0
  if myPod s = 0 ∧ myRank s = 0 then schedNow (if ty = 0x0201 then .snapDone k else .snapFail k) s
  else post (.token ty (some (0, 0)) k) s

/-- The stream ends; a freeze that waited for it opens now (R367). -/
def streamEnd (s : State) : State :=
  let s := { s with cm := { s.cm with stream := false, sending := none } }
  if s.cm.freezeDue then openFreeze s else s

/-- The stream stops (R372): a record, LASTOK clear, no manifest, SNAP_FAIL. -/
def streamFail (code : Nat) (p : SnapPort) (inj : Bool) (s : State) : State :=
  let step := match s.cm.sending with | some x => x.step | none => s.cm.step.toNat
  let s := report code (srcOf 11 p.val) s.cyc 0 0 0 inj false s
  streamEnd (snapToken 0x0202 step { s with cm := { s.cm with lastok := false } })

/-- A snapshot port is ready for a stream. -/
def spReady (s : State) (p : SnapPort) : Bool := (spSt s p).link = 2 && (spSt s p).qps = 1

/-- The first snapshot port that does not let a stream begin. -/
def spNotReady (s : State) : Option SnapPort := snapPorts.find? fun p => !spReady s p

/-- The first port that a stream cannot begin on, or on which an injected failure stops it, and whether by injection. -/
def streamBar : List SnapPort → State → Option (SnapPort × Bool) × State
  | [], s => (none, s)
  | p :: r, s =>
    let (hit, inj, s) := evtDetect eMsStreamFail (srcOf 11 p.val) (!spReady s p) s
    if hit then (some (p, inj), s) else streamBar r s

/-- Segments from number `k` on leave the staging area in order, each on its port and hashed as it leaves (R369). One that holds
poison or an uncorrectable error stops its port, and with it the stream (R245, R372). -/
def sendSegs (x : Snap) : Nat → List SnapSeg → List Digest → State → Option (SnapPort × Bool) × List Digest × State
  | _, [], hs, s => (none, hs, s)
  | k, g :: r, hs, s =>
    let p := segPort k
    let a := stageBase s + g.stage
    let (ue, s) := eccLines (snapReqPort p) a g.len s
    let (hit, inj, s) := evtDetect eMsPoison (srcOf 11 p.val) (ue || rangePoison s a g.len) s
    if hit then (some (p, inj), hs, s)
    else
      let bs := readBytes s a g.len
      sendSegs x (k + 1) r (hs ++ [sha384D bs]) (rdmaWrite p (slotVa s p x.mile g.slot) bs s)

/-- Streaming begins; poisoned data, a port that is not ready, or no identity key to sign with stops it. -/
def streamBegin (x : Snap) (s : State) : State :=
  let s := { s with cm := { s.cm with sending := some x } }
  match streamBar snapPorts s with
  | (some (p, inj), s) => streamFail eMsStreamFail p inj s
  | (none, s) =>
    if !s.sec.dik || s.sec.level = 3 then streamFail eMsStreamFail 0 false s
    else match sendSegs x 0 (snapSegs x) [] s with
      | (some (p, inj), _, s) => streamFail eMsPoison p inj s
      | (none, hs, s) => { s with cm := { s.cm with stream := true, sending := some { x with hashes := hs } } }

/-- FREEZE_CLOSE: the freeze closes and streaming begins; the COMMIT ends done, or its throttle frames follow. -/
def execFreezeClose (s : State) : Host.Outcome State Fault Refusal :=
  .next (snapOnly s (
    let c := s.cm.freezeAt + freezeLen s.cm.total
    if !s.cm.frozen ∨ s.cyc < c then s
    else match s.cm.snap with
      | none => s
      | some x => pauseEnd c (streamBegin x { s with cm := { s.cm with frozen := false, snap := none } })))

/-- THROTTLE_FRAMES_END: the COMMIT ends done with CYC at the end of the last frame. -/
def execThrottleFramesEnd (s : State) : Host.Outcome State Fault Refusal :=
  .next (snapOnly s (
    if s.cm.frames = 0 ∨ s.cyc < s.cm.framesEnd then s
    else commitDone s.cm.framesEnd { s with cm := { s.cm with frames := 0 } }))

/-! ## Manifest and set record (R370, R371) -/

/-- One manifest entry. -/
def manEntry (g : SnapSeg) (h : Digest) : List Byte :=
  leBytes 2 g.kind ++ leBytes 2 g.index ++ leBytes 4 g.len ++ leBytes 8 g.slot ++ digestBytes h
/-- The manifest without its signature block (Table 15.8). -/
def manifestBody (x : Snap) (s : State) : List Byte :=
  let segs := snapSegs x
  let head := leBytes 4 0x534D5854 ++ leBytes 2 1 ++ leBytes 2 0x100 ++ leBytes 8 x.step ++ leBytes 4 x.mile ++
    [BitVec.ofNat 8 (myPod s), BitVec.ofNat 8 (myRank s), BitVec.ofNat 8 (b2n x.cg), 0] ++ leBytes 4 segs.length ++
    zeros 4 ++ leBytes 8 x.total ++ zeros 8 ++ digestBytes x.image ++ digestBytes x.set ++ leBytes 16 s.fd.serial.toNat ++
    zeros 96
  head ++ (segs.zip x.hashes).flatMap fun e => manEntry e.1 e.2
/-- The manifest with the identity key's signature block. -/
def manifestBytes (x : Snap) (s : State) : List Byte :=
  let b := manifestBody x s
  b ++ signBlock Config.dikScalar s.fd.idCert (sha384 b)

/-- MANIFEST_WRITE: both ports hold acknowledgements for every data write; SP0 writes the manifest, and SNAP_DONE follows. -/
def execManifestWrite (s : State) : Host.Outcome State Fault Refusal :=
  .next (snapOnly s (
    match s.cm.sending with
    | none => s
    | some x =>
      if !s.cm.stream then s
      else
        let segs := snapSegs x
        let man := manifestBytes x s
        let acked := fun (p : SnapPort) => (List.range segs.length).foldl (fun n k =>
          if segPort k = p then n + (segs.getD k ⟨0, 0, 0, 0, 0⟩).len else n) 0
        let s := snapPorts.foldl (fun s p =>
          let y := spSt s p
          let n := acked p + (if p = 0 then man.length else 0)
          setSp p { y with bytes := y.bytes + BitVec.ofNat 64 n } s) s
        let s := rdmaWrite 0 (slotVa s 0 x.mile 0) man s
        let s := { s with cm := { s.cm with lastok := true, manDigest := sha384D man } }
        streamEnd (snapToken 0x0201 x.step s)))

/-- The WRITE without acknowledgement leaves its port again, with its own PSN. Which of the port's segments it is, is a free value
(entry 185). -/
def sendWriteAgain (x : Snap) (p : SnapPort) (s : State) : State :=
  let segs := snapSegs x
  let ks := (List.range segs.length).filter fun k => segPort k = p
  let seg := fun k => segs.getD k ⟨0, 0, 0, 0, 0⟩
  match ks[Config.rdmaUnacked s.fresh % ks.length]? with
  | none => s
  | some k =>
    let n := (ks.filter fun j => k ≤ j).foldl (fun n j => n + ceilDiv (seg j).len (spMtu s p)) 0
    let h := { roceHead s p with psn := (spSt s p).psn - BitVec.ofNat 24 n }
    emit (.rdma h (slotVa s p x.mile (seg k).slot) (readBytes s (stageBase s + (seg k).stage) (seg k).len)) (useFree s)

/-- RDMA_RETRY_TIMEOUT: one more try, or FAIL, state error and the end of the stream when the tries are spent (R458). -/
def execRdmaRetryTimeout (p : SnapPort) (s : State) : Host.Outcome State Fault Refusal :=
  .next (snapOnly s (
    let y := spSt s p
    if !s.cm.stream then s
    else if y.tries < spRetry s p then
      let s := setSp p { y with tries := y.tries + 1 } s
      match s.cm.sending with | some x => sendWriteAgain x p s | none => s
    else streamFail eMsStreamFail p false (edgeNote false (spBase p + 4) 0x08000000#32 (setSp p { y with fail := true, qps := 2 } s))))

/-! ## The commit set (R354) -/

/-- Members of the set, and the number of a package in it. -/
def memberCount (s : State) : Nat := match s.pl.active with | some im => im.pods * 16 * im.podZ | none => 0
def memberIdx (s : State) (pod rank : Nat) : Nat :=
  match s.pl.active with | some im => pod * 16 * im.podZ + rank | none => 0
/-- This package is member 0. -/
def coordinator (s : State) : Bool := myPod s = 0 && myRank s = 0
/-- Every member is in a list. -/
def allMembers (s : State) (xs : List Nat) : Bool := 0 < memberCount s && (List.range (memberCount s)).all fun m => xs.contains m
/-- Add a member. -/
def addMember (m : Nat) (xs : List Nat) : List Nat := if xs.contains m then xs else xs ++ [m]

/-- The set record (R371). -/
def setRecord (s : State) (step : Nat) : List Byte :=
  let me := memberIdx s (myPod s) (myRank s)
  let ds := (List.range (memberCount s)).flatMap fun m =>
    digestBytes (if m = me then s.cm.manDigest else Config.memberManifest step m)
  leBytes 4 0x43535854 ++ leBytes 2 1 ++ leBytes 2 (memberCount s) ++ leBytes 8 step ++ sha384 ds ++ zeros 64

end Sys2Proof.Machine
end

