-- ==== Sys2Proof/Machine/Commit.lean ====
section
/-! DEFINITION. The commit protocol: MILESTONE commands, tokens, the fence, abort, replay and resolution
(15_failure_survival R354-R365; 17 R407; 19 R444). -/

namespace Sys2Proof.Machine

/-! ## Tokens (R354, R357) -/

/-- A token is taken when its SET_DIGEST is the receiver's; another is dropped and logs COMMIT_FOREIGN. -/
def tokenTaken (k : Token) (s : State) : Bool × State :=
  let real := s.pl.active.isNone || k.digest ≠ setDigestOf s
  let (bad, inj, s) := evtDetect eCommitForeign 0 real s
  if bad then (false, report eCommitForeign 0 s.cyc 0 0 0 inj false s) else (true, s)
/-- A token that its rule drops (R362). -/
def foreign (s : State) : State := report eCommitForeign 0 s.cyc 0 0 0 false false s
/-- The package sent the token itself. -/
def fromSelf (s : State) (k : Token) : Bool := k.spod.toNat = myPod s && k.srank.toNat = myRank s
/-- The member that sent a token. -/
def senderOf (s : State) (k : Token) : Nat := memberIdx s k.spod.toNat k.srank.toNat
/-- Send a token to the coordinator; the coordinator takes its own at once. -/
def toCoordinator (ty : BitVec 16) (mk : Token → Instr) (k : Token) (s : State) : State :=
  if coordinator s then schedNow (mk k) s else post (.token ty (some (0, 0)) k) s
/-- Broadcast a token of the coordinator to the set; the coordinator takes it on the cycle on which it leaves (R311, R359). -/
def toSet (ty : BitVec 16) (k : Token) (s : State) : State := post (.token ty none k) s

/-! ## The fence (R190, R219, R232, R359, R363, R367, R407) -/

/-- Throttle frames of R407: E in mJ, T in TCLK. -/
def throttleFrames (e t cap idle maxf tfr : Nat) (hot : Bool) : Nat :=
  let x : Int := (e : Int) * 2250000 - (cap : Int) * (t : Int)
  let n := if 0 < x && decide (idle < cap) then ceilDiv x.toNat ((cap - idle) * 65536) else 0
  min (if hot then max n tfr else n) maxf

/-- The cap in force: 0 disables, other values are taken within 1,500 to 3,300 (Table 17.4). -/
def capOf (s : State) : Nat :=
  let c := bitsOf (reg64 s 0x70000) 15 0
  if c = 0 then 0 else min 3300 (max 1500 c)

/-- The throttle count at an applied COMMIT, with THERM_HIGH when the package is hot (R409). -/
def countFrames (s : State) : State :=
  let (hot, inj, s) := evtDetect eThermHigh 0 (105 * 16 ≤ s.pwr.tj) s
  let s := if hot then report eThermHigh 0 s.cyc 0 0 0 inj false s else s
  let v := reg64 s 0x70000
  let cap := capOf s
  let n := if cap = 0 then 0
    else throttleFrames ((s.tel.energy - s.cm.lastEnergy) / 25000) (s.cyc - s.cm.lastCommit) cap (bitsOf v 31 16)
      (bitsOf v 47 32) (bitsOf v 63 48) hot
  { s with cm := { s.cm with frames := n, lastCommit := s.cyc, lastEnergy := s.tel.energy },
           pwr := { s.pwr with lastf := BitVec.ofNat 16 (min 65535 n) },
           tel := { s.tel with tframes := s.tel.tframes + n } }

/-- A READY or COMMIT that waits when the step aborts ends failed with STEP_ABORTED (R356). -/
def abortPending (s : State) : State :=
  match s.cm.cmd with
  | some d =>
    if d.a0.toNat = 1 ∨ d.a0.toNat = 2 then failCmd d rStepAborted { s with cm := { s.cm with cmd := none } } else s
  | none => s

/-- The start of a step: the package retains R363's state, and an ABORT held for this step is applied (R362). -/
def stepBegins (s : State) : State :=
  let s := retain s
  let n := stepInFlight s
  let held := s.cm.heldAbort.find? fun a => a.1.toNat = n
  let s := { s with cm := { s.cm with heldAbort := s.cm.heldAbort.filter fun a => n < a.1.toNat, replays := 0 } }
  match held with
  | some a => stepAbort a.2.toNat true s.cyc s
  | none => s

/-- The staged image becomes active. -/
def fenceImage (s : State) : State :=
  match s.pl.staged with
  | none => s
  | some im => activate im { s with pl := { s.pl with staged := none } }

/-- The snapshot of step n is taken, or waits for the end of an earlier stream. -/
def snapshotDue (n : Nat) (s : State) : State :=
  let items := snapItems s s.cm.cg
  let (im, set) := match s.pl.active with | some i => (i.digest, i.setDigest) | none => (0, 0)
  let x : Snap := { step := n, mile := n / msK s, cg := s.cm.cg, image := im, set := set, items := items,
                    total := snapTotal items }
  let s := { s with cm := { s.cm with snap := some x, total := x.total, mile := n / msK s, freezeDue := true } }
  if s.cm.stream then s else openFreeze s

/-- COMMIT(n) is applied on the fence cycle: STEP, CG, PHASE, the region table, the staged image, retained state, frames,
and the snapshot when it is due. -/
def applyCommit (n : Nat) (s : State) : State :=
  let s := leaveBarrier s
  let s := { s with cm := { s.cm with step := BitVec.ofNat 48 n, cg := !s.cm.cg, phase := .idle, readyFrom := [],
                                      updatedFrom := [], abortCode := 0 } }
  let s := countFrames (stepBegins (fenceImage (fenceRegions s)))
  if msK s ≠ 0 ∧ n % msK s = 0 then snapshotDue n s else pauseEnd s.cyc s

/-! ## MILESTONE commands (R356, Table 15.3) -/

/-- The code that refuses a MILESTONE; `ok` gives the phases in which it is accepted, `rc` marks READY and COMMIT. -/
def msRefusal (s : State) (d : Desc) (rc : Bool) (ok : Phase → Bool) : Option Nat :=
  if s.pl.fatCode ≠ 0 then some s.pl.fatCode.toNat
  else if d.a1.toNat ≠ stepInFlight s then some rStepOrder
  else if rc && s.cm.phase = .aborted then some rStepAborted
  else if !ok s.cm.phase then some rStepOrder
  else none

/-- MILESTONE READY: READY(n) goes to the coordinator. -/
def execMilestoneReady (d : Desc) (s : State) : Host.Outcome State Fault Refusal :=
  .next (commitOnly s (
    match msRefusal s d true (fun p => p = .idle || p = .readySent) with
    | some code => failCmd d code s
    | none =>
      let s := reachBarrier { s with cm := { s.cm with phase := .readySent, cmd := some d } }
      toCoordinator 0x0101 .ready (myToken s d.a1.toNat 0) s))

/-- A snapshot is due at the commit of step n. -/
def snapDue (s : State) (n : Nat) : Bool := msK s ≠ 0 && n % msK s = 0

/-- MILESTONE COMMIT: the snapshot list is checked when a snapshot is due, then UPDATED(n) goes to the coordinator. -/
def execMilestoneCommit (d : Desc) (s : State) : Host.Outcome State Fault Refusal :=
  .next (commitOnly s (
    match msRefusal s d true (fun p => p = .proceeding || p = .updatedSent) with
    | some code => failCmd d code s
    | none =>
      if snapDue s d.a1.toNat && !msListOk s (!s.cm.cg) then failCmd d rMsList s
      else
        let s := { s with cm := { s.cm with phase := .updatedSent, cmd := some d } }
        toCoordinator 0x0103 .updated (myToken s d.a1.toNat 0) s))

/-- The retained scale tables go back into the active image's copy. -/
def restoreScales (xs : List (Nat × List Byte)) (s : State) : State :=
  xs.foldl (fun s x =>
    match scaleEntry s x.1 with
    | some (im, e) => sysStore dmaPort (im.load + e.offset) (x.2.take e.count) s
    | none => s) s

/-- Replace the Layby pointers. -/
def restorePtrs (ps : List (Nat × Nat)) (s : State) : State :=
  let put := fun (m : SMap LaybySlot) (k : Nat) =>
    let p := ps.getD k (0, 0)
    smapSet {} k { smapGet {} m k with hbmPtr := p.1, ovfPtr := p.2 } m
  { s with pl := { s.pl with layby := (List.range ps.length).foldl put s.pl.layby } }

/-- Clear the elements of every NRU range in force (R363, R375). -/
def clearRanges (s : State) : State := s.pl.nruRanges.foldl (fun s r => clearRange r s) s

/-- MILESTONE REPLAY: the retained state is restored; a fourth replay of a step fails (R363, R364). -/
def execMilestoneReplay (d : Desc) (s : State) : Host.Outcome State Fault Refusal :=
  .next (commitOnly s (
    match msRefusal s d false (fun p => p = .readySent || p = .proceeding || p = .updatedSent || p = .aborted) with
    | some code => failCmd d code s
    | none =>
      if 3 ≤ s.cm.replays then failCmd d rReplayLimit s
      else
        let r := s.pl.retained
        let s := clearRanges (restoreScales r.scales (restorePtrs r.ptrs s))
        doneCmd d { s with cm := { s.cm with step := r.step, cg := r.cg, phase := .idle, abortCode := 0,
                                             replays := s.cm.replays + 1, barrier := none } }))

/-- MILESTONE RESOLVE: STATUS_QUERY(n) goes to the set; the asker's own STEP counts as an answer (R361). -/
def execMilestoneResolve (d : Desc) (s : State) : Host.Outcome State Fault Refusal :=
  .next (commitOnly s (
    match msRefusal s d false (fun p => p = .readySent || p = .proceeding || p = .updatedSent) with
    | some code => failCmd d code s
    | none =>
      let me := memberIdx s (myPod s) (myRank s)
      let s := { s with cm := { s.cm with cmd := some d, resolving := true, answers := [(me, s.cm.step.setWidth 64)] } }
      post (.token 0x0107 none (myToken s d.a1.toNat 0)) s))

/-! ## Tokens received -/

/-- The MILESTONE in progress is of a phase. -/
def pendingPhase (s : State) (ph : Nat) : Option Desc :=
  match s.cm.cmd with | some d => if d.opc = 6 && d.a0.toNat = ph then some d else none | none => none

/-- The member enters PROCEEDING: it is released from the step barrier (R182). -/
def enterProceeding (s : State) : State :=
  let s := leaveBarrier s
  { s with cm := { s.cm with phase := .proceeding } }

/-- READY: the coordinator collects them, and broadcasts PROCEED when it holds all (R358). -/
def execReady (k : Token) (s : State) : Host.Outcome State Fault Refusal :=
  let (ok, s) := tokenTaken k s
  .next (commitOnly s (
    let m := senderOf s k
    if !ok || !coordinator s || k.step.toNat ≠ stepInFlight s || s.cm.readyFrom.contains m then s
    else
      let s := { s with cm := { s.cm with readyFrom := s.cm.readyFrom ++ [m] } }
      if allMembers s s.cm.readyFrom then toSet 0x0102 (myToken s k.step.toNat 0) s else s))

/-- PROCEED: the member enters PROCEEDING and its READY ends done (R358); the barrier is released (R182). -/
def execProceed (k : Token) (s : State) : Host.Outcome State Fault Refusal :=
  let (ok, s) := tokenTaken k s
  .next (commitOnly s (
    if !ok || k.step.toNat ≠ stepInFlight s || s.cm.phase ≠ .readySent then s
    else
      let s := enterProceeding s
      match pendingPhase s 1 with
      | some d => doneCmd d { s with cm := { s.cm with cmd := none } }
      | none => s))

/-- UPDATED: the coordinator collects them, and broadcasts COMMIT when it holds all (R359). -/
def execUpdated (k : Token) (s : State) : Host.Outcome State Fault Refusal :=
  let (ok, s) := tokenTaken k s
  .next (commitOnly s (
    let m := senderOf s k
    if !ok || !coordinator s || k.step.toNat ≠ stepInFlight s || s.cm.updatedFrom.contains m then s
    else
      let s := { s with cm := { s.cm with updatedFrom := s.cm.updatedFrom ++ [m] } }
      if allMembers s s.cm.updatedFrom then toSet 0x0104 (myToken s k.step.toNat 0) s else s))

/-- COMMIT: applied on this cycle, the fence cycle, in whatever phase the member is (R359). -/
def execCommit (k : Token) (s : State) : Host.Outcome State Fault Refusal :=
  let (ok, s) := tokenTaken k s
  .next (commitOnly s (
    if !ok || k.step.toNat ≠ stepInFlight s then s else applyCommit k.step.toNat s))

/-- ABORT: the step in flight aborts; one for a later step is held, one for a committed step is dropped and logged
(R362). -/
def execAbort (k : Token) (s : State) : Host.Outcome State Fault Refusal :=
  let (ok, s) := tokenTaken k s
  .next (commitOnly s (
    let n := k.step.toNat
    if !ok || fromSelf s k then s
    else if n ≤ s.cm.step.toNat then foreign s
    else if n = stepInFlight s then abortPending (stepAbort k.code.toNat true s.cyc s)
    else if s.cm.heldAbort.contains (k.step, k.code) then s
    else { s with cm := { s.cm with heldAbort := s.cm.heldAbort ++ [(k.step, k.code)] } }))

/-- HOST_LOST: the package parks as though its own front end had reset, and logs PEER_HOST_LOST (R365); received again it changes
nothing (R357). -/
def execHostLost (k : Token) (s : State) : Host.Outcome State Fault Refusal :=
  let (ok, s) := tokenTaken k s
  .next (commitOnly s (
    let seen := (senderOf s k, k.step)
    if !ok || fromSelf s k || s.cm.hostLost.contains seen then s
    else
      let s := { s with cm := { s.cm with hostLost := s.cm.hostLost ++ [seen] } }
      let (_, inj, s) := evtDetect ePeerHostLost 0 true s
      beginPark (report ePeerHostLost 0 s.cyc 0 0 0 inj false s)))

/-- STATUS_QUERY: answered with STEP and PHASE (R361). -/
def execStatusQuery (k : Token) (s : State) : Host.Outcome State Fault Refusal :=
  let (ok, s) := tokenTaken k s
  .next (commitOnly s (
    if !ok || fromSelf s k then s
    else post (.token 0x0108 (some (k.spod, k.srank)) (myToken s s.cm.step.toNat 0)) s))

/-- The RESOLVE in progress ends. -/
def resolved (err : Nat) (d : Desc) (s : State) : State :=
  let s := { s with cm := { s.cm with cmd := none, resolving := false, answers := [] } }
  if err = 0 then doneCmd d s else failCmd d err s

/-- STATUS: an answer with STEP ≥ n proves the commit, which is applied on this cycle (R361, rule 1). -/
def execStatus (k : Token) (s : State) : Host.Outcome State Fault Refusal :=
  let (ok, s) := tokenTaken k s
  .next (commitOnly s (
    match pendingPhase s 4 with
    | some d =>
      if !ok || !s.cm.resolving then s
      else if d.a1.toNat ≤ k.step.toNat then
        resolved 0 d (applyCommit d.a1.toNat { s with cm := { s.cm with resolving := false } })
      else
        let m := senderOf s k
        { s with cm := { s.cm with answers := (s.cm.answers.filter fun a => a.1 ≠ m) ++ [(m, k.step)] } }
    | none => s))

/-- RESOLVE_WAIT: TMO has passed; with every answer in and none at n the asker enters PROCEEDING, otherwise RESOLVE fails
(R361, rules 2 and 3). -/
def execResolveWait (s : State) : Host.Outcome State Fault Refusal :=
  .next (commitOnly s (
    match pendingPhase s 4 with
    | some d =>
      if allMembers s (s.cm.answers.map (·.1)) then resolved 0 d (enterProceeding s)
      else resolved rResolveIncomplete d s
    | none => s))

/-- COMMIT_TIMEOUT: a READY or COMMIT that has not ended within TMO ends failed; PHASE is unchanged (R360). -/
def execCommitTimeout (s : State) : Host.Outcome State Fault Refusal :=
  .next (commitOnly s (
    match s.cm.cmd with
    | some d =>
      if d.a0.toNat = 1 ∨ d.a0.toNat = 2 then failCmd d rCommitTimeout { s with cm := { s.cm with cmd := none } } else s
    | none => s))

/-- FAULT: the sender is treated as lost and the step in flight aborts (R444). -/
def execFault (k : Token) (s : State) : Host.Outcome State Fault Refusal :=
  let (ok, s) := tokenTaken k s
  .next (commitOnly s (
    if !ok || fromSelf s k then s
    else
      let s := { s with cm := { s.cm with lost := addMember (senderOf s k) s.cm.lost } }
      abortPending (stepAbort k.code.toNat true s.cyc s)))

/-- SNAP_DONE: the coordinator writes the set record once it holds one from every member (R371). -/
def execSnapDone (k : Token) (s : State) : Host.Outcome State Fault Refusal :=
  let (ok, s) := tokenTaken k s
  .next (commitOnly s (
    let m := senderOf s k
    let n := k.step.toNat
    let written := match s.cm.setDone with | some x => n ≤ x | none => false
    if !ok || !coordinator s || written || s.cm.snapFrom.contains (n, m) then s
    else
      let s := { s with cm := { s.cm with snapFrom := s.cm.snapFrom ++ [(n, m)] } }
      if allMembers s ((s.cm.snapFrom.filter fun x => x.1 = n).map (·.2)) then
        rdmaWrite 0 (setRecVa s) (setRecord s n)
          { s with cm := { s.cm with snapFrom := s.cm.snapFrom.filter (fun x => n < x.1), setDone := some n } }
      else s))

/-- SNAP_FAIL: the Milestone stays incomplete (R353, R372). -/
def execSnapFail (k : Token) (s : State) : Host.Outcome State Fault Refusal :=
  let (ok, s) := tokenTaken k s
  .next (commitOnly s (
    if !ok || !coordinator s then s
    else { s with cm := { s.cm with snapFrom := s.cm.snapFrom.filter fun x => x.1 ≠ k.step.toNat } }))

end Sys2Proof.Machine
end

