-- ==== Sys2Proof/Machine/Restore.lean ====
section
/-! DEFINITION. RESTORE (15_failure_survival R374-R377; 18 R428). -/

namespace Sys2Proof.Machine

/-! ## Anchors (R413, R428) -/

/-- The product CA's public point: the certificate in FD, when DRK issued it (Table 18.1). -/
def caPoint (s : State) : Option (List Byte) :=
  match parseCert s.fd.caCert with
  | some c =>
    if c.extOk && ecdsaVerify (ecPoint Config.drkPoint) (sha384 c.tbs) c.r c.s then some c.point else none
  | none => none

/-- A block verifies against the product CA key. -/
def caVerifies (s : State) (blk hash : List Byte) : Bool :=
  match caPoint s with | some p => blockVerifies p blk hash | none => false

/-! ## The manifest (R370) -/

/-- Entries of a manifest. -/
def manCount (bs : List Byte) : Nat := leField bs 0x18 4
/-- Bytes that its signature covers. -/
def manSigned (bs : List Byte) : Nat := 256 + 64 * manCount bs
/-- Read its entries. -/
def manEntries (bs : List Byte) : List ManEntry :=
  tabulate (manCount bs) fun i =>
    let e := slice bs (256 + 64 * i) 64
    { kind := leField e 0 2, index := leField e 2 2, len := leField e 4 4, off := leField e 8 8,
      hash := digestOfBytes (e.drop 16), loaded := false }
/-- MAGIC, VERSION and a length that holds the entries. -/
def manFormatOk (bs : List Byte) : Bool :=
  leField bs 0 4 = 0x534D5854 && leField bs 4 2 = 1 && leField bs 6 2 = 0x100 && manSigned bs ≤ bs.length

/-- Bytes of earlier entries of the same item. -/
def entBefore (es : List ManEntry) (k : Nat) : Nat :=
  let e := es.getD k ⟨0, 0, 0, 0, 0, false⟩
  ((es.take k).filter fun x => x.kind = e.kind && x.index = e.index).foldl (fun n x => n + x.len) 0

/-- The HBM_PTR that a state record saved for a slot; without a record the slot's quota bounds the HBM part. -/
def savedHbm (s : State) (r : RestoreSt) (k : Nat) : Nat :=
  if r.record.isEmpty then (laybySlot s k).hbmQuota else leField r.record (0x18 + 16 * k) 8

/-- Where the bytes of entry k go: ranges of memory (address, length), in order; empty for the state record and the scale
tables, which FINISH applies. `cg` is the manifest's. -/
def entTargets (s : State) (r : RestoreSt) (k : Nat) : List (Nat × Nat) :=
  let e := r.entries.getD k ⟨0, 0, 0, 0, 0, false⟩
  let o := entBefore r.entries k
  if e.kind = 1 then
    match (msList s)[e.index]? with
    | some x => [((entSaved r.cg x).1 + o, e.len)]
    | none => []
  else if e.kind = 2 then
    let y := laybySlot s e.index
    let h := savedHbm s r e.index
    let inH := min e.len (h - o)
    (if inH = 0 then [] else [(y.hbmBase + o, inH)]) ++
      (if e.len - inH = 0 then [] else [(y.ovfBase + (o + inH - h), e.len - inH)])
  else []

/-- A list entry's range with the lengths of its manifest entries agrees with the list (R376). -/
def manLengthsOk (s : State) (es : List ManEntry) : Bool :=
  let ls := msList s
  (es.filter fun e => e.kind = 1).all fun e => e.index < ls.length &&
    ((es.filter fun x => x.kind = 1 && x.index = e.index).foldl (fun n x => n + x.len) 0) =
      (ls.getD e.index ⟨0, 0, 0, false, true⟩).len

/-- A target lies in valid regions. -/
def targetCovered (s : State) (t : Nat × Nat) : Bool := (t.2 = 0) ||
  (List.range ((t.1 + t.2 - 1) / 0x200000 - t.1 / 0x200000 + 1)).all fun i =>
    (rgnAt s (max t.1 ((t.1 / 0x200000 + i) * 0x200000))).isSome
/-- A target overlaps a retired region. -/
def targetRetired (s : State) (t : Nat × Nat) : Bool :=
  (rgnActive s).any fun e => e.v && e.ret && rangesMeet t.1 t.2 e.base e.size

/-- The code that refuses BEGIN, in the order of Table 15.9. -/
def beginRefusal (s : State) (d : Desc) (bs : List Byte) : Option Nat :=
  let ximg := bitOf d.a0.toNat 8
  let signed := bs.take (manSigned bs)
  let digest := match s.pl.active with | some im => im.digest | none => 0
  let r : RestoreSt := { entries := manEntries bs, cg := bitOf (leField bs 0x16 1) 0, step := leField bs 8 8, record := [],
                         scales := [] }
  let ts := (List.range r.entries.length).flatMap (entTargets s r)
  if !manFormatOk bs then some rRestoreManifest
  else if !caVerifies s (bs.drop (manSigned bs)) (sha384 signed) then some rRestoreSignature
  else if leField bs 0x14 1 ≠ myPod s ∨ leField bs 0x15 1 ≠ myRank s then some rRestoreShape
  else if !ximg ∧ (s.pl.active.isNone ∨ digestOfBytes (bs.drop 0x30) ≠ digest) then some rRestoreImage
  else if !(manLengthsOk s r.entries && ts.all (targetCovered s)) then some rRestoreRegion
  else if ts.any (targetRetired s) then some rRestoreRetired
  else none

/-- RESTORE BEGIN: the manifest is read from host memory and checked; the package enters RESTORING. -/
def execRestoreBegin (d : Desc) (s : State) : Host.Outcome State Fault Refusal :=
  .next (hostOnly s (withLink d (fun s =>
    let n := d.a2.toNat
    if !dmaMay s (hostAddr d.a1) n then failCmd d rAddrRefused (dmaRefused (hostAddr d.a1) s)
    else withRanges d [(hostAddr d.a1, n)] (fun s =>
      let ((bs, _), s) := dmaRead (iop d) (hostAddr d.a1) n s
      match beginRefusal s d bs with
      | some code => failCmd d code s
      | none =>
        let r : RestoreSt := { entries := manEntries bs, cg := bitOf (leField bs 0x16 1) 0, step := leField bs 8 8,
                               record := [], scales := [] }
        doneCmd d { s with cm := { s.cm with phase := .restoring, restore := some r } }) s) s))

/-! ## SEGMENTS -/

/-- Put the bytes of entry k where they belong; answers the writes that have no completion yet. -/
def placeEntry (k : Nat) (bs : List Byte) (r : RestoreSt) (s : State) : RestoreSt × List (TxnNo × Nat) × State :=
  let e := r.entries.getD k ⟨0, 0, 0, 0, 0, false⟩
  let (_, ws, s) := (entTargets s r k).foldl (fun (acc : Nat × List (TxnNo × Nat) × State) t =>
    let (w, u) := dmaWrite false t.1 ((bs.drop acc.1).take t.2) false acc.2.2
    (acc.1 + t.2, w ++ acc.2.1, u)) (0, [], s)
  let ok := sha384D bs = e.hash
  let es := tabulate r.entries.length fun i =>
    let x := r.entries.getD i e
    if i = k then { x with loaded := ok } else x
  let r := { r with entries := es }
  let r := if e.kind = 3 then { r with record := bs }
    else if e.kind = 4 then
      (match r.scales.find? fun x => x.1 = e.index with
      | some old =>
        { r with scales := (r.scales.filter fun x => x.1 ≠ e.index) ++
          [(e.index, patch (old.2 ++ zeros (entBefore r.entries k + bs.length - old.2.length)) (entBefore r.entries k) bs)] }
      | none => { r with scales := r.scales ++ [(e.index, patch (zeros (entBefore r.entries k + bs.length)) (entBefore r.entries k) bs)] })
    else r
  (r, ws, s)

/-- Copy entries from `k` on, back to back from host address `a`, until one fails: its code, 0 when all are loaded, and the writes
that have no completion yet. -/
def loadEntries (d : Desc) : Nat → Nat → Nat → RestoreSt → List (TxnNo × Nat) → State → Nat × RestoreSt × List (TxnNo × Nat) × State
  | 0, _, _, r, ws, s => (0, r, ws, s)
  | n + 1, k, a, r, ws, s =>
    let e := r.entries.getD k ⟨0, 0, 0, 0, 0, false⟩
    if !dmaMay s a e.len then (rAddrRefused, r, ws, dmaRefused a s)
    else match (entTargets s r k).find? fun t => !dmaMay s t.1 t.2 with
      | some t => (rAddrRefused, r, ws, dmaRefused t.1 s)
      | none =>
        let ((bs, _), s) := dmaRead (iop d) a e.len s
        let (r, w, s) := placeEntry k bs r s
        if (r.entries.getD k e).loaded then loadEntries d n (k + 1) (a + e.len) r (w ++ ws) s
        else (rRestoreHash, r, w ++ ws, s)

/-- The data of RESTORE SEGMENTS. -/
def segmentsCmd (d : Desc) (r : RestoreSt) (s : State) : DmaJob × State :=
  let first := d.a2.toNat
  let n := d.a3.toNat
  if r.entries.length < first + n then (endJob d 0 rDescMalformed, s)
  else
    let (code, r, ws, s) := loadEntries d n first (hostAddr d.a1) r [] s
    ({ endJob d 0 code with writes := ws.map fun w => (w.1, 0) }, { s with cm := { s.cm with restore := some r } })
/-- The bytes that RESTORE SEGMENTS reads. -/
def segmentsLen (d : Desc) (r : RestoreSt) : Nat :=
  ((r.entries.drop d.a2.toNat).take d.a3.toNat).foldl (fun t e => t + e.len) 0
/-- RESTORE SEGMENTS: ARG1 host address, ARG2 first entry, ARG3 count. -/
def execRestoreSegments (d : Desc) (s : State) : Host.Outcome State Fault Refusal :=
  .next (hostOnly s (withLink d (fun s =>
    match s.cm.restore with
    | none => failCmd d rRestoreIncomplete (dropJob d s)
    | some r => withRanges d [(hostAddr d.a1, segmentsLen d r)] (runJob d (segmentsCmd d r)) s) s))

/-! ## FINISH -/

/-- The saved region entries that cover the restored ranges are those of the active table. -/
def savedRegionsOk (s : State) (r : RestoreSt) : Bool :=
  let saved := tabulate 64 fun n => rgnOf (leField r.record (0x118 + 8 * n) 8)
  let ts := (List.range r.entries.length).flatMap (entTargets s r)
  saved.all fun e => !e.v || !(ts.any fun t => rangesMeet t.1 t.2 e.base e.size) || (rgnActive s).contains e
/-- The saved COUNT of each group is that of the active image. -/
def savedCountsOk (s : State) (r : RestoreSt) : Bool :=
  (List.range 12).all fun g =>
    leField r.record (0x2800 + 4 * g) 4 = (match scaleEntry s g with | some (_, x) => x.count | none => 0)

/-- Apply the state record and the scale tables. -/
def finishRestore (d : Desc) (r : RestoreSt) (s : State) : State :=
  let ptrs := tabulate 16 fun k => (leField r.record (0x18 + 16 * k) 8, leField r.record (0x20 + 16 * k) 8)
  let s := clearRanges (restoreScales r.scales (restorePtrs ptrs s))
  let s := { s with cm := { s.cm with step := BitVec.ofNat 48 (leField r.record 0 8), cg := bitOf (leField r.record 0x10 1) 0,
                                      phase := .idle, restore := none, readyFrom := [], updatedFrom := [], abortCode := 0,
                                      lost := [], cmd := none, resolving := false, answers := [], barrier := none, hostLost := [], setDone := none } }
  doneCmd d (stepBegins s)

/-- RESTORE FINISH: every entry is loaded; state, scale tables and pointers come back and the step begins (R363). -/
def execRestoreFinish (d : Desc) (s : State) : Host.Outcome State Fault Refusal :=
  .next (hostOnly s (
    match s.cm.restore with
    | none => failCmd d rRestoreIncomplete s
    | some r =>
      if s.cm.phase ≠ .restoring || r.record.isEmpty || !(r.entries.all (·.loaded)) then failCmd d rRestoreIncomplete s
      else if !savedCountsOk s r then failCmd d rRestoreImage s
      else if !bitOf d.a0.toNat 8 && !savedRegionsOk s r then failCmd d rRestoreRegion s
      else finishRestore d r s))

end Sys2Proof.Machine
end

