-- ==== Sys2Proof/Machine/Reset.lean ====
section
/-! DEFINITION. Reset sources and what each reach leaves, the reference monitor, the watchdog and per-block reset
(16_boot_reset_clocks R382-R392; 20 R458). -/

namespace Sys2Proof.Machine

/-! ## The state after a reset (R390, Table 16.5) -/

/-- Register storage with every Cfg field at its fuse default and every other field at its reset value. -/
def fuseRegs (s : State) : SMap W32 :=
  let put := fun (k : Nat) (m : SMap W32) => smapSet 0 (2 + k) (BitVec.ofNat 32 (s.fd.serial.toNat >>> (32 * k))) m
  put 3 (put 2 (put 1 (put 0 factoryRegs)))

/-- Host memory is not the package's: no reset reaches it. -/
def hostMemory (m : Memory) : Memory := m.filter fun c => hostBase ≤ c.1 && c.1 < hostEnd

/-- Everything outside the always-on domain, FD, the fuses, host memory and the modules in their cages is cleared; the
always-on domain keeps the trim, RST.CAUSE, the powered hours, the failed-load counter and the PWR.STAT bits. -/
def cleared (s : State) : State :=
  { State.reset with
    mem := hostMemory s.mem
    regs := fuseRegs s
    tp := { Turnpike.reset with cages := s.tp.cages, life := s.fd.life.map lifeParse }
    ck := { Clock.reset with cause := s.ck.cause, restart := s.ck.restart, fails := s.ck.fails, hours := s.ck.hours,
                             trim := s.ck.trim, pinHeld := s.ck.pinHeld, bring := 1, power := false }
    pwr := { Power.reset with vin := s.pwr.vin, iin := s.pwr.iin, pin := s.pwr.pin, tj := s.pwr.tj, temps := s.pwr.temps,
                              ttrip := s.pwr.ttrip, uv := s.pwr.uv, ov := s.pwr.ov, off := s.pwr.off }
    fd := s.fd, out := s.out, fresh := s.fresh, pending := s.pending }

/-- RESTART as the acceptance of a reset leaves it (R387, Table 16.3): counted during bring-up, cleared from outside it. -/
def restartCount (s : State) : BitVec 4 :=
  if !s.ck.inReset then 0 else if s.ck.pinHeld then s.ck.restart else satAdd s.ck.restart 1

/-- A reset of PACKAGE reach is accepted: bring-up will start at step 2, or at step 1 when a POWER reset has not passed
it (R385, R387). While the rails are off only the cause is recorded (R406, R409). -/
def resetNow (bit : BitVec 9) (s : State) : State :=
  let s := withCause bit s
  if s.pwr.off then s
  else
    let k := restartCount s
    let first := s.ck.inReset && s.ck.bring = 0
    let t := cleared s
    { t with ck := { t.ck with restart := k, bring := if first then 0 else 1, power := first } }
/-- The same, once the log writer has logged what was detected before it (R438). -/
def packageReset (bit : BitVec 9) (s : State) : State := if s.pwr.off then withCause bit s else resetNow bit (flushRecords s)

/-- POWER_ON: a POWER reset begins; it reaches the always-on domain too (R383, R385). -/
def execPowerOn (s : State) : Host.Outcome State Fault Refusal :=
  let t := cleared s
  .next { t with ck := { Clock.reset with cause := 1 }, pwr := { t.pwr with ttrip := false, uv := false, ov := false, off := false } }

/-! ## Contacts (R184, R386, R388) -/

/-- RST.CFG.PSCOPE and WDTEN. -/
def pscope (s : State) : Bool := bitOf (reg32 s 0x2008).toNat 30
def wdtEn (s : State) : Bool := bitOf (reg32 s 0x2008).toNat 31
/-- RST.CFG.WDTMO in ACLK. -/
def wdtLimit (s : State) : Nat := bitsOf (reg32 s 0x2008).toNat 13 8 * 25000000

/-- A contact holds the package in reset. -/
def holdPin (s : State) : State := { s with ck := { s.ck with pinHeld := true } }

/-- Every sensor reads below 85 degrees (R409). -/
def cooled (s : State) : Bool := s.pwr.temps.all fun t => t < 85 * 16

/-- RESET_N: `samples` consecutive asserted ACLK samples; after a thermal trip it ends the off state once the package has
cooled. -/
def execResetN (samples : Nat) (s : State) : Host.Outcome State Fault Refusal :=
  .next (
    if samples < 50 then s
    else
      let s := if s.pwr.off && s.pwr.ttrip && cooled s then { s with pwr := { s.pwr with off := false } } else s
      holdPin (packageReset 16 s))

/-- PERST#: PACKAGE reach, or an expiry of the hold timer when PSCOPE = 1. -/
def execPerst (samples : Nat) (s : State) : Host.Outcome State Fault Refusal :=
  .next (
    if samples < 50 then s
    else if pscope s then frontEndReach holdExpired s
    else holdPin (packageReset 8 s))

/-- RESET_RELEASE: both contacts deasserted on `samples` consecutive samples. -/
def execResetRelease (samples : Nat) (s : State) : Host.Outcome State Fault Refusal :=
  .next (if samples < 50 then s else { s with ck := { s.ck with pinHeld := false } })

/-! ## Watchdog (R389) -/

/-- WATCHDOG_KICK: 0x4B restarts the watchdog; an injection makes it ignore the kick. -/
def execWatchdogKick (v : Byte) (s : State) : Host.Outcome State Fault Refusal :=
  .next (
    if v ≠ 0x4B then s
    else match injEvt eWdtExpiry (srcOf 13 0) s with
      | (some _, s) => { s with ck := { s.ck with wdtInj := true } }
      | (none, s) => { s with ck := { s.ck with wdt := 0, wdtInj := false } })

/-- WDT_EXPIRY: a FAT record, then a PACKAGE reset; nothing while WDTEN = 0, while a contact holds the reset, or while the
rails are off. -/
def execWdtExpiry (s : State) : Host.Outcome State Fault Refusal :=
  .next (
    if !wdtEn s || s.ck.pinHeld || s.pwr.off then s
    else resetNow 32 (fatalNow eWdtExpiry (srcOf 13 0) 0 0 s.ck.wdtInj (flushRecords s)))

/-! ## Software reset and the reference monitor (R382) -/

/-- GLOBAL_SOFTWARE_RESET: 0xA5 in RST.GLOBAL.KEY. -/
def execGlobalSoftwareReset (key : Byte) (s : State) : Host.Outcome State Fault Refusal :=
  .next (if key = 0xA5 then packageReset 64 s else s)

/-- A reference fault: a FAT record, then a PACKAGE reset whose bring-up waits at the root PLL. While the PLL is not locked
there is none. -/
def referenceFault (inj : Bool) (s : State) : State :=
  if !s.ck.lock then s
  else
    let t := resetNow 256 (fatalNow eClkRefLost (srcOf 0 0) 0 0 inj (flushRecords s))
    { t with ck := { t.ck with refHold := true } }

/-- REFERENCE_WINDOW_CLOSE: the latest 250-ACLK window counted `count` reference edges; an injection puts its PARAM in
place of the count and makes the fault. -/
def execReferenceWindowClose (count : BitVec 16) (s : State) : Host.Outcome State Fault Refusal :=
  let (inj, s) := injEvt eClkRefLost (srcOf 0 0) s
  let count := match inj with | some p => BitVec.ofNat 16 p | none => count
  let bad := count.toNat < 900 || 1100 < count.toNat
  let k := s.ck
  let k := { k with refcnt := count, badWins := if bad then k.badWins + 1 else 0, goodWins := if bad then 0 else k.goodWins + 1 }
  let s := { s with ck := { k with refok := 2 ≤ k.goodWins } }
  .next (if inj.isSome || 2 ≤ k.badWins then referenceFault inj.isSome s else s)

/-- LOSS_OF_LOCK. -/
def execLossOfLock (s : State) : Host.Outcome State Fault Refusal := .next (referenceFault false s)

/-! ## Snapshot ports (R458) -/

/-- SPn.PSN. -/
def spPsn (s : State) (p : SnapPort) : BitVec 24 := BitVec.ofNat 24 (reg32 s (spBase p + 0x40)).toNat
/-- An enabled snapshot port trains its link, loads the send PSN and is ready. -/
def spTrain (p : SnapPort) (s : State) : State :=
  setSp p { spSt s p with link := 2, qps := 1, bytes := 0, psn := spPsn s p, tries := 0 } s
/-- SPn.CTL with EN set or cleared. -/
def setSpEn (p : SnapPort) (v : Bool) (s : State) : State :=
  let x := reg32 s (spBase p) &&& 0x7FFFFFFF#32
  setReg32 (spBase p) (if v then x ||| 0x80000000#32 else x) s
/-- A stream that runs stops (R372). -/
def spStop (p : SnapPort) (s : State) : State := if s.cm.stream then streamFail eMsStreamFail p false s else s

/-- SNAPSHOT_PORT_ENABLE: EN rises. Before step 10 of bring-up the link does not train yet. -/
def execSnapshotPortEnable (p : SnapPort) (s : State) : Host.Outcome State Fault Refusal :=
  .next (blockOnly s (
    if spEn s p then s
    else
      let s := setSpEn p true s
      if s.ck.inReset then s else spTrain p s))

/-- SNAPSHOT_PORT_DISABLE: EN falls. -/
def execSnapshotPortDisable (p : SnapPort) (s : State) : Host.Outcome State Fault Refusal :=
  .next (blockOnly s (
    if spEn s p then
      let s := setSp p { spSt s p with link := 0, qps := 0 } (setSpEn p false s)
      spStop p s
    else s))

/-- A block reset of a snapshot port: any stream stops, and every field of its status is at its reset value (R11, R391). -/
def spReset (p : SnapPort) (s : State) : State := spStop p (setSp p {} s)

/-! ## Per-block reset (R391, R392) -/

/-- A block reset of a Turnpike port: it goes down, and every field of its status is at its reset value (R11, R391). -/
def portReset (p : Port) (s : State) : State := setPort p {} (portStop p 0 s)

/-- TCLK in 64 SCLK, the clock of a link or snapshot port and of the front end (DESIGN CHOICE, entry 161). -/
def slowHold : Nat := 256
/-- A block leaves reset and its bit clears: an enabled port trains again, and a placement that waited begins (R209, R391,
R392). -/
def releaseBlock (b : Nat) (s : State) : State :=
  let s := { s with ck := { s.ck with blockEnd := s.ck.blockEnd.filter fun x => x.1 ≠ b } }
  if 32 ≤ b then
    { s with ck := { s.ck with corePend := s.ck.corePend &&& ~~~(1#128 <<< (b - 32)),
                               halted := s.ck.halted &&& ~~~(1#129 <<< (b - 32)) } }
  else
    let s := { s with ck := { s.ck with blockPend := s.ck.blockPend &&& ~~~(1#32 <<< b) } }
    if 12 ≤ b then (if running s then s else beginPlacement s.cyc s.pl.runs s)
    else if 4 ≤ b then retrainPort (portOf (b - 4)) s
    else if 2 ≤ b then
      let p : SnapPort := ⟨(b - 2) % 2, by omega⟩
      if spEn s p then spTrain p s else s
    else s
/-- Every block whose 64 cycles are over leaves reset. -/
def releaseBlocks (s : State) : State :=
  (s.ck.blockEnd.filter fun x => x.2 ≤ s.cyc).foldl (fun s x => releaseBlock x.1 s) s

/-- BLOCK_RESET: each bit written reads 1 until its block leaves reset; die and NRU bits stay pending while a segment runs; a
block reset during bring-up has no effect but the cause of its front-end bit (R8, R387, R391). -/
def execBlockReset (bits : W32) (s : State) : Host.Outcome State Fault Refusal :=
  let b := bits.toNat
  .next (blockOnly s (
    if s.ck.inReset then (if bitOf b 0 then withCause 4 s else s)
    else
      let s := { s with ck := { s.ck with blockPend := s.ck.blockPend ||| (bits &&& 0xFFFFFFFD#32)
                                          blockEnd := s.ck.blockEnd.filter fun x => !(x.1 < 32 && bitOf b x.1) } }
      let s := if running s && !issueStopped s then s else pendingResets s
      let s := allPorts.foldl (fun s p => if bitOf b (4 + p.val) then holdBlock (4 + p.val) slowHold (portReset p s) else s) s
      let s := snapPorts.foldl (fun s p => if bitOf b (2 + p.val) then holdBlock (2 + p.val) slowHold (spReset p s) else s) s
      if bitOf b 0 then holdBlock 0 slowHold (frontEndReset s) else s))

/-- The lines that a core's L2 and write-back buffer hold. -/
def coreLines (s : State) (c : CoreId) : List Line :=
  (s.coh.l2.filter fun p => p.1 / 2 ^ 46 = c.val).map fun p => BitVec.ofNat 46 p.1
/-- One core's part of a reset: it writes back and drops what it can; once nothing is left it is held for 64 CCLK, and then
its bit clears (R392). -/
def resetCore (c : CoreId) (s : State) : State :=
  let s := (coreLines s c).foldl (fun s l => evictLine c l s) s
  if (coreLines s c).isEmpty then holdBlock (32 + c.val) 48 s else s

/-- CORE_RESET: bit i resets core i, or 64 + i when `hi`; a core whose write-backs are still under way is looked at again
on the next cycle. -/
def execCoreReset (hi : Bool) (bits : W64) (s : State) : Host.Outcome State Fault Refusal :=
  let wide : BitVec 128 := bits.setWidth 128 <<< (if hi then 64 else 0)
  .next (blockOnly s (
    if s.ck.inReset then s
    else
      let s := { s with ck := { s.ck with corePend := s.ck.corePend ||| wide } }
      let s := ((List.finRange 128).filter fun c => wide.getLsbD c.val).foldl (fun s c => resetCore c s) s
      let held := s.ck.blockEnd.foldl (fun (v : BitVec 128) x => if 32 ≤ x.1 then v ||| (1#128 <<< (x.1 - 32)) else v) 0
      let left := s.ck.corePend &&& wide &&& ~~~held
      if left = 0 then s
      else sched (s.cyc + 1) (.coreReset hi (BitVec.ofNat 64 (left.toNat >>> (if hi then 64 else 0)))) s))

end Sys2Proof.Machine
end

