-- ==== Sys2Proof/Machine/Boot.lean ====
section
/-! DEFINITION. Bring-up: fuses, the root PLL, the firmware boot chain, the configuration image, the rebuilding of shutdown
records, and the release of the blocks step by step (16_boot_reset_clocks R393-R400; 18_security R416-R421; 19 R441). -/

namespace Sys2Proof.Machine

/-- Sources MD and FD (Table 19.7). -/
def mdSrc : Nat := srcOf 13 0
def fdSrc : Nat := srcOf 13 1

/-- Log a record of bring-up at once, with TCYC 0 (Table 19.6: no counter runs) and two items. -/
def bootRecord (code src i0 i1 : Nat) (s : State) : State := logRecord (detect s code src 0 0 i0 i1 false false) s

/-! ## Shutdown records (R441) -/

/-- The three bits of PWR.STAT, UV first, as the records of a shutdown are rebuilt. -/
def pwrBits (s : State) : Nat := b2n s.pwr.ttrip * 4 + b2n s.pwr.uv * 2 + b2n s.pwr.ov
/-- One rebuilt record. -/
def rebuildOne (m : Marker) (code : Nat) (s : State) : State :=
  let d := { detect s code (srcOf 0 0) 0 0 0 0 false false with step := m.step.setWidth 64 }
  logNew d { recOf s d true with hours := m.hours } s
/-- Step 5 rebuilds the records of a shutdown from PWR.STAT, or from the marker when a POWER reset has cleared it, and
clears both. -/
def rebuildShutdown (s : State) : State :=
  match s.fd.marker with
  | none => { s with pwr := { s.pwr with ttrip := false, uv := false, ov := false } }
  | some m =>
    let b := if pwrBits s = 0 then m.bits.toNat else pwrBits s
    let s := if bitOf b 1 then rebuildOne m ePwrUv s else s
    let s := if bitOf b 0 then rebuildOne m ePwrOv s else s
    let s := if bitOf b 2 then rebuildOne m eThermTrip s else s
    { s with fd := { s.fd with marker := none }, pwr := { s.pwr with ttrip := false, uv := false, ov := false } }

/-! ## Fuses and the records that the PUF protects (R394, R420, R421) -/

/-- Step 3: the fuses are read with majority vote, a record for each word whose copies disagree, and the PUF key is reconstructed; the debug level is 0 then (R429). -/
def readFuses (s : State) : State :=
  let s := s.fd.voteBad.foldl (fun s w => bootRecord eFuseVote mdSrc w 0 s) s
  let s := if s.fd.pufOk then s else bootRecord eSecPuf mdSrc 0 0 s
  { s with ck := { s.ck with trim := true }, sec := { s.sec with dik := s.fd.pufOk && s.sec.level ≠ 3 } }
/-- The HMAC of a record in FD, under the key that comes from the PUF (R420). -/
def recordMac (bs : List Byte) : List Byte := hmac384 Config.pufHmacKey bs
/-- The bytes of the owner record under its HMAC: the fields of Table 18.2 in their order. DESIGN CHOICE (entry 186): the policy
bits make one byte. -/
def ownerBytes (o : Owner) : List Byte :=
  o.point ++ [BitVec.ofNat 8 (b2n o.reqsig + 2 * b2n o.cosign + 4 * b2n o.dbgdrk)] ++ leBytes 4 o.rcnt.toNat
/-- The HMAC of the security record of a rollback floor. -/
def floorMac (v : W32) : List Byte := recordMac (leBytes 4 v.toNat)
/-- The owner record's HMAC matches, or there is no record. -/
def ownerGood (s : State) : Bool := match s.fd.owner with | some o => s.fd.ownerMac = recordMac (ownerBytes o) | none => true
/-- The security record's HMAC matches, or there is no record. -/
def securityGood (s : State) : Bool := match s.fd.secMac with | some m => m = floorMac s.fd.floor | none => true
/-- The security and owner records, checked by their HMACs: a mismatch is treated as absent and recorded. -/
def readRecords (s : State) : State :=
  let s := if s.fd.pufOk && !securityGood s then bootRecord eSecRecord fdSrc 0 0 s else s
  let s := if s.fd.pufOk && !ownerGood s then bootRecord eSecRecord fdSrc 0 0 s else s
  { s with sec := { s.sec with owner := if s.fd.pufOk && ownerGood s then s.fd.owner else none } }
/-- The rollback floor: 0 without a valid security record (R417, R421). -/
def rollbackFloor (s : State) : Nat :=
  if s.fd.pufOk && s.fd.secMac.isSome && securityGood s then s.fd.floor.toNat else 0

/-! ## The firmware boot chain (R416-R418) -/

/-- A bundle's header as the boot ROM reads it. -/
structure FwHead where
  magic : Nat
  version : Nat
  svn : Nat
  signed : Nat
  stages : List (Nat × Nat × Digest)
  deriving DecidableEq, Repr
/-- Read it. -/
def fwHead (bs : List Byte) : FwHead :=
  let h := Config.fwHeader (slice bs 0 256)
  { magic := h.1, version := h.2.1, svn := h.2.2.1, signed := h.2.2.2.1, stages := h.2.2.2.2 }

/-- A signature block of a bundle: it begins at an offset and verifies over [0, SIGNED_LEN). -/
def fwBlockOk (point : List Byte) (bs : List Byte) (off : Nat) : Bool :=
  blockVerifies point (bs.drop off) (sha384 (bs.take (fwHead bs).signed))
/-- The block that follows the first one. -/
def fwSecond (bs : List Byte) : Nat :=
  let o := (fwHead bs).signed
  o + 104 + leField bs (o + 2) 2

/-- The check that keeps a slot from booting: 1 header or signatures, 2 rollback floor, 3 a stage's digest; none when it is
bootable. -/
def fwFails (s : State) (bs : List Byte) : Option Nat :=
  let h := fwHead bs
  let cosign := match s.sec.owner with | some o => !o.cosign || fwBlockOk o.point bs (fwSecond bs) | none => true
  let head := h.magic = 0x57465854 && h.version = 1 && h.stages.length = 3 && h.signed ≤ bs.length
  if !(head && fwBlockOk Config.drkPoint bs h.signed && cosign) then some 1
  else if h.svn < rollbackFloor s then some 2
  else if h.stages.any fun g => sha384D (slice bs g.1 g.2.1) ≠ g.2.2 then some 3
  else none

/-- The bytes of a firmware slot: false F0, true F1. -/
def fwSlot (s : State) (k : Bool) : List Byte := if k then s.fd.f1 else s.fd.f0
/-- The slot tried first: the larger SVN, F0 on a tie. -/
def fwFirst (s : State) : Bool := (fwHead s.fd.f0).svn < (fwHead s.fd.f1).svn
/-- Try one slot. -/
def fwTry (k : Bool) (s : State) : Bool × State :=
  match fwFails s (fwSlot s k) with
  | none => (true, s)
  | some c => (false, bootRecord eSecFwBad fdSrc (b2n k) c s)
/-- A slot boots: SEC.STAT names it. -/
def fwBoots (k : Bool) (s : State) : State :=
  let bs := fwSlot s k
  let h := fwHead bs
  { s with sec := { s.sec with slot := k, svn := BitVec.ofNat 32 h.svn, fwDigest := sha384D (bs.take h.signed) } }
/-- Step 5's boot: the first bootable slot runs, or MD stays in the boot ROM with SEC_BOOT. -/
def bootFirmware (s : State) : State :=
  let k := fwFirst s
  let (ok, s) := fwTry k s
  if ok then fwBoots k s
  else
    let (ok, s) := fwTry (!k) s
    if ok then fwBoots (!k) s
    else bootRecord eSecBoot mdSrc 0 0 { s with ck := { s.ck with rom := true } }

/-! ## The configuration image (R395-R400) -/

/-- SEQNO and the other header fields of a bank. -/
def cfgSeq (bs : List Byte) : Nat := leField bs 0xC 4
def cfgCount (bs : List Byte) : Nat := leField bs 0x10 4
def cfgSigned (bs : List Byte) : Nat := leField bs 0x14 4
/-- The records: offset, mask, value. -/
def cfgRecs (bs : List Byte) : List (Nat × W32 × W32) :=
  tabulate (cfgCount bs) fun i =>
    let e := slice bs (0x40 + 16 * i) 16
    (leField e 0 4, BitVec.ofNat 32 (leField e 4 4), BitVec.ofNat 32 (leField e 8 4))
/-- Apply staged words to the register storage, in record order. -/
def applyCfg (recs : List (Nat × W32 × W32)) (m : SMap W32) : SMap W32 :=
  recs.foldl (fun m r =>
    let old := smapGet 0 m (r.1 / 4)
    smapSet 0 (r.1 / 4) ((old &&& ~~~r.2.1) ||| (r.2.2 &&& r.2.1)) m) m
/-- The header satisfies Table 16.8. -/
def cfgHeadOk (bs : List Byte) : Bool :=
  leField bs 0 4 = 0x46435854 && leField bs 4 2 = 1 && leField bs 6 2 = 0x40 && leField bs 8 4 = 0xA0 &&
  1 ≤ cfgSeq bs && cfgSeq bs ≤ 0xFFFFFFFE && cfgCount bs ≤ 4096 && cfgSigned bs = 0x40 + 16 * cfgCount bs &&
  allZero (slice bs 0x18 40)
/-- The records satisfy R395, and the position they leave has a rank below 16 × POD_Z. -/
def cfgRecsOk (s : State) (bs : List Byte) : Bool :=
  let rs := cfgRecs bs
  let pos := (smapGet 0 (applyCfg rs s.regs) (0x3008 / 4)).toNat
  rs.all (fun r => r.1 % 4 = 0 && r.2.1 &&& ~~~cfgMask r.1 = 0) &&
  (List.range (cfgCount bs)).all (fun i => leField bs (0x40 + 16 * i + 12) 4 = 0) &&
  (!(rs.any fun r => r.1 = 0x3008) || bitsOf pos 5 0 < 16 * (bitsOf pos 13 12 + 1))
/-- The signature block verifies against the owner key, or against the product CA key on an unowned package (R423). -/
def cfgSigOk (s : State) (bs : List Byte) : Bool :=
  let hash := sha384 (bs.take (cfgSigned bs))
  let blk := bs.drop (cfgSigned bs)
  match s.sec.owner with
  | some o => blockVerifies o.point blk hash
  | none => caVerifies s blk hash
/-- A bank verifies (R396). -/
def bankOk (s : State) (bs : List Byte) : Bool := cfgHeadOk bs && cfgRecsOk s bs && cfgSigOk s bs
/-- The bytes of a bank: false A, true B. -/
def bankOf (s : State) (k : Bool) : List Byte := if k then s.fd.bankB else s.fd.bankA
/-- A bank fails: its bit in CFG.STAT and CFG_BANK_BAD. -/
def bankBad (k : Bool) (s : State) : State :=
  let s := { s with ck := { s.ck with abad := s.ck.abad || !k, bbad := s.ck.bbad || k } }
  bootRecord eCfgBankBad fdSrc 0 0 s
/-- Stage a verified bank in the shadow registers. -/
def stageBank (k : Bool) (s : State) : State :=
  let bs := bankOf s k
  { s with ck := { s.ck with load := some { bank := some k, seqno := BitVec.ofNat 32 (cfgSeq bs),
                                            digest := sha384D (bs.take (cfgSigned bs)), recs := cfgRecs bs } } }
/-- Nothing is staged. -/
def stageNone (s : State) : State :=
  { s with ck := { s.ck with load := some { bank := none, seqno := 0, digest := 0, recs := [] } } }
/-- The load begins (R398): the counter rises and is mirrored, and the bank with the larger SEQNO is tried first, A on a
tie; a counter of 3 loads nothing. -/
def beginLoad (s : State) : State :=
  let s := { s with ck := { s.ck with cfgFails := s.ck.fails, abad := false, bbad := false } }
  if s.ck.fails = 3 then stageNone s
  else
    let n := s.ck.fails + 1
    let s := { s with ck := { s.ck with fails := n }, fd := { s.fd with failMirror := n } }
    let k : Bool := cfgSeq s.fd.bankA < cfgSeq s.fd.bankB
    if bankOk s (bankOf s k) then stageBank k s
    else
      let s := bankBad k s
      if bankOk s (bankOf s (!k)) then stageBank (!k) s else stageNone (bankBad (!k) s)
/-- The commit edge (R397, R398, R400): every staged field takes its value at once and the counter clears, or the package
runs on fuse defaults alone. -/
def commitLoad (x : LoadSt) (s : State) : State :=
  match x.bank with
  | some k =>
    { s with regs := applyCfg x.recs s.regs
             ck := { s.ck with load := none, fails := 0, cfgSeqno := x.seqno, bank := k, fallback := false }
             fd := { s.fd with failMirror := 0 }
             sec := { s.sec with cfgDigest := x.digest } }
  | none =>
    bootRecord eCfgFallback mdSrc 0 0 { s with ck := { s.ck with load := none, fallback := true, cfgSeqno := 0 } }

/-! ## The steps (R393, Table 16.7) -/

/-- Latest end of each step, in µs from the release of the reset. -/
def bringBound : Nat → Nat
  | 5 => 12000 | 6 => 60000 | 7 => 1050000 | 8 => 1060000 | 9 => 1070000 | _ => 1080000
/-- The tile-cycle counter on the completion of step n: it has counted from r0, and the step ends within its time. -/
def bringCycle (n : Nat) (s : State) : Nat :=
  s.cyc + Config.bringTime n s.fresh % (bringBound n * 2250 + 1 - s.cyc)
/-- Step n is complete. -/
def stepDone (n : Nat) (s : State) : State := { s with ck := { s.ck with bring := n } }
/-- Step n is complete, and time has passed. -/
def stepDoneLater (n : Nat) (s : State) : State :=
  let c := bringCycle n s
  stepDone n (useFree { s with cyc := c, ck := { s.ck with root := s.ck.root + 4 * (c - s.cyc) } })

/-- TEL.CTL.INT in TCLK: INT × 562,500 SCLK (R411). -/
def telLen (s : State) : Nat := max 1 (bitsOf (reg32 s 0x7000C).toNat 9 0) * 2250000
/-- A telemetry interval opens on cycle `c`, and will close by itself. -/
def openInterval (c : Nat) (s : State) : State :=
  sched (c + telLen s) .telemetryIntervalClose { s with tel := { s.tel with opened := c, len := telLen s } }
/-- Step 4: the dividers are released on r0; the first telemetry interval opens (R380, R411). -/
def lockPll (s : State) : State := openInterval 0 { s with cyc := 0, ck := { s.ck with lock := true, root := 0, pace := 0 } }
/-- Step 8: the core boot image stands at the boot address, the caches are cleared and the cores run (R417, R454). -/
def releaseCores (s : State) : State :=
  let bs := fwSlot s s.sec.slot
  let a := reg64 s 0x3010
  let img := match (fwHead bs).stages with | [_, _, g] => slice bs g.1 g.2.1 | _ => []
  { s with mem := memWrite s.mem a img,
           coh := { s.coh with l2 := [], dir := [], l3 := [], hmc := [], busy := [] }, ck := { s.ck with halted := 0 } }
/-- Step 10: the ports begin to train, the floor rises to the booted SVN, a bring-up that loaded nothing clears the
failed-load counter, and READY is set. -/
def makeReady (s : State) : State :=
  let s := stepDoneLater 10 s
  let s := { s with ck := { s.ck with inReset := false, ready := true, power := false, refHold := false },
                    tp := { s.tp with lastBeacon := s.cyc } }
  let s := refreshPorts s
  let s := snapPorts.foldl (fun s p => if spEn s p then spTrain p s else s) s
  let s := if rollbackFloor s < s.sec.svn.toNat ∧ s.fd.pufOk then
      { s with fd := { s.fd with floor := s.sec.svn, secMac := some (floorMac s.sec.svn) } } else s
  if s.ck.cfgFails = 3 then { s with ck := { s.ck with fails := 0 }, fd := { s.fd with failMirror := 0 } } else s

/-- One step of bring-up, once no contact holds the reset and the rails are up. Step 5 takes two: the load, then the commit
edge. -/
def bringUp (s : State) : State :=
  if s.ck.pinHeld || s.pwr.off || s.ck.rom then s
  else match s.ck.bring with
    | 0 => stepDone 1 { s with ck := { s.ck with hours := s.fd.hoursMirror, fails := s.fd.failMirror } }
    | 1 => stepDone 2 s
    | 2 => stepDone 3 (readFuses s)
    | 3 =>
      if s.ck.refHold && s.ck.goodWins < 2 then s
      else
        stepDone 4 (lockPll s)
    | 4 =>
      (match s.ck.load with
      | none =>
        let s := bootFirmware (readRecords (rebuildShutdown s))
        if s.ck.rom then s else beginLoad s
      | some x => stepDoneLater 5 (commitLoad x s))
    | 5 => stepDoneLater 6 s
    | 6 => stepDoneLater 7 s
    | 7 => stepDoneLater 8 (releaseCores s)
    | 8 => stepDoneLater 9 s
    | 9 => makeReady s
    | _ => s

/-- What an answer on the management port may tell: the telemetry record and the owner record's RCNT (R412, R431). -/
def mgmtView (s : State) : List Byte := telRecord s ++ leBytes 4 (match s.sec.owner with | some o => o.rcnt.toNat | none => 0)
/-- MD's runtime serves requests: it has booted, and debug has not halted it. -/
def mdServes (s : State) : Bool := 5 ≤ s.ck.bring && !s.ck.rom && !s.ck.halted.getLsbD 128 && !s.pwr.off

end Sys2Proof.Machine
end

