-- ==== Sys2Proof/Machine/Power.lean ====
section
/-! DEFINITION. Power input, clock stretch, shutdown, temperatures, telemetry and the management port's plain commands
(17_power_thermal). -/

namespace Sys2Proof.Machine

/-! ## Shutdown (R406, R409, R441) -/

/-- Every rail but the always-on domain's is off: what the rails held is lost. -/
def railsOff (s : State) : State :=
  let t := cleared s
  { t with pwr := { t.pwr with off := true } }
/-- The shutdown marker (R441). -/
def markerOf (s : State) : Marker :=
  { bits := BitVec.ofNat 3 (pwrBits s), hours := s.ck.hours, step := BitVec.ofNat 32 s.cm.step.toNat }
/-- A shutdown: the class vector is raised and FAULT is broadcast, the bit of PWR.STAT is set, the marker is written, and the
rails turn off before the record could be copied (R441). -/
def shutdown (code : Nat) (bit : Power → Power) (s : State) : State :=
  if s.pwr.off then s
  else
    let s := faultToken code (recRaise code (flushRecords s))
    let s := { s with pwr := bit s.pwr }
    let t := railsOff { s with fd := { s.fd with marker := some (markerOf s) } }
    edgeNote false 0x70008 (BitVec.ofNat 32 (b2n t.pwr.ttrip * 2 ^ 31 + b2n t.pwr.uv * 2 ^ 30 + b2n t.pwr.ov * 2 ^ 29)) t
/-- The three shutdowns. -/
def shutUv (s : State) : State := shutdown ePwrUv (fun w => { w with uv := true }) s
def shutOv (s : State) : State := shutdown ePwrOv (fun w => { w with ov := true }) s
def shutTrip (s : State) : State := shutdown eThermTrip (fun w => { w with ttrip := true }) s

/-- PWR_UV: 50 ACLK below 43.0 V. -/
def execPwrUv (s : State) : Host.Outcome State Fault Refusal := .next (if 50 ≤ s.pwr.uvFor then shutUv s else s)
/-- PWR_OV: 50 ACLK above 60.0 V. -/
def execPwrOv (s : State) : Host.Outcome State Fault Refusal := .next (if 50 ≤ s.pwr.ovFor then shutOv s else s)
/-- THERM_TRIP: the analogue comparator of a die. -/
def execThermTrip (s : State) : Host.Outcome State Fault Refusal := .next (shutTrip s)

/-! ## Stretch (R403-R405, Table 17.2) -/

/-- The next value of a count of consecutive samples. -/
def runLen (c : Bool) (n : Nat) : Nat := if c then n + 1 else 0
/-- Threshold of a level in mV. -/
def levelMv (k : Nat) : Nat := 48000 - 1000 * k
/-- The largest level whose condition holds: VIN, current and power of the sample, the held power and heat conditions. -/
def levelFor (w : Power) : Nat :=
  if w.vin < 44000 || 80000 ≤ w.iin || 3800 ≤ w.pin || w.hotHeld then 4
  else if w.vin < 45000 then 3
  else if w.vin < 46000 || w.overHeld then 2
  else if w.vin < 47000 then 1
  else 0
/-- A sample enters the filters. -/
def takeSample (p : PowerSample) (w : Power) : Power :=
  let above := runLen (3300 < p.pin) w.overFor
  let under := runLen (p.pin ≤ 3300) w.underFor
  let hot := runLen (110 * 16 ≤ p.tj) w.hotFor
  { w with vin := p.vin, iin := p.iin, pin := p.pin, tj := p.tj, overFor := above, underFor := under, hotFor := hot,
           overHeld := if 50000 ≤ above then true else if 50000 ≤ under then false else w.overHeld,
           hotHeld := if 25000 ≤ hot then true else if p.tj < 105 * 16 then false else w.hotHeld,
           uvFor := runLen (p.vin < 43000) w.uvFor, ovFor := runLen (60000 < p.vin) w.ovFor }
/-- The level after a sample: a rise at once, and the count of samples that allow a fall. -/
def takeLevel (w : Power) : Power :=
  let c := levelFor w
  if w.level < c then { w with level := c, lowFor := 0 }
  else { w with lowFor := runLen (c < w.level && levelMv w.level + 250 ≤ w.vin) w.lowFor }
/-- A sample enters the telemetry sums (R411): PIN_MAX takes the mean of each 25 ACLK. -/
def telSample (w : Power) (t : Telem) : Telem :=
  let sum := t.usSum + w.pin
  let full := t.usN + 1 = 25
  { t with n := t.n + 1, vinSum := t.vinSum + w.vin, iinSum := t.iinSum + w.iin, pinSum := t.pinSum + w.pin,
           usSum := if full then 0 else sum, usN := if full then 0 else t.usN + 1,
           pinMax := if full then max t.pinMax (sum / 25) else t.pinMax, energy := t.energy + w.pin,
           strAclk := t.strAclk + b2n (0 < w.level), strMax := max t.strMax w.level }
/-- One ACLK of the watchdog: its expiry follows when its time has passed. -/
def wdtTick (s : State) : State :=
  if wdtEn s then
    let s := { s with ck := { s.ck with wdt := s.ck.wdt + 1 } }
    if s.ck.wdt = wdtLimit s then schedNow .wdtExpiry s else s
  else s
/-- The rise from level 0 logs PWR_STRETCH once per telemetry interval (R405). -/
def stretchRecord (was : Nat) (s : State) : State :=
  let (hit, inj, s) := evtDetect ePwrStretch 0 (was = 0 && 0 < s.pwr.level && !s.tel.stretchLogged) s
  if hit then report ePwrStretch 0 s.cyc 0 0 0 inj false { s with tel := { s.tel with stretchLogged := true } } else s
/-- Undervoltage and overvoltage: the shutdown's step follows the fiftieth sample, or the injection. -/
def inputLimits (s : State) : State :=
  let (uv, s) := injEvt ePwrUv 0 s
  let (ov, s) := injEvt ePwrOv 0 s
  if uv.isSome then shutUv s
  else if ov.isSome then shutOv s
  else if s.pwr.uvFor = 50 then schedNow .pwrUv s
  else if s.pwr.ovFor = 50 then schedNow .pwrOv s
  else s
/-- A sample while the rails are off: a PACKAGE reset follows when VIN passes the start threshold, unless a trip holds the
package off (R406, R409). -/
def sampleOff (p : PowerSample) (s : State) : State :=
  let rise := s.pwr.vin < 47500 && 47500 ≤ p.vin
  let s := { s with pwr := { s.pwr with vin := p.vin, iin := p.iin, pin := p.pin, tj := p.tj } }
  if rise && !s.pwr.ttrip then packageReset 1 { s with pwr := { s.pwr with off := false } } else s

/-- VIN_SAMPLE: one ACLK edge. -/
def execVinSample (p : PowerSample) (s : State) : Host.Outcome State Fault Refusal :=
  .next (
    if s.pwr.off then sampleOff p s
    else
      let was := s.pwr.level
      let w := takeLevel (takeSample p s.pwr)
      let s := { s with pwr := w, tel := telSample w s.tel }
      let s := if w.lowFor = 250 then schedNow .stretchFall s else s
      inputLimits (stretchRecord was (wdtTick s)))

/-- STRETCH_FALL: one level down after 250 ACLK of the lower condition. -/
def execStretchFall (s : State) : Host.Outcome State Fault Refusal :=
  .next (
    if 0 < s.pwr.level ∧ 250 ≤ s.pwr.lowFor then { s with pwr := { s.pwr with level := s.pwr.level - 1, lowFor := 0 } } else s)

/-! ## Temperatures (R408, R409) -/

/-- The hottest junction: the first sixteen entries are the logic dies. -/
def hottest (ts : List Int) : Int := match ts.take 16 with | [] => 0 | t :: r => r.foldl max t
/-- Entry by entry, the larger. -/
def maxTemps (a b : List Int) : List Int := if a.isEmpty then b else List.zipWith max a b

/-- THERMAL_SAMPLE: the 40 sensors in the order of Table 17.5, in 1/16 degree. -/
def execThermalSample (temps : List Int) (s : State) : Host.Outcome State Fault Refusal :=
  let t := hottest temps
  let s := { s with pwr := { s.pwr with temps := temps, tj := t }, tel := { s.tel with tempMax := maxTemps s.tel.tempMax temps } }
  .next (
    if s.pwr.off then s
    else
      let (warn, inj, s) := evtDetect eThermWarn 0 (95 * 16 ≤ t && !s.tel.warnLogged) s
      let s := if warn then
          report eThermWarn 0 s.cyc 0 0 0 inj false { s with tel := { s.tel with warnLogged := true } } else s
      let (trip, s) := injEvt eThermTrip 0 s
      if trip.isSome then shutTrip s
      else if 115 * 16 ≤ t then schedNow .thermTrip s
      else s)

/-! ## Telemetry (R411, Table 17.5) -/

/-- A mean; 0 of no samples. -/
def meanOf (sum n d : Nat) : Nat := if n = 0 then 0 else sum / (n * d)
/-- The record at an interval's close. -/
def telBytes (s : State) : List Byte :=
  let t := s.tel
  let temps := if t.tempMax.isEmpty then s.pwr.temps else t.tempMax
  let warns := (List.finRange 4).flatMap fun c => [match lifeOf s c with | some r => BitVec.ofNat 8 r.warn.toNat | none => 0]
  leBytes 8 0xA0 ++ leBytes 8 s.cyc ++ leBytes 4 (t.seq.toNat + 1) ++ leBytes 2 (meanOf t.vinSum t.n 10) ++
  leBytes 2 (meanOf t.iinSum t.n 10) ++ leBytes 2 (meanOf t.pinSum t.n 1) ++ leBytes 2 t.pinMax ++ zeros 4 ++
  leBytes 8 (t.energy / 25000) ++ leBytes 4 t.strAclk ++ leBytes 1 t.strMax ++ zeros 3 ++ leBytes 8 t.tframes ++
  leBytes 8 s.cm.bwait ++ leBytes 2 (wrapInt 16 s.tp.boff) ++ leBytes 2 t.retire.toNat ++ warns ++
  (List.range 40).flatMap (fun i => leBytes 2 (wrapInt 16 (temps.getD i 0))) ++ zeros 8

/-- TELEMETRY_INTERVAL_CLOSE: the record is replaced and the next interval opens with the INT now written. -/
def execTelemetryIntervalClose (s : State) : Host.Outcome State Fault Refusal :=
  .next (
    let e := s.tel.opened + s.tel.len
    if s.cyc < e ∨ !s.ck.lock then s
    else
      let t := { s.tel with seq := s.tel.seq + 1, n := 0, vinSum := 0, iinSum := 0, pinSum := 0, pinMax := 0, strAclk := 0,
                            strMax := s.pwr.level, tempMax := [], corRaised := false, stretchLogged := false,
                            warnLogged := false, logSeq := s.log.seq, record := telBytes s }
      openInterval e { s with tel := t })

/-! ## The management port (R412) -/

/-- GET_TELEMETRY: vendor command 0x01. -/
def execGetTelemetry (s : State) : Host.Outcome State Fault Refusal :=
  .next (if mdServes s then emit (.mgmt (telRecord s)) s else s)

/-- POWER_DOWN: vendor command 0x02 stops tile issue, writes the life records and the hours mirror to FD, then answers. -/
def execPowerDown (s : State) : Host.Outcome State Fault Refusal :=
  .next (
    if mdServes s then
      let s := if running s then
          stopIssue s.cyc (useFree (failRun (1 + Config.powerDownErr s.fresh % 0xFFFF) s)) else s
      let s := lifeToFd s
      emit (.mgmt (Config.mctpAnswer [2] (mgmtView s))) s
    else s)

/-- MCTP_CONTROL: MCTP control and PLDM messages; in the boot ROM only control messages (type 0) are answered (R418). -/
def execMctpControl (msg : List Byte) (s : State) : Host.Outcome State Fault Refusal :=
  .next (
    if mdServes s ∨ (s.ck.rom ∧ !s.pwr.off ∧ msg.getD 0 0 &&& 0x7F#8 = 0) then emit (.mgmt (Config.mctpAnswer msg (mgmtView s))) s
    else s)

/-- ENTDAA: the I3C controller assigns the dynamic address. -/
def execEntdaa (addr : BitVec 7) (s : State) : Host.Outcome State Fault Refusal :=
  .next (if s.pwr.off then s else emit (.i3c addr) { s with i3c := addr })

end Sys2Proof.Machine
end

