-- ==== Sys2Proof/Machine/Security.lean ====
section
/-! DEFINITION. The security operations of the DOE mailbox, the security mailbox and the test port, attestation, ownership,
debug levels, firmware update and remote reset (18_security R413-R432; 20 R460). -/

namespace Sys2Proof.Machine

/-! ## Requests and responses (R425, R460, Table 18.3) -/

/-- Answer a request: the DOE object, the security mailbox's window, or the test port. -/
def respond (p : SecPath) (bs : List Byte) (s : State) : State :=
  match p with
  | .doe => emit (.doe bs) s
  | .testPort => emit (.test bs) s
  | .mailbox =>
    edgeNote false 0x80010 0x10000000#32
      { s with sec := { s.sec with mbBusy := false, mbDone := true, mbRlen := min bs.length 4096, mbRsp := bs.take 4096 } }
/-- A bare status. -/
def refuse (p : SecPath) (status : Byte) (s : State) : State := respond p [status] s
/-- MD takes an operation other than CHALLENGE and UNLOCK: it serves requests, and the test port carries only those two
(R430). -/
def takesOp (p : SecPath) (s : State) : Bool := mdServes s && p ≠ .testPort

/-- The bytes of a challenge. -/
def chalBytes (c : BitVec 512) : List Byte := leBytes 64 c.toNat
/-- The owner's signature block over the current challenge verifies. -/
def owkVerifies (o : Owner) (blk : List Byte) (c : BitVec 512) : Bool := blockVerifies o.point blk (sha384 (chalBytes c))
/-- SEC_TOKEN (R429, R431). -/
def tokenRecord (inj : Bool) (s : State) : State := report eSecToken mdSrc s.cyc 0 0 0 inj false s

/-! ## Attestation (R425-R427) -/

/-- STATE of Table 18.4. -/
def reportState (s : State) : Nat :=
  let o := s.sec.owner
  let bit := fun (f : Owner → Bool) => b2n (match o with | some x => f x | none => false)
  b2n o.isSome + 2 * bit (·.reqsig) + 4 * bit (·.cosign) + 8 * b2n s.ck.fallback + 16 * b2n s.pl.active.isSome +
    32 * b2n s.pl.staged.isSome + s.sec.level.toNat * 2 ^ 8 + b2n s.sec.slot * 2 ^ 10
/-- A digest field: all zeros when it describes nothing. -/
def digestOf (im : Option Image) : List Byte := match im with | some x => digestBytes x.digest | none => zeros 48
/-- The 328 bytes of a report (Table 18.4). -/
def reportBody (nonce : BitVec 256) (s : State) : List Byte :=
  leBytes 4 0x52545854 ++ leBytes 2 1 ++ leBytes 2 0x148 ++ leBytes 32 nonce.toNat ++ leBytes 16 s.fd.serial.toNat ++
  leBytes 4 (reportState s) ++ leBytes 4 s.sec.svn.toNat ++ digestBytes s.sec.fwDigest ++ digestBytes s.sec.cfgDigest ++
  leBytes 4 s.ck.cfgSeqno.toNat ++ zeros 4 ++ digestOf s.pl.active ++ digestOf s.pl.staged ++
  (match s.sec.owner with | some o => sha384 o.point | none => zeros 48) ++ leBytes 8 s.cyc ++ leBytes 8 s.cm.step.toNat

/-- GET_REPORT: the report and the identity key's signature block, or status 0x04. -/
def execGetReport (p : SecPath) (nonce : BitVec 256) (s : State) : Host.Outcome State Fault Refusal :=
  .next (
    if !takesOp p s then s
    else if !s.sec.dik || s.sec.level = 3 then refuse p 4 s
    else
      let b := reportBody nonce s
      respond p ([0] ++ b ++ signBlock Config.dikScalar s.fd.idCert (sha384 b)) s)

/-- GET_CERTS: identity and product CA certificates. -/
def execGetCerts (p : SecPath) (s : State) : Host.Outcome State Fault Refusal :=
  let one := fun (c : List Byte) => leBytes 2 c.length ++ c
  .next (if takesOp p s then respond p ([0] ++ one s.fd.idCert ++ one s.fd.caCert) s else s)

/-! ## Debug levels (R429, R430) -/

/-- CHALLENGE: nonce, SERIAL, level and 15 zero bytes replace any earlier challenge. -/
def execChallenge (p : SecPath) (level : Byte) (s : State) : Host.Outcome State Fault Refusal :=
  .next (
    if !mdServes s then s
    else if 3 < level.toNat then refuse p 1 s
    else
      let bs := leBytes 32 (Config.freshNonce s.fresh).toNat ++ leBytes 16 s.fd.serial.toNat ++ [level] ++ zeros 15
      let s := useFree { s with sec := { s.sec with chal := some (BitVec.ofNat 512 (leNat bs)) } }
      respond p ([0] ++ bs) s)

/-- A debug token verifies: against OWK on an owned package, and against the product CA key on an unowned one or with
DBGDRK. -/
def tokenVerifies (s : State) (k : DebugToken) : Bool :=
  let hash := sha384 (chalBytes k.challenge)
  match s.sec.owner with
  | some o => blockVerifies o.point k.sig hash || (o.dbgdrk && caVerifies s k.sig hash)
  | none => caVerifies s k.sig hash
/-- The level that a challenge asks for: its byte 48. -/
def chalLevel (c : BitVec 512) : BitVec 2 := BitVec.ofNat 2 (c.toNat >>> 384)

/-- A granted level is in force; level 3 clears the identity key until the next PACKAGE reset. -/
def grantLevel (p : SecPath) (v : BitVec 2) (s : State) : State :=
  let (_, inj, s) := evtDetect eSecUnlock mdSrc true s
  let s := { s with sec := { s.sec with level := v, chal := none, dik := s.sec.dik && v ≠ 3 } }
  respond p [0, BitVec.ofNat 8 v.toNat] (report eSecUnlock mdSrc s.cyc 0 v.toNat 0 inj false s)

/-- UNLOCK: a token for another challenge is stale; one that does not verify logs SEC_TOKEN; either way a token for the
current challenge consumes it. -/
def execUnlock (p : SecPath) (k : DebugToken) (s : State) : Host.Outcome State Fault Refusal :=
  .next (
    if !mdServes s then s
    else if s.sec.chal ≠ some k.challenge then refuse p 3 s
    else
      let (bad, inj, s) := evtDetect eSecToken mdSrc (!tokenVerifies s k) s
      if bad then refuse p 2 (tokenRecord inj { s with sec := { s.sec with chal := none } })
      else grantLevel p (chalLevel k.challenge) s)

/-- RELOCK: the debug level returns to 0; the identity key does not come back. -/
def execRelock (p : SecPath) (s : State) : Host.Outcome State Fault Refusal :=
  .next (if takesOp p s then refuse p 0 { s with sec := { s.sec with level := 0 } } else s)

/-! ## Ownership (R422-R424) -/

/-- Write the owner record to FD, under the HMAC of R420. -/
def putOwner (o : Option Owner) (s : State) : State :=
  let mac := match o with | some x => if s.fd.pufOk then recordMac (ownerBytes x) else [] | none => []
  { s with fd := { s.fd with owner := o, ownerMac := mac }, sec := { s.sec with owner := o } }

/-- CLAIM: on an unowned package, under an OWK signature over the current challenge. -/
def execClaim (p : SecPath) (r : ClaimReq) (s : State) : Host.Outcome State Fault Refusal :=
  let o : Owner := { point := r.point, reqsig := r.reqsig, cosign := r.cosign, dbgdrk := r.dbgdrk,
                     rcnt := Config.claimRcnt s.fresh }
  .next (
    if !takesOp p s then s
    else if s.sec.owner.isSome then refuse p 5 s
    else match s.sec.chal with
      | none => refuse p 3 s
      | some c =>
        let s := { s with sec := { s.sec with chal := none } }
        if owkVerifies o r.sig c then refuse p 0 (useFree (putOwner (some o) s)) else refuse p 2 s)

/-- RELEASE: removes the record under an OWK signature over the current challenge. -/
def execRelease (p : SecPath) (sig : List Byte) (s : State) : Host.Outcome State Fault Refusal :=
  .next (
    if !takesOp p s then s
    else match s.sec.owner, s.sec.chal with
      | none, _ => refuse p 5 s
      | some _, none => refuse p 3 s
      | some o, some c =>
        let s := { s with sec := { s.sec with chal := none } }
        if owkVerifies o sig c then refuse p 0 (putOwner none s) else refuse p 2 s)

/-! ## The security mailbox (R460) -/

/-- The operation that a request's bytes name; none when they are malformed (Table 18.3). -/
def secRequest (bs : List Byte) : Option Instr :=
  let n := bs.length
  let r := bs.drop 1
  let op := (bs.getD 0 0).toNat
  if op = 1 ∧ n = 33 then some (.getReport .mailbox (BitVec.ofNat 256 (leNat r)))
  else if op = 2 ∧ n = 1 then some (.getCerts .mailbox)
  else if op = 3 ∧ n = 2 then some (.challenge .mailbox (r.getD 0 0))
  else if op = 4 ∧ 65 ≤ n then some (.unlock .mailbox { challenge := BitVec.ofNat 512 (leNat (r.take 64)), sig := r.drop 64 })
  else if op = 5 ∧ 98 ≤ n then
    let (bits, sig) := Config.claimRest (r.drop 97)
    some (.claim .mailbox { point := r.take 97, reqsig := bits.getLsbD 0, cosign := bits.getLsbD 1, dbgdrk := bits.getLsbD 2,
                            sig := sig })
  else if op = 6 ∧ 1 ≤ n then some (.release .mailbox r)
  else if op = 7 ∧ n = 1 then some (.relock .mailbox)
  else none
/-- A scheduled operation of the security mailbox. -/
def fromMailbox (i : Instr) : Bool :=
  match i with
  | .getReport .mailbox _ | .getCerts .mailbox | .challenge .mailbox _ | .unlock .mailbox _ | .claim .mailbox _
  | .release .mailbox _ | .relock .mailbox => true
  | _ => false
/-- SEC.MBCTL.QLEN, at most the window's 4,096 bytes. -/
def qlen (s : State) : Nat := min 4096 (bitsOf (reg32 s 0x80010).toNat 12 0)

/-- MAILBOX_GO: the request is submitted and BUSY is set; the operation is the step that follows. -/
def execMailboxGo (s : State) : Host.Outcome State Fault Refusal :=
  .next (
    if s.sec.mbBusy ∨ qlen s = 0 then s
    else
      let s := { s with sec := { s.sec with mbBusy := true } }
      match secRequest (slice s.sec.mbReq 0 (qlen s)) with
      | some i => schedNow i s
      | none => refuse .mailbox 1 s)

/-- MAILBOX_ABORT: the operation is discarded and changes no state. -/
def execMailboxAbort (s : State) : Host.Outcome State Fault Refusal :=
  .next { s with sec := { s.sec with mbBusy := false }, agenda := s.agenda.filter fun x => !fromMailbox x.2 }

/-- DOE_ABORT: the object in progress is discarded; no state changes (R425). -/
def execDoeAbort (s : State) : Host.Outcome State Fault Refusal := .next s

/-! ## Firmware update (R419) -/

/-- The slot that FW_WRITE writes: the one that did not boot, or the one with the lower SVN, F1 on a tie. -/
def fwTarget (s : State) : Bool :=
  if s.ck.rom then !((fwHead s.fd.f0).svn < (fwHead s.fd.f1).svn) else !s.sec.slot
/-- FW_WRITE: vendor command 0x10, served by the boot ROM too; a slot holds 16 MiB. -/
def execFwWrite (bundle : List Byte) (s : State) : Host.Outcome State Fault Refusal :=
  .next (
    if mdServes s ∨ (s.ck.rom ∧ !s.pwr.off) then
      let bs := bundle.take 0x1000000
      let s := if fwTarget s then { s with fd := { s.fd with f1 := bs } } else { s with fd := { s.fd with f0 := bs } }
      emit (.mgmt (Config.mctpAnswer [0x10] (mgmtView s))) s
    else s)

/-! ## Remote reset (R431) -/

/-- REMOTE_RESET_REQUEST: SERIAL, RCNT and an OWK signature block over the SHA-384 of those 20 bytes. An accepted request
advances RCNT in the record first; every other one is refused with SEC_TOKEN. -/
def execRemoteResetRequest (payload : List Byte) (s : State) : Host.Outcome State Fault Refusal :=
  let hash := sha384 (slice payload 0 20)
  .next (
    if !mdServes s then s
    else
      let ok := match s.sec.owner with
        | some o => leField payload 0 16 = s.fd.serial.toNat && leField payload 16 4 = o.rcnt.toNat &&
            blockVerifies o.point (payload.drop 20) hash
        | none => false
      let (bad, inj, s) := evtDetect eSecToken mdSrc (!ok) s
      match s.sec.owner with
      | some o => if bad then tokenRecord inj s else packageReset 128 (putOwner (some { o with rcnt := o.rcnt + 1 }) s)
      | none => tokenRecord inj s)

/-! ## The test port (R429, R430, Table 18.5) -/

/-- The debug level that opens an instruction. -/
def testLevel : TestOp → Nat
  | .idcode | .bypass => 0
  | .boundary _ => 1
  | .readReg _ | .readLog _ => 2
  | .haltCore _ | .resumeCore _ | .haltMd | .readMem _ | .writeMem _ _ => 3
/-- What an instruction does when its level is open. -/
def testAct (o : TestOp) (s : State) : State :=
  match o with
  | .idcode => emit (.test (leBytes 4 (Config.testPortOut 0 0).toNat)) s
  | .bypass => s
  | .boundary v => emit (.test (leBytes 8 (Config.testPortOut (v.toNat + 1) s.fresh).toNat)) (useFree s)
  | .readReg off =>
    let a := off.toNat / 4 * 4
    emit (.test (leBytes 4 (regWord s a).toNat ++ leBytes 4 (regWord s (a + 4)).toNat)) s
  | .readLog n => emit (.test (match s.log.recs[n]? with | some r => recBytes r | none => zeros 64)) s
  | .haltCore c => { s with ck := { s.ck with halted := s.ck.halted ||| (1#129 <<< c.val) } }
  | .resumeCore c => { s with ck := { s.ck with halted := s.ck.halted &&& ~~~(1#129 <<< c.val) } }
  | .haltMd => { s with ck := { s.ck with halted := s.ck.halted ||| (1#129 <<< 128) } }
  | .readMem a => emit (.test [readByte s a]) s
  | .writeMem a v => sysStore mdPort a [v] s

/-- TEST_PORT_ACCESS: an instruction that the debug level does not open does nothing. -/
def execTestPortAccess (o : TestOp) (s : State) : Host.Outcome State Fault Refusal :=
  .next (if testLevel o ≤ s.sec.level.toNat && !s.pwr.off then testAct o s else s)

end Sys2Proof.Machine
end

