-- ==== Sys2Proof/Machine/Registers.lean ====
section
/-! DEFINITION. Software writes of the register map: the access codes of every field, and the actions that a write takes
(00_scope R8-R12; 20_register_map R447-R462). -/

namespace Sys2Proof.Machine

/-- The state that a meaning answers with. -/
def after (o : Host.Outcome State Fault Refusal) (s : State) : State := match o with | .next t => t | _ => s

/-- Set the RW fields of a word. -/
def storeRw (wide : Bool) (off : Nat) (v : W32) (s : State) : State :=
  let m := rwMask wide off
  setReg32 off ((reg32 s off &&& ~~~m) ||| (v &&& m)) s

/-! ## Words with actions -/

/-- RST.CFG: WDTEN, PSCOPE and WDTMO are set; KICK acts. -/
def writeRstCfg (v : W32) (s : State) : State :=
  let s := storeRw false 0x2008 v s
  after (execWatchdogKick (v.setWidth 8) s) s
/-- HOST.RCTLn (R280, R297, R301). -/
def writeRctl (r : Ring) (v : W32) (s : State) : State :=
  let s := if v.getLsbD 3 then after (execLdclr r s) s else s
  if v.getLsbD 0 then after (execRingEnable r s) s else after (execRingTeardown r s) s
/-- A ring's words: RBASE, RSTAT and RCFG do not change while EN = 1 (R278). -/
def writeRing (wide : Bool) (n o : Nat) (v : W32) (s : State) : State :=
  let r := ringOf n
  if o = 0x1C then writeRctl r v s
  else if (ring s r).en then s
  else storeRw wide (0x10000 + 0x40 * n + o) v s
/-- HOST.PARK (Table 12.9). -/
def writePark (v : W32) (s : State) : State :=
  let s := storeRw false 0x11004 v s
  let s := if v.getLsbD 15 then (if v.getLsbD 14 then after (execDeliver s) s else after (execResume s) s) else s
  if v.getLsbD 13 then after (execOclr s) s else s
/-- RGN.CTRL: DIRTY and BAD are write-one-to-clear, ARM is write-one-to-set. -/
def writeRgnCtrl (v : W32) (s : State) : State :=
  let s := setReg32 0x20400 (reg32 s 0x20400 &&& ~~~w1cBits s 0x20400 (v &&& 6#32)) s
  if v.getLsbD 0 then after (execArm s) s else s
/-- TP.PCTLn: a disabled port stops, an enabled one trains (R313, R316). -/
def writePctl (p : Port) (v : W32) (s : State) : State :=
  let s := storeRw false (0x50000 + 0x10 * p.val) v s
  let s := if s.ck.inReset then s else refreshPorts s
  if v.getLsbD 7 then after (execRetrain p s) s else s
/-- A snapshot port's words: while EN = 1 only EN and FAIL change (R458). -/
def writeSp (wide : Bool) (p : SnapPort) (o : Nat) (v : W32) (s : State) : State :=
  if o = 4 then
    (if (w1cBits s (spBase p + 4) v).getLsbD 27 then setSp p { spSt s p with fail := false } s else s)
  else
    let s := if spEn s p then s else storeRw wide (spBase p + o) v s
    if o = 0 then (if v.getLsbD 31 then after (execSnapshotPortEnable p s) s else after (execSnapshotPortDisable p s) s)
    else s
/-- PWR.STAT: TTRIP, UV and OV are write-one-to-clear. -/
def writePwrStat (v : W32) (s : State) : State :=
  let w := s.pwr
  let v := w1cBits s 0x70008 v
  { s with pwr := { w with ttrip := w.ttrip && !v.getLsbD 31, uv := w.uv && !v.getLsbD 30, ov := w.ov && !v.getLsbD 29 } }
/-- SEC.MBCTL (Table 20.8). -/
def writeMbctl (v : W32) (s : State) : State :=
  let s := storeRw false 0x80010 v s
  let s := if (w1cBits s 0x80010 v).getLsbD 28 then { s with sec := { s.sec with mbDone := false } } else s
  let s := if v.getLsbD 30 then after (execMailboxAbort s) s else s
  if v.getLsbD 31 then after (execMailboxGo s) s else s
/-- The SEC.MBREQ window: nothing changes while BUSY = 1 (R460). -/
def writeMbreq (o : Nat) (v : W32) (s : State) : State :=
  if s.sec.mbBusy then s
  else
    let old := s.sec.mbReq ++ zeros (o + 4 - s.sec.mbReq.length)
    { s with sec := { s.sec with mbReq := patch old o (leBytes 4 v.toNat) } }
/-- ERR.CTRL. -/
def writeErrCtrl (v : W32) (s : State) : State :=
  let s := if v.getLsbD 0 then after (execClr s) s else s
  if v.getLsbD 1 then after (execPclr s) s else s
/-- One half of ERR.INJCTLn: the low half leaves MODE, COUNT and FIRED as they are unless CODE and SRC turn the slot off. -/
def writeInjHalf (n : Fin 8) (hi : Bool) (v : W32) (s : State) : State :=
  let old := reg64 s (injCtl n.val)
  if hi then after (execInjectionSlotWrite n (BitVec.ofNat 64 (v.toNat * 2 ^ 32 + old % 2 ^ 32)) s) s
  else
    let x := old / 2 ^ 32 * 2 ^ 32 + v.toNat
    setReg64 (injCtl n.val) (injMode s x * 2 ^ 62 + x % 2 ^ 62) s
/-- The MSI-X table: a vector that is unmasked while pending is sent (R462, PCIe). -/
def writeMsix (off : Nat) (v : W32) (s : State) : State :=
  let s := storeRw false off v s
  let k : BitVec 5 := BitVec.ofNat 5 ((off - 0xF00000) / 16)
  if off % 16 = 12 ∧ !v.getLsbD 0 ∧ s.hf.msixPend.getLsbD k.toNat ∧ s.hf.linkUp then
    emit (.msix k) { s with hf := { s.hf with msixPend := s.hf.msixPend &&& ~~~(1#32 <<< k.toNat) } }
  else s

/-! ## One word -/

/-- A slot of injection from a number, modulo 8. -/
def slotOf8 (n : Nat) : Fin 8 := ⟨n % 8, by omega⟩
/-- A snapshot port from a number, modulo 2. -/
def spOf (n : Nat) : SnapPort := ⟨n % 2, by omega⟩

/-- Reset registers (Tables 16.3, 16.4, 16.6). -/
def writeRst (off : Nat) (v : W32) (s : State) : State :=
  if off = 0x2000 then { s with ck := { s.ck with cause := s.ck.cause &&& ~~~((w1cBits s 0x2000 v).setWidth 9 &&& 0x1FD#9) } }
  else if off = 0x2004 then after (execGlobalSoftwareReset (v.setWidth 8) s) s
  else if off = 0x2008 then writeRstCfg v s
  else if off = 0x200C then after (execBlockReset (v &&& 0xFFFFFFFD#32) s) s
  else if off = 0x2010 ∨ off = 0x2018 then after (execCoreReset (off = 0x2018) (v.setWidth 64) s) s
  else if off = 0x2014 ∨ off = 0x201C then after (execCoreReset (off = 0x201C) (v.setWidth 64 <<< 32) s) s
  else s
/-- One word of the map; `wide` when it is half of a 64-bit write of its register. -/
def writeWord (wide : Bool) (off : Nat) (v : W32) (s : State) : State :=
  if 0x2000 ≤ off ∧ off < 0x2020 then writeRst off v s
  else if 0x10000 ≤ off ∧ off < 0x11000 then writeRing wide ((off - 0x10000) / 0x40) (off % 0x40) v s
  else if off = 0x11004 then writePark v s
  else if off = 0x20400 then writeRgnCtrl v s
  else if 0x50000 ≤ off ∧ off < 0x50080 ∧ off % 16 = 0 then writePctl (portOf ((off - 0x50000) / 16)) v s
  else if 0x60100 ≤ off ∧ off < 0x60300 then writeSp wide (spOf ((off - 0x60100) / 0x100)) (off % 0x100) v s
  else if off = 0x70008 then writePwrStat v s
  else if off = 0x80010 then writeMbctl v s
  else if 0x81000 ≤ off ∧ off < 0x82000 then writeMbreq (off - 0x81000) v s
  else if off = 0x90000 then writeErrCtrl v s
  else if 0x90100 ≤ off ∧ off < 0x90180 ∧ off % 16 < 8 then
    writeInjHalf (slotOf8 ((off - 0x90100) / 16)) (off % 16 = 4) v s
  else if 0xF00000 ≤ off ∧ off < 0xF00200 then writeMsix off v s
  else storeRw wide off v s

/-- One word written from a path. The RW fields that the system plane writes on an SCLK edge stand against a write from BAR0 on the
same edge, whichever came first (R449). -/
def writeFrom (sys wide : Bool) (off : Nat) (v : W32) (s : State) : State :=
  let t := writeWord wide off v s
  let now := fun (w : SysWrite) => w.edge = sclkEdge s
  if rwMask wide off = 0 then t
  else if sys then
    { t with ck := { t.ck with sysw := t.ck.sysw.filter (fun w => now w && w.off ≠ off) ++ [⟨sclkEdge s, off, reg32 t off⟩] } }
  else match s.ck.sysw.find? fun w => now w && w.off = off with
    | some w => if reg32 t off = reg32 s off then t else storeRw true off w.bits t
    | none => t
/-- The word at an offset below the doorbells, on its path. -/
def writeOnPath (sys wide : Bool) (off : Nat) (v : W32) (s : State) : State :=
  if onPath sys off && !isoReg s off then writeFrom sys wide off v s else s

/-- A 64-bit write of a 64-bit register: the straddling fields change too; a register whose two words act together acts
once. -/
def writeWide (sys : Bool) (off : Nat) (v : W64) (s : State) : State :=
  if off = 0x2010 ∨ off = 0x2018 then after (execCoreReset (off = 0x2018) v s) s
  else if 0x90100 ≤ off ∧ off < 0x90180 ∧ off % 16 = 0 then
    after (execInjectionSlotWrite (slotOf8 ((off - 0x90100) / 16)) v s) s
  else writeFrom sys true (off + 4) (BitVec.ofNat 32 (v.toNat >>> 32)) (writeFrom sys true off (BitVec.ofNat 32 v.toNat) s)

/-- A doorbell page: only a 32-bit write at its first byte acts (R281). -/
def writeDoorbell (wide : Bool) (off : Nat) (v : W64) (s : State) : State :=
  if !wide && off % 0x1000 = 0 && off < 0x1000000 + 64 * 0x1000 then
    after (execDoorbell (ringOf ((off - 0x1000000) / 0x1000)) (v.setWidth 32) s) s
  else s

/-- Writes are accepted from BAR0 once the function answers configuration requests (R450), and nowhere while the rails are
off. -/
def writesOpen (sys : Bool) (s : State) : Bool := (sys || 6 ≤ s.ck.bring) && !s.pwr.off

/-- REGISTER_WRITE: a 32-bit access at a multiple of 4, or a 64-bit access at a multiple of 8, which acts as two 32-bit
accesses, the lower first, unless it covers one 64-bit register; any other access does nothing (R12, R447, R450). -/
def execRegisterWrite (sys : Bool) (off : BitVec 26) (wide : Bool) (v : W64) (s : State) :
    Host.Outcome State Fault Refusal :=
  let o := off.toNat
  .next (
    if !writesOpen sys s ∨ o % (if wide then 8 else 4) ≠ 0 ∨ isoReg s o then s
    else if 0x1000000 ≤ o then (if sys then s else writeDoorbell wide o v s)
    else if !wide then writeOnPath sys false o (v.setWidth 32) s
    else if wideReg o then (if onPath sys o then writeWide sys o v s else s)
    else writeOnPath sys false (o + 4) (BitVec.ofNat 32 (v.toNat >>> 32)) (writeOnPath sys false o (v.setWidth 32) s))

end Sys2Proof.Machine
end

