-- ==== Sys2Proof/Machine/Hedge.lean ====
section
/-! DEFINITION. The Hedge: HMM, HMS, HDRN and DRAIN (03_hedge_matrix_engine, R92-R101, R177-R181). -/

namespace Sys2Proof.Machine

/-! ## Formats and shapes (Tables 3.1, 3.5) -/

/-- The accumulation run of an operand pair, and C as a pair (multiplier, divisor) of K; none for a pair outside
Table 3.1. -/
def hedgePair (fa fb : Nat) : Option (Nat × Nat × Nat) :=
  let mid := fun c => c = 3 || c = 4 || (8 ≤ c && c ≤ 12)
  let wide := fun c => c = 1 || c = 2
  if fa = 12 && fb = 12 then some (32, 1, 2)
  else if mid fa && mid fb then some (32, 1, 1)
  else if fa = 13 && fb = 13 then some (32, 1, 1)
  else if fa = 5 && fb = 5 then some (64, 1, 1)
  else if wide fa && wide fb then some (16, 2, 1)
  else none

/-- Drain width of a format (Table 3.5). -/
def drainWidth (c : Nat) : Nat := if c = 0 then 4 else if c = 1 ∨ c = 2 then 2 else 1
/-- Bytes of `n` elements of a format. -/
def fmtBytes (c n : Nat) : Nat := fmtBits c * n / 8

/-- The fields of a Hedge instruction (Table 3.4). -/
structure HInstr where
  sa : Nat
  sb : Nat
  so : Nat
  sk : Nat
  sf : Nat
  ss : Nat
  rnd : Nat
  ofm : Bool
  scl : Bool
  epi : Nat
  bax : Bool
  bank : Bool
  acc : Bool
  drn : Bool
  spm : Nat
  msk : Nat
  deriving DecidableEq, Repr

/-- Read the fields. -/
def hInstr (f : Fields) : HInstr :=
  { sa := fld f 55 50, sb := fld f 49 44, so := fld f 43 38, sk := fld f 37 32, sf := fld f 31 26, ss := fld f 25 20,
    rnd := fld f 19 18, ofm := fbit f 17, scl := fbit f 16, epi := fld f 15 14, bax := fbit f 13, bank := fbit f 12,
    acc := fbit f 11, drn := fbit f 10, spm := fld f 9 8, msk := fld f 7 0 }

/-- Scalar registers of the output side: SO always, SF with a fused operation, SS and SS + 1 under stochastic rounding. -/
def outReads (h : HInstr) : List Nat :=
  [h.so] ++ (if h.epi = 0 then [] else [h.sf]) ++ (if h.rnd = 2 ∧ h.ss ≠ 63 then [h.ss, h.ss + 1] else [])

/-! ## Masks (R177-R181) -/

/-- The mask a cell is kept by (Table 7.5); none keeps every cell. -/
def maskKeeps (mask : Option (Bool × List Byte)) (m n : Nat) : Bool :=
  match mask with
  | none => true
  | some (block, bs) =>
    if block then bitOf (bs.getD (m / 32) 0).toNat (n / 32 % 8) else bitOf (bs.getD (m / 8) 0).toNat (m % 8)
/-- The mask keeps at least one cell of a line: a row when BAX = 0, a column when BAX = 1 (R179). -/
def lineKept (mask : Option (Bool × List Byte)) (bax : Bool) (l : Nat) : Bool :=
  (List.range 256).any fun j => if bax then maskKeeps mask j l else maskKeeps mask l j
/-- The kept lines in ascending order. -/
def keptLines (mask : Option (Bool × List Byte)) (bax : Bool) : List Nat :=
  match mask with
  | none => List.range 256
  | some _ => (List.range 256).filter (lineKept mask bax)

/-! ## Drain geometry (R67, R72, R73, R179) -/

/-- W: the larger of the drain widths of the output and of the fused operand (R72). -/
def drainW (outFmt epi fusedFmt : Nat) (f64 : Bool) : Nat :=
  if f64 then 8 else max (drainWidth outFmt) (if epi = 0 then 1 else drainWidth fusedFmt)
/-- D of a drain that writes `lines` lines (Table 3.5, R179). -/
def drainD (lines w : Nat) : Nat := ceilDiv (lines * w) 2

/-- First byte and bit of element (m, n) in the layout of R67, `bits` wide. -/
def outPos (d : LsDesc) (bits m n : Nat) : Nat × Nat :=
  if d.ct then (d.base + n * d.stride, m * bits) else (d.base + m * d.stride, n * bits)
/-- End of element (m, n) in bytes. -/
def outEnd (d : LsDesc) (bits m n : Nat) : Nat := let p := outPos d bits m n; p.1 + ceilDiv (p.2 + bits) 8
/-- Scale byte of the block that holds (m, n) (R67). -/
def outScale (d : LsDesc) (bax : Bool) (m n : Nat) : Nat :=
  if bax then d.sbase + m / 32 * 256 + n else d.sbase + n / 32 * 256 + m

/-- Element width of a drain's output in bits. -/
def outBits (fmt : Nat) (f64 : Bool) : Nat := if f64 then 64 else fmtBits fmt

/-- Every byte a drain addresses lies below 0x140_0000; `d` in the layout of R67, kept cells only (R178). -/
def outInside (d : LsDesc) (bits : Nat) (mask : Option (Bool × List Byte)) : Bool :=
  match mask with
  | none => outEnd d bits 255 255 ≤ lsSize
  | some _ => (List.range 65536).all fun i => !maskKeeps mask (i / 256) (i % 256) || outEnd d bits (i / 256) (i % 256) ≤ lsSize

/-- Every scale byte that an MX drain writes, those of the blocks with a kept cell, lies below 0x140_0000 (R178). -/
def scalesInside (d : LsDesc) (bax : Bool) (mask : Option (Bool × List Byte)) : Bool :=
  match mask with
  | none => d.sbase + 2048 ≤ lsSize
  | some _ => (List.range 65536).all fun i =>
      !maskKeeps mask (i / 256) (i % 256) || outScale d bax (i / 256) (i % 256) < lsSize

/-- No reserved format code stands in the descriptors that an instruction names for its output, whether it drains or not
(R31; DEDUCED, entry 22). -/
def outCodes (h : HInstr) (out fused : LsDesc) : Bool := !fmtReserved out.fmt && (h.epi = 0 || !fmtReserved fused.fmt)

/-- The output descriptor, fused descriptor and control fields of a drain are legal (R64, R67, R78, R85, Table 3.8). -/
def drainLegal (h : HInstr) (out fused : LsDesc) (f64 : Bool) (mask : Option (Bool × List Byte)) : Bool :=
  let ob := outBits out.fmt f64
  !fmtReserved out.fmt && out.rsv = 0 && 256 * ob / 8 ≤ out.stride && outInside out ob mask &&
  (!fmtIsMx out.fmt || scalesInside out h.bax mask) &&
  !(fmtIsMx out.fmt && h.bax && (match mask with | some (block, _) => !block | none => false)) &&
  (h.epi = 0 || (fused.fmt ≤ 4 && fused.rsv = 0 && fmtBytes fused.fmt 256 ≤ fused.stride &&
    outInside fused (fmtBits fused.fmt) mask))

/-! ## Products (R60-R66, R79-R85, R92-R98) -/

/-- What a product reads: tile, issue cycle, K, TCLK of one pass, and the two descriptors. -/
structure HProd where
  t : Tile
  s0 : Nat
  k : Nat
  c : Nat
  run : Nat
  da : LsDesc
  db : LsDesc
  deriving DecidableEq, Repr

/-- Bytes from one plane of a split operand to the next (chapter 3, "Split modes"). -/
def planeStep (d : LsDesc) (k : Nat) : Nat := (if d.ct then 256 else k) * d.stride

/-- Element (i, k) of an operand plane as stored bits, read on cycle `c` (R65, R66); i is m of A or n of B. -/
def hedgeElem (s : State) (t : Tile) (c : Nat) (d : LsDesc) (plane k i : Nat) : Nat :=
  let bits := fmtBits d.fmt
  let off := d.base + plane
  if d.ct then elemRead (lsByte s t .mainRead c) (off + i * d.stride) (k * bits) bits
  else elemRead (lsByte s t .mainRead c) (off + k * d.stride) (i * bits) bits

/-- The block scale of element i in block b; 0x7F for formats without scales (R63, R65). Of the 8 scale bytes that Table 3.3
reads on a product step, step 32 b + j reads bytes 8 j to 8 j + 7 of block b (DESIGN CHOICE, entry 150). -/
def hedgeScale (s : State) (p : HProd) (d : LsDesc) (b i : Nat) : Nat :=
  if fmtIsMx d.fmt then (lsByte s p.t .scaleRead (p.s0 + (32 * b + i / 8) * p.c / p.k) (d.sbase + b * 256 + i)).toNat
  else 127

/-- Fraction bits of an operand format. -/
def fracOf (c : Nat) : Nat := match fmtElem c with | some p => p.fb | none => 0

/-- The factor of step k of an operand: NaN in a block of scale 0xFF (R38). -/
def hedgeFactor (s : State) (p : HProd) (d : LsDesc) (scale k i : Nat) : Val :=
  if scale = 255 then .nan false else decodeElem d.fmt (hedgeElem s p.t (p.s0 + k * p.c / p.k) d 0 k i)

/-- Run r of cell (m, n) of an HMM, with the exponent of its block scales (R92-R96, R98). -/
def hmmRun (s : State) (p : HProd) (r m n : Nat) : RunSum × Int :=
  let b := r * p.run / 32
  let xa := hedgeScale s p p.da b m
  let xb := hedgeScale s p p.db b n
  let ks := tabulate p.run fun j => r * p.run + j
  let x : Int := (xa : Int) + xb - 254
  if p.da.fmt = 13 ∨ p.da.fmt = 5 then
    if xa = 255 ∨ xb = 255 then (⟨⟨0, 0⟩, false, 3, flQN⟩, 0)
    else
      let code := fun d k i => signOf 8 (hedgeElem s p.t (p.s0 + k * p.c / p.k) d 0 k i)
      (runInt (if p.da.fmt = 13 then -12 else 0) (ks.map fun k => (code p.da k m, code p.db k n)), x)
  else
    (runFloat (fracOf p.da.fmt) (fracOf p.db.fmt)
      (ks.map fun k => (hedgeFactor s p p.da xa k m, hedgeFactor s p p.db xb k n)), if xa = 255 ∨ xb = 255 then 0 else x)

/-- Promote runs one after another. -/
def promoteAll (f : Fa) (rs : List (RunSum × Int)) : Fa × Flags :=
  rs.foldl (fun acc r => let (g, fl) := promote acc.1 r.1 r.2; (g, acc.2 ||| fl)) (f, 0)

/-- An HMM's effect on cell (m, n). -/
def hmmCell (s : State) (p : HProd) (start : Fa) (m n : Nat) : Fa × Flags :=
  promoteAll start (tabulate (p.k / p.run) fun r => hmmRun s p r m n)

/-- Passes of the split modes in order (Table 3.7). -/
def splitPasses (fp64 : Bool) : List (Nat × Nat) :=
  if fp64 then (List.range 7).flatMap fun d => (List.range (7 - d)).map fun p => (p, 6 - d - p)
  else [(2, 0), (1, 1), (0, 2), (1, 0), (0, 1), (0, 0)]

/-- One run of pass `ix` = (a, b) of an FP32 split: non-finite factors count only in pass (0, 0) (R80, R81). -/
def split32Run (s : State) (p : HProd) (ix a b r m n : Nat) : RunSum × Int :=
  let at_ := fun k => p.s0 + ix * p.c + k * p.c / p.k
  let ps := tabulate p.run fun j =>
    let k := r * p.run + j
    (decodeElem 1 (hedgeElem s p.t (at_ k) p.da (a * planeStep p.da p.k) k m),
     decodeElem 1 (hedgeElem s p.t (at_ k) p.db (b * planeStep p.db p.k) k n))
  let ps := if a = 0 ∧ b = 0 then ps else ps.filter fun v => v.1.isFin && v.2.isFin
  (runFloat 7 7 ps, 0)

/-- One run of a pass of an FP64 split, exact, times 2^(E + F − 14 − 8(p + q)) (R85). -/
def split64Run (s : State) (p : HProd) (e f : Int) (ix a b r m n : Nat) : RunSum × Int :=
  let at_ := fun k => p.s0 + ix * p.c + k * p.c / p.k
  let ps := tabulate p.run fun j =>
    let k := r * p.run + j
    (signOf 8 (hedgeElem s p.t (at_ k) p.da (a * planeStep p.da p.k) k m),
     signOf 8 (hedgeElem s p.t (at_ k) p.db (b * planeStep p.db p.k) k n))
  (runInt 0 ps, e + f - 14 - 8 * ((a : Int) + b))

/-- An exponent entry of an FP64 split operand (R83), read on the issue cycle by way of the main read port, on which Table
3.3 counts no bytes for it (DESIGN CHOICE, entry 151). -/
def splitExp (s : State) (p : HProd) (d : LsDesc) (i : Nat) : Int :=
  signOf 16 (leNat (lsBytes s p.t .mainRead p.s0 (d.sbase + 2 * i) 2))
/-- The flag of a bad exponent entry: QN for 0x7FFF, NV outside [−1072, 1025] (R84); 0 for a good one. -/
def expFlags (e : Int) : Flags :=
  if e = 0x7FFF then flQN else if e < -1072 ∨ 1025 < e then flNV else 0

/-- An HMS's effect on cell (m, n) (R79-R85). -/
def hmsCell (s : State) (p : HProd) (fp64 : Bool) (start : Fa) (m n : Nat) : Fa × Flags :=
  let runs := p.k / p.run
  if fp64 then
    let e := splitExp s p p.da m
    let f := splitExp s p p.db n
    let bad := expFlags e ||| expFlags f
    if bad ≠ 0 then ({ start with tag := 3 }, bad)
    else promoteAll start (((splitPasses true).zipIdx).flatMap fun (ab, ix) =>
      tabulate runs fun r => split64Run s p e f ix ab.1 ab.2 r m n)
  else promoteAll start (((splitPasses false).zipIdx).flatMap fun (ab, ix) =>
    tabulate runs fun r => split32Run s p ix ab.1 ab.2 r m n)

/-! ## Full accumulators as state -/

/-- Key of cell 256 m + n of a bank of a tile. -/
def faKey (t : Tile) (bank : Bool) (cell : Nat) : Nat := t.val * 131072 + b2n bank * 65536 + cell
/-- One full accumulator. -/
def faGet (s : State) (t : Tile) (bank : Bool) (cell : Nat) : Fa := smapGet {} s.pl.fas (faKey t bank cell)

/-- Replace the kept cells of a bank by `cell`, which answers the new word and its flags; the flags of all (R70, R178). -/
def faPut (t : Tile) (bank : Bool) (keep : Nat → Bool) (cell : Nat → Fa × Flags) (s : State) : State × Flags :=
  let xs := tabulate 65536 fun i => if keep i then cell i else (faGet s t bank i, 0)
  ({ s with pl := { s.pl with
    fas := smapReplace {} (faKey t bank 0) 65536 (fun i => (xs.getD i ({}, 0)).1) s.pl.fas } }, flAll (xs.map (·.2)))

/-! ## Issue checks (R74, R91) -/

/-- The intervals an instruction would hold (R74): input, accumulate, drain. -/
structure HTimes where
  c : Nat
  acc : Bool
  /-- first cycle and length of the drain; none without one -/
  drain : Option (Nat × Nat)
  deriving DecidableEq, Repr

/-- The interval faults of R74, in the order of Table 3.8. -/
def hedgeBusy (t : Tile) (bank : Bool) (input : Bool) (x : HTimes) (s : State) : Option Nat :=
  let s0 := s.cyc
  if input && heldDuring s (.hedgeIn t) s0 (s0 + x.c) then some eHedgeBusy
  else if (x.acc && heldDuring s (.hedgeBank t bank) (s0 + 14) (s0 + 14 + x.c)) ||
      (match x.drain with | some (d, n) => heldDuring s (.hedgeBank t bank) d (d + n) | none => false) then some eHedgeBank
  else match x.drain with
    | some (d, n) => if heldDuring s (.drainPath t) d (d + n) then some eHedgeDrain else none
    | none => none

/-- INFO0[47:32]: the bank, which only HEDGE_BANK's rule names (R437, Table 3.8; DEDUCED, entry 147). -/
def bankInfo (code : Nat) (bank : Bool) : Nat := if code = eHedgeBank then b2n bank * 2 ^ 32 else 0

/-- Enter the intervals of R74. -/
def hedgeHold (t : Tile) (bank : Bool) (input : Bool) (x : HTimes) (s : State) : State :=
  let s0 := s.cyc
  let s := if input then hold (.hedgeIn t) s0 (s0 + x.c) s else s
  let s := if x.acc then hold (.hedgeBank t bank) (s0 + 14) (s0 + 14 + x.c) s else s
  match x.drain with
  | some (d, n) => hold (.drainPath t) d (d + n) (hold (.hedgeBank t bank) d (d + n) s)
  | none => s

/-- Enter the port use of a drain (Table 3.3) and schedule it. -/
def startDrain (t : Tile) (q : DrainReq) (h : HInstr) (d n w : Nat) (s : State) : State :=
  let out := lsDesc q.out
  let fused := lsDesc q.fused
  let s := usePort t .mainWrite d n (512 / w * outBits out.fmt q.f64 / 8) s
  let s := if fmtIsMx out.fmt then usePort t .scaleWrite d n (16 / w) s else s
  let s := if h.epi = 0 then s else usePort t .mainRead d n (512 / w * fmtBits fused.fmt / 8) s
  seenBy t (d + n) (sched d (.drain t q) s)

/-- The fields of an operand descriptor are legal for K (R62, R65, R66, Table 3.8). -/
def operandForm (d : LsDesc) (k : Nat) : Bool :=
  d.rsv = 0 && 1 ≤ d.stride &&
  (if d.ct then 1 ≤ d.fmt && d.fmt ≤ 5 && fmtBytes d.fmt k ≤ d.stride else fmtBytes d.fmt 256 ≤ d.stride)
/-- Every byte that an operand addresses lies below 0x140_0000; `planes` is 1 but for the split modes. -/
def operandInside (d : LsDesc) (k planes : Nat) : Bool :=
  d.base + (planes - 1) * planeStep d k + (if d.ct then 255 * d.stride + fmtBytes d.fmt k
    else (k - 1) * d.stride + fmtBytes d.fmt 256) ≤ lsSize &&
  (!fmtIsMx d.fmt || d.sbase + k / 32 * 256 ≤ lsSize)

/-- The drain request of an instruction. -/
def drainReq (s : State) (t : Tile) (f : Fields) (h : HInstr) (mask : Option (Bool × List Byte)) (f64 : Bool) : DrainReq :=
  { ctl := f, out := sreg s t h.so, fused := sreg s t h.sf, seed := sreg s t h.ss, base := sreg s t (h.ss + 1),
    mask := mask, f64 := f64, issue := s.cyc }

/-- Control fields that are reserved whatever the instruction (Table 3.4). -/
def hCtlLegal (h : HInstr) : Bool := h.rnd ≠ 3 && h.epi ≠ 3 && !(h.rnd = 2 && h.ss = 63)

/-- The mask of an HMM (R177): mode and bytes; read on the issue cycle. -/
def hmmMask (s : State) (t : Tile) (h : HInstr) : Option (Bool × List Byte) :=
  if bitOf h.msk 7 then
    let block := bitOf h.msk 6
    let a := (sreg s t (h.msk % 64)).toNat % 2 ^ 25
    some (block, lsBytes s t .mainRead s.cyc a (if block then 8 else 32))
  else none

/-- MSK and the mask address are legal (Table 7.4, R181). -/
def maskLegal (s : State) (t : Tile) (h : HInstr) : Bool :=
  if bitOf h.msk 7 then let a := (sreg s t (h.msk % 64)).toNat % 2 ^ 25; a % 64 = 0 && a < lsSize
  else h.msk = 0

/-- The mask's port use (Table 3.3). -/
def maskPort (t : Tile) (h : HInstr) (s : State) : State :=
  if bitOf h.msk 7 then usePort t .mainRead s.cyc 1 (if bitOf h.msk 6 then 8 else 32) s else s

/-- Any cell is kept. -/
def anyKept (mask : Option (Bool × List Byte)) : Bool := !(keptLines mask false).isEmpty

/-- When the instruction drains: first cycle and length (R72, R73, R179). -/
def drainTimes (h : HInstr) (q : DrainReq) (d : Nat) : Nat × Nat :=
  let w := drainW (lsDesc q.out).fmt h.epi (lsDesc q.fused).fmt q.f64
  (d, drainD (keptLines q.mask h.bax).length w)

/-! ## HMM (R60-R63, R69, R70, R177-R181) -/

/-- C of an HMM. -/
def hmmC (da db : LsDesc) (k : Nat) : Nat :=
  match hedgePair da.fmt db.fmt with | some (_, a, b) => k * a / b | none => k

/-- Port bytes per TCLK of a product's input (Table 3.3): segment bytes of A and B, times C-steps. -/
def inputPorts (t : Tile) (p : HProd) (c : Nat) (s : State) : State :=
  let seg := fmtBytes p.da.fmt 256 + fmtBytes p.db.fmt 256
  let mx := b2n (fmtIsMx p.da.fmt) + b2n (fmtIsMx p.db.fmt)
  usePort t .scaleRead s.cyc c (8 * mx * p.k / p.c) (usePort t .mainRead s.cyc c (seg * p.k / p.c) s)

/-- What an HMM reads. -/
def hmmProd (s : State) (t : Tile) (f : Fields) : HProd :=
  let h := hInstr f
  let da := lsDesc (sreg s t h.sa)
  let db := lsDesc (sreg s t h.sb)
  let k := (sreg s t h.sk).toNat % 2 ^ 20
  ⟨t, s.cyc, k, hmmC da db k, match hedgePair da.fmt db.fmt with | some (l, _) => l | none => 1, da, db⟩

/-- The ports of the issue cycle of an HMM: its mask's, and its input's when the stored mask keeps a cell (Table 3.3, R180). -/
def hmmPorts (t : Tile) (f : Fields) (s : State) : State :=
  let h := hInstr f
  let u := maskPort t h s
  if anyKept (hmmMask u t h) then inputPorts t (hmmProd s t f) 1 u else u

/-- Everything an HMM knows at issue: mask, product, times. The mask's bytes are unspecified when its own input makes the
issue cycle exceed the main read port (R68, R177). -/
def hmmPlan (s : State) (t : Tile) (f : Fields) : Option (Bool × List Byte) × HProd × HTimes × DrainReq :=
  let h := hInstr f
  let mask := hmmMask (hmmPorts t f s) t h
  let p := hmmProd s t f
  let q := drainReq s t f h mask false
  let x : HTimes := if anyKept mask then ⟨p.c, true, if h.drn then some (drainTimes h q (s.cyc + 14 + p.c)) else none⟩
    else ⟨1, false, none⟩
  (mask, p, x, q)

/-- The faults of an HMM (Table 3.8). The addresses of A, B and the output are checked when the mask keeps a cell, as an HMM
whose mask keeps none reads its mask only (R180); the row mask of R181 is checked whatever DRN holds (DEDUCED, entry 22). -/
def hmmCheck (t : Tile) (f : Fields) (s : State) : Option (Nat × Nat) :=
  let h := hInstr f
  let (mask, p, x, q) := hmmPlan s t f
  let out := lsDesc q.out
  let legal := (hedgePair p.da.fmt p.db.fmt).isSome && p.run ≤ p.k && p.k % p.run = 0 &&
    operandForm p.da p.k && operandForm p.db p.k && h.spm = 0 && hCtlLegal h && maskLegal s t h &&
    (!anyKept mask || (operandInside p.da p.k 1 && operandInside p.db p.k 1)) && outCodes h out (lsDesc q.fused) &&
    !(bitOf h.msk 7 && !bitOf h.msk 6 && h.bax && fmtIsMx out.fmt) &&
    (!(h.drn && anyKept mask) || drainLegal h out (lsDesc q.fused) false mask)
  if !legal then some (eHedgeDesc, 0)
  else (hedgeBusy t h.bank true x s).map fun c => (c, bankInfo c h.bank)

/-- The mask's line, for errors met by its read. -/
def maskLine (s : State) (t : Tile) (h : HInstr) (l : Nat) : Bool :=
  bitOf h.msk 7 && lineHit (lsBase t + (sreg s t (h.msk % 64)).toNat % 2 ^ 25) (if bitOf h.msk 6 then 8 else 32) l

/-- The product that an HMM begins. -/
def hmmProduct (s : State) (t : Tile) (f : Fields) : Product :=
  let h := hInstr f
  let (mask, p, x, _) := hmmPlan s t f
  { tile := t, ctl := f, hms := false, start := s.cyc, k := p.k, c := x.c, da := sreg s t h.sa, db := sreg s t h.sb,
    mask := mask }
/-- A product begins: it reads its operands from now on. -/
def beginProduct (x : Product) (s : State) : State := { s with pl := { s.pl with prods := s.pl.prods ++ [x] } }

/-- Scalar registers that an HMM reads. -/
def hmmReads (f : Fields) : List Nat :=
  let h := hInstr f
  [h.sa, h.sb, h.sk] ++ outReads h ++ (if bitOf h.msk 7 then [h.msk % 64] else [])

/-- HMM: a matrix product into a bank, optionally masked, and optionally drained on completion. -/
def execHmm (t : Tile) (f : Fields) (s : State) : Host.Outcome State Fault Refusal :=
  let h := hInstr f
  .next (tileOnly s (issue { t := t, opc := 0x40, f := f, reads := hmmReads f } (hmmCheck t f) (fun u =>
    let (mask, p, x, q) := hmmPlan s t f
    let u := eccTensor (diePort t) (maskLine s t h) s.cyc (hedgeHold t h.bank true x u)
    if !anyKept mask then useFree (seenBy t (s.cyc + 1) (hmmPorts t f u))
    else
      let u := beginProduct (hmmProduct s t f) (inputPorts t p x.c (maskPort t h u))
      let u := useFree (seenBy t (s.cyc + 14 + x.c) u)
      match x.drain with
      | some (d, n) => startDrain t q h d n (drainW (lsDesc q.out).fmt h.epi (lsDesc q.fused).fmt false) u
      | none => u) s))

/-! ## HMS (R79-R85) -/

/-- Everything an HMS knows at issue. -/
def hmsPlan (s : State) (t : Tile) (f : Fields) : HProd × HTimes × DrainReq :=
  let h := hInstr f
  let fp64 := decide (h.spm = 2)
  let k := (sreg s t h.sk).toNat % 2 ^ 20
  let pass := if fp64 then k else 2 * k
  let c := if fp64 then 28 * k else 12 * k
  let q := drainReq s t f h none fp64
  (⟨t, s.cyc, k, pass, if fp64 then 64 else 16, lsDesc (sreg s t h.sa), lsDesc (sreg s t h.sb)⟩,
   ⟨c, true, if h.drn then some (drainTimes h q (s.cyc + 14 + c)) else none⟩, q)

/-- The faults of an HMS (Table 3.8). -/
def hmsCheck (t : Tile) (f : Fields) (s : State) : Option (Nat × Nat) :=
  let h := hInstr f
  let (p, x, q) := hmsPlan s t f
  let out := lsDesc q.out
  let fp64 := decide (h.spm = 2)
  let fmt := if fp64 then 5 else 1
  let planes := if fp64 then 7 else 3
  let legal := (h.spm = 1 || h.spm = 2) && p.da.fmt = fmt && p.db.fmt = fmt && p.run ≤ p.k && p.k % p.run = 0 &&
    operandForm p.da p.k && operandForm p.db p.k && operandInside p.da p.k planes && operandInside p.db p.k planes &&
    h.msk = 0 && hCtlLegal h && outCodes h out (lsDesc q.fused) &&
    (!fp64 || (out.fmt = 0 && h.epi = 0 && p.da.sbase + 512 ≤ lsSize && p.db.sbase + 512 ≤ lsSize)) &&
    (!h.drn || drainLegal h out (lsDesc q.fused) fp64 none)
  if !legal then some (eHedgeDesc, 0)
  else (hedgeBusy t h.bank true x s).map fun c => (c, bankInfo c h.bank)

/-- The product that an HMS begins. -/
def hmsProduct (s : State) (t : Tile) (f : Fields) : Product :=
  let h := hInstr f
  let (p, x, _) := hmsPlan s t f
  { tile := t, ctl := f, hms := true, start := s.cyc, k := p.k, c := x.c, da := sreg s t h.sa, db := sreg s t h.sb,
    mask := none }

/-- Scalar registers that an HMS reads. -/
def hmsReads (f : Fields) : List Nat := let h := hInstr f; [h.sa, h.sb, h.sk] ++ outReads h

/-- HMS: the fixed series of narrow passes of an FP32 or FP64 split into one bank. -/
def execHms (t : Tile) (f : Fields) (s : State) : Host.Outcome State Fault Refusal :=
  let h := hInstr f
  .next (tileOnly s (issue { t := t, opc := 0x41, f := f, reads := hmsReads f } (hmsCheck t f)
    (fun u =>
      let (p, x, q) := hmsPlan s t f
      let fp64 := decide (h.spm = 2)
      let u := beginProduct (hmsProduct s t f) (inputPorts t p x.c (hedgeHold t h.bank true x u))
      let u := seenBy t (s.cyc + 14 + x.c) u
      match x.drain with
      | some (d, n) => startDrain t q h d n (drainW (lsDesc q.out).fmt h.epi (lsDesc q.fused).fmt fp64) u
      | none => u) s))

/-! ## A product in progress (R60, R89, R96) -/

/-- What a product in progress reads. -/
def prodOf (x : Product) : HProd :=
  let da := lsDesc x.da
  let db := lsDesc x.db
  if x.hms then
    let fp64 := decide ((hInstr x.ctl).spm = 2)
    ⟨x.tile, x.start, x.k, if fp64 then x.k else 2 * x.k, if fp64 then 64 else 16, da, db⟩
  else ⟨x.tile, x.start, x.k, x.c, match hedgePair da.fmt db.fmt with | some (l, _) => l | none => 1, da, db⟩
/-- The runs of a product, those of every pass of an HMS counted (R89). -/
def prodRuns (x : Product) : Nat :=
  let p := prodOf x
  (if x.hms then (splitPasses (decide ((hInstr x.ctl).spm = 2))).length else 1) * (p.k / p.run)
/-- Cell i = 256 m + n is kept (R178). -/
def prodKeeps (x : Product) (i : Nat) : Bool := maskKeeps x.mask (i / 256) (i % 256)
/-- The new word of cell i of a product whose operands have been read, with its flags: the runs promoted into the accumulator
that ACC selects. -/
def prodCell (s : State) (x : Product) (i : Nat) : Fa × Flags :=
  let h := hInstr x.ctl
  let start := if h.acc then faGet s x.tile h.bank i else {}
  if x.hms then hmsCell s (prodOf x) (decide (h.spm = 2)) start (i / 256) (i % 256)
  else hmmCell s (prodOf x) start (i / 256) (i % 256)

/-- Residue mismatches forced in the promotions of the present cycle (R89, R90, Table 19.10): run r is promoted on cycle
s + 13 + (r + 1) × C / runs. -/
def prodResidue (x : Product) (s : State) : State :=
  let src := srcOf 1 x.tile.val
  let runs := prodRuns x
  ((List.range runs).filter fun r => s.cyc = x.start + 13 + (r + 1) * x.c / runs).foldl (fun s _ =>
    injAborts eHedgeResidue src (· % 2 ^ 17)
      (fun p => bitsOf p 16 16 = b2n (hInstr x.ctl).bank && prodKeeps x (bitsOf p 15 0)) (fun _ => s.cyc) s) s

/-- The (pass, step) pairs whose segments a product reads on cycle `c` (R60, R79). -/
def stepsOn (p : HProd) (c : Nat) : List (Nat × Nat) :=
  let o := c - p.s0
  (tabulate 2 fun j => (o / p.c, o % p.c * p.k / p.c + j)).filter fun x => x.2 < p.k && x.2 * p.c / p.k = o % p.c
/-- The bytes of an operand that step `k` of plane `a` reads lie on line `l`: the segment, and the scales of an MX operand. -/
def stepLine (t : Tile) (d : LsDesc) (kk a k l : Nat) : Bool :=
  let b := lsBase t + d.base + a * planeStep d kk
  (if d.ct then (List.range 256).any fun i => lineHit (b + i * d.stride + fmtBytes d.fmt k) (fmtBytes d.fmt 1) l
   else lineHit (b + k * d.stride) (fmtBytes d.fmt 256) l) ||
  (fmtIsMx d.fmt && lineHit (lsBase t + d.sbase + k / 32 * 256 + k % 32 * 8) 8 l)
/-- What a product reads on the present cycle lies on line `l` (R244, R245); an FP64 split reads its exponents on the first. -/
def prodLine (s : State) (x : Product) (l : Nat) : Bool :=
  let p := prodOf x
  let fp64 := decide ((hInstr x.ctl).spm = 2)
  ((stepsOn p s.cyc).any fun y =>
    let ab := if x.hms then (splitPasses fp64).getD y.1 (0, 0) else (0, 0)
    stepLine p.t p.da p.k ab.1 y.2 l || stepLine p.t p.db p.k ab.2 y.2 l) ||
  (x.hms && fp64 && s.cyc = x.start &&
    (lineHit (lsBase p.t + p.da.sbase) 512 l || lineHit (lsBase p.t + p.db.sbase) 512 l))

/-- A product of the list. -/
def sameProd (x y : Product) : Bool := y.tile = x.tile && y.start = x.start
/-- The last operand of a product has been read: the kept cells of its bank take their words, which no other instruction may
read before s + 14 + C (R73, R74); the flags wait for the last promotion. -/
def prodWords (x : Product) (s : State) : State :=
  let (u, f) := faPut x.tile (hInstr x.ctl).bank (prodKeeps x) (prodCell s x) s
  useFree { u with pl := { u.pl with prods := u.pl.prods.map fun y => if sameProd x y then { y with fl := some f } else y } }
/-- The last run has been promoted, on s + 13 + C: the flags accrue and the product is over (R73, R76, R89). -/
def prodFlags (x : Product) (s : State) : State :=
  let f := ((s.pl.prods.find? (sameProd x)).bind (·.fl)).getD 0
  accrue x.tile f { s with pl := { s.pl with prods := s.pl.prods.filter fun y => !sameProd x y } }
/-- What the present cycle brings to a product. -/
def prodTick (s : State) (x : Product) : State :=
  let s := prodResidue x s
  let s := if s.cyc < x.start + x.c then eccTensor (diePort x.tile) (prodLine s x) s.cyc s else s
  if s.cyc + 1 = x.start + x.c then prodWords x s
  else if x.start + x.c + 13 ≤ s.cyc then prodFlags x s
  else s

/-! ## HDRN (R71) -/

/-- The faults of an HDRN (Table 3.8). -/
def hdrnCheck (t : Tile) (f : Fields) (s : State) : Option (Nat × Nat) :=
  let h := hInstr f
  let q := drainReq s t f h none false
  let legal := h.spm = 0 && h.msk = 0 && !h.acc && h.drn && hCtlLegal h &&
    drainLegal h (lsDesc q.out) (lsDesc q.fused) false none
  if !legal then some (eHedgeDesc, 0)
  else (hedgeBusy t h.bank false ⟨0, false, some (drainTimes h q (s.cyc + 4))⟩ s).map fun c => (c, bankInfo c h.bank)

/-- HDRN: drains a bank from cycle t + 4 on. -/
def execHdrn (t : Tile) (f : Fields) (s : State) : Host.Outcome State Fault Refusal :=
  let h := hInstr f
  .next (tileOnly s (issue { t := t, opc := 0x42, f := f, reads := outReads h } (hdrnCheck t f) (fun u =>
    let q := drainReq s t f h none false
    let (d, n) := drainTimes h q (s.cyc + 4)
    startDrain t q h d n (drainW (lsDesc q.out).fmt h.epi (lsDesc q.fused).fmt false)
      (hedgeHold t h.bank false ⟨0, false, some (d, n)⟩ u)) s))

/-! ## DRAIN (R76-R78, R100, R179) -/

/-- One drained cell before conversion: its exact value and the flags raised on the way (R78, R100). -/
structure DrainCell where
  m : Nat
  n : Nat
  /-- cycle on which it is written -/
  c : Nat
  v : Val
  fl : Flags
  deriving DecidableEq, Repr

/-- The fused operation on exact contents (R78). -/
def fuse (epi : Nat) (fa f : Val) : Val × Flags :=
  if epi = 1 then let (v, x) := sumVal fa f; (v, x ||| useFlags f)
  else if epi = 2 then let (v, x) := mulVal fa f; (v, x ||| useFlags f)
  else (fa, 0)

/-- Drain one cell on cycle `c`. -/
def drainCell (s : State) (t : Tile) (h : HInstr) (fused : LsDesc) (m n c : Nat) : DrainCell :=
  let fa := faGet s t h.bank (256 * m + n)
  let fbits := fmtBits fused.fmt
  let fp := outPos fused fbits m n
  let fv := if h.epi = 0 then .fin false 0 0
    else decodeElem fused.fmt (elemRead (lsByte s t .mainRead c) fp.1 fp.2 fbits)
  let (v, x) := fuse h.epi (faVal fa) fv
  ⟨m, n, c, v, x ||| flIf (fa.ix && v.isFin) flNX⟩

/-- The kept cells that a drain converts on the present cycle, in drain order: 512 / W values per TCLK (R73, R179). -/
def drainCells (s : State) (x : DrainRun) : List DrainCell :=
  let q := x.req
  let h := hInstr q.ctl
  let per := 512 / drainW (lsDesc q.out).fmt h.epi (lsDesc q.fused).fmt q.f64
  let lines := keptLines q.mask h.bax
  (List.range per).filterMap fun o =>
    let p := (s.cyc - x.start) * per + o
    lines[p / 256]?.bind fun l =>
      let m := if h.bax then p % 256 else l
      let n := if h.bax then l else p % 256
      if maskKeeps q.mask m n then some (drainCell s x.tile h (lsDesc q.fused) m n s.cyc) else none

/-- One converted cell: its code, flags, and whether it is non-finite (R59). -/
structure DrainOut where
  m : Nat
  n : Nat
  c : Nat
  code : Nat
  fl : Flags
  bad : Bool
  deriving DecidableEq, Repr

/-- Conversion control of a drain (R53, R77). -/
def drainCvt (q : DrainReq) : Cvt :=
  let h := hInstr q.ctl
  ⟨(lsDesc q.out).fmt, rndOf h.rnd, h.ofm, h.scl, q.seed.toNat⟩
/-- Rounding word of a cell: element index X + 256 m + n (R77). -/
def drainWord (q : DrainReq) (m n : Nat) : Nat := cvtWord (drainCvt q) (q.base.toNat + 256 * m + n)

/-- Convert a cell of an output without blocks. -/
def drainPlain (q : DrainReq) (x : DrainCell) : DrainOut :=
  let cv := drainCvt q
  let r := drainWord q x.m x.n
  let (code, fl) := if q.f64 then convF fmtF64 cv.rnd cv.ofm r x.v else convScalar cv.fmt cv.rnd cv.ofm r x.v
  let nf := if q.f64 then !(decodeF fmtF64 code).isFin else codeNonFinite cv.fmt code
  ⟨x.m, x.n, x.c, code, x.fl ||| fl, !x.v.isFin || nf⟩

/-- Block of a cell of an MX output: a number that tells blocks apart. -/
def mxBlockOf (bax : Bool) (m n : Nat) : Nat := if bax then m / 32 * 256 + n else 65536 + m * 8 + n / 32

/-- A drained run of cells of one MX block: its scale address, cycle, converted block and cells. -/
structure DrainBlock where
  id : Nat
  addr : Nat
  c : Nat
  cells : List DrainCell
  blk : MxBlock
  deriving DecidableEq, Repr

/-- Group consecutive cells of one block (structural in `fuel`). -/
def groupBlocks (bax : Bool) : Nat → List DrainCell → List (List DrainCell)
  | 0, _ => []
  | _, [] => []
  | fuel + 1, x :: r =>
    let same := fun (y : DrainCell) => mxBlockOf bax y.m y.n = mxBlockOf bax x.m x.n
    (x :: r.takeWhile same) :: groupBlocks bax fuel (r.dropWhile same)

/-- The scale bytes that a drain with SCL = 1 is given, read as they stand on its first cycle. -/
def drainSup (s : State) (t : Tile) (q : DrainReq) : List Byte :=
  let out := lsDesc q.out
  if fmtIsMx out.fmt && (hInstr q.ctl).scl then lsBytes s t .scaleRead s.cyc out.sbase 2048 else []
/-- Convert the blocks of an MX output (R52-R55, R67, R178). -/
def drainBlocks (d : DrainRun) (xs : List DrainCell) : List DrainBlock :=
  let q := d.req
  let h := hInstr q.ctl
  let out := lsDesc q.out
  (groupBlocks h.bax 2048 xs).map fun g =>
    match g with
    | [] => ⟨0, 0, 0, [], ⟨0, [], 0, []⟩⟩
    | x :: _ =>
      let a := outScale out h.bax x.m x.n
      let sup := if h.scl then some (d.sup.getD (a - out.sbase) 0).toNat else none
      ⟨mxBlockOf h.bax x.m x.n, a, x.c, g, mxConvert (drainCvt q) sup (g.map fun y => (y.v, drainWord q y.m y.n))⟩

/-- Writes of a converted cell. -/
def drainWrite (t : Tile) (out : LsDesc) (bits who m n c code : Nat) : List PendWrite :=
  let p := outPos out bits m n
  lsWrites t true who c (elemWrites p.1 p.2 bits code)

/-- A fused element that a drain reads on the present cycle, a kept cell's, lies on line `l` (R178, R244, R245). -/
def fusedLine (s : State) (x : DrainRun) (l : Nat) : Bool :=
  let h := hInstr x.req.ctl
  let d := lsDesc x.req.fused
  h.epi ≠ 0 && (drainCells s x).any fun y =>
    let p := outPos d (fmtBits d.fmt) y.m y.n
    lineHit (lsBase x.tile + p.1 + p.2 / 8) (fmtBytes d.fmt 1) l

/-- What an instruction that converts leaves: writes, flags, the number of non-finite blocks and the first non-finite
element (R59). -/
structure CvtOut where
  ws : List PendWrite
  fl : Flags
  nfb : Nat
  nff : Option Nat
  deriving DecidableEq, Repr

/-- Enter them for an instruction issued on cycle `c`. -/
def putOut (t : Tile) (c : Nat) (o : CvtOut) (s : State) : State :=
  accrueNf t c o.nfb o.nff (accrue t o.fl (addWrites o.ws s))

/-- What one cycle of a drain brings: writes, flags, non-finite elements with their blocks, and first elements of blocks
marked non-finite by their scale (R59). -/
structure DrainBeat where
  ws : List PendWrite
  fl : Flags
  elems : List (Nat × Nat)
  ffs : List (Nat × Nat)
  deriving DecidableEq, Repr

/-- The present cycle of a drain (R59, R76). -/
def drainBeat (s : State) (x : DrainRun) : DrainBeat :=
  let q := x.req
  let out := lsDesc q.out
  let bits := outBits out.fmt q.f64
  let xs := drainCells s x
  if fmtIsMx out.fmt then
    let bs := drainBlocks x xs
    { ws := bs.flatMap fun b =>
        ((List.zip b.cells b.blk.codes).flatMap fun (y, code) => drainWrite x.tile out bits x.who y.m y.n y.c code) ++
        lsWrites x.tile false x.who b.c [(b.addr, BitVec.ofNat 8 b.blk.scale, 0xFF)]
      fl := flAll (xs.map (·.fl)) ||| flAll (bs.map (·.blk.flags))
      elems := bs.flatMap fun b => (List.zip b.cells b.blk.bad).filterMap fun (y, bad) =>
        if bad then some (b.id, 256 * y.m + y.n) else none
      ffs := bs.filterMap fun b =>
        if b.blk.scale = 255 then (b.cells.map fun y => 256 * y.m + y.n).min?.map fun i => (b.id, i) else none }
  else
    let ys := xs.map (drainPlain q)
    { ws := ys.flatMap fun y => drainWrite x.tile out bits x.who y.m y.n y.c y.code
      fl := flAll (ys.map (·.fl))
      elems := ys.filterMap fun y => if y.bad then some ((256 * y.m + y.n) / 32, 256 * y.m + y.n) else none
      ffs := [] }

/-- The cycles a drain takes (R73, R179). -/
def drainLen (q : DrainReq) : Nat := (drainTimes (hInstr q.ctl) q 0).2
/-- A drain of the list. -/
def sameDrain (x y : DrainRun) : Bool := y.tile = x.tile && y.start = x.start
/-- The present cycle of a drain writes its cells; the last one accrues the flags and the non-finite summary (R59, R76). -/
def drainTick (s : State) (x : DrainRun) : State :=
  let o := drainBeat s x
  let y := { x with fl := x.fl ||| o.fl, elems := x.elems ++ o.elems, ffs := x.ffs ++ o.ffs }
  let s := useFree (addWrites o.ws (eccTensor (diePort x.tile) (fusedLine s x) s.cyc s))
  if x.start + drainLen x.req ≤ s.cyc + 1 then
    let (n, first) := nfSummary y.elems y.ffs
    accrueNf x.tile x.req.issue n first (accrue x.tile y.fl
      { s with pl := { s.pl with drains := s.pl.drains.filter fun z => !sameDrain x z } })
  else { s with pl := { s.pl with drains := s.pl.drains.map fun z => if sameDrain x z then y else z } }

/-- A drain begins: each cell is converted and written on its cycle (R73). -/
def beginDrain (t : Tile) (q : DrainReq) (s : State) : State :=
  useFree { s with pl := { s.pl with drains := s.pl.drains ++
    [{ tile := t, req := q, start := s.cyc, who := s.fresh, sup := drainSup s t q }] } }

/-- DRAIN: converts each kept cell of the bank once and writes it, from the present cycle on. -/
def execDrain (t : Tile) (q : DrainReq) (s : State) : Host.Outcome State Fault Refusal :=
  .next (tileOnly s (beginDrain t q s))

end Sys2Proof.Machine
end

