-- ==== Sys2Proof/Machine/Tree.lean ====
section
/-! DEFINITION. The die tree: HTREE (R102, R103, R113, R159, R160). -/

namespace Sys2Proof.Machine

/-- N of an issue: 1 to 4. -/
def treeN (e : TreeIssue) : Nat := e.lvl.toNat + 1
/-- The first participant b of an issue (R159). -/
def treeRoot (e : TreeIssue) : Nat := e.tile.val / 2 ^ treeN e * 2 ^ treeN e
/-- Two issues ask for the same reduction. -/
def treeSame (a b : TreeIssue) : Bool :=
  treeRoot a = treeRoot b && a.lvl = b.lvl && a.src = b.src && a.dst = b.dst
/-- The participant sets of two issues share a tile. -/
def treeMeet (a b : TreeIssue) : Bool :=
  treeRoot a < treeRoot b + 2 ^ treeN b && treeRoot b < treeRoot a + 2 ^ treeN a

/-- The word of participant `t` after `n` levels: the fixed pairing by tile number (R102). -/
def treeWord (s : State) (bank : Bool) (cell : Nat) : Nat → Nat → Fa × Flags
  | 0, t => (faGet s (tileOf t) bank cell, 0)
  | n + 1, t =>
    let (a, f) := treeWord s bank cell n t
    let (b, g) := treeWord s bank cell n (t + 2 ^ n)
    let (c, h) := faAdd a b
    (c, f ||| g ||| h)

/-- The participants of an issue, lowest first. -/
def treeTiles (e : TreeIssue) : List Tile := (List.range (2 ^ treeN e)).map fun i => tileOf (treeRoot e + i)

/-- The interval fault of one participant of a complete reduction (R103): a source bank or the root's destination bank
gives HEDGE_BANK, a drain path HEDGE_DRAIN. -/
def treeTileFault (s : State) (e : TreeIssue) (t : Tile) : Option Nat :=
  let c := s.cyc
  if heldDuring s (.hedgeBank t e.src) (c + 4) (c + 132) ||
      (t.val = treeRoot e && heldDuring s (.hedgeBank t e.dst) (c + 4) (c + 132 + 9 * treeN e)) then some eHedgeBank
  else if heldDuring s (.drainPath t) (c + 4) (c + 132) then some eHedgeDrain
  else none

/-- The first fault of a complete reduction: a participant's in tile order, then TREE_BUSY, named for the lowest tile. -/
def treeFault (s : State) (es : List TreeIssue) : Option (Nat × TreeIssue) :=
  match es.findSome? (fun e => (treeTileFault s e e.tile).map fun c => (c, e)) with
  | some x => some x
  | none =>
    match es with
    | [] => none
    | e :: _ =>
      if (treeTiles e).any fun t => heldDuring s (.treePath t) (s.cyc + 4) (s.cyc + 132 + 9 * treeN e) then
        some (eTreeBusy, e)
      else none

/-- Raise a fault for an issue recorded on this cycle. HEDGE_BANK names the bank whose intervals overlap: the source bank,
or the root's destination bank where the source bank is free (R103). -/
def treeRaise (code : Nat) (e : TreeIssue) (s : State) : State :=
  let bank := if heldDuring s (.hedgeBank e.tile e.src) (e.cycle + 4) (e.cycle + 132) then e.src else e.dst
  schedFault code (srcOf 1 e.tile.val) e.cycle 0 (e.pc % 2 ^ 15 + bankInfo code bank) e.word.toNat false s

/-- The reduction of a complete set. -/
def treeRun (e : TreeIssue) : TreeRun :=
  { root := treeRoot e, n := treeN e, src := e.src, dst := e.dst, start := e.cycle }
/-- Residue mismatches forced in the tree's additions of the present cycle (R113, Table 19.10): word j leaves level l on
s + 4 + 9l + floor(j / 512). -/
def treeResidue (x : TreeRun) (s : State) : State :=
  let src := srcOf 2 (x.root / 16)
  (List.range x.n).foldl (fun s i =>
    let l := i + 1
    injAborts eTreeResidue src (· % 2 ^ 20) (fun p => bitsOf p 19 17 = l && bitsOf p 16 16 = b2n x.src &&
      x.start + 4 + 9 * l + p % 2 ^ 16 / 512 = s.cyc) (fun _ => s.cyc) s) s
/-- A reduction of the list. -/
def sameTree (x y : TreeRun) : Bool := y.root = x.root && y.start = x.start
/-- Group `g` of a reduction's words, 512 g to 512 g + 511, summed from the participants' banks as they stand, with the flags
of the additions (R102). -/
def treeGroup (s : State) (x : TreeRun) (g : Nat) : List Fa × Flags :=
  let ws := tabulate 512 fun i => treeWord s x.src (512 * g + i) x.n x.root
  (ws.map (·.1), flAll (ws.map (·.2)))
/-- Group `g` of the sums takes its place in the root's destination bank, and its flags accrue. -/
def treeStore (x : TreeRun) (g : Nat) (y : List Fa × Flags) (s : State) : State :=
  let root := tileOf x.root
  accrue root y.2 { s with pl := { s.pl with
    fas := smapReplace {} (faKey root x.dst (512 * g)) 512 (fun i => y.1.getD i {}) s.pl.fas } }
/-- What the present cycle brings to a reduction: word j is read on t + 4 + floor(j / 512) and stands in the root's bank
9 TCLK later for each level (R103); the reduction is over with its last word. -/
def treeTick (s : State) (x : TreeRun) : State :=
  let s := treeResidue x s
  let g := s.cyc - (x.start + 4)
  let got := if x.start + 4 ≤ s.cyc ∧ g < 128 then x.got ++ [treeGroup s x g] else x.got
  let (s, got) :=
    if x.start + 4 + 9 * x.n ≤ s.cyc then
      match got with
      | y :: r => (treeStore x (g - 9 * x.n) y s, r)
      | [] => (s, [])
    else (s, got)
  if x.start + 131 + 9 * x.n ≤ s.cyc then
    { s with pl := { s.pl with trees := s.pl.trees.filter fun y => !sameTree x y } }
  else
    { s with pl := { s.pl with trees := s.pl.trees.map fun y => if sameTree x y then { y with got := got } else y } }

/-- Hold the intervals of a complete reduction (R103). -/
def treeHold (e : TreeIssue) (s : State) : State :=
  let c := e.cycle
  let s := (treeTiles e).foldl (fun s t =>
    hold (.treePath t) (c + 4) (c + 132 + 9 * treeN e) (hold (.drainPath t) (c + 4) (c + 132)
      (hold (.hedgeBank t e.src) (c + 4) (c + 132) s))) s
  hold (.hedgeBank (tileOf (treeRoot e)) e.dst) (c + 4) (c + 132 + 9 * treeN e) s

/-- A complete reduction begins; a further issue on the cycle may still break its set (R160). -/
def treeApply (e : TreeIssue) (s : State) : State :=
  let s := seenBy (tileOf (treeRoot e)) (e.cycle + 132 + 9 * treeN e) (treeHold e s)
  let mark := fun (x : TreeIssue) => if x.cycle = e.cycle && treeSame x e then { x with done := true } else x
  { s with pl := { s.pl with treeq := s.pl.treeq.map mark, trees := s.pl.trees ++ [treeRun e] } }

/-- The issues of a cycle's queue that agree with `e`, one for each participant that has issued. -/
def treeSet (q : List TreeIssue) (e : TreeIssue) : List TreeIssue :=
  (treeTiles e).filterMap fun t => (q.filter fun x => x.cycle = e.cycle).find? fun x => x.tile = t && treeSame x e
/-- An issue of the cycle shares a tile with `e` and asks for another reduction. -/
def treeClash (q : List TreeIssue) (e : TreeIssue) : Bool :=
  (q.filter fun x => x.cycle = e.cycle).any fun x => treeMeet x e && !treeSame x e

/-- One participant issues: the last of a complete, agreeing set begins the reduction. -/
def treeIssue (e : TreeIssue) (s : State) : State :=
  let s := { s with pl := { s.pl with treeq := s.pl.treeq ++ [e] } }
  if treeClash s.pl.treeq e || (treeSet s.pl.treeq e).length ≠ 2 ^ treeN e then s
  else match treeFault s (treeSet s.pl.treeq e) with
    | some (code, x) =>
      let s := treeRaise code x s
      { s with pl := { s.pl with treeq := s.pl.treeq.filter fun y => !(y.cycle = e.cycle && treeSame y e) } }
    | none => treeApply e s

/-- The issue that an HTREE records. -/
def treeEntry (s : State) (t : Tile) (f : Fields) : TreeIssue :=
  { tile := t, cycle := s.cyc, lvl := BitVec.ofNat 2 (fld f 55 54), src := fbit f 53, dst := fbit f 52,
    pc := (tctl s t).pc, word := BitVec.ofNat 64 (wordOf 0x43 f) }

/-- HTREE: fixed-tree reduction of one bank across 2^N tiles of a die into the root's destination bank. -/
def execHtree (t : Tile) (f : Fields) (s : State) : Host.Outcome State Fault Refusal :=
  .next (tileOnly s (issue { t := t, opc := 0x43, f := f, enc := fld f 51 0 = 0 } noCheck
    (treeIssue (treeEntry s t f)) s))

/-- Take back a reduction begun on this cycle that a later issue of the cycle broke (R160). -/
def treeUndo (e : TreeIssue) (s : State) : State :=
  let held := (treeHold e { s with pl := { s.pl with ivals := [] } }).pl.ivals
  { s with pl := { s.pl with
    ivals := s.pl.ivals.filter fun i => !held.contains i
    trees := s.pl.trees.filter fun y => !sameTree (treeRun e) y } }

/-- TREE_SYNC at the end of a cycle: every participant set that did not issue alike raises one record and takes no
effect (R160); structural in `fuel`. -/
def treeSync : Nat → List TreeIssue → State → State
  | 0, _, s => s
  | fuel + 1, es, s =>
    match es with
    | [] => s
    | e :: _ =>
      let met := es.filter (treeMeet e)
      let big := met.foldl (fun b x => if treeN b < treeN x then x else b) e
      let grp := es.filter (treeMeet big)
      let rest := es.filter fun x => !treeMeet big x
      let s :=
        if grp.all (fun x => x.done && treeSame x e) then s
        else
          let low := grp.foldl (fun b x => if x.tile.val < b.tile.val then x else b) e
          let dones := grp.filter fun x => x.done && x.tile.val = treeRoot x
          treeRaise eTreeSync low (dones.foldl (fun s x => treeUndo x s) s)
      treeSync fuel rest s

/-- The end of cycle `c` for the tree. -/
def treeEnd (s : State) : State :=
  let s := treeSync 128 (s.pl.treeq.filter fun e => e.cycle = s.cyc) s
  { s with pl := { s.pl with treeq := [] } }

end Sys2Proof.Machine
end

