-- ==== Sys2Proof/Machine/VergeXfer.lean ====
section
/-! DEFINITION. The Verge's transfer path: VLD, VST, VSTI, VLDM, VSTM (R121, R126-R129, R464). -/

namespace Sys2Proof.Machine

/-- The fields of a transfer-path instruction (Table 5.2). -/
structure VXfer where
  vr : Nat
  sd : Nat
  se : Nat
  ss : Nat
  n : Nat
  bax : Bool
  wid : Nat
  men : Bool
  ms : Nat
  zm : Bool
  rnd : Nat
  ofm : Bool
  scl : Bool
  rsv : Nat
  deriving DecidableEq, Repr

/-- Read the fields. -/
def vXfer (f : Fields) : VXfer :=
  { vr := fld f 55 50, sd := fld f 49 44, se := fld f 43 38, ss := fld f 37 32, n := fld f 31 20 + 1, bax := fbit f 19,
    wid := fld f 18 17, men := fbit f 16, ms := fld f 15 13, zm := fbit f 12, rnd := fld f 11 10, ofm := fbit f 9,
    scl := fbit f 8, rsv := fld f 7 0 }

/-- What a transfer addresses: descriptor, first element, element width in bits, elements per TCLK. -/
structure XferGeo where
  d : LsDesc
  e0 : Nat
  bits : Nat
  rf : Nat
  deriving DecidableEq, Repr

/-- Byte and bit of stored element e (R126). -/
def xPos (g : XferGeo) (e : Nat) : Nat × Nat := (g.d.base + e / 256 * g.d.stride, e % 256 * g.bits)
/-- Scale byte of stored element e (R127). -/
def xScale (g : XferGeo) (bax : Bool) (e : Nat) : Nat :=
  if bax then g.d.sbase + e / 256 / 32 * 256 + e % 256 else g.d.sbase + e % 256 / 32 * 256 + e / 256
/-- Elements per TCLK of a format (Table 5.4). -/
def fmtRate (c : Nat) (bax : Bool) : Nat :=
  if fmtIsMx c then (if bax then 16 else 512) else if c = 0 then 128 else if c = 1 ∨ c = 2 then 256 else 512
/-- Main port bytes per TCLK (Table 5.4). -/
def fmtPort (c : Nat) (bax : Bool) : Nat :=
  if fmtIsMx c then (if bax then 16 * fmtBits c / 8 else 512 * fmtBits c / 8) else 512

/-- The geometry of VLD and VST. -/
def vGeo (s : State) (t : Tile) (q : VXfer) : XferGeo :=
  let d := lsDesc (sreg s t q.sd)
  let e0 := (sreg s t q.se).toNat % 2 ^ 32
  if q.wid = 1 then ⟨d, e0, 64, 64⟩ else ⟨d, e0, fmtBits d.fmt, fmtRate d.fmt q.bax⟩

/-- Every byte addressed lies below 0x140_0000 (R126). -/
def xInside (g : XferGeo) (n : Nat) : Bool :=
  (List.range n).all fun i => let p := xPos g (g.e0 + i); p.1 + ceilDiv (p.2 + g.bits) 8 ≤ lsSize
/-- The element side of a transfer is legal: CT, stride, range (R126). -/
def xLegal (g : XferGeo) (n : Nat) : Bool :=
  g.d.rsv = 0 && !g.d.ct && 256 * g.bits / 8 ≤ g.d.stride && xInside g n
/-- The MX side of a transfer is legal (R126, R127). -/
def mxLegal (g : XferGeo) (q : VXfer) : Bool :=
  !fmtIsMx g.d.fmt ||
  (g.e0 % 32 = 0 && g.e0 + q.n - 1 < 65536 && !q.men &&
    (List.range q.n).all fun i => xScale g q.bax (g.e0 + i) < lsSize)

/-- Element i is processed. -/
def xOn (s : State) (t : Tile) (q : VXfer) (i : Nat) : Bool := !q.men || mGet s t q.ms i
/-- Reads of the governing mask. -/
def xMen (s : State) (t : Tile) (q : VXfer) (r : Nat) : List VPend := if q.men then [rdM s t q.ms q.n r] else []
/-- Lines of `n` elements of a transfer from element `lo` on, and of their scales. -/
def xLines (t : Tile) (g : XferGeo) (bax : Bool) (lo n : Nat) (l : Nat) : Bool :=
  (List.range n).any fun i =>
    let p := xPos g (g.e0 + lo + i)
    lineHit (lsBase t + p.1 + p.2 / 8) (ceilDiv g.bits 8) l ||
      (fmtIsMx g.d.fmt && lineHit (lsBase t + xScale g bax (g.e0 + lo + i)) 1 l)
/-- What a transfer uses. -/
def xUse (regs : VXfer → List Nat) (units : VXfer → List Nat) (rf : State → Tile → VXfer → Nat) (t : Tile) (f : Fields)
    (s : State) : VUse :=
  let q := vXfer f
  let r := rf s t q
  { regs := regs q, units := units q, masks := if q.men then [q.ms] else [], n := q.n, rate := r, i := ceilDiv q.n r }

/-! ## VLD -/

/-- Read a stored element and widen it into FP32 (R41, R128, R132); an MX element whose product with its scale is no FP32 value
rounds under RND (R41; DEDUCED, entry 24). -/
def vldElem (s : State) (t : Tile) (q : VXfer) (g : XferGeo) (i : Nat) : W32 × Flags :=
  let e := g.e0 + i
  let c := s.cyc + i / g.rf
  let p := xPos g e
  let x := elemRead (lsByte s t .mainRead c) p.1 p.2 g.bits
  if g.d.fmt = 0 then (BitVec.ofNat 32 x, 0)
  else
    let v := if fmtIsMx g.d.fmt then decodeMx g.d.fmt x (lsByte s t .scaleRead c (xScale g q.bax e)).toNat
             else decodeElem g.d.fmt x
    let (y, fl) := toF32 (rndOf q.rnd) v
    (y, useFlags v ||| fl)

/-- A binary64 element as its two words. -/
def vldPair (s : State) (t : Tile) (g : XferGeo) (i : Nat) : Nat :=
  let p := xPos g (g.e0 + i)
  elemRead (lsByte s t .mainRead (s.cyc + i / g.rf)) p.1 p.2 64

/-- What VLD asks of issue: WID = 1 loads binary64 pairs. -/
def vldDecl (t : Tile) (f : Fields) (s : State) : VDecl :=
  let q := vXfer f
  let g := vGeo s t q
  let wide := decide (q.wid = 1)
  let i := ceilDiv q.n g.rf
  let legal := q.rsv = 0 && q.rnd ≤ 1 && q.wid ≤ 1 && !fmtReserved g.d.fmt && xLegal g q.n &&
    (if wide then g.d.fmt = 0 && q.vr % 2 = 0 && q.vr < 32 else q.vr < 32 && mxLegal g q)
  let regs := if wide then [q.vr, q.vr + 1] else [q.vr]
  { opc := 0xA0, legal := legal, xfer := true, sreads := [q.sd, q.se], i := i, reads := xMen s t q g.rf,
    writes := regs.map fun v => wrV s t v q.n g.rf 6, vis := s.cyc + i - 1 + 6 }

/-- The ports that a VLD uses. -/
def vldPorts (t : Tile) (q : VXfer) (g : XferGeo) (s : State) : State :=
  let i := ceilDiv q.n g.rf
  let u := usePort t .mainRead s.cyc i (if q.wid = 1 then 512 else fmtPort g.d.fmt q.bax) s
  if fmtIsMx g.d.fmt then usePort t .scaleRead s.cyc i 16 u else u

/-- One beat of VLD: the group's elements as the ports deliver them on the present cycle, visible 6 TCLK later (R124, R129). -/
def vldBeat (x : VRun) (s : State) : VRun × State :=
  let q := vXfer x.ctl
  let v := vView x s
  let t := x.tile
  let g := vGeo v t q
  let (lo, n) := vGroup x s g.rf q.n
  let off := if q.zm then some 0 else none
  let put := fun (r : Nat) (ys : List (Option W32)) => (⟨t, false, r, lo, s.cyc + 6, ys⟩ : VWrite)
  let s := eccTensor (diePort t) (xLines t g q.bax lo n) s.cyc s
  if q.wid = 1 then
    let ys := tabulate n fun i => if xOn v t q (lo + i) then some (vldPair v t g (lo + i)) else none
    let half := fun (k : Nat) => ys.map fun y => match y with | some w => some (BitVec.ofNat 32 (w / 2 ^ k)) | none => off
    (x, vPutOut [put q.vr (half 0), put (q.vr + 1) (half 32)] s)
  else
    let ys := tabulate n fun i => if xOn v t q (lo + i) then some (vldElem v t q g (lo + i)) else none
    let fl := flAll (ys.map fun y => match y with | some y => y.2 | none => 0)
    (x, accrue t fl (vPutOut [put q.vr (ys.map fun y => match y with | some y => some y.1 | none => off)] s))

/-- VLD: local-store elements into a vector register as FP32, or binary64 into an even-odd pair. -/
def vldOp : VOp :=
  { decl := vldDecl
    use := xUse (fun _ => []) (fun _ => []) fun s t q => (vGeo s t q).rf
    ports := fun t f s => vldPorts t (vXfer f) (vGeo s t (vXfer f)) s
    beat := vldBeat }
/-- VLD: issue. -/
def execVld (t : Tile) (f : Fields) (s : State) : Host.Outcome State Fault Refusal := .next (vIssue vldOp t f s)

/-! ## VST -/

/-- One stored element: index, cycle of its write, code, flags, non-finite (R59). -/
structure StElem where
  i : Nat
  c : Nat
  code : Nat
  fl : Flags
  bad : Bool
  deriving DecidableEq, Repr

/-- Conversion control of VST. -/
def vstCvt (s : State) (t : Tile) (q : VXfer) (g : XferGeo) : Cvt :=
  ⟨g.d.fmt, rndOf q.rnd, q.ofm, q.scl, (sreg s t q.ss).toNat⟩
/-- Rounding word of stored element e: index X + e (R128). -/
def vstWord (s : State) (t : Tile) (q : VXfer) (g : XferGeo) (e : Nat) : Nat :=
  cvtWord (vstCvt s t q g) ((sreg s t (q.ss + 1)).toNat + e)

/-- An element of a format without blocks; FP32 moves its bits (R132). -/
def vstPlain (s : State) (t : Tile) (q : VXfer) (g : XferGeo) (i : Nat) : StElem :=
  let c := s.cyc + 6 + i / g.rf
  if !xOn s t q i then ⟨i, c, 0, 0, false⟩
  else
    let x := vGet s t q.vr i
    if g.d.fmt = 0 then ⟨i, c, x.toNat, 0, nonFinite32 x⟩
    else
      let v := f32 x
      let cv := vstCvt s t q g
      let (code, fl) := convScalar cv.fmt cv.rnd cv.ofm (vstWord s t q g (g.e0 + i)) v
      ⟨i, c, code, useFlags v ||| fl, !v.isFin || codeNonFinite cv.fmt code⟩

/-- One block of an MX store: its number, scale address, cycles, element indices and the converted block. -/
structure StBlock where
  id : Nat
  addr : Nat
  idx : List Nat
  blk : MxBlock
  fl : Flags
  deriving DecidableEq, Repr

/-- Convert the stored elements `idx` of one block; index n and beyond stand for +0 padding (R40, R127). -/
def vstBlock (s : State) (t : Tile) (q : VXfer) (g : XferGeo) (id : Nat) (idx : List Nat) : StBlock :=
  let i0 := idx.headD 0
  let addr := xScale g q.bax (g.e0 + i0)
  let val := fun i => if i < q.n then f32 (vGet s t q.vr i) else .fin false 0 0
  let sup := if q.scl then some (lsByte s t .scaleRead (s.cyc + i0 / g.rf) addr).toNat else none
  let blk := mxConvert (vstCvt s t q g) sup (idx.map fun i => (val i, vstWord s t q g (g.e0 + i)))
  ⟨id, addr, idx, blk, blk.flags ||| flAll (idx.map fun i => useFlags (val i))⟩

/-- A stored element's writes. -/
def vstWrite (t : Tile) (g : XferGeo) (who c i code : Nat) : List PendWrite :=
  let p := xPos g (g.e0 + i)
  lsWrites t true who c (elemWrites p.1 p.2 g.bits code)

/-- What one beat of a store brings: writes, flags, non-finite elements with their blocks, and first elements of blocks marked
non-finite by their scale (R59). -/
structure StBeat where
  ws : List PendWrite
  fl : Flags
  elems : List (Nat × Nat)
  ffs : List (Nat × Nat)
  deriving DecidableEq, Repr

/-- Elements lo to lo + n − 1 of a store to a format without blocks. -/
def vstFlat (s : State) (t : Tile) (q : VXfer) (g : XferGeo) (lo n : Nat) : StBeat :=
  let ys := (List.range n).filterMap fun i => if xOn s t q (lo + i) || q.zm then some (vstPlain s t q g (lo + i)) else none
  ⟨ys.flatMap fun y => vstWrite t g s.fresh y.c y.i y.code, flAll (ys.map (·.fl)),
    ys.filterMap fun y => if y.bad then some (y.i / 32, y.i) else none, []⟩

/-- Elements lo to lo + n − 1 of an MX store with BAX = 0: whole blocks, the last one padded with +0 (R127). -/
def vstRows (s : State) (t : Tile) (q : VXfer) (g : XferGeo) (lo n : Nat) : StBeat :=
  let bs := tabulate (ceilDiv n 32) fun b => vstBlock s t q g (lo / 32 + b) (tabulate 32 fun j => lo + 32 * b + j)
  let c := s.cyc + 6 + lo / g.rf
  ⟨bs.flatMap fun b => ((List.zip b.idx b.blk.codes).flatMap fun (i, code) => vstWrite t g s.fresh c i code) ++
      lsWrites t false s.fresh c [(b.addr, BitVec.ofNat 8 b.blk.scale, 0xFF)],
    flAll (bs.map (·.fl)),
    bs.flatMap fun b => (List.zip b.idx b.blk.bad).filterMap fun (i, bad) => if bad then some (b.id, i) else none,
    bs.filterMap fun b => if b.blk.scale = 255 then b.idx.min?.map fun i => (b.id, i) else none⟩

/-- Block of element i of an MX store with BAX = 1. -/
def colBlock (g : XferGeo) (i : Nat) : Nat := (g.e0 + i) / 256 / 32 * 256 + (g.e0 + i) % 256
/-- One element of an MX store with BAX = 1: it is converted alone under its block's scale byte. A non-finite source in a format
that holds none makes the block NaN: this element and every other of the block that the instruction stores are written 0, those
already written once more (R127; DESIGN CHOICE, entry 156), and no rounding of the block's elements raises a flag (R52). -/
def vstColElem (s : State) (t : Tile) (q : VXfer) (g : XferGeo) (x : VRun) (i : Nat) : VRun × StBeat :=
  let b := colBlock g i
  let blk := vstBlock s t q g b [i]
  let c := s.cyc + 6 + i / g.rf
  let used := useFlags (f32 (vGet s t q.vr i))
  let bad := blk.blk.bad.headD false
  let source := !(f32 (vGet s t q.vr i)).isFin && 10 ≤ g.d.fmt
  let nan := x.nan.contains b || source
  let scale := fun (v : Nat) => lsWrites t false s.fresh c [(blk.addr, BitVec.ofNat 8 v, 0xFF)]
  let again := if source && !x.nan.contains b then x.els.filterMap fun y => if y.1 = b then some y.2.1 else none else []
  let elems := if bad then [(b, i)] else []
  if nan then
    ({ x with nan := b :: x.nan },
      ⟨((again ++ [i]).flatMap fun k => vstWrite t g s.fresh c k 0) ++ scale 255, used ||| (blk.blk.flags &&& flQN), elems, []⟩)
  else
    ({ x with els := x.els ++ [(b, i, blk.blk.flags)] },
      ⟨vstWrite t g s.fresh c i (blk.blk.codes.headD 0) ++ scale blk.blk.scale, used, elems,
        if blk.blk.scale = 255 then [(b, i)] else []⟩)
/-- Elements lo to lo + n − 1 of an MX store with BAX = 1. -/
def vstCols (s : State) (t : Tile) (q : VXfer) (g : XferGeo) (x : VRun) (lo n : Nat) : VRun × StBeat :=
  (List.range n).foldl (fun (a : VRun × StBeat) k =>
    let (y, o) := vstColElem s t q g a.1 (lo + k)
    (y, ⟨a.2.ws ++ o.ws, a.2.fl ||| o.fl, a.2.elems ++ o.elems, a.2.ffs ++ o.ffs⟩)) (x, ⟨[], 0, [], []⟩)
/-- What the end of a store accrues beside its beats: the flags of rounding in blocks that did not become NaN, and the blocks
that did, by the first element that the instruction stores of each. -/
def vstEnd (g : XferGeo) (n : Nat) (x : VRun) : Flags × List (Nat × Nat) :=
  (flAll (x.els.map fun y => if x.nan.contains y.1 then y.2.2 &&& flQN else y.2.2),
   x.nan.eraseDups.filterMap fun b => ((List.range n).find? fun i => colBlock g i = b).map fun i => (b, i))

/-- The ports that a VST uses. -/
def vstPorts (t : Tile) (q : VXfer) (g : XferGeo) (s : State) : State :=
  let i := ceilDiv q.n g.rf
  let mx := fmtIsMx g.d.fmt
  let u := usePort t .mainWrite (s.cyc + 6) i (fmtPort g.d.fmt q.bax) s
  let u := if mx then usePort t .scaleWrite (s.cyc + 6) i 16 u else u
  if mx && q.scl then usePort t .scaleRead s.cyc i 16 u else u

/-- The geometry of a VST. -/
def vstGeo (s : State) (t : Tile) (q : VXfer) : XferGeo := vGeo s t { q with wid := 0 }

/-- The elements that a VST writes, the padding of a partial last block among them (R40, R127). -/
def vstSpan (q : VXfer) (g : XferGeo) : Nat := if fmtIsMx g.d.fmt && !q.bax then ceilDiv q.n 32 * 32 else q.n
/-- What VST asks of issue. -/
def vstDecl (t : Tile) (f : Fields) (s : State) : VDecl :=
  let q := vXfer f
  let g := vstGeo s t q
  let i := ceilDiv q.n g.rf
  let sr := decide (q.rnd = 2)
  let legal := q.rsv = 0 && q.rnd ≠ 3 && q.wid = 0 && !fmtReserved g.d.fmt && xLegal g (vstSpan q g) && q.vr < 32 &&
    mxLegal g q && !(sr && q.ss = 63) && !(fmtIsMx g.d.fmt && q.bax && !q.scl)
  { opc := 0xA1, legal := legal, xfer := true,
    sreads := [q.sd, q.se] ++ (if sr && q.ss ≠ 63 then [q.ss, q.ss + 1] else []), i := i,
    reads := [rdV s t q.vr q.n g.rf] ++ xMen s t q g.rf, vis := s.cyc + i + 6 }

/-- One beat of VST: the group's elements are read and converted, and their writes follow 6 TCLK later; the last beat accrues the
non-finite summary (R59, R124, R129). -/
def vstBeat (x : VRun) (s : State) : VRun × State :=
  let q := vXfer x.ctl
  let v := vView x s
  let t := x.tile
  let g := vstGeo v t q
  let (lo, n) := vGroup x s g.rf q.n
  let (y, o) := if fmtIsMx g.d.fmt then (if q.bax then vstCols v t q g x lo n else (x, vstRows v t q g lo n))
    else (x, vstFlat v t q g lo n)
  let y := { y with elems := y.elems ++ o.elems, ffs := y.ffs ++ o.ffs }
  let s := if fmtIsMx g.d.fmt && q.scl then
      eccTensor (diePort t) (fun l => (List.range n).any fun i =>
        lineHit (lsBase t + xScale g q.bax (g.e0 + lo + i)) 1 l) s.cyc s
    else s
  let s := accrue t o.fl (addWrites o.ws s)
  if vLast x s then
    let (fl, ffs) := vstEnd g q.n y
    let (k, first) := nfSummary y.elems (y.ffs ++ ffs)
    (y, accrueNf t x.start k first (accrue t fl s))
  else (y, s)

/-- VST: a vector register into local store, converted under RND, OFM, SCL and seed. -/
def vstOp : VOp :=
  { decl := vstDecl
    use := xUse (fun q => [q.vr]) (fun q => if q.rnd = 2 then [37] else []) fun s t q => (vstGeo s t q).rf
    ports := fun t f s => vstPorts t (vXfer f) (vstGeo s t (vXfer f)) s
    beat := vstBeat }
/-- VST: issue. -/
def execVst (t : Tile) (f : Fields) (s : State) : Host.Outcome State Fault Refusal := .next (vIssue vstOp t f s)

/-! ## VSTI -/

/-- Saturate an i32 to `w` bits (Table 5.5). -/
def satInt (w : Nat) (x : Int) : Nat × Flags :=
  let hi : Int := 2 ^ (w - 1) - 1
  let lo : Int := -(2 ^ (w - 1))
  if hi < x then (wrapInt w hi, flNV) else if x < lo then (wrapInt w lo, flNV) else (wrapInt w x, 0)

/-- The geometry of a VSTI. -/
def vstiGeo (s : State) (t : Tile) (q : VXfer) : XferGeo :=
  ⟨lsDesc (sreg s t q.sd), (sreg s t q.se).toNat % 2 ^ 32, 8 * 2 ^ q.wid, 512 / 2 ^ q.wid⟩
/-- What VSTI asks of issue; the descriptor's FMT, which VSTI does not use, must be no reserved code (R31; DEDUCED, entry 157). -/
def vstiDecl (t : Tile) (f : Fields) (s : State) : VDecl :=
  let q := vXfer f
  let g := vstiGeo s t q
  let i := ceilDiv q.n g.rf
  let legal := q.rsv = 0 && q.rnd ≤ 1 && q.wid ≤ 2 && !fmtReserved g.d.fmt && xLegal g q.n && q.vr < 32
  { opc := 0xA2, legal := legal, xfer := true, sreads := [q.sd, q.se], i := i,
    reads := [rdV s t q.vr q.n g.rf] ++ xMen s t q g.rf, vis := s.cyc + i + 6 }
/-- Element k of a VSTI with its flags; 0 where the mask leaves it out. -/
def vstiElem (s : State) (t : Tile) (q : VXfer) (k : Nat) : Nat × Flags :=
  if xOn s t q k then satInt (8 * 2 ^ q.wid) (vGet s t q.vr k).toInt else (0, 0)
/-- Of elements lo to lo + n − 1, those that a VSTI writes. -/
def vstiKs (s : State) (t : Tile) (q : VXfer) (lo n : Nat) : List Nat :=
  (tabulate n fun i => lo + i).filter fun k => xOn s t q k || q.zm
/-- One beat of VSTI. -/
def vstiBeat (x : VRun) (s : State) : VRun × State :=
  let q := vXfer x.ctl
  let v := vView x s
  let t := x.tile
  let g := vstiGeo v t q
  let (lo, n) := vGroup x s g.rf q.n
  let ks := vstiKs v t q lo n
  (x, accrue t (flAll (ks.map fun k => (vstiElem v t q k).2))
    (addWrites (ks.flatMap fun k => vstWrite t g x.who (s.cyc + 6) k (vstiElem v t q k).1) s))

/-- VSTI: i32 elements stored as i8, i16 or i32. -/
def vstiOp : VOp :=
  { decl := vstiDecl
    use := xUse (fun q => [q.vr]) (fun _ => []) fun s t q => (vstiGeo s t q).rf
    ports := fun t f s => usePort t .mainWrite (s.cyc + 6) (ceilDiv (vXfer f).n (vstiGeo s t (vXfer f)).rf) 512 s
    beat := vstiBeat }
/-- VSTI: issue. -/
def execVsti (t : Tile) (f : Fields) (s : State) : Host.Outcome State Fault Refusal := .next (vIssue vstiOp t f s)

/-! ## VLDM and VSTM -/

/-- Mask transfers are legal: e0 a multiple of 8, MEN = 0, m7 the last register, and no reserved format code (R126, R128, R31;
DEDUCED, entry 157). -/
def maskXferLegal (q : VXfer) (d : LsDesc) (e0 : Nat) : Bool :=
  q.rsv = 0 && q.rnd ≤ 1 && q.wid = 0 && !q.men && q.vr < 8 && !fmtReserved d.fmt && d.rsv = 0 && !d.ct && e0 % 8 = 0 &&
  d.base + (e0 + q.n - 1) / 8 < lsSize

/-- First element of a mask transfer. -/
def maskE0 (s : State) (t : Tile) (q : VXfer) : Nat := (sreg s t q.se).toNat % 2 ^ 32
/-- What VLDM and VSTM ask of issue. -/
def vldmDecl (t : Tile) (f : Fields) (s : State) : VDecl :=
  let q := vXfer f
  { opc := 0xA3, legal := maskXferLegal q (lsDesc (sreg s t q.sd)) (maskE0 s t q), xfer := true, sreads := [q.sd, q.se], i := 1,
    writes := [wrM s t q.vr q.n 4096 6], vis := s.cyc + 6 }
def vstmDecl (t : Tile) (f : Fields) (s : State) : VDecl :=
  let q := vXfer f
  { opc := 0xA4, legal := maskXferLegal q (lsDesc (sreg s t q.sd)) (maskE0 s t q), xfer := true, sreads := [q.sd, q.se], i := 1,
    reads := [rdM s t q.vr q.n 4096], vis := s.cyc + 7 }

/-- The beat of VLDM: mask bits as the port delivers them on the issue cycle. -/
def vldmBeat (x : VRun) (s : State) : VRun × State :=
  let q := vXfer x.ctl
  let v := vView x s
  let t := x.tile
  let d := lsDesc (sreg v t q.sd)
  let e0 := maskE0 v t q
  let ys := tabulate q.n fun i =>
    some (if bitOf (lsByte v t .mainRead v.cyc (d.base + (e0 + i) / 8)).toNat ((e0 + i) % 8) then (1 : W32) else 0)
  (x, vPutOut [⟨t, true, q.vr, 0, s.cyc + 6, ys⟩]
    (eccTensor (diePort t) (lineHit (lsBase t + d.base + e0 / 8) (ceilDiv q.n 8)) s.cyc s))
/-- VLDM: mask bits from local store. -/
def vldmOp : VOp :=
  { decl := vldmDecl
    use := fun _ f _ => { n := (vXfer f).n, rate := 4096, i := 1 }
    ports := fun t _ s => usePort t .mainRead s.cyc 1 512 s
    beat := vldmBeat }
/-- VLDM: issue. -/
def execVldm (t : Tile) (f : Fields) (s : State) : Host.Outcome State Fault Refusal := .next (vIssue vldmOp t f s)

/-- The writes of a VSTM: one bit of a byte each. -/
def vstmWrites (s : State) (t : Tile) (q : VXfer) : List PendWrite :=
  (List.range q.n).flatMap fun i =>
    lsWrites t true s.fresh (s.cyc + 6) (elemWrites (lsDesc (sreg s t q.sd)).base (maskE0 s t q + i) 1
      (b2n (mGet s t q.vr i)))
/-- VSTM: mask bits into local store; bits of a byte beyond the instruction keep their value (R464). -/
def vstmOp : VOp :=
  { decl := vstmDecl
    use := fun _ f _ => { masks := [(vXfer f).vr], n := (vXfer f).n, rate := 4096, i := 1 }
    ports := fun t _ s => usePort t .mainWrite (s.cyc + 6) 1 512 s
    beat := fun x s => (x, addWrites (vstmWrites (vView x s) x.tile (vXfer x.ctl)) s) }
/-- VSTM: issue. -/
def execVstm (t : Tile) (f : Fields) (s : State) : Host.Outcome State Fault Refusal := .next (vIssue vstmOp t f s)

/-! ## The beats of a cycle -/

/-- The instructions of the Verge by opcode (Table 5.3). -/
def vOps : List (Nat × VOp) :=
  [(0x50, vaddOp), (0x51, vsubOp), (0x52, vmulOp), (0x53, vfmaOp), (0x54, vfnmaOp), (0x55, vmaxOp), (0x56, vminOp),
   (0x57, vabsOp), (0x58, vnegOp), (0x59, vdivOp), (0x5A, vmovOp), (0x5B, vcvtOp), (0x60, vexpOp), (0x61, vexp2Op),
   (0x62, vlogOp), (0x63, vlog2Op), (0x64, vrcpOp), (0x65, vrsqOp), (0x66, vsqrtOp), (0x67, vtanhOp), (0x68, vsigmOp),
   (0x70, vrsumOp), (0x71, vrmaxOp), (0x72, vrminOp), (0x73, vrdotOp), (0x74, vrowsumOp), (0x75, vrowmaxOp),
   (0x76, vrowminOp), (0x77, vrowdotOp), (0x78, vrowdot2Op), (0x79, vrowsq2Op), (0x80, vaddiOp), (0x81, vsubiOp),
   (0x82, vmuliOp), (0x83, vmaxiOp), (0x84, vminiOp), (0x85, vandOp), (0x86, vorOp), (0x87, vxorOp), (0x88, vshlOp),
   (0x89, vsraOp), (0x8A, vsrlOp), (0x8B, vf2iOp), (0x8C, vi2fOp), (0x90, vcmpOp), (0x91, vcmpiOp), (0x92, vmlogOp),
   (0x93, vmpopOp), (0x98, vspl3Op), (0x99, vilog64Op), (0x9A, vslc64Op), (0x9B, vrngOp), (0xA0, vldOp), (0xA1, vstOp),
   (0xA2, vstiOp), (0xA3, vldmOp), (0xA4, vstmOp)]
/-- An instruction of the list. -/
def sameRun (x y : VRun) : Bool := y.who = x.who && y.tile = x.tile && y.start = x.start
/-- The present beat of an instruction in progress; with its last beat it is over. -/
def vTick (s : State) (x : VRun) : State :=
  let (y, u) := match vOps.find? fun o => o.1 = x.opc with
    | some o => o.2.beat x s
    | none => (x, s)
  let rest :=
    if vLast x s then u.pl.vruns.filter fun z => !sameRun x z else u.pl.vruns.map fun z => if sameRun x z then y else z
  useFree { u with pl := { u.pl with vruns := rest } }

end Sys2Proof.Machine
end

