-- ==== Sys2Proof/Machine/Clock.lean ====
section
/-! DEFINITION. The clock: what the block does by itself when no command waits. A tick first hands over the steps that are
due, then lets the tiles issue, and when nothing of the present cycle is left it ends the cycle (R141-R143, R150, R162, R164,
R191). DESIGN CHOICE: the tick is what `step` does on an empty queue. -/

namespace Sys2Proof.Machine

/-! ## Decoding an instruction word (R140, Table 1.2 of each family) -/

/-- The sequencer's opcodes (Table 6.2). -/
def seqOps : List (Nat × (Tile → Fields → Instr)) :=
  [(0x00, .nop), (0x01, .sli), (0x02, .slui), (0x03, .saddi), (0x04, .sadd), (0x05, .ssub), (0x06, .sand), (0x07, .sor),
   (0x08, .sxor), (0x09, .sshl), (0x0A, .ssrl), (0x0B, .ssra), (0x0C, .smul), (0x0D, .sslt), (0x0E, .ssltu), (0x10, .sld),
   (0x11, .sst), (0x12, .srdcyc), (0x13, .srdseg), (0x14, .srdfl), (0x15, .srdid), (0x18, .br), (0x19, .bz), (0x1A, .bnz),
   (0x1B, .brr), (0x1C, .waitUntil), (0x1D, .waitFor), (0x1F, .end_)]
/-- The tile mover's, the Hedge's and the tree's (Tables 3.4, 6.3). -/
def moverOps : List (Nat × (Tile → Fields → Instr)) :=
  [(0x20, .mvhLd), (0x21, .mvhSt), (0x22, .mvt), (0x23, .nadd), (0x24, .nrd), (0x25, .nclr), (0x26, .lpush), (0x27, .lpop),
   (0x28, .xch), (0x2C, .mvsLd), (0x2D, .mvsSt), (0x2E, .ipage), (0x40, .hmm), (0x41, .hms), (0x42, .hdrn), (0x43, .htree)]
/-- The Verge's floating-point opcodes (Table 5.3). -/
def vergeOps : List (Nat × (Tile → Fields → Instr)) :=
  [(0x50, .vadd), (0x51, .vsub), (0x52, .vmul), (0x53, .vfma), (0x54, .vfnma), (0x55, .vmax), (0x56, .vmin), (0x57, .vabs),
   (0x58, .vneg), (0x59, .vdiv), (0x5A, .vmov), (0x5B, .vcvt), (0x60, .vexp), (0x61, .vexp2), (0x62, .vlog), (0x63, .vlog2),
   (0x64, .vrcp), (0x65, .vrsq), (0x66, .vsqrt), (0x67, .vtanh), (0x68, .vsigm), (0x70, .vrsum), (0x71, .vrmax),
   (0x72, .vrmin), (0x73, .vrdot), (0x74, .vrowsum), (0x75, .vrowmax), (0x76, .vrowmin), (0x77, .vrowdot), (0x78, .vrowdot2),
   (0x79, .vrowsq2)]
/-- The Verge's integer, mask, other and transfer opcodes (Table 5.3). -/
def vergeOps2 : List (Nat × (Tile → Fields → Instr)) :=
  [(0x80, .vaddi), (0x81, .vsubi), (0x82, .vmuli), (0x83, .vmaxi), (0x84, .vmini), (0x85, .vand), (0x86, .vor), (0x87, .vxor),
   (0x88, .vshl), (0x89, .vsra), (0x8A, .vsrl), (0x8B, .vf2i), (0x8C, .vi2f), (0x90, .vcmp), (0x91, .vcmpi), (0x92, .vmlog),
   (0x93, .vmpop), (0x98, .vspl3), (0x99, .vilog64), (0x9A, .vslc64), (0x9B, .vrng), (0xA0, .vld), (0xA1, .vst),
   (0xA2, .vsti), (0xA3, .vldm), (0xA4, .vstm)]
/-- The instruction of a 64-bit word: OPC in bits [63:56], the operand fields below; none when OPC is reserved. -/
def tileInstr (t : Tile) (w : W64) : Option Instr :=
  ((seqOps ++ moverOps ++ vergeOps ++ vergeOps2).find? fun p => p.1 = w.toNat / 2 ^ 56).map fun p => p.2 t (w.setWidth 56)

/-! ## Issue (R141, R146, R150, R162) -/

/-- A tile issues on the present cycle. -/
def tileDue (s : State) (k : TileCtl) : Bool := k.run && k.next ≤ s.cyc
/-- The tiles that issue on the present cycle, in tile order. -/
def dueTiles (s : State) : List Tile := (s.pl.tiles.filter fun p => tileDue s p.2).map fun p => tileOf p.1
/-- The word at a tile's PC. -/
def wordAt (s : State) (t : Tile) : W64 := smapGet 0 s.pl.imem (32768 * t.val + (tctl s t).pc)

/-- One tile takes its word: the instruction waits to be carried out on this cycle; a PC beyond 32,767 or a reserved opcode
is a fault, the latter after the word was read (R161, R166). -/
def takeWord (t : Tile) (s : State) : State :=
  if 32767 < (tctl s t).pc then seqPcFault t 0 s
  else match tileInstr t (wordAt s t) with
    | some i => { s with pending := s.pending ++ [i] }
    | none =>
      let code := if imemPending s t (tctl s t).pc then eImemPending else eSeqEnc
      advance t (tileFault t code (wordAt s t).toNat 0 (imemEcc t s))

/-- Pushes of a cycle are carried out in rising tile order, and pops in falling order (R169). -/
def popsDown (q : List Instr) : List Instr :=
  let pop := fun (x : Instr) => match x with | .lpop _ _ => true | _ => false
  q.filter (fun x => !pop x) ++ (q.filter pop).reverse

/-- Every tile due takes its word. -/
def issueAll (s : State) : State :=
  let s := (dueTiles s).foldl (fun s t => takeWord t s) s
  { s with pending := popsDown s.pending }

/-! ## The end of a cycle -/

/-- Two users write one byte of a local store on one cycle (R129, R464). -/
def writeClash (s : State) (t : Tile) : Bool :=
  let ws := s.pl.pw.filter fun w => w.wcyc = s.cyc && w.port ≠ 0 && lsBase t ≤ w.addr && w.addr < lsBase t + lsSize
  ws.any fun w => ws.any fun x => x.addr = w.addr && x.who ≠ w.who
/-- The four ports. -/
def lsPorts : List LsPort := [.mainRead, .mainWrite, .scaleRead, .scaleWrite]
/-- LS_PORT of one tile on the present cycle: a record for each port exceeded, and one when writes clash (R68, R129). -/
def portFaults (t : Tile) (s : State) : State :=
  let raise := fun (s : State) => schedFault eLsPort (srcOf 1 t.val) s.cyc 0 0 0 false s
  let s := (lsPorts.filter fun p => portOver s t p s.cyc).foldl (fun s _ => raise s) s
  if writeClash s t then raise s else s

/-- A record on its way to the log that a real fault of one detector left on a cycle. -/
def sameFault (code src c : Nat) (i : Instr) : Bool :=
  match i with | .errorRecordLog d => d.code.toNat = code && d.src.toNat = src && d.tcyc.toNat = c | _ => false
/-- That record with INJ set (R446). -/
def markInj (i : Instr) : Instr := match i with | .errorRecordLog d => .errorRecordLog { d with inj := true } | _ => i

/-- Tile or unit SCH faults injected for the present cycle (Table 19.10, group SCH); a real fault and an injection on one
event make one record (R446). -/
def injectedFaults (s : State) : State :=
  let slots := (List.range 8).filterMap fun n =>
    let v := reg64 s (injCtl n)
    let code := bitsOf v 15 0
    let src := bitsOf v 31 16
    if code / 0x1000 = 3 && injArmed s code src n && reg64 s (injPar n) = s.cyc then some (code, src) else none
  if running s then
    slots.eraseDups.foldl (fun s x =>
      match injEvent x.1 x.2 (fun _ p => p = s.cyc) s with
      | (none, s) => s
      | (some _, s) =>
        if s.agenda.any fun y => sameFault x.1 x.2 s.cyc y.2 then
          { s with agenda := s.agenda.map fun y => if sameFault x.1 x.2 s.cyc y.2 then (y.1, markInj y.2) else y }
        else if x.2 / 0x1000 = 1 then
          let t := tileOf (x.2 % 0x1000)
          schedFault x.1 x.2 s.cyc 0 ((tctl s t).pc % 2 ^ 15) (wordAt s t).toNat true s
        else schedFault x.1 x.2 s.cyc 0 0 0 true s) s
  else s

/-- The users that write a byte of a local store on one cycle. -/
def writers (s : State) (w : PendWrite) : List Nat :=
  ((s.pl.pw.filter fun x => x.addr = w.addr && x.wcyc = w.wcyc && x.port ≠ 0).map (·.who)).eraseDups
/-- A write under way lands: through an exceeded port it may leave the byte as it was, and of clashing writes one lands
(R68, R129). -/
def landsNow (s : State) (w : PendWrite) : Bool :=
  if w.port = 0 then true
  else
    let t := tileOf ((w.addr - 0x20000000000) / 0x2000000)
    let free := fun n => (Config.freeByte (freeKey { s with fresh := s.fresh + n } w.wcyc w.addr)).toNat
    let us := writers s w
    (us.length ≤ 1 || us[free 0 % us.length]? = some w.who) &&
      (!portOver s t (if w.port = 1 then .mainWrite else .scaleWrite) w.wcyc || free (w.who + 1) % 2 = 1)

/-- A product or an exchange of the tile that holds a byte still reads it on an earlier cycle. -/
def readOn (s : State) (a : Nat) : Bool :=
  let mine := fun (t : Tile) => lsBase t ≤ a && a < lsBase t + lsSize
  (s.pl.prods.any fun x => x.fl.isNone && mine x.tile) || s.pl.xchs.any fun x => mine x.tile
/-- One write lands; what the byte held is kept while a product or an exchange of its tile reads on (latest first). -/
def landByte (s : State) (acc : Memory × List PastByte) (w : PendWrite) : Memory × List PastByte :=
  let old := memGet acc.1 w.addr
  (memSet acc.1 w.addr (pwByte old w), if readOn s w.addr then ⟨w.addr, w.vis, old⟩ :: acc.2 else acc.2)

/-- Every write visible by cycle `c` lands in memory, earliest visible first; injections and earlier errors of its lines
are settled (R244, R247). -/
def landWrites (c : Nat) (s : State) : State :=
  let due := pwSort (s.pl.pw.filter fun w => w.vis ≤ c)
  if due.isEmpty then s
  else
    let (mem, past) := (due.filter (landsNow s)).foldl (landByte s) (s.mem, [])
    let s := useFree { s with mem := mem, pl := { s.pl with pw := s.pl.pw.filter fun w => c < w.vis,
                                                            hist := s.pl.hist ++ past.reverse } }
    if s.regs.any (fun r => 0x90100 / 4 ≤ r.1 && r.1 < 0x90180 / 4) ∨ s.coh.flips ≠ [] then
      ((due.map fun w => w.addr / 64).eraseDups).foldl (fun s l => memWrote l s) s
    else s

/-- The last cycle of a vector access. -/
def vpendEnd (p : VPend) : Nat := if p.rate = 0 then p.base else p.base + (p.n * p.mul + p.late) / p.rate
/-- Forget what is over. -/
def prune (s : State) : State :=
  let c := s.cyc
  { s with pl := { s.pl with
    spend := s.pl.spend.filter fun p => c < p.vis
    vpend := s.pl.vpend.filter fun p => c ≤ vpendEnd p
    ivals := s.pl.ivals.filter fun i => c < i.hi
    ports := s.pl.ports.filter fun u => c ≤ u.hi + 1 || readOn s (lsBase u.tile)
    hist := s.pl.hist.filter fun h => readOn s h.addr
    sysent := s.pl.sysent.filter fun e => c ≤ e.due || c < e.hi
    frames := s.pl.frames.filter fun u => framePos c < u.hi
    nruSlots := s.pl.nruSlots.filter fun x => c / 2 ≤ x.2 } }

/-- Unfetched slots of a ring wait on a limit of R297. -/
def ringWaits (s : State) (r : Ring) : Bool :=
  let x := ring s r
  x.en && !x.halted && x.a ≠ x.c && (ringMax s r ≤ inflight s r || 65536 ≤ s.hf.cmds.length)
/-- One more TCLK waited: 4,096 of them, 1,024 SCLK, are a unit of STALL. -/
def waitOne (x : RingSt) : RingSt :=
  if x.waited + 1 < 4096 then { x with waited := x.waited + 1 } else { x with waited := 0, stall := satAdd x.stall 1 }
/-- RLOADn.STALL counts the time that unfetched slots wait (R297, Table 12.2). -/
def countStalls (s : State) : State :=
  s.hf.rings.foldl (fun s p => let r := ringOf p.1; if ringWaits s r then setRing r (waitOne (ring s r)) s else s) s

/-- What the counter itself sets off on reaching a cycle: package 0's beacon (R191) and the loss of beacons (R193). -/
def counterEvents (s : State) : State :=
  if s.ck.inReset then s
  else if myRank s = 0 then (if s.cyc % 65536 = 0 then schedNow .beaconSend s else s)
  else if s.tp.lastBeacon + 4 * 65536 ≤ s.cyc then schedNow .timeBeaconLost s
  else s

/-- What the present cycle brings to the instructions that take several cycles: results of the Verge that become visible, the
tile movers' beats, drains, products, tree reductions, the Verge's beats and NRU operations. -/
def beatsOf (s : State) : State :=
  let s := landVerge s
  let s := s.pl.flows.foldl flowTick s
  let s := landXfers (s.pl.hreads.foldl hreadTick s)
  let s := s.pl.drains.foldl drainTick s
  let s := s.pl.prods.foldl prodTick s
  let s := s.pl.trees.foldl treeTick s
  let s := s.pl.vruns.foldl vTick s
  nruTick s

/-- The root over one TCLK: four delivered cycles; after the eighth of a group, which begins on an MCLK edge, it withholds as many
as the group's level, and the next group takes the level now in force (R380, R403, R404). -/
def rootTick (s : State) : State :=
  let k := s.ck
  { s with ck := if s.cyc % 2 = 0 then { k with root := k.root + 4 } else { k with root := k.root + 4 + k.pace, pace := s.pwr.level } }

/-- The present cycle ends and the tile-cycle counter, 64 bits wide, advances by one (R142); what is under way across its wrap
is not followed (DESIGN CHOICE, entry 160). -/
def endCycle (s : State) : State :=
  let s := beatsOf (laybyEnd (treeEnd (rootTick s)))
  let s := injectedFaults ((List.finRange 128).foldl (fun s t => portFaults t s) s)
  let s := allPorts.foldl (fun s p => portTick false p s) (postAll s)
  let s := waitVc1 { s with cyc := (s.cyc + 1) % 2 ^ 64 }
  allPorts.foldl (fun s p => portTick true p s) (counterEvents (barrierTick (armEdge (releaseBlocks (countStalls (recallTick (hbmArrive (freezeTick (prune (landPages (landWrites s.cyc s)))))))))))

/-! ## The tick -/

/-- The order of the coherence networks within a cycle: a response is always accepted, and a snoop is never held behind a request
(R255). -/
def netOrder (i : Instr) : Nat :=
  match msgClass i with
  | some .response => 0
  | some .snoop => 1
  | _ => 2
/-- Insert a step by its cycle and network, after those scheduled earlier for it. -/
def agendaPut (x : Nat × Instr) : List (Nat × Instr) → List (Nat × Instr)
  | [] => [x]
  | y :: r => if x.1 < y.1 ∨ (x.1 = y.1 ∧ netOrder x.2 < netOrder y.2) then x :: y :: r else y :: agendaPut x r
/-- The steps due by now: error records in the order of R438, then the others by cycle. -/
def dueSteps (s : State) : List Instr :=
  let recs := (detectsDue s.cyc s.agenda).map fun x => Instr.errorRecordLog x.2
  let isRec := fun (i : Instr) => match i with | .errorRecordLog _ => true | _ => false
  recs ++ ((s.agenda.filter fun x => x.1 ≤ s.cyc && !isRec x.2).foldl (fun acc x => agendaPut x acc) []).map (·.2)

/-- Some tile has a word to issue now. -/
def mustIssue (s : State) : Bool := running s && !issueStopped s && s.pl.tiles.any fun p => tileDue s p.2

/-- One tick. -/
def clockTick (s : State) : State :=
  if s.agenda.any fun x => x.1 ≤ s.cyc then
    { s with pending := dueSteps s, agenda := s.agenda.filter fun x => s.cyc < x.1 }
  else if s.pwr.off then s
  else if s.ck.inReset && !(s.ck.rom && s.ck.lock && !s.ck.pinHeld) then bringUp s
  else if !s.ck.lock then s
  else if mustIssue s then issueAll s
  else endCycle s

end Sys2Proof.Machine
end

