-- ==== Sys2Proof/Machine/Dispatch.lean ====
section
/-! DEFINITION. One arm for each command of the block, in the order of the opcode table: its meaning. -/

namespace Sys2Proof.Machine

/-- The effect of a command on everything but the queue. -/
def exec (i : Instr) (s : State) : Host.Outcome State Fault Refusal :=
  match i with
  | .nop t f => Sys2Proof.Machine.execNop t f s
  | .sli t f => Sys2Proof.Machine.execSli t f s
  | .slui t f => Sys2Proof.Machine.execSlui t f s
  | .saddi t f => Sys2Proof.Machine.execSaddi t f s
  | .sadd t f => Sys2Proof.Machine.execSadd t f s
  | .ssub t f => Sys2Proof.Machine.execSsub t f s
  | .sand t f => Sys2Proof.Machine.execSand t f s
  | .sor t f => Sys2Proof.Machine.execSor t f s
  | .sxor t f => Sys2Proof.Machine.execSxor t f s
  | .sshl t f => Sys2Proof.Machine.execSshl t f s
  | .ssrl t f => Sys2Proof.Machine.execSsrl t f s
  | .ssra t f => Sys2Proof.Machine.execSsra t f s
  | .smul t f => Sys2Proof.Machine.execSmul t f s
  | .sslt t f => Sys2Proof.Machine.execSslt t f s
  | .ssltu t f => Sys2Proof.Machine.execSsltu t f s
  | .sld t f => Sys2Proof.Machine.execSld t f s
  | .sst t f => Sys2Proof.Machine.execSst t f s
  | .srdcyc t f => Sys2Proof.Machine.execSrdcyc t f s
  | .srdseg t f => Sys2Proof.Machine.execSrdseg t f s
  | .srdfl t f => Sys2Proof.Machine.execSrdfl t f s
  | .srdid t f => Sys2Proof.Machine.execSrdid t f s
  | .br t f => Sys2Proof.Machine.execBr t f s
  | .bz t f => Sys2Proof.Machine.execBz t f s
  | .bnz t f => Sys2Proof.Machine.execBnz t f s
  | .brr t f => Sys2Proof.Machine.execBrr t f s
  | .waitUntil t f => Sys2Proof.Machine.execWaitUntil t f s
  | .waitFor t f => Sys2Proof.Machine.execWaitFor t f s
  | .end_ t f => Sys2Proof.Machine.execEnd t f s
  | .hmm t f => Sys2Proof.Machine.execHmm t f s
  | .hms t f => Sys2Proof.Machine.execHms t f s
  | .hdrn t f => Sys2Proof.Machine.execHdrn t f s
  | .drain t q => Sys2Proof.Machine.execDrain t q s
  | .htree t f => Sys2Proof.Machine.execHtree t f s
  | .vadd t f => Sys2Proof.Machine.execVadd t f s
  | .vsub t f => Sys2Proof.Machine.execVsub t f s
  | .vmul t f => Sys2Proof.Machine.execVmul t f s
  | .vfma t f => Sys2Proof.Machine.execVfma t f s
  | .vfnma t f => Sys2Proof.Machine.execVfnma t f s
  | .vmax t f => Sys2Proof.Machine.execVmax t f s
  | .vmin t f => Sys2Proof.Machine.execVmin t f s
  | .vabs t f => Sys2Proof.Machine.execVabs t f s
  | .vneg t f => Sys2Proof.Machine.execVneg t f s
  | .vdiv t f => Sys2Proof.Machine.execVdiv t f s
  | .vmov t f => Sys2Proof.Machine.execVmov t f s
  | .vcvt t f => Sys2Proof.Machine.execVcvt t f s
  | .vexp t f => Sys2Proof.Machine.execVexp t f s
  | .vexp2 t f => Sys2Proof.Machine.execVexp2 t f s
  | .vlog t f => Sys2Proof.Machine.execVlog t f s
  | .vlog2 t f => Sys2Proof.Machine.execVlog2 t f s
  | .vrcp t f => Sys2Proof.Machine.execVrcp t f s
  | .vrsq t f => Sys2Proof.Machine.execVrsq t f s
  | .vsqrt t f => Sys2Proof.Machine.execVsqrt t f s
  | .vtanh t f => Sys2Proof.Machine.execVtanh t f s
  | .vsigm t f => Sys2Proof.Machine.execVsigm t f s
  | .vrsum t f => Sys2Proof.Machine.execVrsum t f s
  | .vrmax t f => Sys2Proof.Machine.execVrmax t f s
  | .vrmin t f => Sys2Proof.Machine.execVrmin t f s
  | .vrdot t f => Sys2Proof.Machine.execVrdot t f s
  | .vrowsum t f => Sys2Proof.Machine.execVrowsum t f s
  | .vrowmax t f => Sys2Proof.Machine.execVrowmax t f s
  | .vrowmin t f => Sys2Proof.Machine.execVrowmin t f s
  | .vrowdot t f => Sys2Proof.Machine.execVrowdot t f s
  | .vrowdot2 t f => Sys2Proof.Machine.execVrowdot2 t f s
  | .vrowsq2 t f => Sys2Proof.Machine.execVrowsq2 t f s
  | .vaddi t f => Sys2Proof.Machine.execVaddi t f s
  | .vsubi t f => Sys2Proof.Machine.execVsubi t f s
  | .vmuli t f => Sys2Proof.Machine.execVmuli t f s
  | .vmaxi t f => Sys2Proof.Machine.execVmaxi t f s
  | .vmini t f => Sys2Proof.Machine.execVmini t f s
  | .vand t f => Sys2Proof.Machine.execVand t f s
  | .vor t f => Sys2Proof.Machine.execVor t f s
  | .vxor t f => Sys2Proof.Machine.execVxor t f s
  | .vshl t f => Sys2Proof.Machine.execVshl t f s
  | .vsra t f => Sys2Proof.Machine.execVsra t f s
  | .vsrl t f => Sys2Proof.Machine.execVsrl t f s
  | .vf2i t f => Sys2Proof.Machine.execVf2i t f s
  | .vi2f t f => Sys2Proof.Machine.execVi2f t f s
  | .vcmp t f => Sys2Proof.Machine.execVcmp t f s
  | .vcmpi t f => Sys2Proof.Machine.execVcmpi t f s
  | .vmlog t f => Sys2Proof.Machine.execVmlog t f s
  | .vmpop t f => Sys2Proof.Machine.execVmpop t f s
  | .vspl3 t f => Sys2Proof.Machine.execVspl3 t f s
  | .vilog64 t f => Sys2Proof.Machine.execVilog64 t f s
  | .vslc64 t f => Sys2Proof.Machine.execVslc64 t f s
  | .vrng t f => Sys2Proof.Machine.execVrng t f s
  | .vld t f => Sys2Proof.Machine.execVld t f s
  | .vst t f => Sys2Proof.Machine.execVst t f s
  | .vsti t f => Sys2Proof.Machine.execVsti t f s
  | .vldm t f => Sys2Proof.Machine.execVldm t f s
  | .vstm t f => Sys2Proof.Machine.execVstm t f s
  | .mvhLd t f => Sys2Proof.Machine.execMvhLd t f s
  | .mvhSt t f => Sys2Proof.Machine.execMvhSt t f s
  | .mvt t f => Sys2Proof.Machine.execMvt t f s
  | .nadd t f => Sys2Proof.Machine.execNadd t f s
  | .nrd t f => Sys2Proof.Machine.execNrd t f s
  | .nclr t f => Sys2Proof.Machine.execNclr t f s
  | .lpush t f => Sys2Proof.Machine.execLpush t f s
  | .lpop t f => Sys2Proof.Machine.execLpop t f s
  | .xch t f => Sys2Proof.Machine.execXch t f s
  | .mvsLd t f => Sys2Proof.Machine.execMvsLd t f s
  | .mvsSt t f => Sys2Proof.Machine.execMvsSt t f s
  | .ipage t f => Sys2Proof.Machine.execIpage t f s
  | .moverLate t entry => Sys2Proof.Machine.execMoverLate t entry s
  | .issueStop => Sys2Proof.Machine.execIssueStop s
  | .segmentPlacement => Sys2Proof.Machine.execSegmentPlacement s
  | .segmentStart => Sys2Proof.Machine.execSegmentStart s
  | .segmentComplete => Sys2Proof.Machine.execSegmentComplete s
  | .nruAdd u p => Sys2Proof.Machine.execNruAdd u p s
  | .nruRead u p => Sys2Proof.Machine.execNruRead u p s
  | .nruClear u p => Sys2Proof.Machine.execNruClear u p s
  | .xchHandover p exi k => Sys2Proof.Machine.execXchHandover p exi k s
  | .xchConsume p exi k => Sys2Proof.Machine.execXchConsume p exi k s
  | .collectiveDataFlit p x => Sys2Proof.Machine.execCollectiveDataFlit p x s
  | .xchWindow p exi => Sys2Proof.Machine.execXchWindow p exi s
  | .nak p x => Sys2Proof.Machine.execNak p x s
  | .beaconSend => Sys2Proof.Machine.execBeaconSend s
  | .beacon p x => Sys2Proof.Machine.execBeacon p x s
  | .timeBeaconLost => Sys2Proof.Machine.execTimeBeaconLost s
  | .portTraining p r => Sys2Proof.Machine.execPortTraining p r s
  | .hopMeasurement p h => Sys2Proof.Machine.execHopMeasurement p h s
  | .retrain p => Sys2Proof.Machine.execRetrain p s
  | .tpLaneFail p lane => Sys2Proof.Machine.execTpLaneFail p lane s
  | .modInserted c m => Sys2Proof.Machine.execModInserted c m s
  | .modRemoved c => Sys2Proof.Machine.execModRemoved c s
  | .moduleInterrupt c flags => Sys2Proof.Machine.execModuleInterrupt c flags s
  | .laneMonitorPoll xs => Sys2Proof.Machine.execLaneMonitorPoll xs s
  | .lifeRecordUpdate => Sys2Proof.Machine.execLifeRecordUpdate s
  | .setDigest d => Sys2Proof.Machine.execSetDigest d s
  | .managementMessage p x => Sys2Proof.Machine.execManagementMessage p x s
  | .remoteResetRequest payload => Sys2Proof.Machine.execRemoteResetRequest payload s
  | .ready k => Sys2Proof.Machine.execReady k s
  | .proceed k => Sys2Proof.Machine.execProceed k s
  | .updated k => Sys2Proof.Machine.execUpdated k s
  | .commit k => Sys2Proof.Machine.execCommit k s
  | .abort k => Sys2Proof.Machine.execAbort k s
  | .hostLost k => Sys2Proof.Machine.execHostLost k s
  | .statusQuery k => Sys2Proof.Machine.execStatusQuery k s
  | .status k => Sys2Proof.Machine.execStatus k s
  | .fault k => Sys2Proof.Machine.execFault k s
  | .snapDone k => Sys2Proof.Machine.execSnapDone k s
  | .snapFail k => Sys2Proof.Machine.execSnapFail k s
  | .commitTimeout => Sys2Proof.Machine.execCommitTimeout s
  | .resolveWait => Sys2Proof.Machine.execResolveWait s
  | .freezeClose => Sys2Proof.Machine.execFreezeClose s
  | .manifestWrite => Sys2Proof.Machine.execManifestWrite s
  | .rdmaRetryTimeout p => Sys2Proof.Machine.execRdmaRetryTimeout p s
  | .throttleFramesEnd => Sys2Proof.Machine.execThrottleFramesEnd s
  | .nopCommand d => Sys2Proof.Machine.execNopCommand d s
  | .run d => Sys2Proof.Machine.execRun d s
  | .loadImage d => Sys2Proof.Machine.execLoadImage d s
  | .copyIn d => Sys2Proof.Machine.execCopyIn d s
  | .copyOut d => Sys2Proof.Machine.execCopyOut d s
  | .inlineWrite d => Sys2Proof.Machine.execInlineWrite d s
  | .milestoneReady d => Sys2Proof.Machine.execMilestoneReady d s
  | .milestoneCommit d => Sys2Proof.Machine.execMilestoneCommit d s
  | .milestoneReplay d => Sys2Proof.Machine.execMilestoneReplay d s
  | .milestoneResolve d => Sys2Proof.Machine.execMilestoneResolve d s
  | .restoreBegin d => Sys2Proof.Machine.execRestoreBegin d s
  | .restoreSegments d => Sys2Proof.Machine.execRestoreSegments d s
  | .restoreFinish d => Sys2Proof.Machine.execRestoreFinish d s
  | .setScales d => Sys2Proof.Machine.execSetScales d s
  | .fence d => Sys2Proof.Machine.execFence d s
  | .queryIdentification d => Sys2Proof.Machine.execQueryIdentification d s
  | .queryOrphanLog d => Sys2Proof.Machine.execQueryOrphanLog d s
  | .queryRingStatus d => Sys2Proof.Machine.execQueryRingStatus d s
  | .queryErrorRecords d => Sys2Proof.Machine.execQueryErrorRecords d s
  | .queryTelemetry d => Sys2Proof.Machine.execQueryTelemetry d s
  | .doorbell r v => Sys2Proof.Machine.execDoorbell r v s
  | .descriptorFetch r vis => Sys2Proof.Machine.execDescriptorFetch r vis s
  | .staleRefetch r vis => Sys2Proof.Machine.execStaleRefetch r vis s
  | .waymark w => Sys2Proof.Machine.execWaymark w s
  | .ringEnable r => Sys2Proof.Machine.execRingEnable r s
  | .ringTeardown r => Sys2Proof.Machine.execRingTeardown r s
  | .ldclr r => Sys2Proof.Machine.execLdclr r s
  | .linkDown => Sys2Proof.Machine.execLinkDown s
  | .linkUp => Sys2Proof.Machine.execLinkUp s
  | .holdTimerExpiry => Sys2Proof.Machine.execHoldTimerExpiry s
  | .park => Sys2Proof.Machine.execPark s
  | .resume => Sys2Proof.Machine.execResume s
  | .deliver => Sys2Proof.Machine.execDeliver s
  | .oclr => Sys2Proof.Machine.execOclr s
  | .functionLevelReset => Sys2Proof.Machine.execFunctionLevelReset s
  | .errorRecordLog r => Sys2Proof.Machine.execErrorRecordLog r s
  | .arm => Sys2Proof.Machine.execArm s
  | .laybyClear k => Sys2Proof.Machine.execLaybyClear k s
  | .systemWindowOpen c => Sys2Proof.Machine.execSystemWindowOpen c s
  | .patrolScrub => Sys2Proof.Machine.execPatrolScrub s
  | .lpddr5xScrub => Sys2Proof.Machine.execLpddr5xScrub s
  | .gets c m => Sys2Proof.Machine.execGets c m s
  | .getm c m => Sys2Proof.Machine.execGetm c m s
  | .upg c m => Sys2Proof.Machine.execUpg c m s
  | .putm c m d poison => Sys2Proof.Machine.execPutm c m d poison s
  | .puto c m d poison => Sys2Proof.Machine.execPuto c m d poison s
  | .pute c m => Sys2Proof.Machine.execPute c m s
  | .peek p m => Sys2Proof.Machine.execPeek p m s
  | .place p m d => Sys2Proof.Machine.execPlace p m d s
  | .merge p m d be => Sys2Proof.Machine.execMerge p m d be s
  | .fwds o m req => Sys2Proof.Machine.execFwds o m req s
  | .fwdm o m req => Sys2Proof.Machine.execFwdm o m req s
  | .fwdpeek o m p => Sys2Proof.Machine.execFwdpeek o m p s
  | .inv a m req => Sys2Proof.Machine.execInv a m req s
  | .datas c m d own poison => Sys2Proof.Machine.execDatas c m d own poison s
  | .datae c m d n poison => Sys2Proof.Machine.execDatae c m d n poison s
  | .datam c m d n poison => Sys2Proof.Machine.execDatam c m d n poison s
  | .ack k m => Sys2Proof.Machine.execAck k m s
  | .nack c m error => Sys2Proof.Machine.execNack c m error s
  | .coreLoad c a => Sys2Proof.Machine.execCoreLoad c a s
  | .coreStore c a v => Sys2Proof.Machine.execCoreStore c a v s
  | .coreEvict c l => Sys2Proof.Machine.execCoreEvict c l s
  | .snpinv l => Sys2Proof.Machine.execSnpinv l s
  | .snpdata l => Sys2Proof.Machine.execSnpdata l s
  | .snpcur l => Sys2Proof.Machine.execSnpcur l s
  | .hostGrant l g d => Sys2Proof.Machine.execHostGrant l g d s
  | .cohTimeout l agent => Sys2Proof.Machine.execCohTimeout l agent s
  | .powerOn => Sys2Proof.Machine.execPowerOn s
  | .resetN samples => Sys2Proof.Machine.execResetN samples s
  | .perst samples => Sys2Proof.Machine.execPerst samples s
  | .resetRelease samples => Sys2Proof.Machine.execResetRelease samples s
  | .watchdogKick v => Sys2Proof.Machine.execWatchdogKick v s
  | .wdtExpiry => Sys2Proof.Machine.execWdtExpiry s
  | .globalSoftwareReset key => Sys2Proof.Machine.execGlobalSoftwareReset key s
  | .blockReset bits => Sys2Proof.Machine.execBlockReset bits s
  | .coreReset hi bits => Sys2Proof.Machine.execCoreReset hi bits s
  | .referenceWindowClose count => Sys2Proof.Machine.execReferenceWindowClose count s
  | .vinSample p => Sys2Proof.Machine.execVinSample p s
  | .stretchFall => Sys2Proof.Machine.execStretchFall s
  | .pwrUv => Sys2Proof.Machine.execPwrUv s
  | .pwrOv => Sys2Proof.Machine.execPwrOv s
  | .thermalSample temps => Sys2Proof.Machine.execThermalSample temps s
  | .thermTrip => Sys2Proof.Machine.execThermTrip s
  | .telemetryIntervalClose => Sys2Proof.Machine.execTelemetryIntervalClose s
  | .getTelemetry => Sys2Proof.Machine.execGetTelemetry s
  | .powerDown => Sys2Proof.Machine.execPowerDown s
  | .fwWrite bundle => Sys2Proof.Machine.execFwWrite bundle s
  | .mctpControl msg => Sys2Proof.Machine.execMctpControl msg s
  | .getReport p nonce => Sys2Proof.Machine.execGetReport p nonce s
  | .getCerts p => Sys2Proof.Machine.execGetCerts p s
  | .challenge p level => Sys2Proof.Machine.execChallenge p level s
  | .unlock p k => Sys2Proof.Machine.execUnlock p k s
  | .claim p r => Sys2Proof.Machine.execClaim p r s
  | .release p sig => Sys2Proof.Machine.execRelease p sig s
  | .relock p => Sys2Proof.Machine.execRelock p s
  | .registerWrite sys off wide v => Sys2Proof.Machine.execRegisterWrite sys off wide v s
  | .doeAbort => Sys2Proof.Machine.execDoeAbort s
  | .mailboxGo => Sys2Proof.Machine.execMailboxGo s
  | .mailboxAbort => Sys2Proof.Machine.execMailboxAbort s
  | .clr => Sys2Proof.Machine.execClr s
  | .pclr => Sys2Proof.Machine.execPclr s
  | .injectionSlotWrite n v => Sys2Proof.Machine.execInjectionSlotWrite n v s
  | .snapshotPortEnable p => Sys2Proof.Machine.execSnapshotPortEnable p s
  | .snapshotPortDisable p => Sys2Proof.Machine.execSnapshotPortDisable p s
  | .lossOfLock => Sys2Proof.Machine.execLossOfLock s
  | .flitCrcFail p => Sys2Proof.Machine.execFlitCrcFail p s
  | .creditsReturned p x => Sys2Proof.Machine.execCreditsReturned p x s
  | .poweredHour => Sys2Proof.Machine.execPoweredHour s
  | .testPortAccess o => Sys2Proof.Machine.execTestPortAccess o s
  | .entdaa addr => Sys2Proof.Machine.execEntdaa addr s

end Sys2Proof.Machine
end

