-- ==== Sys2Proof/Safety.lean ====
section
/-! DEFINITION. The terms that the statements use: what answers, what a fault or an injected error touches, and the frames
of the families. -/

namespace Sys2Proof.Machine

/-- The command answers a next state, and that state satisfies `p`. -/
def Answers (c : Instr) (s : State) (p : State → Prop) : Prop := ∃ u, exec c s = .next u ∧ p u

/-- The identity key is out of reach while debug level 3 is in force (R430). -/
def KeyHidden (s : State) : Prop := s.sec.level = 3 → s.sec.dik = false

/-- What a detected fault or a fired injection changes: records on their way to the log, injection slots, tokens formed, the
commit state that a step abort leaves, and the stop of issue. Everything else is as before, every register outside the
injection slots included (R164, R362, R445). -/
def Alarm (s u : State) : Prop :=
  u = { s with agenda := u.agenda, regs := u.regs, out := u.out, outbox := u.outbox, ck := keepCk s u,
               cm := { s.cm with phase := u.cm.phase, readyFrom := u.cm.readyFrom, updatedFrom := u.cm.updatedFrom,
                                 abortCode := u.cm.abortCode },
               pl := { s.pl with stopAt := u.pl.stopAt, segErr := u.pl.segErr } } ∧
  ∀ w, w < 0x90100 / 4 ∨ 0x90180 / 4 ≤ w → smapGet 0 u.regs w = smapGet 0 s.regs w

/-! ## Tile instructions -/

/-- An instruction issues on the present cycle: issue has not stopped, the PC holds a word, no fault of issue and none of
its own (R145, R146, R150, R162-R164). -/
def Issues (q : IssueReq) (check : State → Option (Nat × Nat)) (s : State) : Prop :=
  issueStopped s = false ∧ (tctl s q.t).pc ≤ 32767 ∧ issueFault q s = none ∧ check s = none

/-- Every register outside the injection slots reads as before. -/
def RegsSame (s u : State) : Prop := ∀ o, o + 4 ≤ 0x90100 ∨ 0x90180 ≤ o → reg32 u o = reg32 s o
/-- The commit state but for what a step abort changes (R362). -/
def CommitSame (s u : State) : Prop :=
  u.cm = { s.cm with phase := u.cm.phase, readyFrom := u.cm.readyFrom, updatedFrom := u.cm.updatedFrom,
                     abortCode := u.cm.abortCode }
/-- Everything outside the tensor plane that a tile instruction leaves alone: memory itself and the tile cycle, coherence,
host front end, Turnpike, snapshot ports, clocks, power, telemetry, security, log, FD, the registers and the queue. -/
def OtherPlanes (s u : State) : Prop :=
  u.cyc = s.cyc ∧ u.mem = s.mem ∧ u.coh = s.coh ∧ u.hf = s.hf ∧ u.tp = s.tp ∧ u.sp = s.sp ∧ u.ck = keepCk s u ∧ u.pwr = s.pwr ∧
    u.tel = s.tel ∧ u.sec = s.sec ∧ u.log = s.log ∧ u.fd = s.fd ∧ u.i3c = s.i3c ∧ u.pending = s.pending ∧
    CommitSame s u ∧ RegsSame s u

/-- The PC moves to the next word and the next instruction issues on the next cycle (R141). -/
def NextWord (t : Tile) (s u : State) : Prop := (tctl u t).pc = (tctl s t).pc + 1 ∧ (tctl u t).next = s.cyc + 1

/-- Every other tile's control state is unchanged. -/
def OtherTiles (t : Tile) (s u : State) : Prop := ∀ x, x ≠ t → tctl u x = tctl s x

/-- The tile's flags become those of before with `f` added, and its non-finite summary is unchanged (R143). -/
def FlagsAre (t : Tile) (f : Flags) (s u : State) : Prop :=
  (tctl u t).flags = (tctl s t).flags ||| f ∧ (tctl u t).nfb = (tctl s t).nfb ∧ (tctl u t).nff = (tctl s t).nff

/-- Every scalar register other than `r` of tile `t` is unchanged. -/
def OtherScalars (t : Tile) (r : Nat) (s u : State) : Prop :=
  ∀ x k, k < 64 → ¬ (x = t ∧ k = r) → sreg u x k = sreg s x k
/-- Every scalar register is unchanged. -/
def ScalarsSame (s u : State) : Prop := ∀ x k, sreg u x k = sreg s x k
/-- Vector registers, mask registers, full accumulators and instruction memory. -/
def VectorsSame (s u : State) : Prop := u.pl.vregs = s.pl.vregs
def MasksSame (s u : State) : Prop := u.pl.masks = s.pl.masks
def AccsSame (s u : State) : Prop := u.pl.fas = s.pl.fas
def CodeSame (s u : State) : Prop := u.pl.imem = s.pl.imem ∧ u.pl.ipages = s.pl.ipages
/-- Every byte of memory reads as before on every cycle. -/
def BytesSame (s u : State) : Prop := ∀ c a, byteAt u c a = byteAt s c a
/-- Every byte of memory outside `hit` reads as before on every cycle. -/
def BytesOutside (hit : Nat → Prop) (s u : State) : Prop := ∀ c a, ¬ hit a → byteAt u c a = byteAt s c a
/-- Of the tensor plane, only the parts named change: the tiles' control state and registers, instruction memory, writes
under way, what holds a path, a port or a pending element, and the stop of issue. The Layby's pointers, the NRUs, the
system channel's ledger, the exchanges, the groups' counters, the images and the running segment are unchanged. -/
def UnitsSame (s u : State) : Prop :=
  u.pl = { s.pl with tiles := u.pl.tiles, sregs := u.pl.sregs, vregs := u.pl.vregs, masks := u.pl.masks,
                     imem := u.pl.imem, fas := u.pl.fas, ipages := u.pl.ipages, spend := u.pl.spend,
                     vpend := u.pl.vpend, ivals := u.pl.ivals, ports := u.pl.ports, pw := u.pl.pw,
                     stopAt := u.pl.stopAt, segErr := u.pl.segErr }

/-- A scalar register takes a value: s0 discards it (R144), any other register holds it, visible from cycle `vis`. -/
def ScalarTakes (t : Tile) (r : Nat) (v : W64) (vis : Nat) (u : State) : Prop :=
  sreg u t r = (if r = 0 then 0 else v) ∧ (r ≠ 0 → (⟨64 * t.val + r, vis⟩ : SPend) ∈ u.pl.spend)

/-- What an instruction that writes one scalar register and nothing else leaves. -/
def ScalarFrame (t : Tile) (r : Nat) (f : Flags) (s u : State) : Prop :=
  OtherPlanes s u ∧ NextWord t s u ∧ OtherTiles t s u ∧ FlagsAre t f s u ∧ OtherScalars t r s u ∧ VectorsSame s u ∧
    MasksSame s u ∧ AccsSame s u ∧ CodeSame s u ∧ BytesSame s u ∧ UnitsSame s u

/-- What an instruction that writes no register and no memory leaves, but for the PC and the next issue cycle. -/
def QuietFrame (t : Tile) (s u : State) : Prop :=
  OtherPlanes s u ∧ OtherTiles t s u ∧ FlagsAre t 0 s u ∧ ScalarsSame s u ∧ VectorsSame s u ∧ MasksSame s u ∧ AccsSame s u ∧
    CodeSame s u ∧ BytesSame s u ∧ UnitsSame s u

/-! ## Scalar instructions -/

/-- A format S instruction: its encoding has no reserved bit set, sa and sb are visible, and no pending write to sd is
overtaken; then sd takes `op sa sb`, visible `lat` cycles later, and nothing else changes (Tables 6.1, 6.2, R144, R145). -/
def SFormat (c : Tile → Fields → Instr) (opc lat : Nat) (units : List Nat) (op : W64 → W64 → W64) : Prop :=
  ∀ (t : Tile) (f : Fields) (s : State),
    Issues { t := t, opc := opc, f := f, enc := encS f, reads := [fld f 49 44, fld f 43 38],
             write := some (fld f 55 50, s.cyc + lat), units := units } noCheck s →
    Answers (c t f) s fun u =>
      ScalarTakes t (fld f 55 50) (op (sreg s t (fld f 49 44)) (sreg s t (fld f 43 38))) (s.cyc + lat) u ∧
      ScalarFrame t (fld f 55 50) 0 s u

/-- A format I instruction on sa (when `useA`) and the immediate: the result is visible on the next cycle. -/
def IFormat (c : Tile → Fields → Instr) (opc : Nat) (useA : Bool) (units : List Nat) (op : Fields → W64 → W64) : Prop :=
  ∀ (t : Tile) (f : Fields) (s : State),
    Issues { t := t, opc := opc, f := f, enc := encI f false, reads := if useA then [fld f 49 44] else [],
             write := some (fld f 55 50, s.cyc + 1), units := units } noCheck s →
    Answers (c t f) s fun u =>
      ScalarTakes t (fld f 55 50) (op f (sreg s t (fld f 49 44))) (s.cyc + 1) u ∧ ScalarFrame t (fld f 55 50) 0 s u

/-- A read of machine state into sd. -/
def ReadFormat (c : Tile → Fields → Instr) (opc : Nat) (val : Tile → State → W64) : Prop :=
  ∀ (t : Tile) (f : Fields) (s : State),
    Issues { t := t, opc := opc, f := f, enc := encS f, write := some (fld f 55 50, s.cyc + 1) } noCheck s →
    Answers (c t f) s fun u =>
      ScalarTakes t (fld f 55 50) (val t s) (s.cyc + 1) u ∧ ScalarFrame t (fld f 55 50) 0 s u

/-! ## Control flow, loads and stores -/

/-- An instruction without an effect but on the PC, the next issue cycle and whether the tile issues. -/
def FlowFrame (t : Tile) (s u : State) : Prop :=
  OtherPlanes s u ∧ OtherTiles t s u ∧ FlagsAre t 0 s u ∧ ScalarsSame s u ∧ VectorsSame s u ∧ MasksSame s u ∧ AccsSame s u ∧
    CodeSame s u ∧ BytesSame s u ∧ UnitsSame s u ∧ u.pl.pw = s.pl.pw ∧ u.pl.ivals = s.pl.ivals ∧ u.pl.ports = s.pl.ports
/-- Where a branch or wait that issues leaves the tile: PC `pc`, next issue on cycle `next`, and nothing else. -/
def Goes (c : Tile → Fields → Instr) (req : Tile → Fields → State → IssueReq) (check : Tile → Fields → State → Option (Nat × Nat))
    (pc next : Tile → Fields → State → Nat) : Prop :=
  ∀ (t : Tile) (f : Fields) (s : State), Issues (req t f s) (check t f) s →
    Answers (c t f) s fun u =>
      (tctl u t).pc = pc t f s ∧ (tctl u t).next = next t f s ∧ (tctl u t).run = (tctl s t).run ∧ FlowFrame t s u
/-- What a branch asks of issue: `sa` where it reads sSA. -/
def branchReq (opc : Nat) (sa : Bool) (t : Tile) (f : Fields) (_ : State) : IssueReq :=
  { t := t, opc := opc, f := f, enc := encB f sa, reads := if sa then [fld f 49 44] else [] }

/-- What an instruction that stores to memory and writes no register leaves: `hit` are the bytes it stores to. -/
def StoreFrame (t : Tile) (hit : Nat → Prop) (f : Flags) (s u : State) : Prop :=
  OtherPlanes s u ∧ OtherTiles t s u ∧ (tctl u t).flags = (tctl s t).flags ||| f ∧ ScalarsSame s u ∧ VectorsSame s u ∧
    MasksSame s u ∧ AccsSame s u ∧ CodeSame s u ∧ BytesOutside hit s u

/-! ## The Hedge and the die tree -/

/-- Every accumulator of the tiles' banks but those of one bank is as before. -/
def OtherBanks (t : Tile) (b : Bool) (s u : State) : Prop :=
  ∀ x c i, i < 65536 → ¬ (x = t ∧ c = b) → faGet u x c i = faGet s x c i
/-- What a Hedge instruction leaves alone when it issues: every register, mask, accumulator, byte and word of instruction memory,
and of the plane everything but the tiles' control, what holds a path or a port, and the products in progress. -/
def HedgeFrame (t : Tile) (s u : State) : Prop :=
  OtherPlanes s u ∧ OtherTiles t s u ∧ NextWord t s u ∧ FlagsAre t 0 s u ∧ BytesSame s u ∧
    u.pl = { s.pl with tiles := u.pl.tiles, ivals := u.pl.ivals, ports := u.pl.ports, prods := u.pl.prods,
                       stopAt := u.pl.stopAt, segErr := u.pl.segErr }
/-- A product begins: it is in progress unless the mask keeps no cell, the input and the bank are held, and with DRN the drain
begins on s + 14 + C (R60, R72, R74, R180). -/
def ProductBegun (p : Product) (x : HTimes) (q : DrainReq) (s u : State) : Prop :=
  let t := p.tile
  let bank := (hInstr p.ctl).bank
  u.pl.prods = s.pl.prods ++ (if x.acc then [p] else []) ∧
    ⟨.hedgeIn t, s.cyc, s.cyc + x.c, s.cyc⟩ ∈ u.pl.ivals ∧
    (x.acc = true → ⟨.hedgeBank t bank, s.cyc + 14, s.cyc + 14 + x.c, s.cyc⟩ ∈ u.pl.ivals) ∧
    (∀ d n, x.drain = some (d, n) → (d, .drain t q) ∈ u.agenda ∧ ⟨.drainPath t, d, d + n, s.cyc⟩ ∈ u.pl.ivals) ∧
    HedgeFrame t s u
/-- What takes several cycles and is in progress. -/
structure InProgress where
  prods : List Product := []
  drains : List DrainRun := []
  flows : List Flow := []
  hreads : List HbmRead := []
  trees : List TreeRun := []
  vruns : List VRun := []
  ops : List NruOp := []
/-- Of what a cycle carries on, only `b` is in progress; no result of the Verge and no transfer of the system channel is due
on the present cycle. -/
def OnlyBeats (b : InProgress) (s : State) : Prop :=
  s.pl.prods = b.prods ∧ s.pl.drains = b.drains ∧ s.pl.flows = b.flows ∧ s.pl.hreads = b.hreads ∧ s.pl.trees = b.trees ∧
    s.pl.vruns = b.vruns ∧ s.pl.nruFlight = b.ops ∧ (∀ w ∈ s.pl.vwrites, s.cyc < w.vis) ∧ ∀ x ∈ s.pl.xfers, s.cyc < x.due
/-- No injection slot is armed and no memory holds an injected error: records come from real causes only (R247, R445). -/
def Quiet (s : State) : Prop :=
  s.coh.flips = [] ∧ ∀ n, n < 8 → bitsOf (reg64 s (injCtl n)) 63 62 ≠ 1 ∧ bitsOf (reg64 s (injCtl n)) 63 62 ≠ 2

/-! ## Verge instructions -/

/-- What a Verge instruction asks of issue. -/
def vReq (t : Tile) (f : Fields) (d : VDecl) : IssueReq :=
  { t := t, opc := d.opc, f := f, reads := d.sreads, write := d.swrite }
/-- A Verge instruction issues: legal, its path free, no hazard, no scalar hazard. -/
def VIssues (t : Tile) (f : Fields) (d : VDecl) (s : State) : Prop := Issues (vReq t f d) (vCheck t d) s
/-- A Verge instruction has begun (R123-R125): its path is held for the issue interval, its reads and writes are pending, and it is
in progress with the scalar operands of its issue; no register, mask, accumulator, byte or word of instruction memory changes. -/
def VBegun (t : Tile) (f : Fields) (d : VDecl) (s u : State) : Prop :=
  OtherPlanes s u ∧ NextWord t s u ∧ OtherTiles t s u ∧ FlagsAre t 0 s u ∧ BytesSame s u ∧
    u.pl.ivals = s.pl.ivals ++ [⟨vPath t d, s.cyc, s.cyc + d.i, s.cyc⟩] ∧
    u.pl.vpend = s.pl.vpend ++ d.reads ++ d.writes ∧ d.vis ≤ (tctl u t).last ∧
    u.pl.spend = s.pl.spend ++ (match d.swrite with | some (r, vis) => [⟨64 * t.val + r, vis⟩] | none => []) ∧
    (∃ who, u.pl.vruns = s.pl.vruns ++ [{ vRunOf t f d s with who := who }]) ∧
    u.pl = { s.pl with tiles := u.pl.tiles, ivals := u.pl.ivals, ports := u.pl.ports, spend := u.pl.spend,
                       vpend := u.pl.vpend, vruns := u.pl.vruns, stopAt := u.pl.stopAt, segErr := u.pl.segErr }
/-- The issue of a Verge instruction. -/
def VBegins (c : Tile → Fields → Instr) (decl : Tile → Fields → State → VDecl) : Prop :=
  ∀ (t : Tile) (f : Fields) (s : State), VIssues t f (decl t f s) s → Answers (c t f) s (VBegun t f (decl t f s) s)
/-- An instruction of the Verge has a beat on the present cycle, and nothing else is in progress. -/
def VTurn (opc : Nat) (x : VRun) (s : State) : Prop :=
  x.opc = opc ∧ x.start ≤ s.cyc ∧ s.cyc < x.start + x.len ∧ OnlyBeats { vruns := [x] } s
/-- What a beat leaves beside its results: flags `f` accrue to the tile, and the instruction goes on as `y` or is over. -/
def VBeat (x y : VRun) (f : Flags) (s u : State) : Prop :=
  tctl u x.tile = { tctl s x.tile with flags := (tctl s x.tile).flags ||| f } ∧ OtherTiles x.tile s u ∧
    u.pl.vruns = (if vLast x s then [] else [y]) ∧
    u = { s with fresh := u.fresh, pl := { s.pl with tiles := u.pl.tiles, sregs := u.pl.sregs, vruns := u.pl.vruns,
                                                     vwrites := u.pl.vwrites, pw := u.pl.pw } }

/-- An element-wise instruction (R115, R116, R124), `rate` elements a cycle: each beat reads its elements on the present cycle
and puts their results on their way, visible `lat` TCLK later; an element that the mask leaves out keeps its value or takes 0 by
ZM, and nothing else changes. -/
def GroupOp (c : Tile → Fields → Instr) (opc : Nat) (isMask : Bool) (decl : Tile → Fields → State → VDecl)
    (rate : VArith → Nat) (lat dests : Nat) (elem : Tile → VArith → State → Nat → List W32 × Flags) : Prop :=
  VBegins c decl ∧
  ∀ (x : VRun) (s : State), VTurn opc x s →
    let q := vArith x.ctl
    let v := vView x s
    let lo := (s.cyc - x.start) * rate q
    let n := min (rate q) (q.n - lo)
    let on := fun k => vOn v x.tile q (lo + k)
    let r := fun k => elem x.tile q v (lo + k)
    let u := beatsOf s
    u.pl.vwrites = s.pl.vwrites ++ tabulate dests (fun j =>
      ⟨x.tile, isMask, q.vd + j, lo, s.cyc + lat, tabulate n fun k =>
        if on k then some ((r k).1.getD j 0) else if q.zm then some 0 else none⟩) ∧
    VBeat x x (flAll (tabulate n fun k => if on k then (r k).2 else 0)) s u ∧ u.pl.sregs = s.pl.sregs ∧ u.pl.pw = s.pl.pw
/-- Destination registers are vector registers. -/
def VectorOp (c : Tile → Fields → Instr) (opc : Nat) (decl : Tile → Fields → State → VDecl) (rate : VArith → Nat)
    (lat dests : Nat) (elem : Tile → VArith → State → Nat → List W32 × Flags) : Prop :=
  GroupOp c opc false decl rate lat dests elem
/-- The destination is a mask register. -/
def MaskOp (c : Tile → Fields → Instr) (opc : Nat) (decl : Tile → Fields → State → VDecl) (rate : Nat)
    (elem : Tile → VArith → State → Nat → Bool × Flags) : Prop :=
  GroupOp c opc true decl (fun _ => rate) 11 1 fun t q s k => let (b, f) := elem t q s k; ([if b then 1 else 0], f)
/-- A reduction into a scalar register (R130): each beat keeps what it reads, and the last forms low word, high word and flags
by `val` from all that was read; the cycle of visibility was entered at issue. -/
def ReduceOp (c : Tile → Fields → Instr) (opc : Nat) (decl : Tile → Fields → State → VDecl)
    (val : Tile → State → VArith → W32 × W32 × Flags) : Prop :=
  VBegins c decl ∧
  ∀ (x : VRun) (s : State), VTurn opc x s →
    let q := vArith x.ctl
    let y := vCapture x s
    let r := val x.tile (vCaught y s) q
    let u := beatsOf s
    u.pl.vwrites = s.pl.vwrites ∧ u.pl.pw = s.pl.pw ∧
    (vLast x s = false → VBeat x y 0 s u ∧ u.pl.sregs = s.pl.sregs) ∧
    (vLast x s = true → VBeat x y r.2.2 s u ∧ sreg u x.tile q.vd = (if q.vd = 0 then 0 else r.2.1 ++ r.1) ∧
      OtherScalars x.tile q.vd s u)
/-- A row instruction (R131): each beat keeps what it reads, and the last puts the result of each of the n / Lr rows on its way
to one element of each destination, visible 19 TCLK later. -/
def RowOp (c : Tile → Fields → Instr) (opc : Nat) (decl : Tile → Fields → State → VDecl) (dests : Nat)
    (row : Tile → State → VArith → Nat → Nat → List W32 × Flags) : Prop :=
  VBegins c decl ∧
  ∀ (x : VRun) (s : State), VTurn opc x s →
    let q := vArith x.ctl
    let y := vCapture x s
    let v := vCaught y s
    let lr := vLr v x.tile q
    let r := fun i => row x.tile v q (i * lr) lr
    let u := beatsOf s
    u.pl.sregs = s.pl.sregs ∧ u.pl.pw = s.pl.pw ∧
    (vLast x s = false → VBeat x y 0 s u ∧ u.pl.vwrites = s.pl.vwrites) ∧
    (vLast x s = true → VBeat x y (flAll (tabulate (q.n / max lr 1) fun i => (r i).2)) s u ∧
      u.pl.vwrites = s.pl.vwrites ++ tabulate dests fun j =>
        ⟨x.tile, false, q.vd + j, 0, s.cyc + 19, tabulate (q.n / max lr 1) fun i => some ((r i).1.getD j 0)⟩)
/-- A store of the transfer path: each beat's writes join those under way, and reads of every other byte are as before. -/
def StoreOp (c : Tile → Fields → Instr) (opc : Nat) (decl : Tile → Fields → State → VDecl)
    (ws : VRun → State → List PendWrite) (fl : VRun → State → Flags) : Prop :=
  VBegins c decl ∧
  ∀ (x : VRun) (s : State), VTurn opc x s →
    let u := beatsOf s
    u.pl.pw = s.pl.pw ++ ws x s ∧ BytesOutside (fun a => ∃ w ∈ ws x s, w.addr = a) s u ∧
    VBeat x x (fl x s) s u ∧ u.pl.sregs = s.pl.sregs ∧ u.pl.vwrites = s.pl.vwrites

/-! ## The tile mover, the Layby and the NRUs -/

/-- What a mover instruction asks of issue. -/
def mvReq (t : Tile) (opc : Nat) (f : Fields) (reads : List Nat) : IssueReq :=
  { t := t, opc := opc, f := f, enc := mvEnc f, reads := reads }
/-- SL, SA and SN. -/
def mvRegs (f : Fields) : List Nat := let q := mvF f; [q.sl, q.sa, q.sn]
/-- What a mover instruction leaves alone as it issues: every register, mask, accumulator, byte and word of instruction memory,
and of the plane everything but the tiles' control, what holds a path, a port or a frame, the system channel's ledger and
transfers, pages on their way, the Layby, and the flows and reads that have begun. Of the coherence state only the count of
transaction numbers may change. -/
def MoverFrame (t : Tile) (s u : State) : Prop :=
  OtherPlanes s { u with coh := { u.coh with txns := s.coh.txns } } ∧ NextWord t s u ∧ OtherTiles t s u ∧ FlagsAre t 0 s u ∧
    BytesSame s u ∧
    u.pl = { s.pl with tiles := u.pl.tiles, ivals := u.pl.ivals, ports := u.pl.ports, frames := u.pl.frames,
                       sysent := u.pl.sysent, xfers := u.pl.xfers, ipages := u.pl.ipages, layby := u.pl.layby,
                       laybyq := u.pl.laybyq, flows := u.pl.flows, hreads := u.pl.hreads, stopAt := u.pl.stopAt,
                       segErr := u.pl.segErr }
/-- A mover instruction has begun to read its local store, one beat a cycle (R153). -/
def FlowBegun (t : Tile) (ld sh : W64) (dst : FlowTo) (s u : State) : Prop :=
  (∃ who, u.pl.flows = s.pl.flows ++ [{ flowOf s t ld sh dst with who := who }]) ∧ u.pl.hreads = s.pl.hreads ∧ MoverFrame t s u
/-- A read of HBM has begun, with the bytes that tensor reads of its issue cycle see (Table 8.3, R199). -/
def ReadBegun (t : Tile) (ld sh : W64) (a : Nat) (s u : State) : Prop :=
  (∃ who, u.pl.hreads = s.pl.hreads ++ [{ hbmReadOf s t ld sh a with who := who }]) ∧ u.pl.flows = s.pl.flows ∧ MoverFrame t s u
/-- The issue interval of a transfer, and its return interval from `ret` on, are held by it (R153). -/
def ChannelHeld (t : Tile) (b : Nat) (ret : Option (Tile × Nat)) (s u : State) : Prop :=
  ⟨.mvIssue t, s.cyc, s.cyc + b, s.cyc⟩ ∈ u.pl.ivals ∧
    ∀ g r, ret = some (g, r) → ⟨.mvReturn g, r, r + b, s.cyc⟩ ∈ u.pl.ivals
/-- A transfer's frame positions are held (R235, R236). -/
def FramesHeld (t : Tile) (a n : Nat) (s u : State) : Prop :=
  u.pl.frames = s.pl.frames ++ [⟨hbmStack a, tileDie t, framePos s.cyc, framePos s.cyc + frameLen n⟩]
/-- The Layby's pointers of every slot but `k` are as before. -/
def OtherSlots (k : Nat) (s u : State) : Prop := ∀ j, j ≠ k → laybySlot u j = laybySlot s j

/-- The record of a fault found on the present cycle is on its way to the log; POD is set when it leads to ABORT (R438, R443). -/
def FaultLogged (code src i0 i1 : Nat) (s u : State) : Prop :=
  ∃ pod, (sclkAfter s.cyc, .errorRecordLog (detect s code src s.cyc 0 i0 i1 false pod)) ∈ u.agenda ∧
    (s.coh.flips = [] → (∀ n, n < 8 → bitsOf (reg64 s (injCtl n)) 63 62 ≠ 1 ∧ bitsOf (reg64 s (injCtl n)) 63 62 ≠ 2) →
      pod = announces s)
/-- A read on the system channel is outstanding: a Peek of each of its lines leaves on this cycle under a number of its own
(R157, R264). -/
def PeeksSent (t : Tile) (r : SysReqT) (lside : Option (W64 × W64)) (s u : State) : Prop :=
  let ls := linesOf r.a r.n
  (∃ who, u.pl.xfers = s.pl.xfers ++ [⟨t, s.cyc * 128 + t.val, r.a, r.n, s.cyc + r.d, false, [], ls, [], lside, who⟩]) ∧
    (∀ i l, ls[i]? = some l → (s.cyc, .peek (modulePort t) ⟨BitVec.ofNat 46 l, s.coh.txns + i⟩) ∈ u.agenda) ∧
    u.coh.txns = s.coh.txns + ls.length ∧ u.pl.flows = s.pl.flows ∧ u.pl.hreads = s.pl.hreads ∧ MoverFrame t s u
/-- A write on the system channel is outstanding: none of its lines has left yet (R157, R264). -/
def WriteBegun (t : Tile) (r : SysReqT) (s u : State) : Prop :=
  ∃ who, u.pl.xfers = s.pl.xfers ++ [⟨t, s.cyc * 128 + t.val, r.a, r.n, s.cyc + r.d, true, linesOf r.a r.n, [], [], none, who⟩]
/-- The ledger entry of a system-channel transfer (R157, R241). -/
def Admitted (t : Tile) (r : SysReqT) (s u : State) : Prop :=
  ∃ e ∈ u.pl.sysent, e.tile = t ∧ e.lo = s.cyc ∧ e.due = s.cyc + r.d ∧ e.hi = s.cyc + r.d + r.tail ∧ e.bytes = r.n ∧
    e.perStack = stackBytes r.a r.n ∧ e.host = hostBytes r.a r.n
/-- An operation arrives in a free MCLK slot of its unit, and every element lies in a range in force of its mode (R104,
R211). -/
def Arrives (u : NruId) (off n : Nat) (s : State) : Prop :=
  (u.val, s.cyc / 2) ∉ s.pl.nruSlots ∧ nruCovered s u (nruModeAt s u.val off) off n = true
/-- An NRU operation is accepted: its slot is taken, and it is applied 40 MCLK later in mode `m`; nothing else changes (R104). -/
def OpTaken (k : NruId) (m : NruMode) (o : NruKind) (s u : State) : Prop :=
  u = { s with pl := { s.pl with nruSlots := s.pl.nruSlots ++ [(k.val, s.cyc / 2)],
                                 nruFlight := s.pl.nruFlight ++ [⟨k, m, s.cyc + 80, o⟩] } }
/-- An NRU operation is applied on the present cycle, and nothing else is in progress. -/
def OpDue (k : NruId) (m : NruMode) (o : NruKind) (s : State) : Prop :=
  ∃ c, c ≤ s.cyc ∧ OnlyBeats { ops := [⟨k, m, c, o⟩] } s ∧ Quiet s
/-- What an applied NRU operation leaves beside its effect on memory: NRU.OPSu counted, flags accrued to the command, and
nothing else but what `tiles` and `pw` name (R104, R109, R455). -/
def OpApplied (k : NruId) (f : Flags) (s u : State) : Prop :=
  smapGet 0 u.pl.nruOps k.val = smapGet 0 s.pl.nruOps k.val + 1 ∧ u.pl.uflags = s.pl.uflags ||| f ∧ u.pl.nruFlight = [] ∧
    u = { s with mem := u.mem, fresh := u.fresh,
                 pl := { s.pl with nruFlight := [], nruOps := u.pl.nruOps, uflags := u.pl.uflags, tiles := u.pl.tiles,
                                   pw := u.pl.pw } }
/-- The bytes of an operation's elements, and of their tags (R152, R225). -/
def nruHits (m : NruMode) (k : NruId) (off n a : Nat) : Prop :=
  (nruAddr k off ≤ a ∧ a < nruAddr k off + n * nruB m) ∨
    (m = .exact ∧ ∃ i, i < n ∧ (a = nruTagAddr k ((off + i * 40) / 40) ∨ a = nruTagAddr k ((off + i * 40) / 40) + 1))

/-! ## Segments -/

/-- Word `w` of a tile's instruction memory. -/
def imemWord (s : State) (t : Tile) (w : Nat) : W64 := smapGet 0 s.pl.imem (32768 * t.val + w)
/-- The header of a tile's stream in a segment (R207). -/
def tileHead (im : Image) (g : ImgSeg) (t : Tile) : ImgTile := im.tiles.getD (g.tileFirst + t.val) ⟨0, 0, 0, []⟩
/-- Word `w` of the image's code section for a page, as memory holds it. -/
def pageWord (s : State) (im : Image) (p : ImgPage) (w : Nat) : W64 :=
  BitVec.ofNat 64 (leField (readBytes s (im.load + im.codeOff + 8 * p.src) (8 * p.words)) (8 * (w - p.dest)) 8)
/-- The page of a header that holds word `w`: the last one that names it. -/
def headPage (h : ImgTile) (w : Nat) : Option ImgPage :=
  h.pages.reverse.find? fun p => decide (p.dest ≤ w) && decide (w < p.dest + p.words)
/-- The preset that sets register `k` of a tile: the last one that names it (R208). -/
def headPreset (im : Image) (h : ImgTile) (k : Nat) : Option ImgPreset :=
  ((im.presets.drop h.presetFirst).take h.presetCount).reverse.find? fun p => decide (p.reg % 64 = k)
/-- A preset's value: LOAD is added where it says so (R208). -/
def presetVal (im : Image) (p : ImgPreset) : W64 := if p.addLoad then p.value + BitVec.ofNat 64 im.load else p.value
/-- The parts of the tensor plane that only instructions write. -/
def TensorDataSame (s u : State) : Prop :=
  u.pl.vregs = s.pl.vregs ∧ u.pl.masks = s.pl.masks ∧ u.pl.fas = s.pl.fas ∧ u.pl.pw = s.pl.pw ∧ u.pl.layby = s.pl.layby ∧
    u.pl.active = s.pl.active ∧ u.pl.staged = s.pl.staged ∧ u.pl.groups = s.pl.groups
/-- The final Waymark of a command is about to be written (R285, R289, R290). -/
def Finishes (d : Desc) (err : Nat) (fl : BitVec 5) (vt nfb nfi : Nat) (s u : State) : Prop :=
  (s.cyc, .waymark (finalMark d (nextSeq s d) err fl vt s.cyc nfb nfi)) ∈ u.agenda

/-! ## Links -/

/-- Every port but `p` is as before. -/
def OtherPorts (p : Port) (s u : State) : Prop := ∀ q, q ≠ p → portSt u q = portSt s q
/-- A received flit is taken (R305, R306): its CRC holds, and when flits are being dropped it is the one that follows the last
good one, held for a retry or idle. -/
def FlitTaken (x : Flit) (y : PortSt) : Prop :=
  crcOk x = true ∧ (y.dropping = false ∨ (x.seq = y.rxSeq + 1 ∧ (x.vc ≠ 1 ∨ x.ty = 0)))
/-- The port after a flit it has taken: one held for a retry becomes the last good one. -/
def afterFlit (x : Flit) (y : PortSt) : PortSt :=
  { y with dropping := false, rxSeq := if x.ty ≠ 0 ∧ x.vc ≠ 1 then x.seq else y.rxSeq }
/-- Credits of a channel that a port owes its far end. -/
def owed (y : PortSt) (v : Nat) : Nat := smapGet 0 y.ret v
/-- A record of a port is on its way (R437). -/
def PortRecord (code : Nat) (p : Port) (i0 i1 : Nat) (s u : State) : Prop :=
  (sclkAfter s.cyc, .errorRecordLog (detect s code (srcOf 9 p.val) s.cyc 0 i0 i1 false false)) ∈ u.agenda
/-- A port that goes down keeps no flit to send and starts its sequence numbers again (R307). -/
def PortStopped (p : Port) (u : State) : Prop :=
  let x := portSt u p
  x.replay = [] ∧ x.sends = [] ∧ x.rq = [] ∧ x.ttx = [] ∧ x.btx = [] ∧ x.used = [] ∧ x.txSeq = 0 ∧ x.rxSeq = 0xFFF ∧
    x.dropping = false ∧ x.nakDue = false

/-! ## The commit protocol -/

/-- A token carries this package's SET_DIGEST and no injection is armed, so it is taken (R357). -/
def Taken (k : Token) (s : State) : Prop := Quiet s ∧ ∃ im, s.pl.active = some im ∧ k.digest = im.setDigest
/-- Only the commit state, the agenda and the tokens formed change. -/
def CmOnly (s u : State) : Prop := u = { s with cm := u.cm, agenda := u.agenda, outbox := u.outbox }
/-- Only the life of commands, the commit state and the agenda change. -/
def CmdOnly (s u : State) : Prop := u = { s with cm := u.cm, hf := u.hf, agenda := u.agenda }
/-- Only the life of commands and the agenda change. -/
def Refused (s u : State) : Prop := u = { s with hf := u.hf, agenda := u.agenda }
/-- The package sends a token to the coordinator, or takes it itself on this cycle (R358, R359). -/
def ToCoordinator (ty : BitVec 16) (mk : Token → Instr) (k : Token) (s u : State) : Prop :=
  if coordinator s then u.agenda = s.agenda ++ [(s.cyc, mk k)] ∧ u.outbox = s.outbox
  else u.agenda = s.agenda ∧ u.outbox = s.outbox ++ [.token ty (some (0, 0)) k]
/-- The coordinator broadcasts a token once it holds one from every member, itself included (R358, R359). -/
def WhenAll (from_ : List Nat) (ty : BitVec 16) (k : Token) (s u : State) : Prop :=
  u.agenda = s.agenda ∧ u.outbox = if allMembers s from_ then s.outbox ++ [.token ty none k] else s.outbox
/-- The step in flight is aborted by a token (R362): tile issue stops at most 16 cycles later, PHASE is ABORTED, no READY or
UPDATED is held, no ABORT is sent, and a READY or COMMIT that waits ends failed with STEP_ABORTED. -/
def Aborted (code : BitVec 16) (s u : State) : Prop :=
  u.cm.phase = .aborted ∧ u.cm.abortCode = code ∧ u.cm.readyFrom = [] ∧ u.cm.updatedFrom = [] ∧ u.cm.step = s.cm.step ∧
    u.cm.cg = s.cm.cg ∧ (∃ x, u.pl.stopAt = some x ∧ x ≤ s.cyc + 16) ∧
    (s.pl.segErr = 0 → u.pl.segErr = BitVec.ofNat 16 rStepAborted) ∧
    (∀ d, s.cm.cmd = some d → d.opc = 6 → d.a0.toNat = 1 ∨ d.a0.toNat = 2 →
      Finishes d rStepAborted 0 0 0 0 s u ∧ u.cm.cmd = none) ∧
    u = { s with cm := u.cm, hf := u.hf, agenda := u.agenda,
                 pl := { s.pl with stopAt := u.pl.stopAt, segErr := u.pl.segErr } }
/-- What an applied COMMIT(n) leaves (R359, R363, R367, R219): STEP, CG and PHASE; a staged image active; retained state;
and the freeze of a snapshot that is due, or the wait for the stream before it. -/
def Applied (n : Nat) (s u : State) : Prop :=
  u.cm.step = BitVec.ofNat 48 n ∧ u.cm.cg = (!s.cm.cg) ∧
    ((∀ a ∈ s.cm.heldAbort, a.1.toNat ≠ n + 1) → u.cm.phase = .idle) ∧
    u.cm.readyFrom = [] ∧ u.cm.updatedFrom = [] ∧ u.cm.replays = 0 ∧
    (∀ im, s.pl.staged = some im → u.pl.active = some im ∧ u.pl.staged = none) ∧
    u.pl.retained.step = BitVec.ofNat 48 n ∧ u.pl.retained.cg = (!s.cm.cg) ∧
    u.pl.retained.ptrs = tabulate 16 (fun k => ((laybySlot s k).hbmPtr, (laybySlot s k).ovfPtr)) ∧
    (∀ k, (laybySlot u k).hbmPtr = (laybySlot s k).hbmPtr ∧ (laybySlot u k).ovfPtr = (laybySlot s k).ovfPtr) ∧
    (snapDue s n = true → u.cm.mile = n / msK s ∧
      (if s.cm.stream then u.cm.freezeDue = true
       else u.cm.frozen = true ∧ u.cm.freezeAt = s.cyc ∧ (s.cyc + freezeLen u.cm.total, .freezeClose) ∈ u.agenda)) ∧
    (snapDue s n = false → ∀ d, pendingPhase s 2 = some d →
      (u.cm.frames = 0 → u.cm.cmd = none ∧ Finishes d 0 0 0 0 0 s u) ∧
      (u.cm.frames ≠ 0 → (s.cyc + u.cm.frames * 65536, .throttleFramesEnd) ∈ u.agenda))

/-! ## The host interface -/

/-- A command ends with a final Waymark of some SEQ (R289, R291). -/
def EndsWith (d : Desc) (err vt : Nat) (s u : State) : Prop :=
  ∃ seq, (s.cyc, .waymark (finalMark d seq err 0 vt s.cyc 0 0)) ∈ u.agenda
/-- Only the life of commands, the agenda and the messages to the host change. -/
def HostRead (s u : State) : Prop := u = { s with hf := u.hf, agenda := u.agenda, out := u.out }
/-- A command whose data has moved, with state `v` and job `j` after it, ends once none of its writes is without completion; until
then it is looked at again on each cycle (R284, R291, R292). -/
def JobEnds (d : Desc) (j : DmaJob) (v s u : State) : Prop :=
  (jobOpen v j = [] → EndsWith d j.err j.n s u) ∧
    (jobOpen v j ≠ [] → (s.cyc + 1, rowOf d) ∈ u.agenda ∧ ∃ k ∈ u.hf.jobs, k.desc = d ∧ k.writes = jobOpen v j)
/-- The command is looked at again on the next cycle, and nothing else changes. -/
def LooksAgain (i : Instr) (s : State) : Prop := exec i s = .next { s with agenda := s.agenda ++ [(s.cyc + 1, i)] }
/-- The refusal of a DMA address is recorded (R231, R288). -/
def AddrRecorded (a : Nat) (s u : State) : Prop :=
  (sclkAfter s.cyc, .errorRecordLog (detect s eRegionAccess (portSrc dmaPort) s.cyc a (dmaPort.val * 2 ^ 16) 0 false false)) ∈
    u.agenda
/-- Every ring but `r` is as before. -/
def OtherRings (r : Ring) (s u : State) : Prop := ∀ q, q ≠ r → ring u q = ring s q
/-- Ring `r` has halted with a code; C and A are as before (R281, R294). -/
def Halted (r : Ring) (code : Nat) (s u : State) : Prop :=
  (ring u r).halted = true ∧ (ring u r).haltCode = BitVec.ofNat 16 code ∧ (ring u r).c = (ring s r).c ∧
    (ring u r).a = (ring s r).a ∧ OtherRings r s u
/-- The prefix of a COPY_OUT that is final (R291). -/
def copiedTo (s : State) (d : Desc) : Nat := match jobOf s d with | some j => if d.opc = 4 then jobVt s j else 0 | none => 0
/-- The front end has reset (R298, R388): every ring torn down and its registers at their reset values, LOST set, no
Waymark held, and every command that still needs host memory ended failed with HOST_LOST, a copy's with its final prefix. -/
def FrontEndReset (s u : State) : Prop :=
  (∀ r, ring u r = {}) ∧ (∀ r : Ring, reg64 u (ringReg r) = 0 ∧ reg64 u (ringReg r + 8) = 0 ∧ reg32 u (ringReg r + 0x18) = 0) ∧
    u.hf.lost = true ∧ u.hf.hold = false ∧ u.hf.heldMarks = [] ∧
    u.ck = { s.ck with cause := s.ck.cause ||| 4#9, edges := u.ck.edges } ∧
    (∀ w ∈ s.hf.heldMarks, reqOpen s w.no = true → markFinal w.mark = true → ⟨w.mark⟩ ∈ u.hf.orphans) ∧
    (∀ o ∈ s.hf.orphans, o ∈ u.hf.orphans) ∧ (∀ c ∈ u.hf.cmds, needsHost u c.desc = false) ∧
    (∀ c ∈ s.hf.cmds, needsHost s c.desc = true → EndsWith c.desc rHostLost (copiedTo s c.desc) s u) ∧ segOnly s u = u

/-! ## Coherence -/

/-- Messages sent on this cycle, in order. -/
def Sends (xs : List Instr) (s u : State) : Prop := u.agenda = s.agenda ++ xs.map fun i => (s.cyc, i)
/-- No transaction holds the line and none waits for it. -/
def IdleLine (l : Line) (s : State) : Prop := txnGet s l = {}
/-- A state in which one more transaction has taken its number (R255). -/
def begun (s : State) : State := { s with coh := { s.coh with txns := s.coh.txns + 1 } }
/-- The home has accepted a request: the line is busy with it, and the directory's states, owners and sharers are as before
(R256). -/
def HomeBusy (l : Line) (r : Pend) (s u : State) : Prop :=
  txnGet u l = { cur := some r.req, no := r.no } ∧ (∀ x, x ≠ l → txnGet u x = txnGet s x) ∧
    (∀ x, (dirGet u x).st = (dirGet s x).st ∧ (dirGet u x).owner = (dirGet s x).owner ∧
      (dirGet u x).sharers = (dirGet s x).sharers) ∧
    u = { s with coh := { s.coh with dir := u.coh.dir, busy := u.coh.busy, allocs := u.coh.allocs }, agenda := u.agenda }
/-- Every other core's copies and every other line of the core are as before. -/
def OtherL2 (c : CoreId) (l : Line) (s u : State) : Prop :=
  ∀ d x, ¬ (d = c ∧ x = l) → l2Get u d x = l2Get s d x
/-- A core's message changes its own line, and sends: nothing else changes. -/
def CoreFrame (c : CoreId) (l : Line) (s u : State) : Prop :=
  OtherL2 c l s u ∧ u = { s with coh := { s.coh with l2 := u.coh.l2 }, agenda := u.agenda, out := u.out }
/-- Every other core holding the line, as the directory records it. -/
def otherHolders (s : State) (l : Line) (c : CoreId) : List CoreId := (sharersOf (dirGet s l)).filter (· ≠ c)
/-- Every line but `l` is as before, in the directory, the L3 and the transactions. -/
def OtherLines (l : Line) (s u : State) : Prop :=
  ∀ x, x ≠ l → dirGet u x = dirGet s x ∧ l3Get u x = l3Get s x ∧ txnGet u x = txnGet s x ∧ hmcGet u x = hmcGet s x

/-- The line's data is in the L3, or comes from memory at once: it is not in HBM (R189, R253). -/
def AtHand (s : State) (l : Line) : Prop := (l3Get s l).valid = true ∨ inHbm (lineAddr l) = false
/-- The home has accepted a request and asked HBM for the line's data, which its transaction awaits (R238, R253). -/
def LineAsked (p : ReqPort) (l : Line) (r : Pend) (s u : State) : Prop :=
  (txnGet u l).cur = some r.req ∧ (txnGet u l).no = r.no ∧ (txnGet u l).mem = true ∧ OtherLines l s u ∧ u.out = s.out ∧
    u.mem = s.mem ∧ u.coh.l2 = s.coh.l2 ∧
    let x := hbmChanAt u (hbmChan (lineAddr l))
    ∃ k, (⟨⟨p, lineAddr l, none⟩, .home, k⟩ : HbmReq) ∈ x.q ∨ (⟨⟨p, lineAddr l, none⟩, .home, k⟩ : HbmReq) ∈ x.wait
/-- The transaction on a line waits for the host's answer to a request, which is on the link; while the link is down it waits
there (Table 11.7, R298). -/
def HostAsked (x : LinkReq) (r : Pend) (s u : State) : Prop :=
  (txnGet u x.line).cur = some r.req ∧ (txnGet u x.line).no = r.no ∧ (txnGet u x.line).grant = true ∧
    u.coh.link = s.coh.link ++ [x] ∧ u.out = s.out ++ (if s.hf.linkUp then [.cxl x.name x.line x.data x.be] else []) ∧
    u.agenda = s.agenda ∧ u.mem = s.mem ∧ u.coh.l2 = s.coh.l2 ∧ OtherLines x.line s u
/-- A line can enter the L3 without an eviction. -/
def L3Free (s : State) (l : Line) : Prop := (l3Get s l).valid = true ∨ (l3Mates s l).length < 16
/-- The present request of a port for a line is a write. -/
def portWrites (s : State) (p : ReqPort) (l : Line) : Bool := s.coh.outst.any fun x => x.port = p && x.line = l && x.wr
/-- A port has the answer to its request for a line, read or write (R231, R245, R251, R264): the request is outstanding no more, a
core that reads poison takes an exception unless it is held in reset, a transfer of the system channel that awaits the line takes the data, and no other
message leaves unless a request of a port waits. -/
def PortAnswered (p : ReqPort) (l : Line) (d : LineData) (po err wr : Bool) (s u : State) : Prop :=
  u.out = s.out ++ [.data p l d po err] ++
    (if h : p.val < 128 then (if po && !s.ck.corePend.getLsbD p.val then [.coreExc ⟨p.val, h⟩ true] else []) else []) ∧
  (∀ x ∈ u.coh.outst, x ∈ s.coh.outst ∧ ¬ (x.port = p ∧ x.line = l)) ∧
  (s.coh.portq = [] → po = false → u.agenda = s.agenda) ∧
  (∀ x rest, s.pl.xfers = x :: rest → modulePort x.tile = p → x.wr = wr → l.toNat ∈ x.left →
    { x with left := x.left.erase l.toNat, got := x.got ++ [(l.toNat, d)] } ∈ u.pl.xfers)

/-! ## Resets and shutdowns -/

/-- Everything that a PACKAGE reset clears is as after reset (R390, Table 16.5): every plane, cache, log, register and
scheduled step; modules stay in their cages with the life records of FD, host memory is not the package's, and the
commands that wait still wait. -/
def EverythingCleared (s u : State) : Prop :=
  u.cyc = 0 ∧ u.pl = Plane.reset ∧ u.coh = Coh.reset ∧ u.hf = HostFe.reset ∧ u.cm = Commit.reset ∧ u.sp = [] ∧
    u.tel = Telem.reset ∧ u.sec = Sec.reset ∧ u.log = ErrLog.reset ∧ u.regs = fuseRegs s ∧ u.i3c = 0 ∧ u.agenda = [] ∧
    u.tp = { Turnpike.reset with cages := s.tp.cages, life := s.fd.life.map lifeParse } ∧ u.outbox = [] ∧ u.pending = s.pending ∧
    (∀ a, memGet u.mem a ≠ 0 → hostBase ≤ a ∧ a < hostEnd)
/-- What the always-on domain keeps (R383, R390): RST.CAUSE, the counts, the trim and what holds the contacts. -/
def AlwaysOn (cause : BitVec 9) (restart : BitVec 4) (bring : Nat) (power pin hold : Bool) (s u : State) : Prop :=
  u.ck = { Clock.reset with cause := cause, restart := restart, fails := s.ck.fails, hours := s.ck.hours,
                            trim := s.ck.trim, pinHeld := pin, bring := bring, power := power, refHold := hold,
                            edges := u.ck.edges }
/-- The power input as measured and the bits of PWR.STAT stay; every filter restarts. -/
def PowerKept (s u : State) : Prop :=
  u.pwr = { Power.reset with vin := s.pwr.vin, iin := s.pwr.iin, pin := s.pwr.pin, tj := s.pwr.tj, temps := s.pwr.temps,
                             ttrip := s.pwr.ttrip, uv := s.pwr.uv, ov := s.pwr.ov, off := u.pwr.off }
/-- A reset of PACKAGE reach is accepted for a cause (R383-R387): everything is cleared, the cause is added, RESTART counts
it during bring-up, and bring-up starts at step 2, or at step 1 when a POWER reset has not passed it. While the rails are
off only the cause is recorded. -/
def PackageReset (bit : BitVec 9) (pin hold : Bool) (s u : State) : Prop :=
  (s.pwr.off = true → u = { s with ck := { s.ck with cause := s.ck.cause ||| bit, pinHeld := pin, edges := u.ck.edges } }) ∧
  (s.pwr.off = false → EverythingCleared s u ∧ PowerKept s u ∧ u.pwr.off = false ∧ u.fd = { s.fd with plog := u.fd.plog } ∧
    let first := s.ck.inReset && s.ck.bring = 0
    AlwaysOn (s.ck.cause ||| bit) (restartCount s) (if first then 0 else 1) first pin hold s u)
/-- FAULT has left for the set (R444): on each port that is up, every flit of VC0 that waits once FAULT has been handed to the
ports is on the wire on this cycle. -/
def FaultLeft (code : Nat) (s u : State) : Prop :=
  ∃ (k : Token) (v : State), k.code.toNat = code ∧ k.step.toNat = s.cm.step.toNat + 1 ∧
    v.tp = s.tp ∧ v.outbox = s.outbox ∧ reg32 v 0x3008 = reg32 s 0x3008 ∧
    ∀ (p : Port) (f : Flit), portUp s p = true → f ∈ (portSt (postAll (post (.token 0x0109 none k) v)) p).txq → f.vc = 0 →
      ∃ g, Out.flit p s.cyc g ∈ u.out ∧ g.vc = 0 ∧ g.ty = f.ty ∧ g.tag = f.tag ∧ g.payload = f.payload
/-- A FAT error whose rule applies a reset is the newest record of the persistent log, and FAULT has left for the set
(R441, R444). -/
def FatalTold (code src : Nat) (s u : State) : Prop :=
  (∃ r, u.fd.plog.getLast? = some r ∧ r.code.toNat = code ∧ r.src.toNat = src) ∧
  (s.ck.inReset = false → FaultLeft code s u)
/-- The rails are off (R406, R409, R441): the marker holds the bits, the hours and the step, FAULT has left for the set, the
always-on domain keeps what it keeps, and everything else is lost. -/
def RailsOff (code : Nat) (bit : Power → Power) (s u : State) : Prop :=
  EverythingCleared s u ∧ PowerKept { s with pwr := bit s.pwr } u ∧ u.pwr.off = true ∧
    AlwaysOn s.ck.cause s.ck.restart 1 false s.ck.pinHeld false s u ∧
    (∃ m, u.fd.marker = some m ∧ m.bits.toNat = b2n u.pwr.ttrip * 4 + b2n u.pwr.uv * 2 + b2n u.pwr.ov ∧
      m.hours = s.ck.hours ∧ m.step = s.cm.step.setWidth 32) ∧
    u.fd = { s.fd with plog := u.fd.plog, marker := u.fd.marker } ∧
    (s.ck.inReset = false → FaultLeft code s u)
/-- A tensor die's storage is clear (R391). -/
def DieClear (k : Die) (u : State) : Prop :=
  ∀ t : Tile, tileDie t = k →
    (∀ r, r < 64 → sreg u t r = 0) ∧ (∀ v i, v < 32 → i < 4096 → vGet u t v i = 0) ∧
    (∀ v i, v < 8 → i < 4096 → mGet u t v i = false) ∧ (∀ b i, i < 65536 → faGet u t b i = {}) ∧
    (∀ w, w < 32768 → imemWord u t w = 0) ∧
    (∀ a, lsBase t ≤ a → a < lsBase t + lsSize → memGet u.mem a = 0)
/-- An NRU's SRAM, tags, ranges in force and operation count are clear (R391, R455). -/
def NruClear (k : NruId) (u : State) : Prop :=
  (∀ a, nruBase + k.val * 0x2000000 ≤ a → a < nruBase + (k.val + 1) * 0x2000000 → memGet u.mem a = 0) ∧
    (∀ a, tagBase + k.val * 0x200000 ≤ a → a < tagBase + (k.val + 1) * 0x200000 → memGet u.mem a = 0) ∧
    (∀ r ∈ u.pl.nruRanges, r.unit ≠ k) ∧ smapGet 0 u.pl.nruOps k.val = 0
/-- A die's tile state is as before. -/
def DieSame (k : Die) (s u : State) : Prop :=
  ∀ t : Tile, tileDie t = k →
    (∀ r, r < 64 → sreg u t r = sreg s t r) ∧ (∀ v i, v < 32 → i < 4096 → vGet u t v i = vGet s t v i) ∧
    (∀ b i, i < 65536 → faGet u t b i = faGet s t b i) ∧ tctl u t = tctl s t

/-! ## Security -/

/-- An answer on a path: a DOE object, a test-port response, or the security mailbox's response window with DONE set and
BUSY clear (R425, R460). -/
def AnswersOn (p : SecPath) (bs : List Byte) (s u : State) : Prop :=
  (p = .doe → u.out = s.out ++ [.doe bs] ∧ u.sec.mbBusy = s.sec.mbBusy) ∧
  (p = .testPort → u.out = s.out ++ [.test bs] ∧ u.sec.mbBusy = s.sec.mbBusy) ∧
  (p = .mailbox → u.out = s.out ∧ u.sec.mbBusy = false ∧ u.sec.mbDone = true ∧ u.sec.mbRlen = min bs.length 4096 ∧
    u.sec.mbRsp = bs.take 4096)
/-- Apart from the answer, only the security state named by `f` changes. -/
def SecFrame (f : Sec → Sec) (s u : State) : Prop :=
  u = { s with sec := { f s.sec with mbBusy := u.sec.mbBusy, mbDone := u.sec.mbDone, mbRlen := u.sec.mbRlen,
                                     mbRsp := u.sec.mbRsp }, out := u.out, ck := keepCk s u }

/-! ## Registers -/

/-- No register of Table 20.1 lies at the offset: it is outside every register, block, window and doorbell page. -/
def NoRegister (o : Nat) : Prop :=
  (0x18 ≤ o ∧ o < 0x1000) ∨ (0x1004 ≤ o ∧ o < 0x1008) ∨ (0x1010 ≤ o ∧ o < 0x2000) ∨ (0x2020 ≤ o ∧ o < 0x3000) ∨
    (0x300C ≤ o ∧ o < 0x3010) ∨ (0x3018 ≤ o ∧ o < 0x10000) ∨ (0x10000 ≤ o ∧ o < 0x11000 ∧ 0x20 ≤ o % 0x40) ∨
    (0x11008 ≤ o ∧ o < 0x20000) ∨ (0x20404 ≤ o ∧ o < 0x30000) ∨ (0x30008 ≤ o ∧ o < 0x40000) ∨
    (0x40000 ≤ o ∧ o < 0x400C0 ∧ 4 ≤ o % 16 ∧ o % 16 < 8) ∨ (0x400C0 ≤ o ∧ o < 0x50000) ∨
    (0x50000 ≤ o ∧ o < 0x50080 ∧ 4 ≤ o % 16 ∧ o % 16 < 8) ∨ (0x50080 ≤ o ∧ o < 0x50100) ∨
    (0x50108 ≤ o ∧ o < 0x60000) ∨ (0x60018 ≤ o ∧ o < 0x60020) ∨ (0x60040 ≤ o ∧ o < 0x60100) ∨
    (0x60160 ≤ o ∧ o < 0x60200) ∨ (0x60260 ≤ o ∧ o < 0x70000) ∨ (0x70010 ≤ o ∧ o < 0x80000) ∨
    (0x8000C ≤ o ∧ o < 0x80010) ∨ (0x80014 ≤ o ∧ o < 0x81000) ∨ (0x83000 ≤ o ∧ o < 0x90000) ∨
    (0x90010 ≤ o ∧ o < 0x90100) ∨ (0x90180 ≤ o ∧ o < 0xA0000) ∨ (0xE0000 ≤ o ∧ o < 0xF00000) ∨
    (0xF00200 ≤ o ∧ o < 0xF01000) ∨ (0xF01008 ≤ o ∧ o < 0x1000000) ∨ 0x1040000 ≤ o
/-- Every word of the register map but the one at `o` reads as before. -/
def OtherWords (o : Nat) (s u : State) : Prop := ∀ x, x % 4 = 0 → x ≠ o → reg32 u x = reg32 s x
/-- An offset whose write sets fields and has no further action (R12, R448, R451). -/
def PlainWord (o : Nat) : Prop :=
  o % 4 = 0 ∧ o < 0x1000000 ∧ (o < 0x2000 ∨ 0x2020 ≤ o) ∧ (o < 0x10000 ∨ 0x11000 ≤ o) ∧ o ≠ 0x11004 ∧ o ≠ 0x20400 ∧
    (o < 0x50000 ∨ 0x50080 ≤ o) ∧ (o < 0x60100 ∨ 0x60300 ≤ o) ∧ o ≠ 0x70008 ∧ o ≠ 0x80010 ∧
    (o < 0x81000 ∨ 0x82000 ≤ o) ∧ o ≠ 0x90000 ∧ (o < 0x90100 ∨ 0x90180 ≤ o) ∧ (o < 0xF00000 ∨ 0xF00200 ≤ o)

end Sys2Proof.Machine
end

