-- ==== Sys2Proof/Certificates/Slice0/Obligations.lean ====
section
/-! DEFINITION. The statements for the provers. -/

open Sys2Proof Sys2Proof.Machine

/-! ## The step -/

/-- A step takes the command at the front of the queue. The model's choices in it: log entry 1. -/
def Obligations.StepRunsFront : Prop :=
  ∀ (c : Instr) (s : State) (rest : List Instr), step { s with pending := c :: rest } = exec c { s with pending := rest }

/-! ## The tile sequencer -/

/-- Scalar arithmetic (Tables 6.1, 6.2, R144, R145): the result, the cycle of its visibility, and the frame. -/
def Claim.ScalarArithmetic : Prop :=
  SFormat .sadd 0x04 1 [64] (fun a b => a + b) ∧ SFormat .ssub 0x05 1 [64] (fun a b => a - b) ∧
  SFormat .sand 0x06 1 [] (fun a b => a &&& b) ∧ SFormat .sor 0x07 1 [] (fun a b => a ||| b) ∧
  SFormat .sxor 0x08 1 [] (fun a b => a ^^^ b) ∧
  SFormat .sshl 0x09 1 [65] (fun a b => a <<< (b.toNat % 64)) ∧
  SFormat .ssrl 0x0A 1 [65] (fun a b => a >>> (b.toNat % 64)) ∧
  SFormat .ssra 0x0B 1 [65] (fun a b => a.sshiftRight (b.toNat % 64)) ∧
  SFormat .smul 0x0C 4 [66] (fun a b => a * b) ∧
  SFormat .sslt 0x0D 1 [64] (fun a b => if a.toInt < b.toInt then 1 else 0) ∧
  SFormat .ssltu 0x0E 1 [64] (fun a b => if a.toNat < b.toNat then 1 else 0) ∧
  IFormat .sli 0x01 false [] (fun f _ => BitVec.ofInt 64 (signOf 32 (fld f 31 0))) ∧
  IFormat .slui 0x02 true [] (fun f a => (BitVec.ofNat 32 (fld f 31 0)) ++ a.setWidth 32) ∧
  IFormat .saddi 0x03 true [64] (fun f a => a + BitVec.ofInt 64 (signOf 32 (fld f 31 0)))

/-- Reads of the machine's state into a scalar register (Table 6.2, R143). -/
def Claim.ScalarStateReads : Prop :=
  ReadFormat .srdcyc 0x12 (fun _ s => BitVec.ofNat 64 s.cyc) ∧
  ReadFormat .srdseg 0x13 (fun _ s => BitVec.ofNat 64 (match s.pl.cur with | some r => r.base | none => 0)) ∧
  ReadFormat .srdfl 0x14 (fun t s => (tctl s t).flags.setWidth 64) ∧
  ReadFormat .srdid 0x15 (fun t s => BitVec.ofNat 64 (t.val + 256 * s.pl.segSlot.val))

/-- Scalar arithmetic and reads of the machine's state (Tables 6.1, 6.2, R143-R145). The model's choices in it: log entries 12,
149. -/
def Obligations.ScalarResults : Prop := Claim.ScalarArithmetic ∧ Claim.ScalarStateReads

/-- Control flow (Table 6.2, R149, R150): where each instruction leaves the PC and the next issue cycle; a WAIT.UNTIL that is
late raises SEQ_LATE; END stops the tile's issue, and the segment completes on the cycle of the last effect once no tile issues.
The model's choices in it: log entries 14, 18, 19, 42. -/
def Obligations.ControlFlow : Prop :=
  Goes .nop (fun t f _ => { t := t, opc := 0x00, f := f, enc := encS f }) (fun _ _ => noCheck)
    (fun t _ s => (tctl s t).pc + 1) (fun _ _ s => s.cyc + 1) ∧
  Goes .br (branchReq 0x18 false) (fun _ _ => noCheck) (fun _ f _ => fld f 14 0) (fun _ _ s => s.cyc + 3) ∧
  Goes .bz (branchReq 0x19 true) (fun _ _ => noCheck)
    (fun t f s => if sreg s t (fld f 49 44) = 0 then fld f 14 0 else (tctl s t).pc + 1) (fun _ _ s => s.cyc + 3) ∧
  Goes .bnz (branchReq 0x1A true) (fun _ _ => noCheck)
    (fun t f s => if sreg s t (fld f 49 44) ≠ 0 then fld f 14 0 else (tctl s t).pc + 1) (fun _ _ s => s.cyc + 3) ∧
  Goes .brr (branchReq 0x1B true) (fun _ _ => noCheck) (fun t f s => (sreg s t (fld f 49 44)).toNat)
    (fun _ _ s => s.cyc + 3) ∧
  Goes .waitUntil
    (fun t f _ => { t := t, opc := 0x1C, f := f, enc := encW f true, reads := if fbit f 32 then [fld f 49 44] else [] })
    (fun t f s => if waitTarget s t f < s.cyc + 1 then some (eSeqLate, 0) else none)
    (fun t _ s => (tctl s t).pc + 1)
    (fun t f s => ((if fbit f 32 then ((sreg s t (fld f 49 44)).toNat : Int) else segBase s) + sextImm f).toNat) ∧
  Goes .waitFor (fun t f _ => { t := t, opc := 0x1D, f := f, enc := encW f false && decide (1 ≤ sextImm f) })
    (fun _ _ => noCheck) (fun t _ s => (tctl s t).pc + 1) (fun _ f s => s.cyc + (sextImm f).toNat) ∧
  (∀ (t : Tile) (f : Fields) (s : State), Issues { t := t, opc := 0x1F, f := f, enc := encS f } noCheck s →
    Answers (.end_ t f) s fun u =>
      (tctl u t).run = false ∧ FlowFrame t s u ∧
      (anyIssuing u = false → running s = true → (lastEffect u, .segmentComplete) ∈ u.agenda)) ∧
  (∀ (t : Tile) (f : Fields) (s : State),
    let q : IssueReq := { t := t, opc := 0x1C, f := f, enc := encW f true, reads := if fbit f 32 then [fld f 49 44] else [] }
    issueStopped s = false → (tctl s t).pc ≤ 32767 → issueFault q s = none → waitTarget s t f < s.cyc + 1 →
    Answers (.waitUntil t f) s fun u =>
      NextWord t s u ∧ FlowFrame t s u ∧ (∃ x, u.pl.stopAt = some x ∧ x ≤ s.cyc + 16) ∧
      FaultLogged eSeqLate (srcOf 1 t.val) ((tctl s t).pc % 2 ^ 15) (0x1C * 2 ^ 56 + f.toNat) s u)

/-- SLD and SST (R148, Table 6.2). SLD's register takes the eight bytes read on cycle s, whenever the main read port is not
exceeded; SST's eight bytes are seen by a read on cycle s + 7 and by no earlier one. The model's choices in it: log entry 12. -/
def Obligations.ScalarLoadStore : Prop :=
  (∀ (t : Tile) (f : Fields) (s : State),
    Issues { t := t, opc := 0x10, f := f, enc := encI f false, reads := [fld f 49 44],
             write := some (fld f 55 50, s.cyc + 6), units := [64] } (sldCheck t f) s →
    Answers (.sld t f) s fun u =>
      (∃ v, ScalarTakes t (fld f 55 50) v (s.cyc + 6) u ∧
        (portOver (usePort t .mainRead s.cyc 1 8 s) t .mainRead s.cyc = false →
          v = BitVec.ofNat 64 (leNat (bytesAt s s.cyc (lsBase t + sldAddr s t f) 8)))) ∧
      ScalarFrame t (fld f 55 50) 0 s u ∧ u.pl.pw = s.pl.pw) ∧
  (∀ (t : Tile) (f : Fields) (s : State),
    Issues { t := t, opc := 0x11, f := f, enc := encI f true, reads := [fld f 49 44, fld f 43 38], units := [64] }
      (sldCheck t f) s →
    Answers (.sst t f) s fun u =>
      let a := lsBase t + sldAddr s t f
      (∀ i, i < 8 → byteAt u (s.cyc + 7) (a + i) = BitVec.ofNat 8 ((sreg s t (fld f 43 38)).toNat / 256 ^ i)) ∧
      (∀ c x, c < s.cyc + 7 → byteAt u c x = byteAt s c x) ∧
      StoreFrame t (fun x => a ≤ x ∧ x < a + 8) 0 s u ∧ NextWord t s u ∧ UnitsSame s u)

/-- A fault of issue (R144-R146, R162-R164): no register, mask, accumulator or byte is written; one record with the PC and the
word is on its way to the log; issue stops at most 16 cycles later; the tile's next word issues on the next cycle. The model's
choices in it: log entries 14, 15. -/
def Obligations.IssueFaults : Prop :=
  ∀ (t : Tile) (f : Fields) (s : State) (code : Nat),
    let q : IssueReq := { t := t, opc := 0x04, f := f, enc := encS f, reads := [fld f 49 44, fld f 43 38],
                          write := some (fld f 55 50, s.cyc + 1), units := [64] }
    issueStopped s = false → (tctl s t).pc ≤ 32767 → issueFault q s = some code →
    (code = eImemPending ∨ code = eSeqEnc ∨ code = eSeqRaw ∨ code = eSeqWaw) ∧
    (imemPending s t (tctl s t).pc = false → fld f 37 0 ≠ 0 → code = eSeqEnc) ∧
    Answers (.sadd t f) s fun u =>
      NextWord t s u ∧ FlowFrame t s u ∧
      (∃ x, u.pl.stopAt = some x ∧ x ≤ s.cyc + 16) ∧
      FaultLogged code (srcOf 1 t.val) ((tctl s t).pc % 2 ^ 15) (0x04 * 2 ^ 56 + f.toNat) s u

/-! ## The Hedge -/

/-- The issue of HMM and HMS (R60, R72, R74, R178, R180). -/
def Claim.ProductsBegin : Prop :=
  (∀ (t : Tile) (f : Fields) (s : State), Issues { t := t, opc := 0x40, f := f, reads := hmmReads f } (hmmCheck t f) s →
    let (_, _, x, q) := hmmPlan s t f
    Answers (.hmm t f) s fun u => ProductBegun (hmmProduct s t f) x q s u) ∧
  (∀ (t : Tile) (f : Fields) (s : State), Issues { t := t, opc := 0x41, f := f, reads := hmsReads f } (hmsCheck t f) s →
    let (_, x, q) := hmsPlan s t f
    Answers (.hms t f) s fun u => ProductBegun (hmsProduct s t f) x q s u)

/-- The end of a product (R60-R63, R70, R79-R85, R92-R98, R177, R178): at the end of the cycle of its last read each kept cell
takes its word, and on s + 13 + C the flags of the kept cells accrue. -/
def Claim.ProductsEnd : Prop :=
  (∀ (x : Product) (s : State), OnlyBeats { prods := [x] } s → Quiet s → x.fl = none →
    s.cyc + 1 = x.start + x.c →
    let bank := (hInstr x.ctl).bank
    let u := beatsOf s
    (∀ i, i < 65536 → faGet u x.tile bank i = if prodKeeps x i then (prodCell s x i).1 else faGet s x.tile bank i) ∧
    OtherBanks x.tile bank s u ∧
    OnlyBeats { prods := [{ x with fl := some (flAll (tabulate 65536 fun i => if prodKeeps x i then (prodCell s x i).2 else 0)) }] } u ∧
    u = { s with fresh := u.fresh, pl := { s.pl with fas := u.pl.fas, prods := u.pl.prods } }) ∧
  (∀ (x : Product) (f : Flags) (s : State), OnlyBeats { prods := [x] } s → Quiet s → x.fl = some f → x.start + x.c + 13 = s.cyc →
    let u := beatsOf s
    FlagsAre x.tile f s u ∧ OtherTiles x.tile s u ∧ OnlyBeats {} u ∧
    u = { s with pl := { s.pl with tiles := u.pl.tiles, prods := [] } })

/-- HMM and HMS (R60-R63, R69, R70, R79-R85, R92-R98, R177-R181). At issue the input is held for C TCLK, the bank from s + 14, and
with DRN the drain will begin on its cycle and holds the drain path; no register, accumulator, byte or other tile changes. When
the last operand has been read, each cell of the bank that the mask keeps takes the word that the product gives it, from the cell
of before or from zero; cells that the mask leaves out, and every other bank, keep their words; the flags of the kept cells accrue
with the last promotion. The model's choices in it: log entries 12, 13, 20, 22, 150, 151, 154. -/
def Obligations.HedgeProducts : Prop := Claim.ProductsBegin ∧ Claim.ProductsEnd

/-- HDRN, and the row that begins a drain (R71-R73). -/
def Claim.DrainsBegin : Prop :=
  (∀ (t : Tile) (f : Fields) (s : State),
    Issues { t := t, opc := 0x42, f := f, reads := outReads (hInstr f) } (hdrnCheck t f) s →
    let q := drainReq s t f (hInstr f) none false
    let n := (drainTimes (hInstr f) q (s.cyc + 4)).2
    Answers (.hdrn t f) s fun u =>
      (s.cyc + 4, .drain t q) ∈ u.agenda ∧
      ⟨.drainPath t, s.cyc + 4, s.cyc + 4 + n, s.cyc⟩ ∈ u.pl.ivals ∧
      ⟨.hedgeBank t (hInstr f).bank, s.cyc + 4, s.cyc + 4 + n, s.cyc⟩ ∈ u.pl.ivals ∧
      u.pl.prods = s.pl.prods ∧ HedgeFrame t s u) ∧
  (∀ (t : Tile) (q : DrainReq) (s : State),
    Answers (.drain t q) s fun u =>
      u.pl.drains = s.pl.drains ++ [{ tile := t, req := q, start := s.cyc, who := s.fresh, sup := drainSup s t q }] ∧
      OtherPlanes s u ∧ BytesSame s u ∧
      u.pl = { s.pl with drains := u.pl.drains, stopAt := u.pl.stopAt, segErr := u.pl.segErr })

/-- Each cycle of a drain (R59, R72, R73, R76, R78, R179): the cells of the cycle are converted and written on it; the last
cycle accrues the flags and the non-finite summary. -/
def Claim.DrainCycles : Prop :=
  ∀ (x : DrainRun) (s : State), OnlyBeats { drains := [x] } s → Quiet s → x.start ≤ s.cyc →
    let o := drainBeat s x
    let u := beatsOf s
    u.pl.pw = s.pl.pw ++ o.ws ∧ BytesOutside (fun a => ∃ w ∈ o.ws, w.addr = a) s u ∧ OtherTiles x.tile s u ∧
    u = { s with fresh := u.fresh, pl := { s.pl with pw := u.pl.pw, drains := u.pl.drains, tiles := u.pl.tiles } } ∧
    (s.cyc + 1 < x.start + drainLen x.req →
      OnlyBeats { drains := [{ x with fl := x.fl ||| o.fl, elems := x.elems ++ o.elems, ffs := x.ffs ++ o.ffs }] } u ∧
      tctl u x.tile = tctl s x.tile) ∧
    (s.cyc + 1 = x.start + drainLen x.req →
      let sum := nfSummary (x.elems ++ o.elems) (x.ffs ++ o.ffs)
      OnlyBeats {} u ∧ (tctl u x.tile).flags = (tctl s x.tile).flags ||| (x.fl ||| o.fl) ∧
      (tctl u x.tile).nfb = satAdd (tctl s x.tile).nfb sum.1 ∧
      (sum.2 = none → (tctl u x.tile).nff = (tctl s x.tile).nff) ∧
      (∀ i, sum.2 = some i → (tctl s x.tile).nff = none → (tctl u x.tile).nff = some (x.req.issue, i)))

/-- HDRN and DRAIN (R59, R67, R71-R78). HDRN holds the bank and the drain path and begins its drain on t + 4. A drain leaves the
bank as it was; each of its cycles converts its cells, with the fused operand as it reads on that cycle, and puts them under
way; at its end the flags and the non-finite summary are accrued. The model's choices in it: log entries 11, 12, 13, 21. -/
def Obligations.HedgeDrains : Prop := Claim.DrainsBegin ∧ Claim.DrainCycles

/-- The issue of HTREE (R103, R159, R160): the last participant of a complete set that asks alike begins the reduction, which holds
its intervals from s + 4; any other is recorded. No accumulator changes. -/
def Claim.TreeBegins : Prop :=
  ∀ (t : Tile) (f : Fields) (s : State), Issues { t := t, opc := 0x43, f := f, enc := fld f 51 0 = 0 } noCheck s →
    let e := treeEntry s t f
    let q := s.pl.treeq ++ [e]
    let root := tileOf (treeRoot e)
    Answers (.htree t f) s fun u =>
      OtherPlanes s u ∧ NextWord t s u ∧ (∀ x, x ≠ t → x ≠ root → tctl u x = tctl s x) ∧ ScalarsSame s u ∧
      VectorsSame s u ∧ MasksSame s u ∧ AccsSame s u ∧ CodeSame s u ∧ BytesSame s u ∧
      (treeClash q e = false → (treeSet q e).length = 2 ^ treeN e → treeFault s (treeSet q e) = none →
        u.pl.trees = s.pl.trees ++ [treeRun e] ∧
        (∀ x ∈ treeTiles e, ⟨.treePath x, s.cyc + 4, s.cyc + 132 + 9 * treeN e, s.cyc⟩ ∈ u.pl.ivals ∧
          ⟨.drainPath x, s.cyc + 4, s.cyc + 132, s.cyc⟩ ∈ u.pl.ivals ∧
          ⟨.hedgeBank x e.src, s.cyc + 4, s.cyc + 132, s.cyc⟩ ∈ u.pl.ivals) ∧
        ⟨.hedgeBank root e.dst, s.cyc + 4, s.cyc + 132 + 9 * treeN e, s.cyc⟩ ∈ u.pl.ivals) ∧
      (treeClash q e = true ∨ (treeSet q e).length ≠ 2 ^ treeN e →
        u.pl.treeq = q ∧ u.pl.trees = s.pl.trees ∧ u.pl.ivals = s.pl.ivals ∧ FlagsAre t 0 s u)

/-- The cycles of a reduction of 2^n tiles (R102, R103): on s + 4 to s + 131 the words of one group of 512 cells are summed along the
fixed tree; each group reaches the root's destination bank 9 n TCLK after it was read, and the reduction is over with the last. -/
def Claim.TreeCycles : Prop :=
  ∀ (x : TreeRun) (s : State), OnlyBeats { trees := [x] } s → Quiet s → x.start ≤ s.cyc → s.cyc ≤ x.start + 131 + 9 * x.n →
    let root := tileOf x.root
    let g := s.cyc - (x.start + 4)
    let word := fun i => treeWord s x.src (512 * g + i) x.n x.root
    let got := if x.start + 4 ≤ s.cyc ∧ g < 128 then
        x.got ++ [(tabulate 512 fun i => (word i).1, flAll (tabulate 512 fun i => (word i).2))] else x.got
    let u := beatsOf s
    u = { s with pl := { s.pl with fas := u.pl.fas, tiles := u.pl.tiles, trees := u.pl.trees } } ∧
    (s.cyc < x.start + 4 + 9 * x.n → AccsSame s u ∧ u.pl.tiles = s.pl.tiles ∧ u.pl.trees = [{ x with got := got }]) ∧
    (x.start + 4 + 9 * x.n ≤ s.cyc → ∀ y r, got = y :: r →
      let lo := 512 * (g - 9 * x.n)
      (∀ i, i < 65536 → faGet u root x.dst i = if lo ≤ i ∧ i < lo + 512 then y.1.getD (i - lo) {} else faGet s root x.dst i) ∧
      OtherBanks root x.dst s u ∧ FlagsAre root y.2 s u ∧ OtherTiles root s u ∧
      u.pl.trees = if s.cyc = x.start + 131 + 9 * x.n then [] else [{ x with got := r }])

/-- HTREE (R102, R103, R159, R160): its issue, and the cycles of the reduction. The model's choices in it: log entries 28, 29. -/
def Obligations.TreeReduction : Prop := Claim.TreeBegins ∧ Claim.TreeCycles

/-! ## The Verge -/

/-- Elements a cycle of a floating-point instruction (R118, R124). -/
def Claim.floatRate (q : VArith) : Nat := if q.pr = 0 then 512 else 1024
/-- Elements a cycle of every other one that reads all its elements (R124). -/
def Claim.wordRate (_ : VArith) : Nat := 512

/-- Element-wise floating-point instructions (R115-R119, R132, R133, Tables 5.3, 5.5, 5.6). -/
def Claim.VergeFloat : Prop :=
  let op := fun (c : Tile → Fields → Instr) (opc lat : Nat) (useB useC : Bool) (g : Val → Val → Val → FnRes) =>
    VectorOp c opc (vFloatDecl opc lat useB useC) Claim.floatRate lat 1 (vFloatElem useB useC g)
  op .vadd 0x50 11 true false (fun a b _ => asRes (sumVal a b)) ∧
  op .vsub 0x51 11 true false (fun a b _ => asRes (sumVal a (negVal b))) ∧
  op .vmul 0x52 11 true false (fun a b _ => asRes (mulVal a b)) ∧
  op .vfma 0x53 11 true true fmaRes ∧ op .vfnma 0x54 11 true true (fun a b c => fmaRes (negVal a) b c) ∧
  op .vmax 0x55 11 true false (fun a b _ => pick true a b) ∧ op .vmin 0x56 11 true false (fun a b _ => pick false a b) ∧
  op .vabs 0x57 11 false false (fun a _ _ => .val (absVal a) 0) ∧
  op .vneg 0x58 11 false false (fun a _ _ => .val (negVal a) 0) ∧ op .vdiv 0x59 19 true false (fun a b _ => divRes a b)

/-- The Verge's functions of one operand (R120, R138, Table 5.6). -/
def Claim.VergeFunctions : Prop :=
  let fn := fun (c : Tile → Fields → Instr) (opc : Nat) (x : Fn) =>
    VectorOp c opc (vFloatDecl opc 19 false false) Claim.floatRate 19 1 (vFloatElem false false fun a _ _ => fnRes x a)
  fn .vexp 0x60 .exp ∧ fn .vexp2 0x61 .exp2 ∧ fn .vlog 0x62 .log ∧ fn .vlog2 0x63 .log2 ∧ fn .vrcp 0x64 .rcp ∧
  fn .vrsq 0x65 .rsq ∧ fn .vsqrt 0x66 .sqrt ∧ fn .vtanh 0x67 .tanh ∧ fn .vsigm 0x68 .sigm

/-- Element-wise instructions on bits and on i32 words (Tables 5.3, 5.5). -/
def Claim.VergeBits : Prop :=
  let op := fun (c : Tile → Fields → Instr) (opc : Nat) (g : W32 → W32 → W32) =>
    VectorOp c opc (vBitsDecl opc true true) Claim.wordRate 11 1 (fun t q s k => ([g (vGet s t q.va k) (vB s t q k)], 0))
  VectorOp .vmov 0x5A (vBitsDecl 0x5A false true) Claim.wordRate 11 1 (fun t q s k => ([vB s t q k], 0)) ∧
  op .vaddi 0x80 (fun a b => a + b) ∧ op .vsubi 0x81 (fun a b => a - b) ∧ op .vmuli 0x82 (fun a b => a * b) ∧
  op .vmaxi 0x83 (fun a b => if a.toInt < b.toInt then b else a) ∧
  op .vmini 0x84 (fun a b => if b.toInt < a.toInt then b else a) ∧
  op .vand 0x85 (fun a b => a &&& b) ∧ op .vor 0x86 (fun a b => a ||| b) ∧ op .vxor 0x87 (fun a b => a ^^^ b) ∧
  op .vshl 0x88 (fun a b => a <<< (b.toNat % 32)) ∧ op .vsra 0x89 (fun a b => a.sshiftRight (b.toNat % 32)) ∧
  op .vsrl 0x8A (fun a b => a >>> (b.toNat % 32))

/-- Conversions, random words and the pieces of the split modes (R119, R128, R134-R137, Table 5.5). -/
def Claim.VergeConversions : Prop :=
  VectorOp .vf2i 0x8B (vBitsDecl 0x8B true false) Claim.wordRate 11 1 (fun t q s k =>
    let (x, f) := f2i (rndOf q.rnd) (vGet s t q.va k); ([x], f)) ∧
  VectorOp .vi2f 0x8C (vBitsDecl 0x8C true false) Claim.wordRate 11 1 (fun t q s k =>
    let (x, f) := toF32 (rndOf q.rnd) (intVal (vGet s t q.va k).toInt 0); ([x], f)) ∧
  VectorOp .vcvt 0x5B vcvtDecl Claim.wordRate 11 1 vcvtElem ∧ VectorOp .vrng 0x9B vrngDecl Claim.wordRate 19 1 vrngElem ∧
  VectorOp .vspl3 0x98 vspl3Decl Claim.wordRate 11 3 (fun t q s k => split3 (vGet s t q.va k)) ∧
  VectorOp .vilog64 0x99 vilog64Decl (fun _ => 256) 11 1 vilog64Elem ∧
  VectorOp .vslc64 0x9A vslc64Decl (fun _ => 256) 11 7 (fun t q s k => slice64 (vPair s t q.va k) (vB s t q k).toInt)

/-- Reductions into a scalar register (R111, R112, R130): visible from s + I + 18; VMPOP from s + 11. -/
def Claim.VergeScalarReductions : Prop :=
  ReduceOp .vrsum 0x70 (vReduceDecl 0x70 false) vrsumVal ∧ ReduceOp .vrmax 0x71 (vReduceDecl 0x71 false) (vrbestVal true) ∧
  ReduceOp .vrmin 0x72 (vReduceDecl 0x72 false) (vrbestVal false) ∧ ReduceOp .vrdot 0x73 (vReduceDecl 0x73 true) vrdotVal ∧
  ReduceOp .vmpop 0x93 vmpopDecl (fun t s q =>
    (BitVec.ofNat 32 ((List.range q.n).filter fun k => vOn s t q k && mGet s t q.va k).length, 0, 0)) ∧
  (∀ (t : Tile) (f : Fields) (s : State) (opc : Nat) (useB : Bool),
    (vReduceDecl opc useB t f s).swrite = some ((vArith f).vd, s.cyc + ceilDiv (vArith f).n 512 + 18) ∧
    (vmpopDecl t f s).swrite = some ((vArith f).vd, s.cyc + 11))

/-- What a beat keeps of a vector operand (R124, R130): the elements of its cycle, as they read on it. -/
def Claim.BeatKeeps : Prop :=
  ∀ (x : VRun) (p : VPend) (s : State), x.reads = [p] → p.isMask = false → p.mul = 1 → 0 < p.rate → p.base ≤ s.cyc →
    p.reg < 32 → p.n ≤ 4096 →
    let lo := (s.cyc - p.base) * p.rate
    ∀ v k, v < 32 → k < 4096 →
      vGet (vCaught (vCapture x s) s) p.tile v k =
        if v = p.reg ∧ lo ≤ k ∧ k < min p.n (lo + p.rate) then vGet s p.tile v k else vGet (vCaught x s) p.tile v k

/-- Row instructions (R131): element r of each destination takes the result of row r of Lr elements. -/
def Claim.VergeRows : Prop :=
  RowOp .vrowsum 0x74 (vRowsDecl 0x74 1 false false) 1 rowSum ∧
  RowOp .vrowmax 0x75 (vRowsDecl 0x75 2 false false) 2 (rowBest true) ∧
  RowOp .vrowmin 0x76 (vRowsDecl 0x76 2 false false) 2 (rowBest false) ∧
  RowOp .vrowdot 0x77 (vRowsDecl 0x77 1 true false) 1 rowDot ∧
  RowOp .vrowdot2 0x78 (vRowsDecl 0x78 2 true true) 2 rowDot2 ∧ RowOp .vrowsq2 0x79 (vRowsDecl 0x79 2 false false) 2 rowSq2

/-- Reductions of a vector and of its rows (R111, R112, R124, R130, R131). The model's choices in it: log entries 12, 13. -/
def Obligations.VergeReductions : Prop := Claim.VergeScalarReductions ∧ Claim.BeatKeeps ∧ Claim.VergeRows

/-- Comparisons and mask logic (Tables 5.3, 5.5). -/
def Claim.VergeMasks : Prop :=
  MaskOp .vcmp 0x90 (vCompareDecl 0x90 4) 512 (fun t q s k => cmpF q.vc (vGet s t q.va k) (vB s t q k)) ∧
  MaskOp .vcmpi 0x91 (vCompareDecl 0x91 3) 512 (fun t q s k => (cmpI q.vc (vGet s t q.va k) (vB s t q k), 0)) ∧
  MaskOp .vmlog 0x92 vmlogDecl 4096 (fun t q s k => (mlog q.vc (mGet s t q.va k) (mGet s t q.vb k), 0))

/-- Results reach their register on the cycle from which they are visible (R116, R124): each element named takes its word, none
keeps the element, and every other element of every register is as before. -/
def Claim.VergeLands : Prop :=
  ∀ (w : VWrite) (later : List VWrite) (s : State), s.pl.vwrites = w :: later → w.vis ≤ s.cyc → (∀ x ∈ later, s.cyc < x.vis) →
    w.first + w.vals.length ≤ 4096 →
    let u := landVerge s
    let hit := fun v k => v = w.reg ∧ w.first ≤ k ∧ k < w.first + w.vals.length
    u = { s with pl := { s.pl with vregs := u.pl.vregs, masks := u.pl.masks, vwrites := later } } ∧
    (w.isMask = false → w.reg < 32 → u.pl.masks = s.pl.masks ∧ ∀ t v k, v < 32 → k < 4096 →
      vGet u t v k = if t = w.tile ∧ hit v k then (w.vals.getD (k - w.first) none).getD (vGet s t v k) else vGet s t v k) ∧
    (w.isMask = true → w.reg < 8 → u.pl.vregs = s.pl.vregs ∧ ∀ t v k, v < 8 → k < 4096 →
      mGet u t v k = if t = w.tile ∧ hit v k then
        (match w.vals.getD (k - w.first) none with | some x => decide (x ≠ 0) | none => mGet s t v k) else mGet s t v k)

/-- Every element-wise Verge instruction, with vector and with mask destinations, from issue to its results (R115-R120, R124,
R128, R132-R138). The model's choices in it: log entries 12, 13, 23, 25, 26, 27, 155. -/
def Obligations.VergeElementwise : Prop :=
  Claim.VergeFloat ∧ Claim.VergeFunctions ∧ Claim.VergeBits ∧ Claim.VergeConversions ∧ Claim.VergeMasks ∧ Claim.VergeLands

/-- VMAX and VMIN (R133): with x and y the operands in the instruction's precision, the result is the canonical quiet NaN when
either is NaN, else the one that the order −∞ < negative values < −0 < +0 < positive values < +∞ prefers. -/
def Claim.MaxMin : Prop :=
  ∀ (isMax : Bool) (t : Tile) (q : VArith) (s : State) (k : Nat), q.pr ≤ 2 →
    let a := (prIn q.pr (vGet s t q.va k)).1
    let b := (prIn q.pr (vB s t q k)).1
    let x := (toF32 .rne a).1
    let y := (toF32 .rne b).1
    let below := fun (x y : W32) => (x.msb = true ∧ y.msb = false) ∨ (x.msb = false ∧ y.msb = false ∧ x.toNat < y.toNat) ∨
      (x.msb = true ∧ y.msb = true ∧ y.toNat < x.toNat)
    let r := (vFloatElem true false (fun a b _ => pick isMax a b) t q s k).1
    (a.isNan = true ∨ b.isNan = true → r = [0x7FC00000]) ∧
    (a.isNan = false → b.isNan = false →
      (isMax = true → (below x y → r = [y]) ∧ (¬ below x y → r = [x])) ∧
      (isMax = false → (below y x → r = [y]) ∧ (¬ below y x → r = [x])))

/-- VILOG64 (R135): floor(log2 |x|) of a finite nonzero binary64 x, subnormals included, which lies from −1074 to 1023; −1074 for
a zero; 32,765 for a NaN or an infinity; and no flag. Here m and e are the significand and the exponent, |x| = m · 2^e. -/
def Claim.Exponents : Prop :=
  ∀ (t : Tile) (q : VArith) (s : State) (k : Nat),
    let lo := (vGet s t q.va k).toNat
    let hi := (vGet s t (q.va + 1) k).toNat
    let expo := hi / 2 ^ 20 % 2048
    let frac := hi % 2 ^ 20 * 2 ^ 32 + lo
    let m := if expo = 0 then frac else frac + 2 ^ 52
    let e : Int := (max expo 1 : Nat) - 1075
    (vilog64Elem t q s k).2 = 0 ∧
    (expo = 2047 → (vilog64Elem t q s k).1 = [BitVec.ofInt 32 32765]) ∧
    (expo < 2047 → m = 0 → (vilog64Elem t q s k).1 = [BitVec.ofInt 32 (-1074)]) ∧
    (expo < 2047 → m ≠ 0 → ∃ j : Nat, 2 ^ j ≤ m ∧ m < 2 ^ (j + 1) ∧ -1074 ≤ e + j ∧ e + j ≤ 1023 ∧
      (vilog64Elem t q s k).1 = [BitVec.ofInt 32 (e + j)])

/-- The order of VMAX and VMIN, and the exponents of VILOG64 (R133, R135). -/
def Obligations.VergeOrder : Prop := Claim.MaxMin ∧ Claim.Exponents

/-- Loads of vector and mask registers (R41, R124, R126-R128): what the ports deliver on the cycle of each element, visible 6 TCLK
later. -/
def Claim.VergeLoads : Prop :=
  VBegins .vld vldDecl ∧ VBegins .vldm vldmDecl ∧
  (∀ (x : VRun) (s : State), VTurn 0xA0 x s → Quiet s →
    let q := vXfer x.ctl
    let v := vView x s
    let g := vGeo v x.tile q
    let lo := (s.cyc - x.start) * g.rf
    let n := min g.rf (q.n - lo)
    let on := fun k => xOn v x.tile q (lo + k)
    let off := if q.zm then some 0 else none
    let u := beatsOf s
    (q.wid ≠ 1 →
      u.pl.vwrites = s.pl.vwrites ++ [⟨x.tile, false, q.vr, lo, s.cyc + 6, tabulate n fun k =>
        if on k then some (vldElem v x.tile q g (lo + k)).1 else off⟩] ∧
      VBeat x x (flAll (tabulate n fun k => if on k then (vldElem v x.tile q g (lo + k)).2 else 0)) s u) ∧
    (q.wid = 1 →
      let half := fun b => tabulate n fun k =>
        if on k then some (BitVec.ofNat 32 (vldPair v x.tile g (lo + k) / 2 ^ b)) else off
      u.pl.vwrites = s.pl.vwrites ++ [⟨x.tile, false, q.vr, lo, s.cyc + 6, half 0⟩,
        ⟨x.tile, false, q.vr + 1, lo, s.cyc + 6, half 32⟩] ∧ VBeat x x 0 s u) ∧
    u.pl.sregs = s.pl.sregs ∧ u.pl.pw = s.pl.pw) ∧
  (∀ (x : VRun) (s : State), VTurn 0xA3 x s → Quiet s →
    let q := vXfer x.ctl
    let v := vView x s
    let bit := fun k => bitOf (lsByte v x.tile .mainRead x.start
      ((lsDesc (sreg v x.tile q.sd)).base + (maskE0 v x.tile q + k) / 8)).toNat ((maskE0 v x.tile q + k) % 8)
    let u := beatsOf s
    u.pl.vwrites = s.pl.vwrites ++ [⟨x.tile, true, q.vr, 0, s.cyc + 6, tabulate q.n fun k => some (if bit k then 1 else 0)⟩] ∧
    VBeat x x 0 s u ∧ u.pl.sregs = s.pl.sregs ∧ u.pl.pw = s.pl.pw)

/-- The beat of a VST: elements of a format without blocks, whole blocks of an MX format, or one element of each block. -/
def Claim.stored (x : VRun) (s : State) : VRun × StBeat :=
  let q := vXfer x.ctl
  let v := vView x s
  let g := vstGeo v x.tile q
  let lo := (s.cyc - x.start) * g.rf
  let n := min g.rf (q.n - lo)
  if fmtIsMx g.d.fmt then (if q.bax then vstCols v x.tile q g x lo n else (x, vstRows v x.tile q g lo n))
  else (x, vstFlat v x.tile q g lo n)

/-- Stores of vector and mask registers (R59, R126-R129, R464). A VST keeps what its end will accrue; with its last beat the flags
of rounding and the non-finite summary accrue. -/
def Claim.VergeStores : Prop :=
  VBegins .vst vstDecl ∧
  (∀ (x : VRun) (s : State), VTurn 0xA1 x s → Quiet s →
    let (y, o) := Claim.stored x s
    let z := { y with elems := y.elems ++ o.elems, ffs := y.ffs ++ o.ffs }
    let u := beatsOf s
    u.pl.pw = s.pl.pw ++ o.ws ∧ BytesOutside (fun a => ∃ w ∈ o.ws, w.addr = a) s u ∧ OtherTiles x.tile s u ∧
    u = { s with fresh := u.fresh, pl := { s.pl with tiles := u.pl.tiles, vruns := u.pl.vruns, pw := u.pl.pw } } ∧
    (vLast x s = false → VBeat x z o.fl s u) ∧
    (vLast x s = true →
      let q := vXfer x.ctl
      let e := vstEnd (vstGeo (vView x s) x.tile q) q.n z
      let sum := nfSummary z.elems (z.ffs ++ e.2)
      u.pl.vruns = [] ∧ (tctl u x.tile).flags = (tctl s x.tile).flags ||| o.fl ||| e.1 ∧
      (tctl u x.tile).nfb = satAdd (tctl s x.tile).nfb sum.1 ∧
      (sum.2 = none → (tctl u x.tile).nff = (tctl s x.tile).nff) ∧
      (∀ i, sum.2 = some i → (tctl s x.tile).nff = none → (tctl u x.tile).nff = some (x.start, i)))) ∧
  StoreOp .vsti 0xA2 vstiDecl
    (fun x s => let q := vXfer x.ctl; let v := vView x s; let g := vstiGeo v x.tile q
      (vstiKs v x.tile q ((s.cyc - x.start) * g.rf) (min g.rf (q.n - (s.cyc - x.start) * g.rf))).flatMap fun k =>
        vstWrite x.tile g x.who (s.cyc + 6) k (vstiElem v x.tile q k).1)
    (fun x s => let q := vXfer x.ctl; let v := vView x s; let g := vstiGeo v x.tile q
      flAll ((vstiKs v x.tile q ((s.cyc - x.start) * g.rf) (min g.rf (q.n - (s.cyc - x.start) * g.rf))).map fun k =>
        (vstiElem v x.tile q k).2)) ∧
  StoreOp .vstm 0xA4 vstmDecl (fun x s => vstmWrites (vView x s) x.tile (vXfer x.ctl)) (fun _ _ => 0)

/-- The Verge's transfer path (R41, R126-R129, R464). The model's choices in it: log entries 12, 13, 24, 156, 157. -/
def Obligations.VergeTransfers : Prop := Claim.VergeLoads ∧ Claim.VergeStores

/-! ## The tile mover, the Layby and the NRUs -/

/-- The issue of MVH.LD, MVH.ST and MVT (R151-R153, R235, R236, Tables 6.4, 8.3). -/
def Claim.TransfersBegin : Prop :=
  (∀ (t : Tile) (f : Fields) (s : State),
    let q := mvF f
    let (d, z, a) := mvArgs s t f
    Issues (mvReq t 0x20 f (mvRegs f)) (mvhIssue t f d z a (some 188)) s →
    Answers (.mvhLd t f) s fun u =>
      ReadBegun t (sreg s t q.sl) (sreg s t q.sn) a s u ∧
      ChannelHeld t (beats z.len) (some (t, s.cyc + 188)) s u ∧ FramesHeld t a z.len s u) ∧
  (∀ (t : Tile) (f : Fields) (s : State),
    let q := mvF f
    let (d, z, a) := mvArgs s t f
    Issues (mvReq t 0x21 f (mvRegs f)) (mvhIssue t f d z a none) s →
    Answers (.mvhSt t f) s fun u =>
      FlowBegun t (sreg s t q.sl) (sreg s t q.sn) (.hbm a) s u ∧
      ChannelHeld t (beats z.len) none s u ∧ FramesHeld t a z.len s u) ∧
  (∀ (t : Tile) (f : Fields) (s : State),
    let x := mvtArgs s t f
    let q := mvF f
    Issues (mvReq t 0x22 f [q.sl, q.sn, q.sx]) (mvtCheck t f x) s → mvtClash s t x = [] →
    Answers (.mvt t f) s fun u =>
      let r := s.cyc + (if tileDie t = tileDie x.g then 40 else if (tileDie t).val / 2 = (tileDie x.g).val / 2 then 112
        else 160)
      FlowBegun t (sreg s t q.sl) (sreg s t q.sn) (.tile x.g x.o (r - s.cyc)) s u ∧
      ChannelHeld t (beats x.z.len) (some (x.g, r)) s u)

/-- One beat of a mover instruction (R153, R154, R157, R199, R264, Table 6.4): the bytes of the beat are read from local store on
their cycle. A store to HBM puts them under way there, an MVT to the destination tile, where they are written F cycles later; an
ADD operation has its data after two beats; a system-channel write sends its lines as Places after its last beat. -/
def Claim.Beats : Prop :=
  ∀ (x : Flow) (s : State), OnlyBeats { flows := [x] } s → x.start ≤ s.cyc →
    let j := s.cyc - x.start
    let z := shapeOf x.shape
    let bs := flowRead s x
    let u := beatsOf s
    bs.length = min (flowRate x) (z.len - j * flowRate x) ∧
    (∀ i, i < bs.length →
      bs.getD i 0 = lsByte s x.tile .mainRead s.cyc (localOff (lsDesc x.ldesc) z (j * flowRate x + i))) ∧
    u = { s with fresh := u.fresh, agenda := u.agenda, coh := { s.coh with txns := u.coh.txns },
                 pl := { s.pl with pw := u.pl.pw, flows := u.pl.flows, xfers := u.pl.xfers } } ∧
    (z.len ≤ (j + 1) * flowRate x → u.pl.flows = []) ∧
    ((j + 1) * flowRate x < z.len → ∃ got, u.pl.flows = [{ x with got := got }]) ∧
    ((∀ a land, x.dst ≠ .sys a land) → u.coh = s.coh ∧ u.pl.xfers = s.pl.xfers) ∧
    (∀ a, x.dst = .hbm a → u.agenda = s.agenda ∧ ∃ ws, u.pl.pw = s.pl.pw ++ ws ∧ ws.length = bs.length ∧
      ∀ i, i < bs.length → ws[i]? = some ⟨2 * framePos x.start + 2 * ((256 * j + i) / 512), x.start + beats z.len + 188,
        a + (256 * j + i), bs.getD i 0, 0xFF, x.who, 0⟩) ∧
    (∀ g o f, x.dst = .tile g o f → u.agenda = s.agenda ∧ ∃ ws, u.pl.pw = s.pl.pw ++ ws ∧ ws.length = bs.length ∧
      ∀ i, i < bs.length → ws[i]? = some ⟨x.start + f + j, x.start + f + j + 1, lsBase g + o + (256 * j + i), bs.getD i 0,
        0xFF, x.who, 1⟩) ∧
    (∀ a land, x.dst = .sys a land → u.pl.pw = s.pl.pw ∧ ((j + 1) * 256 < z.len → u.agenda = s.agenda) ∧
      (z.len ≤ (j + 1) * 256 → ∀ i, i < (x.got ++ bs).length / 64 → (land, .place (modulePort x.tile) ⟨addrLine (a + 64 * i), s.coh.txns + i⟩ ⟨bytesLine (((x.got ++ bs).drop (64 * i)).take 64), false⟩) ∈ u.agenda)) ∧
    (∀ k off m, x.dst = .nru k off m → u.pl.pw = s.pl.pw ∧ (j % 2 = 0 → u.agenda = s.agenda) ∧
      (j % 2 = 1 → ∀ p : NruPkt, p.off = off + j / 2 * nruEps m * nruB m → p.tile = x.tile →
        (x.start + 64 + 2 * (j / 2), .nruAdd k p) ∈ s.agenda →
        let data := tabulate p.n fun e => BitVec.ofNat 32 (leField (x.got ++ bs) (4 * e) 4)
        (x.start + 64 + 2 * (j / 2), .nruAdd k { p with data := data }) ∈ u.agenda))

/-- The positions of a read of HBM (R199, R235): on each, 512 bytes get under way to the local store, where they stand two beats a
position from s + 188 on. -/
def Claim.ReadBeats : Prop :=
  ∀ (x : HbmRead) (s : State), OnlyBeats { hreads := [x] } s → s.cyc % 2 = 0 → framePos x.start ≤ s.cyc / 2 →
    let i := s.cyc / 2 - framePos x.start
    let u := beatsOf s
    (∃ ws, u.pl.pw = s.pl.pw ++ ws ∧ ws.length = min 512 (x.bytes.length - 512 * i) ∧
      ∀ k, k < ws.length → ws[k]? = some ⟨x.start + 188 + 2 * i + k / 256, x.start + 188 + 2 * i + k / 256 + 1,
        lsBase x.tile + localOff (lsDesc x.ldesc) (shapeOf x.shape) (512 * i + k), x.bytes.getD (512 * i + k) 0, 0xFF, x.who, 1⟩) ∧
    u.pl.hreads = (if x.bytes.length ≤ 512 * (i + 1) then [] else [x]) ∧
    u = { s with pl := { s.pl with pw := u.pl.pw, hreads := u.pl.hreads } }

/-- MVH.LD, MVH.ST and MVT (R151-R153, R199, R235, R236, Tables 6.4, 8.3). A load holds the HBM bytes that tensor reads of cycle s
see and brings them to the local store from s + 188; a store and an MVT begin to read their local store, and each beat of theirs
puts its bytes under way, to HBM or to the destination tile from s + 40, 112 or 160 by distance. The tensor channel is held for
one cycle a beat, the return interval at the tile that receives, and HBM transfers hold their share of the frames. Every byte
elsewhere, every register and the other tiles are unchanged. The model's choices in it: log entries 12, 30, 32, 158, 163. -/
def Obligations.MoverTransfers : Prop := Claim.TransfersBegin ∧ Claim.Beats ∧ Claim.ReadBeats

/-- NADD, NRD and NCLR (R152-R154, R199): operation p of an instruction arrives at the NRU on s + 64 + 2p, and at issue
no byte changes; an NADD begins to read the data of its operations. -/
def Claim.NruIssue : Prop :=
  (∀ (t : Tile) (f : Fields) (s : State),
    let q := mvF f
    let (d, z, a) := mvArgs s t f
    let g := nruGeo s z a 4
    let eps := nruEps g.mode
    Issues (mvReq t 0x23 f (mvRegs f)) (nruCheck t z a g (mvForm f false false false false false && localOk d z) none) s →
    Answers (.nadd t f) s fun u =>
      (∀ p, p < nruP g → (s.cyc + 64 + 2 * p, .nruAdd (nruIdOf g.u)
        { off := g.off + p * eps * nruB g.mode, n := min eps (g.n - p * eps), data := [], tile := t }) ∈ u.agenda) ∧
      ChannelHeld t (2 * nruP g) none s u ∧
      FlowBegun t (sreg s t q.sl) (sreg s t q.sn) (.nru (nruIdOf g.u) g.off g.mode) s u) ∧
  (∀ (t : Tile) (f : Fields) (s : State),
    let q := mvF f
    let (d, z, a) := mvArgs s t f
    let g := nruGeo s z a (if q.fmt = 1 then 2 else 4)
    let eps := nruEps g.mode
    Issues (mvReq t 0x24 f (mvRegs f ++ if q.rnd = 2 then [q.sx, q.sx + 1] else []))
      (nruCheck t z a g (mvForm f false true false true false && q.fmt ≤ 1 && q.rnd ≠ 3 && !(q.rnd = 2 && q.sx = 63) &&
        localOk d z) (some 208)) s →
    Answers (.nrd t f) s fun u =>
      (∀ p, p < nruP g → (s.cyc + 64 + 2 * p, .nruRead (nruIdOf g.u)
        { off := g.off + p * eps * nruB g.mode, n := min eps (g.n - p * eps), tile := t, first := p * eps,
          fmt := BitVec.ofNat 4 q.fmt, rnd := BitVec.ofNat 2 q.rnd, clr := q.clr, seed := sreg s t q.sx,
          base := sreg s t (q.sx + 1), ldesc := sreg s t q.sl, shape := sreg s t q.sn, issue := s.cyc }) ∈ u.agenda) ∧
      ChannelHeld t (2 * nruP g) (some (t, s.cyc + 208)) s u ∧ u.pl.flows = s.pl.flows ∧ MoverFrame t s u) ∧
  (∀ (t : Tile) (f : Fields) (s : State),
    let q := mvF f
    let z := shapeOf (sreg s t q.sn)
    let a := remoteOf (sreg s t q.sa)
    let g := nruGeo s z a 4
    let eps := nruEps g.mode
    Issues (mvReq t 0x25 f [q.sa, q.sn]) (nruCheck t z a g (mvForm f false false false false false) none) s →
    Answers (.nclr t f) s fun u =>
      (∀ p, p < nruP g → (s.cyc + 64 + 2 * p, .nruClear (nruIdOf g.u)
        { off := g.off + p * eps * nruB g.mode, n := min eps (g.n - p * eps), data := [], tile := t }) ∈ u.agenda) ∧
      ChannelHeld t (2 * nruP g) none s u ∧ u.pl.flows = s.pl.flows ∧ MoverFrame t s u)

/-- The issue of MVS.LD, MVS.ST and IPAGE, and the row MOVER_LATE (R157, R158, R162, R241, R264). -/
def Claim.SystemBegin : Prop :=
  (∀ (t : Tile) (f : Fields) (s : State),
    let q := mvF f
    let (d, z, a) := mvArgs s t f
    let r : SysReqT := ⟨a, z.len, (sreg s t q.sx).toNat % 2 ^ 32, beats z.len⟩
    Issues (mvReq t 0x2C f (mvRegs f ++ [q.sx])) (mvsCheck t f d z r) s →
    Answers (.mvsLd t f) s fun u => PeeksSent t r (some (sreg s t q.sl, sreg s t q.sn)) s u ∧ Admitted t r s u) ∧
  (∀ (t : Tile) (f : Fields) (s : State),
    let q := mvF f
    let (d, z, a) := mvArgs s t f
    let r : SysReqT := ⟨a, z.len, (sreg s t q.sx).toNat % 2 ^ 32, 0⟩
    Issues (mvReq t 0x2D f (mvRegs f ++ [q.sx])) (mvsCheck t f d z r) s →
    Answers (.mvsSt t f) s fun u =>
      FlowBegun t (sreg s t q.sl) (sreg s t q.sn) (.sys a (s.cyc + beats z.len)) s u ∧ WriteBegun t r s u ∧ Admitted t r s u) ∧
  (∀ (t : Tile) (f : Fields) (s : State),
    let x := ipageArgs s t f
    let q := mvF f
    Issues (mvReq t 0x2E f [q.sl, q.sa, q.sn, q.sx]) (ipageCheck t f x) s →
    Answers (.ipage t f) s fun u =>
      u.pl.ipages = s.pl.ipages ++ [⟨t, x.w, x.n, s.cyc * 128 + t.val, s.cyc + x.r.d⟩] ∧ PeeksSent t x.r none s u ∧
      Admitted t x.r s u) ∧
  (∀ (t : Tile) (id : Nat) (s : State) (e : SysEnt),
    s.pl.sysent.find? (fun e => e.tile = t && e.id = id && e.due = s.cyc) = some e → (e.short = true ∨ 0 < e.host) →
    Answers (.moverLate t id) s fun u =>
      (sclkAfter s.cyc, .errorRecordLog (detect s eMoverLate (srcOf 1 e.tile.val) s.cyc 0 (e.pc % 2 ^ 15) e.word.toNat false
        (announces s))) ∈ u.agenda ∧
      (∃ x, u.pl.stopAt = some x ∧ x ≤ s.cyc + 16) ∧ Alarm s u)

/-- A system-channel transfer on s + D (R157, R158, R162): the data of a read whose answers have all come goes under way to the local
store, beat by beat from this cycle on; that of an IPAGE stands in instruction memory; data or acknowledgements that have not come
raise MOVER_LATE. -/
def Claim.SystemDue : Prop :=
  (∀ (x : SysXfer) (ld sh : W64) (s : State), s.pl.xfers = [x] → x.due ≤ s.cyc → isPage s x = false → x.wr = false →
    x.lside = some (ld, sh) → x.todo = [] → x.left = [] → (∀ e ∈ s.pl.sysent, e.tight = false) →
    let u := landXfers s
    u = { s with pl := { s.pl with
      xfers := [], pw := s.pl.pw ++ writeLocal x.tile (localOff (lsDesc ld) (shapeOf sh)) x.who s.cyc (xferBytes s x) } }) ∧
  (∀ (x : SysXfer) (s : State) (p : IPend), s.pl.xfers = [x] → x.due ≤ s.cyc → x.wr = false → x.lside = none → x.todo = [] →
    x.left = [] → (∀ e ∈ s.pl.sysent, e.tight = false) → Quiet s → s.pl.ipages = [p] → p.tile = x.tile → p.id = x.id →
    p.first + p.n ≤ 32768 →
    let u := landPages s
    (∀ i, i < p.n → imemWord u p.tile (p.first + i) = BitVec.ofNat 64 (leField (xferBytes s x) (8 * i) 8)) ∧
    (∀ t w, w < 32768 → ¬ (t = p.tile ∧ p.first ≤ w ∧ w < p.first + p.n) → imemWord u t w = imemWord s t w) ∧
    u = { s with pl := { s.pl with xfers := [], ipages := [], imem := u.pl.imem } }) ∧
  (∀ (x : SysXfer) (s : State) (i l : Nat) (d : LineData), (linesOf x.a x.n)[i]? = some l →
    x.got.find? (fun g => g.1 = l) = some (l, d) → ((xferBytes s x).drop (64 * i)).take 64 = lineBytes d) ∧
  (∀ (x : SysXfer) (e : SysEnt) (s : State), s.pl.xfers = [x] → x.due ≤ s.cyc → isPage s x = false →
    (x.todo ≠ [] ∨ x.left ≠ []) → s.pl.sysent.find? (fun e => e.tile = x.tile && e.id = x.id) = some e →
    let u := landXfers s
    u.pl.xfers = [] ∧ (∃ c, u.pl.stopAt = some c ∧ c ≤ s.cyc + 16) ∧
    (sclkAfter s.cyc, .errorRecordLog (detect s eMoverLate (srcOf 1 e.tile.val) s.cyc 0 (e.pc % 2 ^ 15) e.word.toNat false
      (announces s))) ∈ u.agenda)

/-- The system channel (R157, R158, R162, R241, R264). MVS.LD and IPAGE send a Peek of each line, MVS.ST begins to read the bytes
of the local store and sends its Places on s + B, and all enter the ledger until s + D; on s + D the data is delivered. MOVER_LATE
logs its record with the PC and word of the transfer, and issue stops at most 16 cycles later. The model's choices in it: log
entries 30, 31, 33, 58, 158, 164. -/
def Obligations.MoverSystem : Prop := Claim.SystemBegin ∧ Claim.SystemDue

/-- The Layby (R167-R170): the first push or pop of a slot on its cycle moves the slot's pointer by the bytes of the transfer and
makes the transfer at the top of its stack, in HBM or spilled. The model's choices in it: log entries 12, 40, 41, 159. -/
def Obligations.LaybyTransfers : Prop :=
  ∀ (t : Tile) (f : Fields) (s : State),
    let q := mvF f
    let ld := sreg s t q.sl
    let sh := sreg s t q.sn
    let z := shapeOf sh
    let k := laybySlot s q.slot
    laybyNow s q.slot = [] →
    (Issues (mvReq t 0x26 f [q.sl, q.sn]) (laybyCheck t f) s →
      (∀ a k', laybyPush k z.len = .at_ a false k' → mvhCheck t (lsDesc ld) z a none s = none →
        Answers (.lpush t f) s fun u =>
          laybySlot u q.slot = k' ∧ OtherSlots q.slot s u ∧ FramesHeld t a z.len s u ∧ FlowBegun t ld sh (.hbm a) s u) ∧
      (∀ a k', laybyPush k z.len = .at_ a true k' → sysCheck t ⟨a, z.len, k.ovfD, 0⟩ 65536 s = none →
        Answers (.lpush t f) s fun u =>
          laybySlot u q.slot = k' ∧ OtherSlots q.slot s u ∧
          FlowBegun t ld sh (.sys a (s.cyc + max k.ovfD (beats z.len))) s u ∧
          WriteBegun t ⟨a, z.len, k.ovfD, 0⟩ s u ∧ Admitted t ⟨a, z.len, k.ovfD, 0⟩ s u) ∧
      (∀ code, laybyPush k z.len = .fault code →
        Answers (.lpush t f) s fun u =>
          u.pl.layby = s.pl.layby ∧ u.pl.flows = s.pl.flows ∧ u.pl.xfers = s.pl.xfers ∧ MoverFrame t s u ∧
          FaultLogged code (srcOf 1 t.val) ((tctl s t).pc % 2 ^ 15 + q.slot * 2 ^ 32) (0x26 * 2 ^ 56 + f.toNat) s u)) ∧
    (Issues (mvReq t 0x27 f [q.sl, q.sn]) (laybyCheck t f) s →
      (∀ a k', laybyPop k z.len = .at_ a false k' → mvhCheck t (lsDesc ld) z a (some 188) s = none →
        Answers (.lpop t f) s fun u =>
          laybySlot u q.slot = k' ∧ OtherSlots q.slot s u ∧ FramesHeld t a z.len s u ∧ ReadBegun t ld sh a s u) ∧
      (∀ a k', laybyPop k z.len = .at_ a true k' → sysCheck t ⟨a, z.len, k.ovfD, beats z.len⟩ 65536 s = none →
        Answers (.lpop t f) s fun u =>
          laybySlot u q.slot = k' ∧ OtherSlots q.slot s u ∧
          PeeksSent t ⟨a, z.len, k.ovfD, beats z.len⟩ (some (ld, sh)) s u ∧
          Admitted t ⟨a, z.len, k.ovfD, beats z.len⟩ s u) ∧
      (∀ code, laybyPop k z.len = .fault code →
        Answers (.lpop t f) s fun u =>
          u.pl.layby = s.pl.layby ∧ u.pl.hreads = s.pl.hreads ∧ u.pl.xfers = s.pl.xfers ∧ MoverFrame t s u ∧
          FaultLogged code (srcOf 1 t.val) ((tctl s t).pc % 2 ^ 15 + q.slot * 2 ^ 32) (0x27 * 2 ^ 56 + f.toNat) s u))

/-- The Layby is a stack (R168, R169): a pop of as many bytes takes back the latest push, from the address it was made
at, and leaves the slot as it was before the push; pointers never pass the quotas. -/
def Claim.LaybyIsAStack : Prop :=
  ∀ (k k' : LaybySlot) (n a : Nat) (spilled : Bool), 0 < n → laybyPush k n = .at_ a spilled k' →
    laybyPop k' n = .at_ a spilled k ∧
    (k.hbmPtr ≤ k.hbmQuota → k.ovfPtr ≤ k.ovfQuota → k'.hbmPtr ≤ k'.hbmQuota ∧ k'.ovfPtr ≤ k'.ovfQuota) ∧
    k'.hbmPtr + k'.ovfPtr = k.hbmPtr + k.ovfPtr + n

/-- LAYBY_CLEAR (R173): both pointers of the slot named are 0; nothing else changes, no byte of a stack included. -/
def Claim.LaybyClear : Prop :=
  ∀ (k : Slot) (s : State),
    Answers (.laybyClear k) s fun u =>
      (laybySlot u k.val).hbmPtr = 0 ∧ (laybySlot u k.val).ovfPtr = 0 ∧
      laybySlot u k.val = { laybySlot s k.val with hbmPtr := 0, ovfPtr := 0 } ∧ OtherSlots k.val s u ∧ BytesSame s u ∧
      u = { s with pl := { s.pl with layby := u.pl.layby } }

/-- The Layby as a stack, and its clear (R168, R169, R173). -/
def Obligations.LaybyStack : Prop := Claim.LaybyIsAStack ∧ Claim.LaybyClear

/-- The arrival of NRU operations (R104, R211): one that arrives in a free slot over ranges in force is accepted, and applied 40 MCLK
later. -/
def Claim.NruArrivals : Prop :=
  (∀ (k : NruId) (p : NruPkt) (s : State), Arrives k p.off p.n s →
    Answers (.nruAdd k p) s (OpTaken k (nruModeAt s k.val p.off) (.add p) s) ∧
    Answers (.nruClear k p) s (OpTaken k (nruModeAt s k.val p.off) (.clear p) s)) ∧
  (∀ (k : NruId) (p : NruRdPkt) (s : State), Arrives k p.off p.n s →
    Answers (.nruRead k p) s (OpTaken k (nruModeAt s k.val p.off) (.read p) s))

/-- The application of NRU operations (R104-R107, R109, R225, R455): to the elements in order, and to no other byte. A READ writes
half of its elements to the local store on each of two cycles, 144 after the arrival. -/
def Claim.NruApplied : Prop :=
  (∀ (k : NruId) (m : NruMode) (p : NruPkt) (s : State), OpDue k m (.add p) s →
    let r := (List.range p.n).foldl (fun (acc : State × Flags) i =>
      let x := nruAddElem m k (p.off + i * nruB m) (p.data.getD i 0) acc.1
      (x.1, acc.2 ||| x.2)) (s, 0)
    let u := beatsOf s
    u.mem = r.1.mem ∧ OpApplied k r.2 s u ∧ u.pl.pw = s.pl.pw ∧ u.pl.tiles = s.pl.tiles ∧
    (∀ a, ¬ nruHits m k p.off p.n a → memGet u.mem a = memGet s.mem a)) ∧
  (∀ (k : NruId) (m : NruMode) (p : NruPkt) (s : State), OpDue k m (.clear p) s →
    let u := beatsOf s
    u.mem = ((List.range p.n).foldl (fun s i => nruZero m k (p.off + i * nruB m) s) s).mem ∧
    OpApplied k 0 s u ∧ u.pl.pw = s.pl.pw ∧ u.pl.tiles = s.pl.tiles ∧
    (∀ a, ¬ nruHits m k p.off p.n a → memGet u.mem a = memGet s.mem a)) ∧
  (∀ (k : NruId) (m : NruMode) (p : NruRdPkt) (s : State), OpDue k m (.read p) s →
    let u := beatsOf s
    (∃ f, OpApplied k f s u) ∧ OtherTiles p.tile s u ∧
    (p.clr = false → u.mem = s.mem) ∧
    (p.clr = true → u.mem = ((List.range p.n).foldl (fun s i => nruZero m k (p.off + i * nruB m) s) s).mem) ∧
    (∃ ws, u.pl.pw = s.pl.pw ++ ws ∧ ∀ w ∈ ws, w.vis = w.wcyc + 1 ∧ ∃ i j, i < p.n ∧
      j < (if p.fmt.toNat = 1 then 2 else 4) ∧ w.wcyc = s.cyc + 64 + i / (nruEps m / 2) ∧
      w.addr = lsBase p.tile + localOff (lsDesc p.ldesc) (shapeOf p.shape) ((if p.fmt.toNat = 1 then 2 else 4) * (p.first + i) + j) ∧
      w.val = BitVec.ofNat 8 ((convScalar p.fmt.toNat (rndOf p.rnd.toNat) false
        (if rndOf p.rnd.toNat = .sr then philoxWord p.seed.toNat (p.base.toNat + p.first + i) 0 else 0)
        (nruValue m k (p.off + i * nruB m) s).1).1 >>> (8 * j))))

/-- NRU operations, from issue to application (R104-R107, R109, R152-R154, R199, R211, R225, R455). The model's choices in it: log
entries 12, 34, 35, 36, 37, 38, 152. -/
def Obligations.NruOperations : Prop := Claim.NruIssue ∧ Claim.NruArrivals ∧ Claim.NruApplied

/-! ## Segments -/

/-- RUN and the placement of its pages (R174, R209, R286): a refused RUN ends failed with the code of its first refusal;
one whose segment lacks spine flits waits at the step barrier; an admitted one starts on SEGBASE, and with no segment before it
its placement begins at once. The end of a placement leaves each page's words in its tile's instruction memory. The model's
choices in it: log entries 45, 69, 95. -/
def Obligations.SegmentAdmission : Prop :=
  (∀ (d : Desc) (s : State), d.opc = 1 →
    let g := d.a0.toNat % 4096
    let base := d.a1.toNat
    Answers (.run d) s fun u =>
      let v := checkSet s
      hostOnly s u = u ∧ u.mem = s.mem ∧ u.coh = s.coh ∧ u.tp = s.tp ∧ u.regs = s.regs ∧
      u.cm = { s.cm with barrier := u.cm.barrier, bwait := u.cm.bwait, bstep := u.cm.bstep } ∧
      TensorDataSame s u ∧ u.pl.tiles = s.pl.tiles ∧ u.pl.cur = s.pl.cur ∧
      (∀ code, runRefusal v g base = some code → Finishes d code 0 0 0 0 s u ∧ u.pl.runs = s.pl.runs) ∧
      (runRefusal v g base = none → runWaits v d g = true →
        u.pl.runs = s.pl.runs ∧ d ∈ u.pl.runWait ∧ u.cm.barrier = some (s.cm.barrier.getD s.cyc)) ∧
      (runRefusal v g base = none → runWaits v d g = false →
        (base, .segmentStart) ∈ u.agenda ∧ (∀ x ∈ u.pl.runWait, x.tag ≠ d.tag) ∧
        (running s = true → u.pl.runs = s.pl.runs ++ [⟨d, g, base, none⟩]) ∧
        (running s = false → s.pl.runs = [] → placementWaits s = false → laybyDeclared v g = true →
          let e := s.cyc + Config.placementTime (placeWords v g)
          u.pl.runs = [⟨d, g, base, some e⟩] ∧ (e, .segmentPlacement) ∈ u.agenda))) ∧
  (∀ (s : State) (r : RunAdm) (rest : List RunAdm) (im : Image) (e : Nat) (g : ImgSeg),
    s.pl.runs = r :: rest → s.pl.active = some im → r.placed = some e → e ≤ s.cyc → segEntry s r.seg = some g →
    (∀ t, ∀ p ∈ (tileHead im g t).pages, p.dest + p.words ≤ 32768) →
    Answers .segmentPlacement s fun u =>
      segOnly s u = u ∧ u.mem = s.mem ∧ TensorDataSame s u ∧ u.pl.sregs = s.pl.sregs ∧ u.pl.tiles = s.pl.tiles ∧
      ∀ (t : Tile) (w : Nat), w < 32768 → imemWord u t w =
        match headPage (tileHead im g t) w with
        | some p => pageWord s im p w
        | none => imemWord s t w)

/-- SEGMENT_START (R143, R208, R209, R211): a placed segment starts on SEGBASE with every tile at its entry point, its presets
in its registers, flags and counts clear; a RUN whose placement has not ended by then fails and no tile issues, and so does one
admitted before a mismatch of SET_DIGEST or of a hop count was found (R220, R320). The model's choices in it: log entries 69,
76. -/
def Obligations.SegmentStart : Prop :=
  ∀ (s : State) (r : RunAdm) (rest : List RunAdm) (im : Image) (g : ImgSeg),
    s.pl.runs = r :: rest → s.pl.active = some im → r.base ≤ s.cyc → segEntry s r.seg = some g → r.desc.opc = 1 →
    ((∃ e, r.placed = some e ∧ e < r.base) → running s = false → runBlock s = none →
      Answers .segmentStart s fun u =>
        u.pl.cur = some r ∧ u.pl.segSlot = g.slot ∧ u.pl.uflags = 0 ∧ u.pl.xnfb = 0 ∧ u.pl.xnff = none ∧
        (∀ t, tctl u t = { pc := (tileHead im g t).entry, next := r.base, run := true, last := r.base }) ∧
        (∀ (t : Tile) (k : Nat), k < 64 → sreg u t k =
          if k = 0 then 0 else match headPreset im (tileHead im g t) k with | some p => presetVal im p | none => 0) ∧
        u.pl.nruRanges = (s.pl.nruRanges.filter fun x => !((im.nru.filter fun y => y.seg = r.seg).any fun y =>
          y.range.unit = x.unit)) ++ (im.nru.filter fun y => y.seg = r.seg).map (·.range) ∧
        segOnly s u = u ∧ TensorDataSame s u ∧ u.pl.imem = s.pl.imem ∧ u.coh = s.coh ∧ u.cm = s.cm ∧ u.ck = s.ck) ∧
    (∀ code, (∃ e, r.placed = some e ∧ e < r.base) → running s = false → runBlock s = some code →
      Answers .segmentStart s fun u =>
        Finishes r.desc code 0 0 0 0 s u ∧ u.pl.tiles = s.pl.tiles ∧ u.pl.cur = s.pl.cur ∧ TensorDataSame s u ∧
        segOnly s u = u) ∧
    ((∀ e, r.placed = some e → r.base ≤ e) →
      Answers .segmentStart s fun u =>
        Finishes r.desc rImagePlaceLate 0 0 0 0 s u ∧ u.pl.tiles = s.pl.tiles ∧ u.pl.sregs = s.pl.sregs ∧
        u.pl.cur = s.pl.cur ∧ segOnly s u = u ∧ TensorDataSame s u ∧ u.mem = s.mem ∧ u.coh = s.coh ∧ u.cm = s.cm)

/-- The end of a segment (R150, R164, R240, R290): its RUN becomes final with the merged flags and non-finite summary, no tile
issues any more, and the accesses held back are served. After a fault the accesses are served when issue stops, and the segment
ends once the effects of what has issued are complete. A RUN that ran into a mismatch found meanwhile fails with its code (R220,
R320). The model's choices in it: log entries 42, 70, 76. -/
def Obligations.SegmentEnd : Prop :=
  ∀ (s : State) (r : RunAdm), s.pl.cur = some r → r.desc.opc = 1 →
    let res := segResults s
    let code := if s.pl.segErr = 0 then (runBlock s).getD 0 else s.pl.segErr.toNat
    let ends := fun (u : State) =>
      u.pl.cur = none ∧ u.pl.stopAt = none ∧ u.pl.segErr = 0 ∧ anyIssuing u = false ∧ u.coh.held = [] ∧ segOnly s u = u ∧
      Finishes r.desc code res.1 (match res.2.2 with | some (c, _) => c - r.base | none => 0) res.2.1
        (match res.2.2 with | some (_, i) => i | none => 0) s u
    (anyIssuing s = false → lastEffect s ≤ s.cyc → Answers .segmentComplete s ends) ∧
    (∀ c, s.pl.stopAt = some c → c ≤ s.cyc → lastEffect s ≤ s.cyc → Answers .issueStop s ends) ∧
    (∀ c, s.pl.stopAt = some c → c ≤ s.cyc → s.cyc < lastEffect s → Answers .issueStop s fun u =>
      u.pl.cur = some r ∧ u.pl.stopAt = some c ∧ u.pl.segErr = s.pl.segErr ∧ anyIssuing u = false ∧ u.coh.held = [] ∧
      lastEffect u = lastEffect s ∧ segResults u = res ∧ (lastEffect s, .segmentComplete) ∈ u.agenda ∧ segOnly s u = u)

/-! ## Collective exchanges -/

/-- XCH (R156, R328-R330): flit k of the entry is consumed or handed over on s + 24 + floor(P k / 23); the tensor channel is
held for B cycles, and its return interval from s + 33. The model's choices in it: log entries 90, 91. -/
def Obligations.ExchangeStart : Prop :=
  ∀ (t : Tile) (f : Fields) (s : State) (e : ImgExch),
    let q := mvF f
    let exi := BitVec.ofNat 16 q.exi
    exchAt s q.exi = some e →
    Issues { t := t, opc := 0x28, f := f, enc := mvEnc f }
      (fun s => (if mvForm f true false false false true then xchCheck t q.exi s else some eMoverDesc).map fun c =>
        (c, q.exi * 2 ^ 16)) s →
    Answers (.xch t f) s fun u =>
      let per := xPer s e
      (∀ k, k < e.nflit →
        (e.rx = true → (s.cyc + 24 + per * k / 23, .xchConsume e.port exi k) ∈ u.agenda) ∧
        (e.tx = true → (s.cyc + 24 + per * k / 23, .xchHandover (xOut e) exi k) ∈ u.agenda)) ∧
      ChannelHeld t (ceilDiv (per * e.nflit) 23) (some (t, s.cyc + 33)) s u ∧
      (∃ x ∈ u.pl.xchs, x.tile = t ∧ x.exi = exi ∧ x.entry = e ∧ x.start = s.cyc ∧ x.per = per) ∧
      (e.clrst = false → u.pl.groups = s.pl.groups) ∧
      OtherPlanes s u ∧ NextWord t s u ∧ OtherTiles t s u ∧ FlagsAre t 0 s u ∧ ScalarsSame s u ∧ VectorsSame s u ∧
      MasksSame s u ∧ AccsSame s u ∧ CodeSame s u ∧ BytesSame s u

/-- The work of one flit (R309, R329, R332, R351): the flit formed is handed to the sending port against a credit; a flit
received is taken out of the buffer, its credit is returned, and its results are written. -/
def Claim.FlitWork : Prop :=
  (∀ (p : Port) (exi : BitVec 16) (k : Nat) (s : State) (x : XchRun) (bs : List Byte),
    xchFind s exi k = some x → x.entry.tx = true → xOut x.entry = p → portUp s p = true →
    vcFree (portSt s p) (xVc x.entry) = true →
    (if x.entry.rx then (x.sent.find? fun q => q.1 = k).map (·.2) else (xchFlit x p k none s).1) = some bs →
    Answers (.xchHandover p exi k) s fun u =>
      (∃ f : Flit, (portSt u p).ttx = (portSt s p).ttx ++ [f] ∧ f.payload = bs ∧ f.tag = xTag exi.toNat k ∧
        f.vc = BitVec.ofNat 4 (2 + x.entry.group % 12) ∧ f.ty = 1) ∧
      vcUsed (portSt u p) (xVc x.entry) = vcUsed (portSt s p) (xVc x.entry) + 1 ∧ OtherPorts p s u ∧ linkOnly s u = u) ∧
  (∀ (p : Port) (exi : BitVec 16) (k : Nat) (s : State) (x : XchRun) (f : Flit),
    xchFind s exi k = some x → x.entry.rx = true → x.entry.port = p → rxFlit s p x.entry exi.toNat k = some f →
    Answers (.xchConsume p exi k) s fun u =>
      let y := { x with took := x.took ++ [k] }
      let r := xchFlit y p k (some (f, f.payload)) (xchPut y (giveBack p (xVc x.entry) (rxDrop p f s)))
      (portSt u p).rx = (portSt s p).rx.filter (fun y => !(y.2.tag = f.tag && y.2.vc = f.vc)) ∧
      owed (portSt u p) (xVc x.entry) = owed (portSt s p) (xVc x.entry) + 1 ∧ OtherPorts p s u ∧
      u.pl.pw = r.2.pl.pw ∧ u.pl.groups = r.2.pl.groups ∧ u.pl.uflags = r.2.pl.uflags ∧
      (∀ bs, r.1 = some bs → x.entry.tx = true → ∃ y ∈ u.pl.xchs, y.exi = exi ∧ (k, bs) ∈ y.sent) ∧ linkOnly s u = u)

/-- Arrival of collective data, and the close of a window (R194, R305, R308): the flit enters the port's buffer; a flit that
is missing when its window closes raises XCH_WINDOW, and nothing happens when none is. -/
def Claim.ExchangeArrival : Prop :=
  (∀ (p : Port) (x : Flit) (s : State),
    portUp s p = true → 2 ≤ x.vc.toNat → x.vc.toNat ≤ 13 → x.ty ≠ 0 → FlitTaken x (portSt s p) →
    Answers (.collectiveDataFlit p x) s fun u =>
      portSt u p = { afterFlit x (portSt s p) with rx := (portSt s p).rx ++ [(s.cyc, x)] } ∧
      OtherPorts p s u ∧ linkOnly s u = u ∧ u.pl = { s.pl with stopAt := u.pl.stopAt, segErr := u.pl.segErr }) ∧
  (∀ (p : Port) (exi : BitVec 16) (s : State) (e : ImgExch),
    exchAt s exi.toNat = some e → running s = true → e.rx = true → e.port = p → p.val < 6 →
    (segBase s : Int) + e.winClose ≤ s.cyc →
    Answers (.xchWindow p exi) s fun u =>
      let here := fun k => (rxFlit s p e exi.toNat k).isSome = true ∨ ∃ x ∈ s.pl.xchs, x.exi = exi ∧ k ∈ x.took
      linkOnly s u = u ∧ u.tp = s.tp ∧
      ((∀ k, k < e.nflit → here k) → u = s) ∧
      ((∃ k, k < e.nflit ∧ ¬ here k) →
        (sclkAfter s.cyc, .errorRecordLog (detect s eXchWindow (srcOf 9 p.val) s.cyc 0
          (xVc e * 2 ^ 8 + exi.toNat * 2 ^ 16) 0 false (announces s))) ∈ u.agenda))

/-- The flits of an exchange, from arrival to hand-over (R194, R305, R308, R309, R329, R332, R351). The model's choices in it: log
entries 94, 95, 96, 183. -/
def Obligations.ExchangeFlits : Prop := Claim.FlitWork ∧ Claim.ExchangeArrival

/-! ## The Turnpike -/

/-- Flits of the link (R305-R308, R310, R311): a dropped flit, the header of a received one, a NAK, and a message that is routed
on or delivered here. A flit that is not taken leaves only the drop. The model's choices in it: log entries 80, 81, 82, 174, 176.
-/
def Obligations.LinkFlits : Prop :=
  (∀ (p : Port) (s : State), portUp s p = true →
    Answers (.flitCrcFail p) s fun u =>
      portSt u p = { portSt s p with dropping := true, nakDue := true } ∧ OtherPorts p s u ∧ tpOnly s u = u ∧ u.pl = s.pl) ∧
  (∀ (p : Port) (x : Flit) (s : State), portUp s p = true → ¬ FlitTaken x (portSt s p) →
    ∀ c ∈ [Instr.creditsReturned, .nak, .managementMessage, .collectiveDataFlit], Answers (c p x) s fun u =>
      portSt u p = { portSt s p with dropping := true, nakDue := (portSt s p).nakDue || !crcOk x } ∧ OtherPorts p s u ∧
      tpOnly s u = u ∧ u.pl = s.pl ∧ u.out = s.out ∧ u.agenda = s.agenda) ∧
  (∀ (p : Port) (x : Flit) (s : State), portUp s p = true → FlitTaken x (portSt s p) →
    let y := ackTo x.ack (afterFlit x (portSt s p))
    (Answers (.creditsReturned p x) s fun u =>
      (portSt u p).replay = y.replay ∧ (portSt u p).rxSeq = y.rxSeq ∧
      vcUsed (portSt u p) x.crv.toNat = vcUsed (portSt s p) x.crv.toNat - x.crn.toNat ∧
      (∀ v, v ≠ x.crv.toNat → vcUsed (portSt u p) v = vcUsed (portSt s p) v) ∧
      (portSt u p).ttx = (portSt s p).ttx ∧ (portSt u p).rx = (portSt s p).rx ∧ OtherPorts p s u ∧ tpOnly s u = u ∧
      u.pl = s.pl) ∧
    (x.nak = true → ∀ f r, y.replay = f :: r → Answers (.nak p x) s fun u =>
      OtherPorts p s u ∧ tpOnly s u = u ∧ u.pl = s.pl ∧
      ((∀ g ∈ f :: r, sentOf y g < 9) → (portSt u p).rq = f :: r ∧ (portSt u p).replay = f :: r ∧
        PortRecord eTpRetry p 0 f.seq.toNat s u) ∧
      ((∃ g ∈ f :: r, 9 ≤ sentOf y g) → (portSt u p).state = stDown ∧ PortStopped p u ∧ PortRecord eTpLinkDown p 0 0 s u)) ∧
    (x.ty ≠ 0 → x.vc = 0 ∨ x.vc = 14 ∨ x.vc = 15 → Answers (.managementMessage p x) s fun u =>
      let d := x.tag.toNat % 65536
      let route := routeTo s (d % 256) (d / 256)
      let spreads := d = 0xFFFE ∨ (d < 0xFFFE ∧ route = none ∧ (flitToken x).isSome = true ∧ toTheSet (msgType x) = true)
      let here := d = 0xFFFF ∨ (d < 0xFFFE ∧ route = none ∧ ((flitToken x).isSome = false ∨ toTheSet (msgType x) = false))
      (portSt u p).rxSeq = x.seq ∧ owed (portSt u p) x.vc.toNat = owed (portSt s p) x.vc.toNat + 1 ∧ tpOnly s u = u ∧
      u.pl = s.pl ∧
      (∀ q, d < 0xFFFE → route = some q → portTakes s q = true →
        (portSt u q).txq = (portSt s q).txq ++ [x] ∧ u.out = s.out ∧ u.agenda = s.agenda) ∧
      (here → Out.delivered x ∈ u.out ∧ ∀ i, flitToken x = some i → (s.cyc, i) ∈ u.agenda) ∧
      (d = 0xFFFF → ∀ q ∈ treePorts (myPodZ s) (myRank s), portTakes s q = true → x ∈ (portSt u q).txq) ∧
      (spreads → myRank s = 0 → ∀ q ∈ treePorts (myPodZ s) 0, portTakes s q = true →
        withDest x 0xFFFF ∈ (portSt u q).txq) ∧
      (spreads → myRank s ≠ 0 → ∀ q, routeTo s (myPod s) 0 = some q → portTakes s q = true →
        (portSt u q).txq = (portSt s q).txq ++ [withDest x 0xFFFE])))

/-- Time beacons (R191-R193, R317, R318): package 0 forms one on every cycle whose low 16 bits are 0; a package that receives
one records the offset, follows it while no segment runs, and forwards it; four intervals without one are recorded. The model's
choices in it: log entries 83, 84, 85. -/
def Obligations.TimeBeacons : Prop :=
  (∀ (s : State),
    Answers .beaconSend s fun u =>
      tpOnly s u = u ∧ u.pl = s.pl ∧ u.regs = s.regs ∧ u.agenda = s.agenda ∧
      (∀ p, (portSt u p).btx = if myRank s = 0 ∧ s.cyc % 65536 = 0 ∧ p ∈ treePorts (myPodZ s) 0 ∧ portUp s p = true then
          (portSt s p).btx ++ [.formed { origin := BitVec.ofNat 8 (myPod s), carried := 0, latency := 0, hops := 1 }]
        else (portSt s p).btx)) ∧
  (∀ (p : Port) (x : Flit) (b : BeaconPkt) (s : State), portUp s p = true → FlitTaken x (portSt s p) → beaconOf x = some b →
    Quiet s →
    Answers (.beacon p x) s fun u =>
      let lat := b.latency + (portSt s p).hoprc.setWidth 32
      let off := beaconOffset s.cyc b.carried.toNat lat.toNat
      owed (portSt u p) 1 = owed (portSt s p) 1 + 1 ∧
      (myRank s = 0 → u.cyc = s.cyc ∧ u.tp.boff = s.tp.boff ∧ u.agenda = s.agenda) ∧
      (myRank s ≠ 0 →
        u.tp.boff = off ∧ u.tp.missed = 0 ∧ u.tp.lastBeacon = u.cyc ∧
        u.cyc = (if running s then s.cyc else wrapInt 64 ((s.cyc : Int) - off)) ∧
        (∀ q, q ∈ treePorts (myPodZ s) (myRank s) → portUp s q = true →
          .forward { b with latency := lat } 0 ∈ (portSt u q).btx) ∧
        (8 < off.natAbs → s.tp.skewLogged = false →
          (sclkAfter s.cyc, .errorRecordLog (detect s eTimeSkew 0 s.cyc 0 (itemOf off) 0 false false)) ∈ u.agenda)) ∧
      u.pl = s.pl ∧ u.mem = s.mem ∧ u.coh = s.coh ∧ u.hf = s.hf ∧ u.cm = s.cm ∧ u.ck = s.ck ∧ u.sec = s.sec ∧ u.fd = s.fd) ∧
  (∀ (s : State),
    Answers .timeBeaconLost s fun u =>
      tpOnly s u = u ∧ u.pl = s.pl ∧ u.regs = s.regs ∧
      (myRank s ≠ 0 ∧ s.tp.lastBeacon + 262144 ≤ s.cyc → u.tp.missed = s.tp.missed + 4 ∧
        (sclkAfter s.cyc, .errorRecordLog (detect s eTimeBeaconLost 0 s.cyc 0 0 0 false false)) ∈ u.agenda) ∧
      (¬ (myRank s ≠ 0 ∧ s.tp.lastBeacon + 262144 ≤ s.cyc) → u = s))

/-- Ports (R200, R307, R314-R316, R319-R321): training, hop measurement, retraining, the loss of a lane, and the digest of the
pod's package 0 (R220). The model's choices in it: log entries 76, 82, 86, 88, 177. -/
def Obligations.PortEvents : Prop :=
  (∀ (p : Port) (r : TrainResult) (s : State), portEn s p = true → portUp s p = false → inBlockReset s (4 + p.val) = false →
    Quiet s →
    Answers (.portTraining p r) s fun u =>
      OtherPorts p s u ∧ tpOnly s u = u ∧
      (cageOk s p = false → (portSt u p).state = stDown) ∧
      (cageOk s p = true → trainWidth s p r.good = none → (portSt u p).state = stDown ∧ (portSt u p).lgood = r.good) ∧
      (∀ w, cageOk s p = true → trainWidth s p r.good = some w →
        (portSt u p).width = w ∧ (portSt u p).hoprc = BitVec.ofNat 16 ((r.round + 1) / 2) ∧
        (portSt u p).hop = BitVec.ofNat 12 (((r.round + 1) / 2 + 3) / 4) ∧ (portSt u p).peer = r.serial ∧
        (∃ f, Out.flit p s.cyc f ∈ u.out ∧ f.vc = 0 ∧
          f.payload = Config.identPayload (myPod s) (myRank s) p.val s.fd.serial) ∧
        (∃ f, Out.flit p s.cyc f ∈ u.out ∧ f.vc = 1 ∧ f.payload = Config.measurePayload (4 * s.cyc) none) ∧
        ((portSt u p).state = stUp ↔ (r.pod.toNat, r.rank.toNat, r.port.toNat) = neighbour s p ∧
          ((r.round + 1) / 2 + 3) / 4 ≤ 2800) ∧
        ((r.pod.toNat, r.rank.toNat, r.port.toNat) ≠ neighbour s p →
          PortRecord eTpMiswire p 0 (r.pod.toNat * 2 ^ 16 + r.rank.toNat * 2 ^ 8 + r.port.toNat) s u))) ∧
  (∀ (p : Port) (h : HopTimes) (s : State),
    Answers (.hopMeasurement p h) s fun u =>
      let st := (portSt s p).state
      let rc := ((h.arrive - h.depart) - (h.farDepart - h.farArrive) + 1) / 2
      let takes := (st = stTraining ∨ st = stUp) ∧ (portSt s p).dropping = false
      OtherPorts p s u ∧ tpOnly s u = u ∧ u.pl = { s.pl with hopBlock := u.pl.hopBlock } ∧
      (¬ takes → u = s) ∧
      (takes → h.returned = true → portSt u p =
        { portSt s p with hoprc := BitVec.ofNat 16 rc, hop := BitVec.ofNat 12 ((rc + 3) / 4), ret := (portSt u p).ret }) ∧
      (takes → st = stUp → owed (portSt u p) 1 = owed (portSt s p) 1 + 1) ∧
      (takes → h.returned = true → st = stUp → Quiet s → ∀ im, s.pl.active = some im → hopWrong u im p = true →
        u.pl.hopBlock = true ∧ PortRecord eHopMismatch p 0 (portSt u p).hoprc.toNat s u) ∧
      (takes → h.returned = false → st = stUp → (portSt u p).btx = (portSt s p).btx ++ [.answer h.depart h.farArrive 0]) ∧
      (takes → h.returned = false → st = stTraining → ∃ f, Out.flit p s.cyc f ∈ u.out ∧ f.vc = 1 ∧
        f.payload = Config.measurePayload h.depart (some (h.farArrive, h.farArrive)))) ∧
  (∀ (p : Port) (s : State), portEn s p = true →
    Answers (.retrain p) s fun u =>
      (portSt u p).state = stTraining ∧ (portSt u p).narrow = false ∧ PortStopped p u ∧ OtherPorts p s u ∧ tpOnly s u = u ∧
      u.pl = s.pl ∧ u.agenda = s.agenda) ∧
  (∀ (p : Port) (lane : Fin 4) (s : State), portUp s p = true →
    Answers (.tpLaneFail p lane) s fun u =>
      let good := (portSt s p).lgood &&& ~~~(1#4 <<< lane.val)
      (portSt u p).lgood = good ∧ (portSt u p).narrow = true ∧ PortStopped p u ∧ OtherPorts p s u ∧ tpOnly s u = u ∧
      (portSt u p).state = (if bitOf (pctl s p) 4 = true ∧ good ≠ 0 then stTraining else stDown) ∧
      PortRecord eTpLaneFail p lane.val 0 s u ∧ u.pl = s.pl) ∧
  (∀ (d : Digest) (s : State),
    Answers (.setDigest d) s fun u =>
      u.tp = { s.tp with podDigest := some d } ∧ tpOnly s u = u ∧ u.pl = { s.pl with imgBlock := u.pl.imgBlock } ∧
      ∀ im, s.pl.active = some im → (u.pl.imgBlock = false ↔ im.setDigest = d) ∧
        (im.setDigest ≠ d → s.pl.imgBlock = false →
          (sclkAfter s.cyc, .errorRecordLog (detect s eImageSet 0 s.cyc 0 0 0 false false)) ∈ u.agenda))

/-! ## Modules -/

/-- Modules and their life records (R321-R325, Tables 13.7, 13.8). An insertion fills the cage and finds or opens the life record
of the OUI and serial number, and a module without the application of R321 brings its ports down; a removal brings the ports of
the cage down and saves the records to FD; an interrupt with flags logs MOD_ALARM with the OUI and serial number; a poll marks
which modules answer, counts corrected FEC symbols of each lane and fails a lane above 1 in 10^4 (R319, R326); a powered hour
counts, and stamps the records of the modules present; the daily update puts the warnings of Table 13.8 into each record and saves
them. The model's choices in it: log entries 88, 89, 121, 173, 178, 179. -/
def Obligations.Modules : Prop :=
  (∀ (c : Cage) (m : ModuleInfo) (s : State), (cageSt s c).present = false →
    Answers (.modInserted c m) s fun u =>
      modOnly s u = u ∧ (cageSt u c).present = true ∧ (cageSt u c).oui = m.oui ∧ (cageSt u c).serial = m.serial ∧
      (cageSt u c).flat = m.flat ∧ (cageSt u c).rst = false ∧ (cageSt u c).hiBias = m.hiBias ∧
      (∀ x, x ≠ c → cageSt u x = cageSt s x) ∧
      (∃ r ∈ u.tp.life, r.oui = m.oui ∧ r.serial = m.serial ∧ r.cage = BitVec.ofNat 8 c.val) ∧
      (m.app = false → m.flat = false → (cageSt u c).app = false ∧ (cageSt u c).lowPower = true ∧
        ∀ p, p ∈ portsOf c → (portSt s p).state ≠ 0 → (portSt u p).state = stDown ∧ PortStopped p u) ∧
      (Quiet s → m.app = true ∨ m.flat = true → (cageSt u c).lowPower = false ∧
        ∀ p, p ∈ portsOf c → portEn s p = true → (portSt s p).state = stDown → (portSt u p).state = stTraining)) ∧
  (∀ (c : Cage) (s : State), (cageSt s c).present = true →
    Answers (.modRemoved c) s fun u =>
      modOnly s u = u ∧ (cageSt u c).present = false ∧ (∀ x, x ≠ c → cageSt u x = cageSt s x) ∧
      (∀ p, p ∈ portsOf c → (portSt s p).state ≠ 0 → (portSt u p).state = stDown ∧ PortStopped p u) ∧
      (∀ p, p ∉ portsOf c → portSt u p = portSt s p) ∧
      u.fd = { s.fd with life := u.tp.life.map lifeBytes, hoursMirror := s.ck.hours } ∧
      (∀ r ∈ u.tp.life, lifeMatch (cageSt s c) r = true → r.last = s.ck.hours)) ∧
  (∀ (c : Cage) (flags : W64) (s : State), (cageSt s c).present = true →
    Answers (.moduleInterrupt c flags) s fun u =>
      modOnly s u = u ∧ u.tp = s.tp ∧ u.fd = s.fd ∧ u.ck = keepCk s u ∧
      (flags ≠ 0 → ∃ inj, (sclkAfter s.cyc, .errorRecordLog (detect s eModAlarm (srcOf 10 c.val) s.cyc 0
        (cageSt s c).oui.toNat ((cageSt s c).serial.toNat % 2 ^ 64) inj false)) ∈ u.agenda)) ∧
  (∀ (xs : List LaneSample) (s : State), Quiet s →
    Answers (.laneMonitorPoll xs) s fun u =>
      let fec := fun (x : LaneSample) (i : Nat) => x.fec.getD i (0, 0)
      let fails := fun (x : LaneSample) (i : Nat) => (fec x i).2 < 10000 * (fec x i).1
      modOnly s u = u ∧ u.fd = s.fd ∧ u.tp.life.length = s.tp.life.length ∧
      (∀ (c : Cage) x, xs[c.val]? = some x → (cageSt s c).present = true → (cageSt u c).present = true ∧
        (cageSt u c).silent = !x.answers) ∧
      (∀ (c : Cage) x i, xs[c.val]? = some x → i < 8 → portUp s (portOf (2 * c.val + i / 4)) = true → 0 < (fec x i).1 →
        (∀ j, j < i → j / 4 = i / 4 → ¬ fails x j) →
        let p := portOf (2 * c.val + i / 4)
        PortRecord eTpFecCe p (i % 4) (fec x i).1 s u ∧
        (fails x i → PortStopped p u ∧ PortRecord eTpLaneFail p (i % 4) 0 s u ∧
          (portSt u p).lgood = (portSt s p).lgood &&& ~~~(1#4 <<< (i % 4)))) ∧
      (∀ p : Port, (∀ x, xs[p.val / 2]? = some x → ∀ i, i < 4 → ¬ fails x (4 * (p.val % 2) + i)) →
        portSt u p = portSt s p)) ∧
  (∀ (s : State),
    Answers .poweredHour s fun u =>
      modOnly s u = u ∧ u.ck = { s.ck with hours := s.ck.hours + 1 } ∧ u.tp.ports = s.tp.ports ∧ u.tp.cages = s.tp.cages ∧
      u.tp.life.length = s.tp.life.length ∧
      ∀ c, (cageSt s c).present = true → ∀ r ∈ u.tp.life, lifeMatch (cageSt s c) r = true → r.last = s.ck.hours + 1) ∧
  (∀ (s : State),
    Answers .lifeRecordUpdate s fun u =>
      modOnly s u = u ∧ u.tp.ports = s.tp.ports ∧ u.tp.cages = s.tp.cages ∧
      u.fd = { s.fd with life := u.tp.life.map lifeBytes, hoursMirror := s.ck.hours } ∧
      ∀ c r, lifeOf s c = some r → ∃ r' ∈ u.tp.life, lifeMatch (cageSt s c) r' = true ∧
        (lifeWarn (bitsOf (reg32 s 0x50100).toNat 23 0) (cageSt s c).hiBias.toNat r ||| r.warn) &&& ~~~r'.warn = 0)

/-! ## The commit protocol -/

/-- Foreign tokens (R357): a token whose SET_DIGEST differs from the receiver's is dropped, and the receiver logs
COMMIT_FOREIGN. -/
def Claim.ForeignTokens : Prop :=
  ∀ (k : Token) (s : State), Quiet s → (∀ im, s.pl.active = some im → k.digest ≠ im.setDigest) →
    ∀ c ∈ [Instr.ready, .proceed, .updated, .commit, .abort, .hostLost, .statusQuery, .status, .fault, .snapDone, .snapFail],
      exec (c k) s = .next { s with agenda := s.agenda ++
        [(sclkAfter s.cyc, .errorRecordLog (detect s eCommitForeign 0 s.cyc 0 0 0 false false))] }

/-- MILESTONE (R356, R358, R359, R361, R364, R366): a phase out of order changes nothing and ends failed with STEP_ORDER or
STEP_ABORTED; READY and COMMIT send their token and enter their phase, and a COMMIT whose snapshot list breaks a rule ends
failed with MS_LIST; REPLAY restores the retained state, at most three times; RESOLVE asks the set. The model's choices in it:
log entries 105, 106. -/
def Obligations.MilestoneCommands : Prop :=
  (∀ (d : Desc) (s : State), d.opc = 6 → s.pl.fatCode ≠ 0 →
    ∀ c ∈ [Instr.milestoneReady, .milestoneCommit, .milestoneReplay, .milestoneResolve],
      Answers (c d) s fun u => Finishes d s.pl.fatCode.toNat 0 0 0 0 s u ∧ Refused s u) ∧
  (∀ (d : Desc) (s : State), d.opc = 6 → s.pl.fatCode = 0 →
    let n := d.a1.toNat
    (n ≠ stepInFlight s → ∀ c ∈ [Instr.milestoneReady, .milestoneCommit, .milestoneReplay, .milestoneResolve],
      Answers (c d) s fun u => Finishes d rStepOrder 0 0 0 0 s u ∧ Refused s u) ∧
    (n = stepInFlight s → s.cm.phase = .aborted → ∀ c ∈ [Instr.milestoneReady, .milestoneCommit],
      Answers (c d) s fun u => Finishes d rStepAborted 0 0 0 0 s u ∧ Refused s u) ∧
    (n = stepInFlight s → s.cm.phase = .proceeding ∨ s.cm.phase = .updatedSent ∨ s.cm.phase = .restoring →
      Answers (.milestoneReady d) s fun u => Finishes d rStepOrder 0 0 0 0 s u ∧ Refused s u) ∧
    (n = stepInFlight s → s.cm.phase = .idle ∨ s.cm.phase = .readySent →
      let tok := { myToken s n 0 with phase := 1 }
      Answers (.milestoneReady d) s fun u =>
        u.cm = { s.cm with phase := .readySent, cmd := some d, barrier := some (s.cm.barrier.getD s.cyc) } ∧
        ToCoordinator 0x0101 .ready tok s u ∧ CmOnly s u) ∧
    (n = stepInFlight s → s.cm.phase = .proceeding ∨ s.cm.phase = .updatedSent →
      let tok := { myToken s n 0 with phase := 3 }
      (snapDue s n = false ∨ msListOk s (!s.cm.cg) = true → Answers (.milestoneCommit d) s fun u =>
        u.cm = { s.cm with phase := .updatedSent, cmd := some d } ∧ ToCoordinator 0x0103 .updated tok s u ∧ CmOnly s u) ∧
      (snapDue s n = true → msListOk s (!s.cm.cg) = false → Answers (.milestoneCommit d) s fun u =>
        Finishes d rMsList 0 0 0 0 s u ∧ Refused s u)) ∧
    (n = stepInFlight s →
      s.cm.phase = .readySent ∨ s.cm.phase = .proceeding ∨ s.cm.phase = .updatedSent ∨ s.cm.phase = .aborted →
      (3 ≤ s.cm.replays → Answers (.milestoneReplay d) s fun u => Finishes d rReplayLimit 0 0 0 0 s u ∧ Refused s u) ∧
      (s.cm.replays < 3 → Answers (.milestoneReplay d) s fun u =>
        u.cm = { s.cm with step := s.pl.retained.step, cg := s.pl.retained.cg, phase := .idle, abortCode := 0,
                           replays := s.cm.replays + 1, barrier := none } ∧ Finishes d 0 0 0 0 0 s u ∧
        (∀ k p, s.pl.retained.ptrs[k]? = some p →
          laybySlot u k = { laybySlot s k with hbmPtr := p.1, ovfPtr := p.2 }) ∧
        (∀ r ∈ s.pl.nruRanges, ∀ a, nruBase + r.unit.val * 0x2000000 + r.first * nruB r.mode ≤ a →
          a < nruBase + r.unit.val * 0x2000000 + (r.first + r.count) * nruB r.mode → memGet u.mem a = 0) ∧
        u.pl = { s.pl with layby := u.pl.layby, pw := u.pl.pw, hreads := u.pl.hreads, fatCode := u.pl.fatCode,
                           stopAt := u.pl.stopAt, segErr := u.pl.segErr } ∧ commitOnly s u = u)) ∧
    (n = stepInFlight s → s.cm.phase = .readySent ∨ s.cm.phase = .proceeding ∨ s.cm.phase = .updatedSent →
      Answers (.milestoneResolve d) s fun u =>
        u.cm = { s.cm with cmd := some d, resolving := true,
                           answers := [(memberIdx s (myPod s) (myRank s), s.cm.step.setWidth 64)] } ∧
        u.outbox = s.outbox ++ [.token 0x0107 none (myToken s n 0)] ∧ u.agenda = s.agenda ∧ CmOnly s u))

/-- READY, PROCEED and UPDATED (R358, R359): the coordinator collects one of each member and broadcasts when it holds all;
one received again changes nothing; PROCEED ends the READY done and the wait at the step barrier (R182). -/
def Claim.CollectedTokens : Prop :=
  (∀ (k : Token) (s : State), Taken k s → coordinator s = true → k.step.toNat = stepInFlight s →
    let m := senderOf s k
    let n := k.step.toNat
    (m ∈ s.cm.readyFrom → exec (.ready k) s = .next s) ∧
    (m ∉ s.cm.readyFrom → Answers (.ready k) s fun u =>
      u.cm = { s.cm with readyFrom := s.cm.readyFrom ++ [m] } ∧ CmOnly s u ∧
      WhenAll (s.cm.readyFrom ++ [m]) 0x0102 (myToken s n 0) s u) ∧
    (m ∈ s.cm.updatedFrom → exec (.updated k) s = .next s) ∧
    (m ∉ s.cm.updatedFrom → Answers (.updated k) s fun u =>
      u.cm = { s.cm with updatedFrom := s.cm.updatedFrom ++ [m] } ∧ CmOnly s u ∧
      WhenAll (s.cm.updatedFrom ++ [m]) 0x0104 (myToken s n 0) s u)) ∧
  (∀ (k : Token) (s : State), Taken k s → k.step.toNat = stepInFlight s → s.cm.phase = .readySent →
    Answers (.proceed k) s fun u =>
      u.cm.phase = .proceeding ∧ u.cm.barrier = none ∧
      (∀ b, s.cm.barrier = some b → u.cm.bstep = stepInFlight s ∧
        u.cm.bwait = (if s.cm.bstep = stepInFlight s then s.cm.bwait else 0) + (s.cyc - b)) ∧
      u.cm = { s.cm with phase := .proceeding, bwait := u.cm.bwait, bstep := u.cm.bstep, barrier := none,
                         cmd := u.cm.cmd } ∧ CmdOnly s u ∧
      (∀ d, pendingPhase s 1 = some d → u.cm.cmd = none ∧ Finishes d 0 0 0 0 0 s u))

/-- Tokens dropped and tokens collected (R357-R359). The model's choices in it: log entries 98, 99, 110, 180, 181. -/
def Obligations.TokensCollected : Prop := Claim.ForeignTokens ∧ Claim.CollectedTokens

/-- COMMIT(n) (R359, R363, R367, R407): applied on the fence cycle, in whatever phase the member is. -/
def Claim.CommitApplies : Prop :=
  ∀ (k : Token) (s : State), Taken k s → k.step.toNat = stepInFlight s → k.step.toNat < 2 ^ 48 - 1 →
    Answers (.commit k) s fun u => Applied k.step.toNat s u ∧ commitOnly s u = u

/-- ABORT, FAULT, HOST_LOST and STATUS_QUERY of another member (R361, R362, R365, R444). -/
def Claim.TokensOfOthers : Prop :=
  ∀ (k : Token) (s : State), Taken k s → fromSelf s k = false →
    let n := k.step.toNat
    (n ≤ s.cm.step.toNat → exec (.abort k) s = .next (foreign s)) ∧
    (n = stepInFlight s → s.cm.abortCode = 0 → Answers (.abort k) s fun u => Aborted k.code s u) ∧
    (stepInFlight s < n → (k.step, k.code) ∉ s.cm.heldAbort →
      exec (.abort k) s = .next { s with cm := { s.cm with heldAbort := s.cm.heldAbort ++ [(k.step, k.code)] } }) ∧
    (s.cm.abortCode = 0 → Answers (.fault k) s fun u =>
      Aborted k.code s u ∧ senderOf s k ∈ u.cm.lost ∧ ∀ m ∈ s.cm.lost, m ∈ u.cm.lost) ∧
    ((senderOf s k, k.step) ∈ s.cm.hostLost → exec (.hostLost k) s = .next s) ∧
    (s.hf.parked = false → (senderOf s k, k.step) ∉ s.cm.hostLost → Answers (.hostLost k) s fun u =>
      (sclkAfter s.cyc, .errorRecordLog (detect s ePeerHostLost 0 s.cyc 0 0 0 false false)) ∈ u.agenda ∧ CmdOnly s u ∧
      u.cm = { s.cm with hostLost := s.cm.hostLost ++ [(senderOf s k, k.step)] } ∧
      ((∃ c ∈ s.hf.cmds, schedClass c.desc.opc = true) → u.hf = { s.hf with parkPending := true }) ∧
      ((∀ c ∈ s.hf.cmds, schedClass c.desc.opc = false) → u.hf = { s.hf with parked := true, parkPending := false })) ∧
    exec (.statusQuery k) s =
      .next { s with outbox := s.outbox ++ [.token 0x0108 (some (k.spod, k.srank)) (myToken s s.cm.step.toNat 0)] }

/-- The resolution of a commit and the timeout (R360, R361). -/
def Claim.CommitResolution : Prop :=
  (∀ (k : Token) (s : State) (d : Desc), Taken k s → pendingPhase s 4 = some d → s.cm.resolving = true →
    (d.a1.toNat ≤ k.step.toNat → d.a1.toNat < 2 ^ 48 - 1 → Answers (.status k) s fun u =>
      Applied d.a1.toNat s u ∧ u.cm.cmd = none ∧ u.cm.resolving = false ∧ u.cm.answers = [] ∧
      Finishes d 0 0 0 0 0 s u ∧ commitOnly s u = u) ∧
    (k.step.toNat < d.a1.toNat → Answers (.status k) s fun u =>
      (senderOf s k, k.step) ∈ u.cm.answers ∧ (∀ a ∈ s.cm.answers, a.1 ≠ senderOf s k → a ∈ u.cm.answers) ∧
      u = { s with cm := { s.cm with answers := u.cm.answers } })) ∧
  (∀ (s : State) (d : Desc), pendingPhase s 4 = some d →
    Answers .resolveWait s fun u =>
      CmdOnly s u ∧
      (allMembers s (s.cm.answers.map (·.1)) = true → Finishes d 0 0 0 0 0 s u ∧
        u.cm = { s.cm with phase := .proceeding, cmd := none, resolving := false, answers := [], barrier := none,
                           bwait := u.cm.bwait, bstep := u.cm.bstep }) ∧
      (allMembers s (s.cm.answers.map (·.1)) = false → Finishes d rResolveIncomplete 0 0 0 0 s u ∧
        u.cm = { s.cm with cmd := none, resolving := false, answers := [] })) ∧
  (∀ (s : State) (d : Desc), s.cm.cmd = some d → d.opc = 6 → d.a0.toNat = 1 ∨ d.a0.toNat = 2 →
    Answers .commitTimeout s fun u =>
      Finishes d rCommitTimeout 0 0 0 0 s u ∧ CmdOnly s u ∧ u.cm = { s.cm with cmd := none })

/-- Commit, abort and resolution of a step (R359-R363, R365, R444). The model's choices in it: log entries 100, 101, 102, 110,
180, 181. -/
def Obligations.CommitDecisions : Prop := Claim.CommitApplies ∧ Claim.TokensOfOthers ∧ Claim.CommitResolution

/-! ## Milestones -/

/-- A freeze (R367, R369, R372): from f′ + 2,048 on the copy stands in the staging area; at its end the stream begins on two ready
ports, each segment in its slot on its port and hashed as it leaves, or stops with MS_STREAM_FAIL; without throttle frames the
COMMIT ends done with CYC = f′ + FRZ. -/
def Claim.FreezeCloses : Prop :=
  (∀ (s : State) (x : Snap), s.cm.frozen = true → s.cm.snap = some x → x.staged = false → s.cm.freezeAt + 2048 ≤ s.cyc →
    (∀ a, readByte (freezeTick s) a = readByte (stageItems x s) a) ∧ (freezeTick s).cm.freezeAt = s.cm.freezeAt ∧
      ∃ y, (freezeTick s).cm.snap = some y ∧ y.staged = true ∧ y.items = x.items ∧ y.total = x.total ∧
        freezeTick (freezeTick s) = freezeTick s) ∧
  ∀ (s : State) (x : Snap), s.cm.frozen = true → s.cm.snap = some x → s.cm.freezeAt + freezeLen s.cm.total ≤ s.cyc →
    s.cm.freezeDue = false → Quiet s →
    let c := s.cm.freezeAt + freezeLen s.cm.total
    Answers .freezeClose s fun u =>
      snapOnly s u = u ∧ u.cm.frozen = false ∧ u.cm.snap = none ∧ u.cm.step = s.cm.step ∧ u.cm.phase = s.cm.phase ∧
      (s.cm.frames = 0 → ∀ d, pendingPhase s 2 = some d →
        u.cm.cmd = none ∧ (s.cyc, .waymark (finalMark d (nextSeq s d) 0 0 0 c 0 0)) ∈ u.agenda) ∧
      (s.cm.frames ≠ 0 → u.cm.framesEnd = c + s.cm.frames * 65536 ∧ (u.cm.framesEnd, .throttleFramesEnd) ∈ u.agenda) ∧
      (∀ p, spNotReady s = some p → u.cm.lastok = false ∧ u.cm.stream = false ∧ u.cm.sending = none ∧
        (sclkAfter s.cyc, .errorRecordLog (detect s eMsStreamFail (srcOf 11 p.val) s.cyc 0 0 0 false false)) ∈ u.agenda) ∧
      (spNotReady s = none → s.sec.dik = true → s.sec.level ≠ 3 →
        (∀ g ∈ snapSegs x, rangePoison s (stageBase s + g.stage) g.len = false) →
        u.cm.stream = true ∧
        let sent := fun (g : SnapSeg) => readBytes s (stageBase s + g.stage) g.len
        u.cm.sending = some { x with hashes := (snapSegs x).map fun g => sha384D (sent g) } ∧
        ∀ k g, (snapSegs x)[k]? = some g → ∃ n,
          Out.rdma { roceHead s (segPort k) with psn := n } (slotVa s (segPort k) x.mile g.slot) (sent g) ∈ u.out)

/-- The copy of a range by the snapshot engines (R229, R231, R367), where no cache holds a line of it: every byte of the destination
takes the byte of the source as it stood before, and no other byte changes. A source that is not wholly in valid, unretired
entries reads as zeros, and such a destination is not written. -/
def Claim.SnapshotCopies : Prop :=
  ∀ (src dst n : Nat) (s : State), Memory.wf s.mem = true → Quiet s →
    let u := copyRange src dst n s
    let hit := fun (a : Nat) => dst ≤ a ∧ a < dst + n
    ((rgnGap s 65 dst n).isSome = true → u.mem = s.mem) ∧
    (rgnGap s 65 dst n = none → (rgnGap s 65 src n).isSome = true → ∀ a,
      memGet u.mem a = if hit a then 0 else memGet s.mem a) ∧
    (rgnGap s 65 dst n = none → rgnGap s 65 src n = none → cachedLines s src n = [] → cachedLines s dst n = [] → ∀ a,
      memGet u.mem a = if hit a then memGet s.mem (a - dst + src) else memGet s.mem a)

/-- The stream's end and the set record (R369-R372, R407, R458): the manifest and SNAP_DONE, a retry, spent retries,
SNAP_DONE and SNAP_FAIL at the coordinator, and the end of the throttle frames. -/
def Claim.SnapshotStream : Prop :=
  (∀ (s : State) (x : Snap), s.cm.stream = true → s.cm.sending = some x → s.cm.freezeDue = false →
    Answers .manifestWrite s fun u =>
      u.cm = { s.cm with stream := false, sending := none, lastok := true, manDigest := sha384D (manifestBytes x s) } ∧
      Out.rdma (roceHead s 0) (slotVa s 0 x.mile 0) (manifestBytes x s) ∈ u.out ∧
      (if coordinator s then (s.cyc, .snapDone (myToken s x.step 0)) ∈ u.agenda
       else u.outbox = s.outbox ++ [.token 0x0201 (some (0, 0)) (myToken s x.step 0)]) ∧
      u = { s with cm := u.cm, sp := u.sp, out := u.out, outbox := u.outbox, agenda := u.agenda }) ∧
  (∀ (p : SnapPort) (s : State), s.cm.stream = true →
    ((spSt s p).tries < spRetry s p → Answers (.rdmaRetryTimeout p) s fun u =>
      spSt u p = { spSt s p with tries := (spSt s p).tries + 1 } ∧ (∀ q, q ≠ p → spSt u q = spSt s q) ∧
      u = { s with sp := u.sp, out := u.out, fresh := u.fresh } ∧
      (∀ x, s.cm.sending = some x → ((snapSegs x).isEmpty = true → u.out = s.out) ∧
        (1 < (snapSegs x).length → ∃ k g n, (snapSegs x)[k]? = some g ∧ segPort k = p ∧ u.out = s.out ++
          [.rdma { roceHead s p with psn := n } (slotVa s p x.mile g.slot) (readBytes s (stageBase s + g.stage) g.len)]))) ∧
    (spRetry s p ≤ (spSt s p).tries → s.cm.freezeDue = false → Answers (.rdmaRetryTimeout p) s fun u =>
      spSt u p = { spSt s p with fail := true, qps := 2 } ∧ (∀ q, q ≠ p → spSt u q = spSt s q) ∧
      u.cm = { s.cm with stream := false, lastok := false, sending := none } ∧
      (sclkAfter s.cyc, .errorRecordLog (detect s eMsStreamFail (srcOf 11 p.val) s.cyc 0 0 0 false false)) ∈ u.agenda ∧
      u = { s with cm := u.cm, sp := u.sp, outbox := u.outbox, agenda := u.agenda, ck := keepCk s u })) ∧
  (∀ (p : SnapPort) (va : Nat) (bs : List Byte) (s : State),
    let u := rdmaWrite p va bs s
    let h := roceHead s p
    u.out = s.out ++ [.rdma h va bs] ∧ h.port = p ∧ h.udpDst = 4791 ∧ h.psn = (spSt s p).psn ∧
      h.udpSrc.toNat = 0xC000 + bitsOf (reg64 s (spBase p + 0x38)) 13 0 ∧ h.rkey = reg32 s (spBase p + 0x44) ∧
      h.dscp.toNat = bitsOf (reg32 s (spBase p)).toNat 27 22 ∧ h.pcp.toNat = bitsOf (reg32 s (spBase p)).toNat 21 19 ∧
      (spSt u p).psn = (spSt s p).psn + BitVec.ofNat 24 (ceilDiv bs.length (spMtu s p)) ∧
      (∀ q, q ≠ p → spSt u q = spSt s q) ∧ u = { s with out := u.out, sp := u.sp }) ∧
  (∀ (k : Token) (s : State), Taken k s → coordinator s = true →
    let n := k.step.toNat
    let from_ := s.cm.snapFrom ++ [(n, senderOf s k)]
    let old := (n, senderOf s k) ∈ s.cm.snapFrom ∨ ∃ x, s.cm.setDone = some x ∧ n ≤ x
    (old → exec (.snapDone k) s = .next s) ∧
    (¬ old → allMembers s ((from_.filter fun x => x.1 = n).map (·.2)) = true →
      exec (.snapDone k) s = .next (rdmaWrite 0 (setRecVa s) (setRecord s n)
        { s with cm := { s.cm with snapFrom := from_.filter (fun x => n < x.1), setDone := some n } })) ∧
    (¬ old → allMembers s ((from_.filter fun x => x.1 = n).map (·.2)) = false →
      exec (.snapDone k) s = .next { s with cm := { s.cm with snapFrom := from_ } }) ∧
    exec (.snapFail k) s = .next { s with cm := { s.cm with snapFrom := s.cm.snapFrom.filter fun x => x.1 ≠ n } }) ∧
  (∀ (s : State) (d : Desc), s.cm.frames ≠ 0 → s.cm.framesEnd ≤ s.cyc → pendingPhase s 2 = some d →
    Answers .throttleFramesEnd s fun u =>
      u.cm = { s.cm with frames := 0, cmd := none } ∧ CmdOnly s u ∧
      (s.cyc, .waymark (finalMark d (nextSeq s d) 0 0 0 s.cm.framesEnd 0 0)) ∈ u.agenda)

/-- The snapshot of a Milestone after its freeze (R367-R372, R407, R458). The model's choices in it: log entries 102, 103, 108,
172, 184, 185. -/
def Obligations.Snapshots : Prop := Claim.FreezeCloses ∧ Claim.SnapshotCopies ∧ Claim.SnapshotStream

/-- RESTORE (R368, R375): BEGIN checks the manifest in the order of Table 15.9, SEGMENTS loads entries whose hash matches, and
FINISH requires every entry and brings the saved state back. The model's choices in it: log entries 105, 107. -/
def Obligations.Restore : Prop :=
  (∀ (d : Desc) (s : State), rowOf d = .restoreBegin d → s.hf.linkUp = true → Quiet s → jobOf s d = none →
    let a := hostAddr d.a1
    let bs := (dmaRead (iop d) a d.a2.toNat s).1.1
    let formatOk := leField bs 0 4 = 0x534D5854 ∧ leField bs 4 2 = 1 ∧ leField bs 6 2 = 0x100 ∧
      256 + 64 * manCount bs ≤ bs.length
    let signed := caVerifies s (bs.drop (256 + 64 * manCount bs)) (sha384 (bs.take (256 + 64 * manCount bs))) = true
    let fails := fun (code : Nat) => Answers (.restoreBegin d) s fun u => Finishes d code 0 0 0 0 s u ∧ HostRead s u
    (dmaMay s a d.a2.toNat = false → Answers (.restoreBegin d) s fun u =>
      Finishes d rAddrRefused 0 0 0 0 s u ∧ AddrRecorded a s u ∧ Refused s u) ∧
    (dmaMay s a d.a2.toNat = true → rangesFree s [(a, d.a2.toNat)] = false → LooksAgain (.restoreBegin d) s) ∧
    (dmaMay s a d.a2.toNat = true → rangesFree s [(a, d.a2.toNat)] = true →
      (¬ formatOk → fails rRestoreManifest) ∧
      (formatOk → ¬ signed → fails rRestoreSignature) ∧
      (formatOk → signed → leField bs 0x14 1 ≠ myPod s ∨ leField bs 0x15 1 ≠ myRank s → fails rRestoreShape) ∧
      (∀ code, beginRefusal s d bs = some code → fails code) ∧
      (beginRefusal s d bs = none → Answers (.restoreBegin d) s fun u =>
        u.cm = { s.cm with phase := .restoring,
                           restore := some { entries := manEntries bs, cg := bitOf (leField bs 0x16 1) 0,
                                             step := leField bs 8 8, record := [], scales := [] } } ∧
        Finishes d 0 0 0 0 0 s u ∧ u = { s with cm := u.cm, hf := u.hf, agenda := u.agenda, out := u.out }))) ∧
  (∀ (d : Desc) (s : State), rowOf d = .restoreSegments d → s.hf.linkUp = true → jobOf s d = none →
    (s.cm.restore = none → Answers (.restoreSegments d) s fun u =>
      Finishes d rRestoreIncomplete 0 0 0 0 s u ∧ Refused s u) ∧
    (∀ r, s.cm.restore = some r →
      let inside := d.a2.toNat + d.a3.toNat ≤ r.entries.length
      let free := rangesFree s [(hostAddr d.a1, segmentsLen d r)]
      let (code, r', ws, v) := loadEntries d d.a3.toNat d.a2.toNat (hostAddr d.a1) r [] s
      (free = false → LooksAgain (.restoreSegments d) s) ∧
      (free = true → ¬ inside → Answers (.restoreSegments d) s fun u => Finishes d rDescMalformed 0 0 0 0 s u ∧ Refused s u) ∧
      (free = true → inside → Answers (.restoreSegments d) s fun u =>
        hostOnly s u = u ∧ u.cm = { s.cm with restore := some r' } ∧ u.mem = v.mem ∧ u.coh = v.coh ∧
        JobEnds d { endJob d 0 code with writes := ws.map fun w => (w.1, 0) } v s u ∧
        (code = 0 → ∀ i e, d.a2.toNat ≤ i → i < d.a2.toNat + d.a3.toNat → r'.entries[i]? = some e → e.loaded = true) ∧
        (∀ i e, i < d.a2.toNat ∨ d.a2.toNat + d.a3.toNat ≤ i → r'.entries[i]? = some e → r.entries[i]? = some e)))) ∧
  (∀ (d : Desc) (s : State), d.opc = 7 →
    let saved := fun (r : RestoreSt) => s.cm.phase = .restoring ∧ r.record ≠ [] ∧ ∀ e ∈ r.entries, e.loaded = true
    ((∀ r, s.cm.restore = some r → ¬ saved r) → Answers (.restoreFinish d) s fun u =>
      Finishes d rRestoreIncomplete 0 0 0 0 s u ∧ Refused s u) ∧
    (∀ r, s.cm.restore = some r → saved r → savedCountsOk s r = false → Answers (.restoreFinish d) s fun u =>
      Finishes d rRestoreImage 0 0 0 0 s u ∧ Refused s u) ∧
    (∀ r, s.cm.restore = some r → saved r → savedCountsOk s r = true → bitOf d.a0.toNat 8 = false →
      savedRegionsOk s r = false → Answers (.restoreFinish d) s fun u =>
      Finishes d rRestoreRegion 0 0 0 0 s u ∧ Refused s u) ∧
    (∀ r, s.cm.restore = some r → saved r → savedCountsOk s r = true →
      bitOf d.a0.toNat 8 = true ∨ savedRegionsOk s r = true → Answers (.restoreFinish d) s fun u =>
        u.cm.step = BitVec.ofNat 48 (leField r.record 0 8) ∧ u.cm.cg = bitOf (leField r.record 0x10 1) 0 ∧
        u.cm.restore = none ∧ u.cm.lost = [] ∧ ((∀ a ∈ s.cm.heldAbort, a.1.toNat ≠ stepInFlight u) → u.cm.phase = .idle) ∧
        (∀ k, k < 16 → laybySlot u k = { laybySlot s k with hbmPtr := leField r.record (0x18 + 16 * k) 8,
                                                             ovfPtr := leField r.record (0x20 + 16 * k) 8 }) ∧
        u.pl.retained.step = u.cm.step ∧ u.pl.retained.cg = u.cm.cg ∧
        (∀ x ∈ s.pl.nruRanges, ∀ a, nruBase + x.unit.val * 0x2000000 + x.first * nruB x.mode ≤ a →
          a < nruBase + x.unit.val * 0x2000000 + (x.first + x.count) * nruB x.mode → memGet u.mem a = 0) ∧
        Finishes d 0 0 0 0 0 s u ∧ hostOnly s u = u))

/-! ## Host commands -/

/-- A command that needs the host link while it is down (R298): it waits while the hold timer runs, and ends failed with
HOST_LOST after it. -/
def Claim.CommandsWithoutLink : Prop :=
  ∀ c ∈ [Instr.loadImage, .copyIn, .copyOut, .setScales, .queryIdentification, .queryOrphanLog, .queryRingStatus,
         .queryErrorRecords, .queryTelemetry, .restoreBegin, .restoreSegments],
    ∀ (d : Desc) (s : State), d.opc ≠ 0 → rowOf d = c d → s.hf.linkUp = false → jobOf s d = none →
      (s.hf.hold = true → LooksAgain (c d) s) ∧
      (s.hf.hold = false → Answers (c d) s fun u => Finishes d rHostLost 0 0 0 0 s u ∧ Refused s u)

/-- NOP, FENCE, COPY_IN, COPY_OUT and INLINE_WRITE (R284, R287, R288, R291, R292): the bytes moved, the prefix that a failed copy
reports, the record of a refused address, and the end once every write has its completion. -/
def Claim.HostMoves : Prop :=
  (∀ (d : Desc) (s : State), d.opc = 0 →
    Answers (.nopCommand d) s fun u =>
      u.hf.cmds.map (·.desc) = s.hf.cmds.map (·.desc) ∧ Refused s u ∧
      ∀ c w, (c, .waymark w) ∈ u.agenda → markFinal w = true → (c, .waymark w) ∈ s.agenda) ∧
  (∀ (d : Desc) (s : State), d.opc = 9 →
    Answers (.fence d) s fun u =>
      Finishes d 0 0 0 0 0 s u ∧ (∀ c ∈ u.hf.cmds, c.desc.tag ≠ d.tag) ∧ Refused s u) ∧
  (∀ (d : Desc) (s : State) (src dst : Nat) (i : Instr),
    (d.opc = 3 ∧ i = .copyIn d ∧ src = hostAddr d.a0 ∧ dst = d.a1.toNat ∨
      d.opc = 4 ∧ i = .copyOut d ∧ src = d.a0.toNat ∧ dst = hostAddr d.a1) →
    s.hf.linkUp = true → jobOf s d = none →
    let held := heldSpace (if d.opc = 3 then dst else src) && running s && !issueStopped s
    let n := d.a2.toNat
    let (j, v) := copyLoop (iop d) src dst n (ceilDiv n 64) 0 [] s (endJob d 0 0)
    (held = true ∨ rangesFree s [(src, n)] = false → LooksAgain i s) ∧
    (held = false → rangesFree s [(src, n)] = true → Answers i s fun u =>
      hostOnly s u = u ∧ u.mem = v.mem ∧ u.coh = v.coh ∧ JobEnds d j v s u ∧ (j.err = 0 → j.n = n) ∧
      (j.err ≠ 0 → j.err = rAddrRefused ∧ (AddrRecorded (src + j.n) s u ∨ AddrRecorded (dst + j.n) s u)))) ∧
  (∀ (d : Desc) (s : State), d.opc = 5 → jobOf s d = none → (heldSpace d.a0.toNat && running s && !issueStopped s) = false →
    let n := d.a1.toNat
    let (ws, v) := dmaWrite false d.a0.toNat (slice d.payload 0 n) false s
    Answers (.inlineWrite d) s fun u =>
      hostOnly s u = u ∧
      (dmaMay s d.a0.toNat n = true → u.mem = v.mem ∧ u.coh = v.coh ∧
        JobEnds d { endJob d 0 0 with writes := ws.map fun w => (w.1, 0) } v s u) ∧
      (dmaMay s d.a0.toNat n = false → Finishes d rAddrRefused 0 0 0 0 s u ∧ AddrRecorded d.a0.toNat s u ∧ Refused s u)) ∧
  (∀ (d : Desc) (s : State) (j : DmaJob), jobOf s d = some j → running s = false →
    d.opc = 3 ∨ d.opc = 4 ∨ d.opc = 5 ∨ d.opc = 8 ∨ d.opc = 10 ∨
      (d.opc = 7 ∧ d.a0.toNat % 256 = 2 ∧ s.cm.restore.isSome = true) →
    Answers (rowOf d) s fun u => JobEnds d j s s u ∧ Refused s u)

/-- NOP, FENCE, copies and inline writes, with and without the host link (R284, R287, R288, R291, R292, R298). The model's choices
in it: log entries 60, 62, 63, 67, 68, 71, 165. -/
def Obligations.HostTransfers : Prop := Claim.CommandsWithoutLink ∧ Claim.HostMoves

/-- A write by an agent without a cache is seen by the next read (R224, R258, R263), in LPDDR5X lines that no core holds and whose
homes are idle. The model's choices in it: log entry 49. -/
def Obligations.SystemWritesAreSeen : Prop :=
  ∀ (p : ReqPort) (a : Nat) (bs : List Byte) (s : State), Quiet s → lpBase ≤ a → a + bs.length ≤ lpEnd →
    rangeBusy s a bs.length = false →
    (∀ k ∈ linesOf a bs.length, let l := BitVec.ofNat 46 k
      lineBusy s l = false ∧ (dirGet s l).st = .np ∧ portFull s p l = false ∧ portMay s p true (64 * k) = true ∧
        tensorOwned s (64 * k) = false) →
    (∀ w ∈ s.pl.pw, ¬ (a ≤ w.addr ∧ w.addr < a + bs.length)) →
    readBytes (sysStore p a bs s) a bs.length = bs

/-- QUERY (R291, R295, R300): the result of each code is written to the buffer, cut at its end; VT is the bytes written. The model's
choices in it: log entries 63, 66, 67, 165. -/
def Obligations.HostQueries : Prop :=
  ∀ q ∈ ([(.queryIdentification, fun s => withLength (idBytes s), fun _ => []),
         (.queryOrphanLog, fun s => withLength (readBytes s orphanBase (48 * s.hf.orphans.length)),
           fun s => [(orphanBase, 48 * s.hf.orphans.length)]),
         (.queryRingStatus, fun s => withLength (ringRecords s), fun _ => []), (.queryErrorRecords, logResult, fun _ => []),
         (.queryTelemetry, telRecord, fun _ => [])] :
        List ((Desc → Instr) × (State → List Byte) × (State → List (Nat × Nat)))),
    ∀ (d : Desc) (s : State), rowOf d = q.1 d → s.hf.linkUp = true → jobOf s d = none →
      let bs := (q.2.1 s).take d.a2.toNat
      let (ws, v) := dmaWrite (iop d) (hostAddr d.a1) bs false s
      (rangesFree s (q.2.2 s) = false → LooksAgain (q.1 d) s) ∧
      (rangesFree s (q.2.2 s) = true → Answers (q.1 d) s fun u =>
        hostOnly s u = u ∧
        (bs = [] → Finishes d 0 0 0 0 0 s u ∧ Refused s u) ∧
        (bs ≠ [] → dmaMay s (hostAddr d.a1) bs.length = true →
          u.mem = v.mem ∧ u.coh = v.coh ∧ JobEnds d { endJob d bs.length 0 with writes := ws } v s u) ∧
        (bs ≠ [] → dmaMay s (hostAddr d.a1) bs.length = false →
          Finishes d rAddrRefused 0 0 0 0 s u ∧ AddrRecorded (hostAddr d.a1) s u ∧ Refused s u))

/-- LOAD_IMAGE and SET_SCALES (R200, R217-R219, R344): an image that is refused leaves the active and the staged one as they were;
an accepted one becomes active when none is, else it is staged; scale bytes replace the group's live table. The model's choices in
it: log entries 65, 72, 73, 75, 76, 77, 165. -/
def Obligations.ImageCommands : Prop :=
  (∀ (d : Desc) (s : State), d.opc = 2 → s.hf.linkUp = true → Quiet s → jobOf s d = none →
    let n := d.a1.toNat
    let ((bs, _), v) := dmaRead (iop d) (hostBase + d.a0.toNat) n s
    let im := imageOf (freeHalf s) bs
    let w := sysStore dmaPort (freeHalf s) bs v
    let fits := n ≤ 0x100000000 ∧ n ≤ Config.imageShare
    let ready := fits ∧ hostOk s d.a0.toNat n = true ∧ rangesFree s [(hostBase + d.a0.toNat, n)] = true
    let kept := fun (u : State) => hostOnly s u = u ∧ u.pl.active = s.pl.active ∧ u.pl.staged = s.pl.staged ∧
      u.pl.layby = s.pl.layby ∧ (s.pl.staged.isSome = true → u.mem = s.mem)
    (¬ fits → Answers (.loadImage d) s fun u => Finishes d rImageTooLarge 0 0 0 0 s u ∧ Refused s u) ∧
    (fits → hostOk s d.a0.toNat n = false → Answers (.loadImage d) s fun u =>
      Finishes d rAddrRefused 0 0 0 0 s u ∧ AddrRecorded (hostBase + d.a0.toNat % 2 ^ 48) s u ∧ Refused s u) ∧
    (fits → hostOk s d.a0.toNat n = true → rangesFree s [(hostBase + d.a0.toNat, n)] = false → LooksAgain (.loadImage d) s) ∧
    (ready → ∀ code, imgRefusal s n bs = some code → Answers (.loadImage d) s fun u =>
      Finishes d code 0 0 0 0 s u ∧ kept u) ∧
    (ready → imgRefusal s n bs = none → (∃ p ∈ allPorts, hopWrong s im p = true) → Answers (.loadImage d) s fun u =>
      Finishes d eHopMismatch 0 0 0 0 s u ∧ kept u ∧
      ∀ p ∈ allPorts, hopWrong s im p = true → PortRecord eHopMismatch p 0 (portSt s p).hoprc.toNat s u) ∧
    (ready → imgRefusal s n bs = none → (∀ p ∈ allPorts, hopWrong s im p = false) → Answers (.loadImage d) s fun u =>
      Finishes d 0 0 0 0 0 s u ∧ u.mem = w.mem ∧ hostOnly s u = u ∧
      (s.pl.active = none → u.pl.active = some im ∧ u.pl.wsys = im.wsys ∧ .setDigest im.setDigest ∈ u.outbox ∧
        ∀ k, k < 16 → laybySlot u k = { im.layby.getD k {} with hbmPtr := (laybySlot s k).hbmPtr,
                                                                 ovfPtr := (laybySlot s k).ovfPtr }) ∧
      (∀ old, s.pl.active = some old → u.pl.active = some old ∧ u.pl.staged = some im ∧ u.pl.layby = s.pl.layby))) ∧
  (∀ (d : Desc) (s : State), d.opc = 8 → s.hf.linkUp = true → Quiet s → jobOf s d = none →
    let free := rangesFree s [(hostAddr d.a1, d.a2.toNat)]
    let fails := fun (code : Nat) => Answers (.setScales d) s fun u => Finishes d code 0 0 0 0 s u ∧ HostRead s u
    (free = false → LooksAgain (.setScales d) s) ∧
    (free = true → scaleEntry s d.a0.toNat = none → fails rDescMalformed) ∧
    (free = true → ∀ im x, scaleEntry s d.a0.toNat = some (im, x) →
      let ((bs, _), r) := dmaRead (iop d) (hostAddr d.a1) x.count s
      let (ws, v) := storeReqs dmaPort (im.load + x.offset) bs false r
      (d.a2.toNat ≠ x.count → fails rDescMalformed) ∧
      (d.a2.toNat = x.count → x.count ≠ 0 → hostOk s d.a1.toNat x.count = false → fails rAddrRefused) ∧
      (d.a2.toNat = x.count → x.count = 0 ∨ hostOk s d.a1.toNat x.count = true →
        ((∃ b ∈ bs, 0xE7 < b.toNat) → fails rDescMalformed) ∧
        ((∀ b ∈ bs, b.toNat ≤ 0xE7) → Answers (.setScales d) s fun u =>
          hostOnly s u = u ∧ u.mem = v.mem ∧ u.coh = v.coh ∧
          JobEnds d { endJob d 0 0 with writes := ws.map fun w => (w.1, 0) } v s u))))

/-! ## The command rings -/

/-- Doorbells (R281): a 32-bit write at the first byte of a ring's page; any other access of a page has no effect and reads 0.
An older value is ignored, a value beyond the freed slots halts the ring, any other becomes A. -/
def Obligations.Doorbells : Prop :=
  (∀ (sys : Bool) (off : BitVec 26) (wide : Bool) (v : W64) (s : State), 0x1000000 ≤ off.toNat →
    regRead s off.toNat = 0 ∧ barRead s off.toNat = 0 ∧
    (sys = true ∨ wide = true ∨ off.toNat % 0x1000 ≠ 0 → exec (.registerWrite sys off wide v) s = .next s)) ∧
  (∀ (r : Ring) (v : W64) (s : State), writesOpen false s = true → inBlockReset s 0 = false →
    exec (.registerWrite false (BitVec.ofNat 26 (0x1000000 + 0x1000 * r.val)) false v) s = exec (.doorbell r (v.setWidth 32)) s) ∧
  ∀ (r : Ring) (v : W32) (s : State),
    let x := ring s r
    (x.en = false ∨ x.halted = true → exec (.doorbell r v) s = .next s) ∧
    (x.en = true → x.halted = false → 1 ≤ (x.a - v).toNat ∧ (x.a - v).toNat ≤ 0x80000000 →
      exec (.doorbell r v) s = .next s) ∧
    (x.en = true → x.halted = false → ¬ (1 ≤ (x.a - v).toNat ∧ (x.a - v).toNat ≤ 0x80000000) →
      (2 ^ ringSize s r < (v - x.c).toNat → Answers (.doorbell r v) s fun u =>
        Halted r rDoorbellRange s u ∧ hostOnly s u = u) ∧
      ((v - x.c).toNat ≤ 2 ^ ringSize s r → Answers (.doorbell r v) s fun u =>
        (ring u r).a = v ∧ (ring u r).c = x.c ∧ (ring u r).halted = false ∧ OtherRings r s u ∧
        u = { s with hf := { s.hf with rings := u.hf.rings } }))

/-- The fetch of a ring (R277, R282-R285, R294, R296, R297): the slots are read by Peeks and wait for busy lines; at most 8 pass C. A
descriptor that passes is accepted, one that breaks a table is refused with its code, a stale one is fetched again, and the 32nd
stale refetch halts the ring with RING_STALE. The model's choices in it: log entries 60, 64, 65. -/
def Claim.Fetches : Prop :=
  ∀ (r : Ring) (vis : List HostStore) (s : State),
    let w := hostStores vis s
    let x := ring w r
    let looks := fun (i again : Instr) => Quiet w →
      (rangesFree w [(slotAddr w r, 64 * fetchSpan w r)] = false → Answers i s fun u =>
        (s.cyc + 1, again) ∈ u.agenda ∧ u.hf = { w.hf with rr := u.hf.rr }) ∧
      (rangesFree w [(slotAddr w r, 64 * fetchSpan w r)] = true → Answers i s fun u =>
        hostOnly s u = u ∧ ((ring u r).c - x.c).toNat ≤ 8 ∧ OtherRings r w u ∧
        match lookSlot r 8 w with
        | .wait => ring u r = x ∧ u.hf.cmds = w.hf.cmds
        | .stale =>
          (x.refetch < 32 → ring u r = { x with refetch := x.refetch + 1 }) ∧
          (32 ≤ x.refetch → Halted r rStaleDescriptor w u ∧
            (sclkAfter s.cyc, .errorRecordLog (detect s eRingStale (srcOf 12 r.val) s.cyc 0 x.c.toNat 0 false false)) ∈ u.agenda)
        | .halt => Halted r rDescWaymark w u ∧ u.hf.cmds = w.hf.cmds
        | .refuse code d n =>
          (d.opc ≠ 0 → (s.cyc, .waymark (finalMark d 1 code 0 0 s.cyc 0 0)) ∈ u.agenda) ∧
          (x.a = x.c + BitVec.ofNat 32 n → (ring u r).c = x.a ∧ u.hf.cmds = w.hf.cmds)
        | .take d n =>
          (d.opc ≠ 0 → ∃ c ∈ u.hf.cmds, c.desc = d) ∧ (d.opc = 0 → (s.cyc, .nopCommand d) ∈ u.agenda) ∧
          (x.a = x.c + BitVec.ofNat 32 n → (ring u r).c = x.a ∧ (ring u r).refetch = 0))
    (mayFetch w r = false → exec (.descriptorFetch r vis) s = .next (hostOnly s w) ∧
      exec (.staleRefetch r vis) s = .next (hostOnly s w)) ∧
    (mayFetch w r = true → x.refetch = 0 → (∀ q, q ≠ r → mayFetch w q = false ∨ (ring w q).refetch ≠ 0) →
      looks (.descriptorFetch r vis) (.descriptorFetch r [])) ∧
    (x.refetch = 0 → exec (.staleRefetch r vis) s = .next (hostOnly s w)) ∧
    (mayFetch w r = true → x.refetch ≠ 0 → looks (.staleRefetch r vis) (.staleRefetch r [])) ∧
    (x.refetch ≠ 0 → exec (.descriptorFetch r vis) s = .next (hostOnly s w))

/-- The arbiter (R296): the schedule ring comes first, the others follow in round-robin order from the one served last, and a ring
that asks is served after at most 63 others. -/
def Claim.Turns : Prop :=
  ∀ (r : Ring) (s : State), mayFetch s r = true → (ring s r).refetch = 0 →
    let ts := turnsTo s r
    ts.getLast? = some r ∧ ts.Nodup ∧ ts.length ≤ 64 ∧
    (∀ q ∈ ts, mayFetch s q = true ∧ (ring s q).refetch = 0) ∧
    (∀ q, schedRing s = some q → mayFetch s q = true → (ring s q).refetch = 0 → ts.head? = some q) ∧
    (schedRing s ≠ some r → ∀ q, q ≠ r → schedRing s ≠ some q → mayFetch s q = true → (ring s q).refetch = 0 →
      (q ∈ ts ↔ (q.val + 63 - s.hf.rr.val) % 64 < (r.val + 63 - s.hf.rr.val) % 64))

/-- The fetches of the rings and their order (R277, R282-R285, R294, R296, R297). The model's choices in it: log entries 60, 64, 65,
165. -/
def Obligations.RingFetches : Prop := Claim.Fetches ∧ Claim.Turns

/-- Waymarks (R289, R298, R300, R301, Table 12.5): written while the link is up, tried again while the hold timer runs, and a final
one logged as an orphan after it; a torn-down ring's last one is followed by its status record; the layout of the 32 bytes. The
model's choices in it: log entries 61, 166. -/
def Obligations.Waymarks : Prop :=
  (∀ (w : WaymarkReq) (s : State), (ring s w.desc.ring).torn = false →
    (s.hf.linkUp = true → exec (.waymark w) s = .next (hostOnly s (writeMark w s))) ∧
    (s.hf.linkUp = false → s.hf.hold = true → LooksAgain (.waymark w) s) ∧
    (s.hf.linkUp = false → s.hf.hold = false → markFinal w = true →
      exec (.waymark w) s = .next (hostOnly s (orphan w s)) ∧ (orphan w s).hf.orphans = s.hf.orphans ++ [⟨w⟩]) ∧
    (s.hf.linkUp = false → s.hf.hold = false → markFinal w = false → exec (.waymark w) s = .next s)) ∧
  (∀ (w : WaymarkReq) (s : State), (ring s w.desc.ring).torn = true → s.hf.linkUp = true → s.hf.hold = false →
    markFinal w = true → inflight s w.desc.ring = 0 →
    exec (.waymark w) s = .next (hostOnly s (writeStatus w.desc.ring (writeMark w s)))) ∧
  (∀ (w : WaymarkReq) (st prior : BitVec 4),
    let b := markBytes w st prior
    b.length = 32 ∧ leField b 0 2 = w.desc.tag.toNat ∧ leField b 2 2 = w.seq.toNat ∧
    leField b 4 1 = st.toNat + 16 * prior.toNat ∧ leField b 5 1 = w.flags.toNat ∧ leField b 6 2 = w.err.toNat ∧
    leField b 8 6 = w.vt.toNat ∧ leField b 14 2 = 0 ∧ leField b 16 8 = w.cyc.toNat ∧ leField b 24 4 = w.nfb.toNat ∧
    leField b 28 4 = w.nfi.toNat)

/-- Set-up and tear-down of a ring (R278-R280, R286, R301, Table 12.2): a ring at an address outside the grants keeps EN = 0
and shows RING_ADDR; an accepted one runs with C = A = its size; a tear-down ends the fetches and leaves C, the accepted
commands and the other rings; LDCLR clears HWM and STALL. -/
def Claim.RingLife : Prop :=
  ∀ (r : Ring) (s : State),
    let x := ring s r
    let k := BitVec.ofNat 32 (2 ^ ringSize s r)
    (x.en = true ∨ s.ck.ready = false → exec (.ringEnable r) s = .next s) ∧
    (x.en = false → s.ck.ready = true → ringAllowed s r = false → Answers (.ringEnable r) s fun u =>
      ring u r = { x with haltCode := BitVec.ofNat 16 rRingAddr } ∧ OtherRings r s u ∧
      u = { s with hf := { s.hf with rings := u.hf.rings } }) ∧
    (x.en = false → s.ck.ready = true → ringAllowed s r = true → Answers (.ringEnable r) s fun u =>
      (ring u r).en = true ∧ (ring u r).c = k ∧ (ring u r).a = k ∧ (ring u r).halted = false ∧ (ring u r).haltCode = 0 ∧
      (ring u r).torn = false ∧ (s.hf.linkUp = true → (ring u r).seq = 1) ∧ OtherRings r s u ∧ hostOnly s u = u) ∧
    (x.en = false → exec (.ringTeardown r) s = .next s) ∧
    (x.en = true → Answers (.ringTeardown r) s fun u =>
      (ring u r).en = false ∧ (ring u r).halted = false ∧ (ring u r).torn = true ∧ (ring u r).c = x.c ∧
      u.hf.cmds = s.hf.cmds ∧ OtherRings r s u ∧ hostOnly s u = u) ∧
    (Answers (.ldclr r) s fun u =>
      ring u r = { x with hwm := 0, stall := 0, waited := 0 } ∧ OtherRings r s u ∧ u = { s with hf := { s.hf with rings := u.hf.rings } })

/-- The loss of the host (R298-R300, R365, R388): LINK_DOWN starts the hold timer; LINK_UP ends it and issues every request
without a completion again, in its order; its expiry, or a function-level reset, resets the front end, the expiry also forming
HOST_LOST; PARK takes effect when no schedule-class command is left; RESUME, OCLR and DELIVER. -/
def Claim.HostLoss : Prop :=
  (∀ (s : State), exec .linkDown s =
    .next (if s.hf.linkUp then { s with hf := { s.hf with linkUp := false, hold := true } } else s)) ∧
  (∀ (s : State),
    (s.hf.linkUp = true ∨ s.ck.bring < 6 → exec .linkUp s = .next s) ∧
    (s.hf.linkUp = false → 6 ≤ s.ck.bring → Answers .linkUp s fun u =>
      u.hf = { s.hf with linkUp := true, hold := false, msixPend := u.hf.msixPend } ∧ hostOnly s u = u ∧
      u.coh.link = s.coh.link ∧ (∀ x ∈ s.coh.link, Out.cxl x.name x.line x.data x.be ∈ u.out) ∧
      (s.hf.parked = false → u =
        { s with hf := { s.hf with linkUp := true, hold := false }, out := s.out ++ s.coh.link.map fun x =>
                 .cxl x.name x.line x.data x.be }))) ∧
  (∀ (s : State),
    (s.hf.hold = false → exec .holdTimerExpiry s = .next s) ∧
    (s.ck.inReset = true → s.hf.hold = true → exec .holdTimerExpiry s = .next (withCause 4 s)) ∧
    (s.ck.inReset = false → s.hf.hold = true → Answers .holdTimerExpiry s fun u =>
      FrontEndReset s u ∧ .token 0x0106 none (myToken s s.cm.step.toNat 0) ∈ u.outbox ∧
      (u.hf.parked = true ∨ u.hf.parkPending = true)) ∧
    (s.ck.inReset = true → exec .functionLevelReset s = .next (withCause 4 s)) ∧
    (s.ck.inReset = false → Answers .functionLevelReset s fun u => FrontEndReset s u ∧
      (∀ k, .token 0x0106 none k ∈ u.outbox → .token 0x0106 none k ∈ s.outbox) ∧
      (s.hf.parkPending = false → u.hf.parked = s.hf.parked))) ∧
  (∀ (s : State),
    (s.hf.parkPending = false ∨ (∃ c ∈ s.hf.cmds, schedClass c.desc.opc = true) → exec .park s = .next s) ∧
    (s.hf.parkPending = true → (∀ c ∈ s.hf.cmds, schedClass c.desc.opc = false) →
      exec .park s = .next { s with hf := { s.hf with parked := true, parkPending := false } }) ∧
    exec .resume s = .next { s with hf := { s.hf with parked := false, lost := false } } ∧
    exec .oclr s = .next { s with hf := { s.hf with orphans := [] } } ∧
    (Answers .deliver s fun u =>
      u.hf = { s.hf with parked := false, lost := false, orphans := if s.hf.linkUp then [] else s.hf.orphans } ∧
      hostOnly s u = u ∧ (s.hf.linkUp = false → u.mem = s.mem)))

/-- The life of a ring, and the loss of the host (R278-R280, R298-R301, R365, R388). The model's choices in it: log entries 61,
63, 66, 170, 171. -/
def Obligations.RingsAndHostLoss : Prop := Claim.RingLife ∧ Claim.HostLoss

/-! ## Errors -/

/-- The log writer (R438-R442): a corrected error merges into the record that stands for it, any other detection makes one
new record with the next SEQ, copied to the persistent log unless its class is COR. A check that fails on the present cycle
(`late`, log entry 143) sends its record to the log and aborts the step (R362). -/
def Claim.LogWriter : Prop :=
  ∀ (r : Detect) (s : State),
    let x := recOf s r false
    let mergeable := codeClass r.code.toNat = 1 ∧ ∃ y ∈ s.log.recs, mergesWith s r y = true
    (r.late = true → Answers (.errorRecordLog r) s fun u =>
      Alarm s u ∧ (running s = true → (∃ n, u.pl.stopAt = some n ∧ n ≤ r.tcyc.toNat + 16) ∧ (r.code ≠ 0 → u.cm.abortCode ≠ 0)) ∧
      (sclkAfter r.tcyc.toNat, .errorRecordLog { r with late := false, pod := announces s, step := s.cm.step.setWidth 64 }) ∈
        u.agenda) ∧
    (r.late = false → mergeable → Answers (.errorRecordLog r) s fun u =>
      u.log.seq = s.log.seq ∧ u.fd = s.fd ∧ logOnly s u = u ∧
      u.log.recs = s.log.recs.map fun y => if mergesWith s r y then { y with count := satAdd y.count 1 } else y) ∧
    (r.late = false → ¬ mergeable → Answers (.errorRecordLog r) s fun u =>
      logOnly s u = u ∧ u.log.seq = s.log.seq + 1 ∧
      (s.log.recs.length < 4096 → u.log.recs = s.log.recs ++ [x] ∧ u.log.lost = s.log.lost) ∧
      (s.log.recs.length = 4096 → (∀ y ∈ s.log.recs, classRank r.code.toNat < classRank y.code.toNat) →
        u.log.recs = s.log.recs ∧ u.log.lost = satAdd s.log.lost 1) ∧
      (codeClass r.code.toNat = 1 → u.fd = s.fd) ∧
      (codeClass r.code.toNat ≠ 1 → u.fd = { s.fd with plog := plogPut x s.fd.plog }) ∧
      x.code = r.code ∧ x.src = r.src ∧ x.seq = s.log.seq + 1 ∧ x.count = 1 ∧ x.tcyc = r.tcyc ∧ x.addr = r.addr ∧
      x.info0 = r.info0 ∧ x.info1 = r.info1 ∧ x.step = r.step ∧ x.hours = s.ck.hours ∧
      (retires { s with log := u.log } r = false → u.regs = s.regs ∧ u.mem = s.mem ∧ u.coh = s.coh))

/-- ERR.CTRL.CLR and PCLR, and a write of an injection slot (R445, R446, Tables 19.8, 19.9): COUNT restarts, FIRED is
write-one-to-clear but stays when hardware sets it on the same edge (R9), MODE is 0 for a code, a source kind or a debug level that the slot does not take. -/
def Claim.ErrorControls : Prop :=
  (∀ s : State, exec .clr s = .next { s with log := { s.log with recs := [] } }) ∧
  (∀ s : State, exec .pclr s = .next { s with fd := { s.fd with plog := [] } }) ∧
  (∀ (n : Fin 8) (v : W64) (s : State),
    Answers (.injectionSlotWrite n v) s fun u =>
      let x := reg64 u (injCtl n.val)
      let w := v.toNat
      bitsOf x 15 0 = bitsOf w 15 0 ∧ bitsOf x 31 16 = bitsOf w 31 16 ∧ bitsOf x 47 32 = min 0xFFFF (firedNow s n.val) ∧
      bitsOf x 59 48 = bitsOf w 59 48 ∧ bitOf x 61 = (bitOf (reg64 s (injCtl n.val)) 61 &&
        !(bitOf w 61 && !(edgeBits s false (injCtl n.val + 4)).getLsbD 29)) ∧
      (bitsOf x 63 62 = 0 ∨ bitsOf x 63 62 = bitsOf w 63 62) ∧
      (bitsOf w 63 62 = 3 ∨ codeKnown (bitsOf w 15 0) = false ∨ (srcKinds (bitsOf w 15 0)).contains (bitsOf w 31 28) = false ∨
        (injGuarded (bitsOf w 15 0) = true ∧ s.sec.level.toNat < 2) → bitsOf x 63 62 = 0) ∧
      (∀ o, o + 4 ≤ injCtl n.val ∨ injCtl n.val + 8 ≤ o → o % 4 = 0 → reg32 u o = reg32 s o) ∧
      u = { s with regs := u.regs, ck := keepCk s u })

/-- Error records and injection (R438-R446). The model's choices in it: log entries 59, 137, 140, 143,
182. -/
def Obligations.ErrorRecords : Prop := Claim.LogWriter ∧ Claim.ErrorControls

/-! ## The memory system -/

/-- RGN.CTRL.ARM (R9, R228, R232, R233): ARM is set, and with an image active the staged table waits for the fence; without one
it is applied on the next SCLK edge. It becomes active as a whole, or not at all when it breaks R228 or a snoop filter holds a
line that it would take. -/
def Claim.Arming : Prop :=
  (∀ (s : State), Answers .arm s fun u =>
    bitOf (reg32 u 0x20400).toNat 0 = true ∧ (∀ o, o % 4 = 0 → o ≠ 0x20400 → reg32 u o = reg32 s o) ∧
    u = { s with regs := u.regs, ck := keepCk s u }) ∧
  (∀ (s : State),
    let due := s.cyc % 4 = 0 ∧ s.pl.active = none ∧ bitOf (reg32 s 0x20400).toNat 0 = true ∧
      edgeBits s true 0x20400 &&& 1#32 = 0
    (due → armEdge s = applyRegions s) ∧ (¬ due → armEdge s = s)) ∧
  (∀ (s : State),
    let new := rgnStaged s
    let u := applyRegions s
    memOnly s u = u ∧ u.tel.retire = 0 ∧
    (edgeBits s true 0x20400 &&& 1#32 = 0 → bitOf (reg32 u 0x20400).toNat 0 = false) ∧
    (rgnTableOk new = true → rgnDirty s new = none → ∀ n, n < 64 → reg64 u (0x20000 + 8 * n) = reg64 s (0x20200 + 8 * n)) ∧
    (rgnTableOk new = false → bitOf (reg32 u 0x20400).toNat 1 = true ∧ u.mem = s.mem ∧ u.coh = s.coh ∧
      ∀ n, n < 64 → reg64 u (0x20000 + 8 * n) = reg64 s (0x20000 + 8 * n)) ∧
    (∀ e, rgnTableOk new = true → rgnDirty s new = some e → bitOf (reg32 u 0x20400).toNat 2 = true ∧ u.mem = s.mem ∧
      u.coh = s.coh ∧ (∀ n, n < 64 → reg64 u (0x20000 + 8 * n) = reg64 s (0x20000 + 8 * n)) ∧
      (sclkAfter s.cyc, .errorRecordLog (detect s eRegionDirty 0 s.cyc e.base 0 0 false false)) ∈ u.agenda))

/-- A channel serves the requests of its queue whose positions have come, first in, first out: a read takes the line, a write
stands in memory, and the answer is back 8 MCLK later; the queue holds at most 64 (R238). A scrub reads one line of each channel,
and an uncorrectable one is poisoned in place (R245, R246). -/
def Claim.MemoryControllers : Prop :=
  (∀ (c : Chan) (s : State), Quiet s →
    let x := hbmChanAt s c.val
    Answers (.systemWindowOpen c) s fun u =>
      memOnly s u = u ∧ u.out = s.out ∧ (∀ k, k ≠ c.val → hbmChanAt u k = hbmChanAt s k) ∧
      (x.q.length ≤ 64 → (hbmChanAt u c.val).q.length ≤ 64) ∧
      (x.wait = [] → (∀ r ∈ x.q.head?, s.cyc < 2 * r.land) →
        hbmChanAt u c.val = x ∧ u.mem = s.mem ∧ u.coh.hbmData = s.coh.hbmData) ∧
      (∀ r rest, x.wait = [] → x.q = r :: rest → 2 * r.land ≤ s.cyc → (∀ y ∈ rest.head?, s.cyc < 2 * y.land) →
        hbmChanAt u c.val = { x with q := rest } ∧
        (r.req.wr = none → u.mem = s.mem ∧ u.coh.hbmData = s.coh.hbmData ++ [⟨s.cyc + 16, r.req, r.use,
          bytesLine (sysMem s (r.req.addr / 64 * 64) 64), s.coh.poison.contains (r.req.addr / 64), false⟩]) ∧
        (∀ d be po, r.req.wr = some (d, be, po) → u.mem = (lineToMem r.req.addr d be po s).mem ∧
          u.coh.hbmData = s.coh.hbmData ++ if r.use = .post then [] else [⟨s.cyc + 16, r.req, r.use, 0, false, false⟩]))) ∧
  (∀ (s : State), s.coh.scrub < hbmChanLines →
    Answers .patrolScrub s fun u =>
      memOnly s u = u ∧ u.coh.scrub = (s.coh.scrub + 1) % hbmChanLines ∧
      (s.coh.flips = [] → u = { s with coh := { s.coh with scrub := u.coh.scrub } }) ∧
      (∀ e ∈ s.coh.flips, ∀ c, c < 192 → e.line = hbmChanLine c s.coh.scrub → e.code.toNat = eHbmUe →
        e.line ∈ u.coh.poison)) ∧
  (∀ (s : State), 4 * s.coh.lpScrub + 3 < lpStackLines →
    Answers .lpddr5xScrub s fun u =>
      memOnly s u = u ∧ u.coh.lpScrub = (s.coh.lpScrub + 1) % (lpStackLines / 4) ∧
      (s.coh.flips = [] → u = { s with coh := { s.coh with lpScrub := u.coh.lpScrub } }) ∧
      (∀ e ∈ s.coh.flips, ∀ k j, k < 12 → j < 4 → e.line = lpStackLine k (4 * s.coh.lpScrub + j) →
        e.code.toNat = eLpUe → e.line ∈ u.coh.poison))

/-- The region table, the system windows and the scrubs (R9, R228, R232, R233, R238, R245, R246). The model's choices in it: log
entries 10, 52, 57, 162. -/
def Obligations.MemorySystem : Prop := Claim.Arming ∧ Claim.MemoryControllers

/-! ## Coherence -/

/-- A core's own loads, stores and evictions (R255, R260, R265, Tables 11.2, 11.4): hits complete at once, misses and missing
permission send a request under the next transaction number, a line in transition is tried again on the next cycle, and an
uncached access becomes a Peek, Place or Merge. A miss of a full L2 sends its request too, after it has given up a line. -/
def Claim.CoreAccesses : Prop :=
  (∀ (c : CoreId) (a : CoreAccess) (s : State), coreIdle s c = false →
    let l := addrLine a.addr
    let x := l2Get s c l
    let n := s.coh.txns
    (a.uncached = true → exec (.coreLoad c a) s = .next (if a.atomic then emit (.coreExc c false) s
      else schedNow (.peek (corePort c) ⟨l, n⟩) (begun s))) ∧
    (a.uncached = false →
      (x.st = .m ∨ x.st = .o ∨ x.st = .e ∨ x.st = .s →
        exec (.coreLoad c a) s = .next (emit (if x.poison then .coreExc c true else .coreData c x.data) s)) ∧
      (x.st = .i → Answers (.coreLoad c a) s fun u => ∃ k,
        u.coh.txns = k + 1 ∧ l2Get u c l = { st := .isD, no := k } ∧ (s.cyc, .gets c ⟨l, k⟩) ∈ u.agenda ∧ u.out = s.out ∧
        (s.coh.l2.length < 32768 → k = n ∧ Sends [.gets c ⟨l, n⟩] s u ∧ CoreFrame c l (begun s) u)) ∧
      (x.st ∉ [L2St.m, .o, .e, .s, .i] → exec (.coreLoad c a) s = .next (sched (s.cyc + 1) (.coreLoad c a) s)))) ∧
  (∀ (c : CoreId) (a : CoreAccess) (v : LineData) (s : State), coreIdle s c = false →
    let l := addrLine a.addr
    let x := l2Get s c l
    let n := s.coh.txns
    let d := bytesLine (zeros (a.addr % 64) ++ (lineBytes v).take (accessLen a))
    let be := beOf (a.addr % 64) (accessLen a)
    (a.uncached = true → exec (.coreStore c a v) s = .next (if a.atomic then emit (.coreExc c false) s
      else schedNow (if be = BitVec.allOnes 64 then .place (corePort c) ⟨l, n⟩ ⟨d, false⟩ else .merge (corePort c) ⟨l, n⟩ ⟨d, false⟩ be)
        (begun s))) ∧
    (a.uncached = false →
      (x.st = .m ∨ x.st = .e → Answers (.coreStore c a v) s fun u =>
        l2Get u c l = { x with st := .m, data := mergeLine x.data d be,
                               poison := x.poison && decide (be ≠ BitVec.allOnes 64) } ∧
        CoreFrame c l s u ∧ u.out = s.out ∧ u.agenda = s.agenda) ∧
      (x.st = .o ∨ x.st = .s → Answers (.coreStore c a v) s fun u =>
        l2Get u c l = { x with st := if x.st = .o then .omA else .smA, got := 0, want := none, wait := some (be, d), no := n } ∧
        Sends [.upg c ⟨l, n⟩] s u ∧ CoreFrame c l (begun s) u ∧ u.out = s.out) ∧
      (x.st = .i → Answers (.coreStore c a v) s fun u => ∃ k,
        u.coh.txns = k + 1 ∧ l2Get u c l = { st := .imAd, wait := some (be, d), no := k } ∧ (s.cyc, .getm c ⟨l, k⟩) ∈ u.agenda ∧
        u.out = s.out ∧
        (s.coh.l2.length < 32768 → k = n ∧ Sends [.getm c ⟨l, n⟩] s u ∧ CoreFrame c l (begun s) u)) ∧
      (x.st ∉ [L2St.m, .o, .e, .s, .i] → exec (.coreStore c a v) s = .next (sched (s.cyc + 1) (.coreStore c a v) s)))) ∧
  (∀ (c : CoreId) (l : Line) (s : State),
    let x := l2Get s c l
    let n := s.coh.txns
    let leaves := fun (st : L2St) (m : Instr) => Answers (.coreEvict c l) s fun u =>
      l2Get u c l = { x with st := st, no := n } ∧ Sends [m] s u ∧ CoreFrame c l (begun s) u ∧ u.out = s.out
    (x.st = .m → leaves .miA (.putm c ⟨l, n⟩ x.data x.poison)) ∧ (x.st = .o → leaves .oiA (.puto c ⟨l, n⟩ x.data x.poison)) ∧
    (x.st = .e → leaves .eiA (.pute c ⟨l, n⟩)) ∧
    (x.st = .s → Answers (.coreEvict c l) s fun u => l2Get u c l = {} ∧ Sends [] s u ∧ CoreFrame c l s u ∧ u.out = s.out) ∧
    (x.st ∉ [L2St.m, .o, .e, .s] → exec (.coreEvict c l) s = .next s))

/-- GetS, GetM, Upg and the Puts at the home (R231, R233, R256, R258, R259, R261, R267, Table 11.3): checked as the home accepts
them; a busy line queues them; a full set of the filter recalls a line first; data of HBM that the L3 does not hold is asked of
its channel. -/
def Claim.CoreRequests : Prop :=
  (∀ (c : CoreId) (l : Line) (d : LineData) (po : Bool) (x : TxnNo) (s : State), Quiet s →
    ∀ q ∈ [(Instr.gets c ⟨l, x⟩, HomeReq.gets c), (.getm c ⟨l, x⟩, .getm c), (.upg c ⟨l, x⟩, .upg c),
           (.putm c ⟨l, x⟩ d po, .put c true (some (d, po))), (.puto c ⟨l, x⟩ d po, .put c true (some (d, po))),
           (.pute c ⟨l, x⟩, .put c false none)],
      (lineBusy s l = true → Answers q.1 s fun u =>
        txnGet u l = { txnGet s l with queue := (txnGet s l).queue ++ [⟨q.2, x⟩] } ∧ OtherLines l s u ∧
        u = { s with coh := { s.coh with busy := u.coh.busy } }) ∧
      (IdleLine l s → cachedMay s (lineAddr l) = false → Answers q.1 s fun u =>
        IdleLine l u ∧ OtherLines l s u ∧ u = { s with coh := { s.coh with busy := u.coh.busy }, agenda := u.agenda } ∧
        u.agenda = s.agenda ++ [(sclkAfter s.cyc, .errorRecordLog (detect s eRegionAccess (srcOf 6 c.val) s.cyc (lineAddr l)
          (c.val * 2 ^ 16) 0 false false)), (s.cyc, .nack c ⟨l, x⟩ true)])) ∧
  (∀ (c : CoreId) (l v : Line) (x : TxnNo) (s : State), IdleLine l s → cachedMay s (lineAddr l) = true → wayVictim s l = some v →
    ∀ q ∈ [(Instr.gets c ⟨l, x⟩, HomeReq.gets c), (.getm c ⟨l, x⟩, .getm c), (.upg c ⟨l, x⟩, .upg c)], Answers q.1 s fun u =>
      txnGet u l = { way := some v, queue := [⟨q.2, x⟩] } ∧ OtherLines l s u ∧ (v, .way) ∈ u.coh.recalls ∧
      u = { s with coh := { s.coh with busy := u.coh.busy, recalls := u.coh.recalls } }) ∧
  (∀ (c : CoreId) (l : Line) (x : TxnNo) (s : State), Quiet s → IdleLine l s → cachedMay s (lineAddr l) = true →
    wayVictim s l = none →
    let e := dirGet s l
    let h := (hmcGet s l).st
    let others := otherHolders s l c
    let inv := fun y => Instr.inv y ⟨l, x⟩ (some c)
    let data := homeLine s l
    (hostLine l = false ∨ h ≠ .i →
      (e.st = .np ∨ e.st = .sh → AtHand s l → Answers (.gets c ⟨l, x⟩) s fun u => HomeBusy l ⟨.gets c, x⟩ s u ∧
        Sends [if e.st = .np ∧ mayGrantE s l = true then .datae c ⟨l, x⟩ data.1 0 data.2
               else .datas c ⟨l, x⟩ data.1 false data.2] s u) ∧
      (e.st = .np ∨ e.st = .sh → ¬ AtHand s l → Answers (.gets c ⟨l, x⟩) s (LineAsked (corePort c) l ⟨.gets c, x⟩ s)) ∧
      (e.st = .ex ∨ e.st = .os → Answers (.gets c ⟨l, x⟩) s fun u =>
        HomeBusy l ⟨.gets c, x⟩ s u ∧ Sends [.fwds (ownerOf e) ⟨l, x⟩ c] s u)) ∧
    (hostLine l = true → h = .i → Answers (.gets c ⟨l, x⟩) s (HostAsked ⟨"RdShared", l, none, 0⟩ ⟨.gets c, x⟩ s)) ∧
    (hostLine l = true → h = .i ∨ h = .s →
      let name := if h = .i then "RdOwn" else "RdOwnNoData"
      Answers (.getm c ⟨l, x⟩) s (HostAsked ⟨name, l, none, 0⟩ ⟨.getm c, x⟩ s) ∧
      Answers (.upg c ⟨l, x⟩) s (HostAsked ⟨name, l, none, 0⟩ ⟨.upg c, x⟩ s)) ∧
    (hostLine l = false ∨ h = .e ∨ h = .m →
      (AtHand s l ∨ e.st = .ex ∨ e.st = .os →
        Answers (.getm c ⟨l, x⟩) s fun u => HomeBusy l ⟨.getm c, x⟩ s u ∧ Sends (match e.st with
          | .np => [.datae c ⟨l, x⟩ data.1 0 data.2]
          | .sh => others.map inv ++ [.datae c ⟨l, x⟩ data.1 others.length data.2]
          | .ex => [.fwdm (ownerOf e) ⟨l, x⟩ (some c)]
          | .os => others.map inv ++ [.fwdm (ownerOf e) ⟨l, x⟩ (some c)]) s u) ∧
      (¬ AtHand s l → e.st = .np ∨ e.st = .sh → Answers (.getm c ⟨l, x⟩) s (LineAsked (corePort c) l ⟨.getm c, x⟩ s)) ∧
      (holder e c = true →
        let all := ((if e.st = .os then [ownerOf e] else []) ++ (if e.st = .ex then [] else sharersOf e)).filter (· ≠ c)
        Answers (.upg c ⟨l, x⟩) s fun u => HomeBusy l ⟨.upg c, x⟩ s u ∧
          Sends (all.map inv ++ [.ack (.granted c all.length) ⟨l, x⟩]) s u) ∧
      (holder e c = false → ∀ u, exec (.getm c ⟨l, x⟩) s = .next u → Answers (.upg c ⟨l, x⟩) s fun w =>
        (txnGet w l).cur = some (.upg c) ∧ (txnGet w l).mem = (txnGet u l).mem ∧ OtherLines l s w ∧ w.agenda = u.agenda))) ∧
  (∀ (c : CoreId) (l : Line) (d : LineData) (po : Bool) (x : TxnNo) (s : State), Quiet s → IdleLine l s →
    cachedMay s (lineAddr l) = true →
    let e := dirGet s l
    let done := fun (i : Instr) (st : DirSt) (l3 : L3Line) => Answers i s fun u =>
      Sends [.ack (.putDone c) ⟨l, x⟩] s u ∧ (dirGet u l).st = st ∧ l3Get u l = l3 ∧ IdleLine l u ∧ OtherLines l s u ∧
      u.out = s.out ∧ u.mem = s.mem ∧ u.coh.l2 = s.coh.l2
    let new : L3Line := { valid := true, data := d, dirty := true, poison := po }
    let left := fun (st : DirSt) =>
      (L3Free s l → done (.putm c ⟨l, x⟩ d po) st new ∧ done (.puto c ⟨l, x⟩ d po) st new) ∧ done (.pute c ⟨l, x⟩) st (l3Get s l)
    (e.st = .ex → ownerOf e = c → left .np) ∧ (e.st = .os → ownerOf e = c → left .sh) ∧
    (e.st = .sh ∨ (e.st = .os ∧ ownerOf e ≠ c) → e.sharers.getLsbD c.val = true →
      ∀ i ∈ [Instr.putm c ⟨l, x⟩ d po, .puto c ⟨l, x⟩ d po, .pute c ⟨l, x⟩], Answers i s fun u =>
        Sends [.ack (.putDone c) ⟨l, x⟩] s u ∧ IdleLine l u ∧ OtherLines l s u ∧ l3Get u l = l3Get s l ∧ u.mem = s.mem ∧
        (dirGet u l).st = (if e.st = .os then .os else if otherHolders s l c = [] then .np else .sh) ∧
        ∀ y : CoreId, (dirGet u l).sharers.getLsbD y.val = (e.sharers.getLsbD y.val && decide (y ≠ c))) ∧
    (holder e c = false → ∀ i ∈ [Instr.putm c ⟨l, x⟩ d po, .puto c ⟨l, x⟩ d po, .pute c ⟨l, x⟩], Answers i s fun u =>
      Sends [.nack c ⟨l, x⟩ false] s u ∧ dirGet u l = e ∧ l3Get u l = l3Get s l ∧ IdleLine l u ∧ OtherLines l s u ∧
      u.mem = s.mem))

/-- Caches of cores, and requests of cores at the home (R231, R233, R255-R261, R265, R267). The model's choices in it: log
entries 49, 50, 51. -/
def Obligations.CoherentCores : Prop := Claim.CoreAccesses ∧ Claim.CoreRequests

/-- Peek, Place and Merge of agents without a cache, as they arrive (R224, R229, R231, R233, R240, R251, R264, R265): a port with a
request for the line outstanding waits; local stores, NRU windows and tags are served between segments, register space at once,
tensor-owned HBM in a system window, and other lines in their home's order. -/
def Claim.AgentArrivals : Prop :=
  ∀ (p : ReqPort) (l : Line) (d : LineData) (be : BitVec 64) (po : Bool) (x : TxnNo) (s : State), Quiet s →
    let a := lineAddr l
    let reqs : List (Instr × Option (LineData × BitVec 64 × Bool) × HomeReq) :=
      [(.peek p ⟨l, x⟩, none, .peek p), (.place p ⟨l, x⟩ ⟨d, po⟩, some (d, BitVec.allOnes 64, po), .place p d po),
       (.merge p ⟨l, x⟩ ⟨d, po⟩ be, some (d, be, po), .merge p d be po)]
    ∀ q ∈ reqs,
      let may := portMay s p q.2.1.isSome a
      let o : State := { s with coh := { s.coh with outst := s.coh.outst ++ [⟨p, l, x, q.2.1.isSome⟩] } }
      (portFull s p l = true →
        exec q.1 s = .next { s with coh := { s.coh with portq := s.coh.portq ++ [⟨p, l, q.2.2, x⟩] } }) ∧
      (portFull s p l = false → spaceOf a = .ls ∨ spaceOf a = .nru ∨ spaceOf a = .tag →
        (running s = true → issueStopped s = false →
          exec q.1 s = .next { o with coh := { o.coh with held := o.coh.held ++ [⟨p, a, q.2.1⟩] } }) ∧
        (running s = false ∨ issueStopped s = true →
          (may = false → exec q.1 s = .next (reply p l 0 false true (regionAccess p a false o))) ∧
          (may = true → q.2.1 = none → exec q.1 s = .next (reply p l (bytesLine (sysMem s (a / 64 * 64) 64))
            (s.coh.poison.contains (a / 64)) false o)) ∧
          (∀ v b w, may = true → q.2.1 = some (v, b, w) →
            exec q.1 s = .next (reply p l 0 false false (lineToMem a v b w o))))) ∧
      (portFull s p l = false → spaceOf a = .regs ∨ spaceOf a = .hole →
        (may = false → exec q.1 s = .next (reply p l 0 false true (regionAccess p a false o))) ∧
        (may = true → q.2.1 = none → exec q.1 s = .next (reply p l (regLine o a) false false o)) ∧
        (∀ v b w, may = true → q.2.1 = some (v, b, w) →
          exec q.1 s = .next (reply p l 0 false false (regStore l v b o)))) ∧
      (portFull s p l = false → spaceOf a = .hbm ∨ spaceOf a = .lp ∨ spaceOf a = .host →
        (tensorOwned s a = true → exec q.1 s = .next (hbmEnqueue ⟨p, a, q.2.1⟩ .agent o)) ∧
        (tensorOwned s a = false → lineBusy s l = true → Answers q.1 s fun u =>
          txnGet u l = { txnGet s l with queue := (txnGet s l).queue ++ [⟨q.2.2, x⟩] } ∧
          u = { o with coh := { o.coh with busy := u.coh.busy } }) ∧
        (tensorOwned s a = false → IdleLine l s → may = false → Answers q.1 s fun u =>
          PortAnswered p l 0 false true q.2.1.isSome { s with agenda := s.agenda ++ [(sclkAfter s.cyc,
            .errorRecordLog (detect s eRegionAccess (portSrc p) s.cyc a (p.val * 2 ^ 16) 0 false false))] } u ∧
          IdleLine l u ∧ OtherLines l s u ∧ u.mem = s.mem))

/-- A port has its answer (R231, R245, R251, R264). -/
def Claim.Replies : Prop :=
  ∀ (p : ReqPort) (l : Line) (d : LineData) (po err : Bool) (s : State),
    PortAnswered p l d po err (portWrites s p l) s (reply p l d po err s) ∧
    (reply p l d po err s).mem = s.mem ∧ OtherLines l s (reply p l d po err s) ∧
    ∀ q rest, s.coh.portq = q :: rest → q.port = p → q.line = l → isTileModule p = false →
      (reply p l d po err s).coh.portq = rest ∧ (s.cyc, rowOfReq q) ∈ (reply p l d po err s).agenda

/-- Peek, Place and Merge at the home of an idle device line (R258, R263, Table 11.3): a Peek takes the owner's data, else the
L3's or memory's, and changes no state; a write takes every copy first and enters the L3; data of HBM comes by its channel. -/
def Claim.AgentRequests : Prop :=
  (∀ (p : ReqPort) (l : Line) (d : LineData) (be : BitVec 64) (po : Bool) (x : TxnNo) (s : State), Quiet s → IdleLine l s →
    portFull s p l = false → spaceOf (lineAddr l) = .hbm ∨ spaceOf (lineAddr l) = .lp →
    tensorOwned s (lineAddr l) = false →
    let e := dirGet s l
    let data := homeLine s l
    let owned := e.st = .ex ∨ e.st = .os
    let more := if e.st = .os then (sharersOf e).filter (· ≠ ownerOf e) else []
    let inv := fun c => Instr.inv c ⟨l, x⟩ none
    let keeps := fun u => dirGet u l = e ∧ l3Get u l = l3Get s l ∧ OtherLines l s u ∧ u.mem = s.mem
    let sends := fun (i : Instr) (r : HomeReq) (ms : List Instr) => Answers i s fun u =>
      Sends ms s u ∧ u.out = s.out ∧ txnGet u l = { cur := some r, no := x, acks := ms.length } ∧ keeps u
    (portMay s p false (lineAddr l) = true →
      (¬ owned → AtHand s l → Answers (.peek p ⟨l, x⟩) s fun u =>
        PortAnswered p l data.1 data.2 false false s u ∧ IdleLine l u ∧ keeps u) ∧
      (¬ owned → ¬ AtHand s l → Answers (.peek p ⟨l, x⟩) s fun u => LineAsked p l ⟨.peek p, x⟩ s u ∧ keeps u) ∧
      (owned → Answers (.peek p ⟨l, x⟩) s fun u =>
        u.out = s.out ∧ Sends [.fwdpeek (ownerOf e) ⟨l, x⟩ p] s u ∧ (txnGet u l).cur = some (.peek p) ∧ keeps u)) ∧
    (portMay s p true (lineAddr l) = true →
      (e.st = .np → L3Free s l → Answers (.place p ⟨l, x⟩ ⟨d, po⟩) s fun u =>
        PortAnswered p l 0 false false true s u ∧ IdleLine l u ∧ OtherLines l s u ∧
        l3Get u l = { valid := true, data := d, dirty := true, poison := po } ∧ u.mem = s.mem) ∧
      (e.st = .np → L3Free s l → AtHand s l → Answers (.merge p ⟨l, x⟩ ⟨d, po⟩ be) s fun u =>
        PortAnswered p l 0 false false true s u ∧ IdleLine l u ∧ OtherLines l s u ∧
        l3Get u l = { valid := true, data := mergeLine data.1 d be, dirty := true,
                      poison := po || (data.2 && decide (be ≠ BitVec.allOnes 64)) } ∧ u.mem = s.mem) ∧
      (e.st = .np → ¬ AtHand s l → be ≠ BitVec.allOnes 64 →
        Answers (.merge p ⟨l, x⟩ ⟨d, po⟩ be) s (LineAsked p l ⟨.merge p d be po, x⟩ s)) ∧
      (e.st = .sh → sharersOf e ≠ [] → sends (.place p ⟨l, x⟩ ⟨d, po⟩) (.place p d po) ((sharersOf e).map inv) ∧
        sends (.merge p ⟨l, x⟩ ⟨d, po⟩ be) (.merge p d be po) ((sharersOf e).map inv)) ∧
      (owned → sends (.place p ⟨l, x⟩ ⟨d, po⟩) (.place p d po) (inv (ownerOf e) :: more.map inv) ∧
        sends (.merge p ⟨l, x⟩ ⟨d, po⟩ be) (.merge p d be po) (.fwdm (ownerOf e) ⟨l, x⟩ none :: more.map inv)))) ∧
  (∀ (p : ReqPort) (l : Line) (d : LineData) (po : Bool) (n : TxnNo) (s : State), Quiet s →
    txnGet s l = { cur := some (.peek p), no := n, mem := true } → tensorOwned s (lineAddr l) = false → hostLine l = false →
    (dirGet s l).st = .np ∨ (dirGet s l).st = .sh →
    let u := homeArrive l d po s
    PortAnswered p l d po false (portWrites s p l) s u ∧ IdleLine l u ∧ OtherLines l s u ∧ u.mem = s.mem)

/-- Snoops at a core (R255, R268, Tables 11.4, 11.5): what each state answers and becomes; the answer carries the transaction's
number. -/
def Claim.CoreSnoops : Prop :=
  ∀ (o : CoreId) (l : Line) (n : TxnNo) (s : State), Quiet s →
    let x := l2Get s o l
    let ends := (txnGet s l).queue = [] ∧ (txnGet s l).under = none ∧ (txnGet s l).way = none
    (∀ req : CoreId,
      let keep := fun (st : L2St) (own : Bool) => Answers (.fwds o ⟨l, n⟩ req) s fun u =>
        l2Get u o l = { x with st := st } ∧ Sends [.datas req ⟨l, n⟩ x.data own x.poison] s u ∧ CoreFrame o l s u ∧ u.out = s.out
      (x.st = .m ∨ x.st = .o → keep .o true) ∧ (x.st = .e → keep .s false) ∧ (x.st = .miA ∨ x.st = .oiA → keep .oiA true) ∧
      (x.st = .eiA → keep .siA false) ∧ (x.st = .omA → keep .omA true) ∧
      (x.st ∉ [L2St.m, .o, .e, .miA, .oiA, .eiA, .omA] → exec (.fwds o ⟨l, n⟩ req) s = .next s)) ∧
    (∀ req : Option CoreId,
      let k := match req with | some c => ackCount s l c | none => 0
      let gives := fun (y : L2Line) => Answers (.fwdm o ⟨l, n⟩ req) s fun u =>
        l2Get u o l = y ∧ Sends [.datam req ⟨l, n⟩ x.data k x.poison] s u ∧ CoreFrame o l s u ∧ u.out = s.out
      (x.st = .m ∨ x.st = .o ∨ x.st = .e → gives {}) ∧
      (x.st = .miA ∨ x.st = .oiA ∨ x.st = .eiA → gives { st := .iiA, no := x.no }) ∧
      (x.st = .omA → gives { x with st := .imAd, data := 0, poison := false }) ∧
      (x.st ∉ [L2St.m, .o, .e, .miA, .oiA, .eiA, .omA] → exec (.fwdm o ⟨l, n⟩ req) s = .next s)) ∧
    (∀ p : ReqPort, l2Holds x.st = true → (txnGet s l).cur = some (.peek p) → ends → Answers (.fwdpeek o ⟨l, n⟩ p) s fun u =>
      PortAnswered p l x.data x.poison false (portWrites s p l) s u ∧ u.coh.l2 = s.coh.l2 ∧ IdleLine l u ∧ OtherLines l s u ∧
      u.mem = s.mem) ∧
    (∀ p : ReqPort, l2Holds x.st = true → (txnGet s l).cur = some (.recall .snpCur) → ends →
      Answers (.fwdpeek o ⟨l, n⟩ p) s fun u =>
        u.out = s.out ++ [.cxl "RspVFwdV" l (some (x.data, x.poison)) 0] ∧ u.agenda = s.agenda ∧ u.coh.l2 = s.coh.l2 ∧
        IdleLine l u ∧ OtherLines l s u ∧ u.mem = s.mem) ∧
    (∀ req : Option CoreId, Answers (.inv o ⟨l, n⟩ req) s fun u =>
      l2Get u o l = invalidated x ∧ CoreFrame o l s u ∧ u.out = s.out ∧
      Sends [.ack (match req with | some c => .invAck c | none => .invDone o) ⟨l, n⟩] s u)

/-- Responses at a core and the end of its transaction at the home (R245, R255-R258, R261, R263, R273, R274); a core held in reset
is told nothing (R392). -/
def Claim.CoreResponses : Prop :=
  ∀ (c : CoreId) (l : Line) (d : LineData) (po : Bool) (k : TxnNo) (s : State),
    let x := l2Get s c l
    let t := txnGet s l
    let ends := t.queue = [] ∧ t.under = none ∧ t.way = none
    let loads := fun (i : Instr) (st : L2St) (own : Bool) => Answers i s fun u =>
      l2Get u c l = { st := st, data := d, poison := po } ∧ Sends [.ack (.complete c own) ⟨l, x.no⟩] s u ∧ CoreFrame c l s u ∧
      u.out = s.out ++ (if s.ck.corePend.getLsbD c.val then [] else [if po then .coreExc c true else .coreData c d])
    (∀ own, x.st = .isD → x.wait = none → loads (.datas c ⟨l, k⟩ d own po) .s own) ∧
    (∀ own, x.st ≠ .isD → exec (.datas c ⟨l, k⟩ d own po) s = .next s) ∧
    (∀ n, x.st = .isD → x.wait = none → loads (.datae c ⟨l, k⟩ d n po) .e false) ∧
    (∀ n be v, x.st = .imAd → x.wait = some (be, v) → ∀ i ∈ [Instr.datae c ⟨l, k⟩ d n po, .datam (some c) ⟨l, k⟩ d n po],
      (x.got = n → x.dbit = false → po = false → Answers i s fun u =>
        l2Get u c l = { st := .m, data := mergeLine d v be } ∧ Sends [.ack (.complete c false) ⟨l, x.no⟩] s u ∧ CoreFrame c l s u ∧
        u.out = s.out) ∧
      (x.got ≠ n → Answers i s fun u =>
        l2Get u c l = { x with data := d, poison := po, want := some n } ∧ Sends [] s u ∧ CoreFrame c l s u ∧ u.out = s.out)) ∧
    (∀ n, t.acks = 0 → exec (.datam none ⟨l, k⟩ d n po) s = .next s) ∧
    (∀ n, Quiet s → 2 ≤ t.acks → t.cur ≠ none → L3Free s l → Answers (.datam none ⟨l, k⟩ d n po) s fun u =>
      l3Get u l = { valid := true, data := d, dirty := true, poison := po } ∧
      txnGet u l = { t with acks := t.acks - 1 } ∧ OtherLines l s u ∧ u.out = s.out ∧ u.mem = s.mem) ∧
    (t.cur ≠ none → 2 ≤ t.acks → Answers (.ack (.invDone c) ⟨l, k⟩) s fun u =>
      txnGet u l = { t with acks := t.acks - 1 } ∧ OtherLines l s u ∧
      u = { s with coh := { s.coh with busy := u.coh.busy } }) ∧
    (∀ p v w n, Quiet s → hostLine l = false → L3Free s l → t = { cur := some (.place p v w), no := n, acks := 1 } →
      Answers (.ack (.invDone c) ⟨l, k⟩) s fun u =>
        PortAnswered p l 0 false false (portWrites s p l) s u ∧ IdleLine l u ∧ OtherLines l s u ∧ (dirGet u l).st = .np ∧
        l3Get u l = { valid := true, data := v, dirty := true, poison := w } ∧ u.mem = s.mem) ∧
    (∀ n, x.st = .smA ∨ x.st = .omA → x.got ≠ n → Answers (.ack (.granted c n) ⟨l, k⟩) s fun u =>
      l2Get u c l = { x with want := some n } ∧ Sends [] s u ∧ CoreFrame c l s u ∧ u.out = s.out) ∧
    (x.st = .imAd ∨ x.st = .smA ∨ x.st = .omA → x.want ≠ some (x.got + 1) → Answers (.ack (.invAck c) ⟨l, k⟩) s fun u =>
      l2Get u c l = { x with got := x.got + 1 } ∧ Sends [] s u ∧ CoreFrame c l s u ∧ u.out = s.out) ∧
    (x.st ∈ [L2St.miA, .oiA, .eiA, .siA, .iiA] → ∀ i ∈ [Instr.ack (.putDone c) ⟨l, k⟩, .nack c ⟨l, k⟩ false], Answers i s fun u =>
      l2Get u c l = {} ∧ Sends [] s u ∧ CoreFrame c l s u ∧ u.out = s.out) ∧
    (Answers (.nack c ⟨l, k⟩ true) s fun u =>
      l2Get u c l = {} ∧ Sends [] s u ∧ CoreFrame c l s u ∧ u.out = s.out ++ (if s.ck.corePend.getLsbD c.val then [] else [.coreExc c false])) ∧
    (∀ r, Quiet s → t.cur = some r → r = .gets c ∨ r = .getm c ∨ r = .upg c → ends →
      Answers (.ack (.complete c false) ⟨l, k⟩) s fun u =>
        IdleLine l u ∧ OtherLines l s u ∧ u.out = s.out ∧ u.agenda = s.agenda ∧ u.mem = s.mem ∧ u.coh.l2 = s.coh.l2 ∧
        (r = .getm c ∨ r = .upg c ∨ ((dirGet s l).st = .np ∧ mayGrantE s l = true) →
          (dirGet u l).st = .ex ∧ ownerOf (dirGet u l) = c) ∧
        (r = .gets c → (dirGet s l).st = .sh → (dirGet u l).st = .sh ∧ (dirGet u l).sharers.getLsbD c.val = true))

/-- Requests of agents without caches, snoops and responses (R224, R231, R233, R240, R245, R251, R255-R265, Tables 11.2 to 11.5).
The model's choices in it: log entries 49, 53, 57, 58, 167, 187. -/
def Obligations.CoherentMessages : Prop :=
  Claim.AgentArrivals ∧ Claim.Replies ∧ Claim.AgentRequests ∧ Claim.CoreSnoops ∧ Claim.CoreResponses

/-- The host's snoops (R268, R269, Table 11.7). On a line that no core owns, idle or waiting for the host's grant, they answer at
once with the response of Table 11.7, dirty data going to host memory first; an idle line that a core owns is recalled. -/
def Claim.HostSnoops : Prop :=
  (∀ (l : Line) (s : State), Quiet s →
    IdleLine l s ∨ ((txnGet s l).grant = true ∧ (txnGet s l).under = none ∧ (txnGet s l).got = none ∧ (txnGet s l).acks = 0 ∧
      ∃ c, (txnGet s l).cur = some (.gets c)) →
    let h := hmcGet s l
    let x := l3Get s l
    let dirty := x.dirty = true ∨ h.st = .m
    let data := homeLine s l
    let fwd := if dirty then some data else none
    let home := fun (u : State) =>
      (dirty → ∀ i, i < 64 → memGet u.mem (lineAddr l + i) = (lineBytes data.1).getD i 0) ∧ (¬ dirty → u.mem = s.mem) ∧
      txnGet u l = txnGet s l ∧ OtherLines l s u ∧ u.agenda = s.agenda ∧ u.coh.l2 = s.coh.l2
    ((dirGet s l).st = .np → Answers (.snpinv l) s fun u =>
      hmcGet u l = {} ∧ l3Get u l = {} ∧ (dirGet u l).st = .np ∧ home u ∧
      u.out = s.out ++ [.cxl (if dirty then "RspIFwdM" else if h.st = .i then "RspIHitI" else "RspIHitSE") l fwd 0]) ∧
    ((dirGet s l).st = .np ∨ (dirGet s l).st = .sh → Answers (.snpdata l) s fun u =>
      (h.st ≠ .i → hmcGet u l = { st := .s, data := data.1, poison := data.2 }) ∧ (h.st = .i → hmcGet u l = h) ∧
      l3Get u l = (if x.valid then { x with dirty := false } else x) ∧ (dirGet u l).st = (dirGet s l).st ∧ home u ∧
      u.out = s.out ++ [.cxl (if dirty then "RspSFwdM" else if h.st = .i then "RspIHitI" else "RspSHitSE") l fwd 0]) ∧
    ((dirGet s l).st = .np ∨ (dirGet s l).st = .sh → Answers (.snpcur l) s fun u =>
      u.out = s.out ++ [if h.st = .i then .cxl "RspIHitI" l none 0 else .cxl "RspVFwdV" l (some data) 0] ∧
      hmcGet u l = h ∧ l3Get u l = x ∧ dirGet u l = dirGet s l ∧ txnGet u l = txnGet s l ∧ OtherLines l s u ∧
      u.agenda = s.agenda ∧ u.mem = s.mem)) ∧
  (∀ (l : Line) (s : State), Quiet s → IdleLine l s → (dirGet s l).st = .ex →
    let owner := ownerOf (dirGet s l)
    let n := s.coh.txns
    (∀ q ∈ [(Instr.snpinv l, RecallWhy.snpInv), (.snpdata l, .snpData)], Answers q.1 s fun u =>
      Sends [.fwdm owner ⟨l, n⟩ none] s u ∧ txnGet u l = { cur := some (.recall q.2), no := n, acks := 1 } ∧ OtherLines l s u ∧
      u.out = s.out ∧ u.mem = s.mem) ∧
    (Answers (.snpcur l) s fun u =>
      Sends [.fwdpeek owner ⟨l, n⟩ 128] s u ∧ txnGet u l = { cur := some (.recall .snpCur), no := n } ∧ OtherLines l s u ∧
      u.out = s.out ∧ u.mem = s.mem)) ∧
  (∀ (l : Line) (s : State), lineBusy s l = true → (txnGet s l).grant = false →
    ∀ q ∈ [(Instr.snpinv l, RecallWhy.snpInv), (.snpdata l, .snpData), (.snpcur l, .snpCur)], Answers q.1 s fun u =>
      txnGet u l = { txnGet s l with queue := (txnGet s l).queue ++ [⟨.recall q.2, s.coh.txns⟩] } ∧
      u = { begun s with coh := { s.coh with txns := s.coh.txns + 1, busy := u.coh.busy } })

/-- Writes of host lines go through to the host unless the HMC holds the line in M, and the host's answers (R267, R269, R270, Table
11.7): a grant for a line asked for fills the HMC and serves the request that waits, a write's answer completes it, one that
comes while a preempting recall runs waits, and one not asked for changes nothing. -/
def Claim.HostGrants : Prop :=
  (∀ (p : ReqPort) (l : Line) (d : LineData) (be : BitVec 64) (po : Bool) (x : TxnNo) (s : State), Quiet s → IdleLine l s →
    portFull s p l = false → hostLine l = true → portMay s p true (lineAddr l) = true → tensorOwned s (lineAddr l) = false →
    (dirGet s l).st = .np → (l3Get s l).dirty = false → be ≠ BitVec.allOnes 64 →
    let data := homeLine s l
    ∀ q ∈ [(Instr.place p ⟨l, x⟩ ⟨d, po⟩, HomeReq.place p d po, "ItoMWr", BitVec.allOnes 64),
           (.merge p ⟨l, x⟩ ⟨d, po⟩ be, .merge p d be po, "WrInv", be)],
      let new := mergeLine data.1 d q.2.2.2
      let bad := po || (data.2 && decide (q.2.2.2 ≠ BitVec.allOnes 64))
      ((hmcGet s l).st ≠ .m → Answers q.1 s fun u =>
        HostAsked ⟨q.2.2.1, l, some (new, bad), q.2.2.2⟩ ⟨q.2.1, x⟩ s u ∧ hmcGet u l = {} ∧ l3Get u l = {}) ∧
      ((hmcGet s l).st = .m → Answers q.1 s fun u =>
        PortAnswered p l 0 false false true s u ∧ IdleLine l u ∧ OtherLines l s u ∧
        hmcGet u l = { st := .m, data := new, poison := bad } ∧ l3Get u l = {})) ∧
  (∀ (l : Line) (g : Mesi) (d : LineData) (s : State),
    let t := txnGet s l
    (t.grant = false → exec (.hostGrant l g d) s = .next s) ∧
    (t.grant = true → t.under ≠ none → Answers (.hostGrant l g d) s fun u =>
      txnGet u l = { t with got := some (g, d) } ∧ OtherLines l s u ∧ u.out = s.out ∧ u.agenda = s.agenda ∧ u.mem = s.mem) ∧
    (∀ c, Quiet s → t.grant = true → t.cur = some (.gets c) → t.under = none →
      hmcEvictee s l = none → (hmcGet s l).st = .i → g ≠ .i → (dirGet s l).st = .np → (l3Get s l).valid = false →
      hostLine l = true → Answers (.hostGrant l g d) s fun u =>
        hmcGet u l = { st := g, data := d } ∧ (txnGet u l).grant = false ∧ (txnGet u l).cur = some (.gets c) ∧
        OtherLines l s u ∧ u.out = s.out ∧
        Sends [if g = .e ∨ g = .m then .datae c ⟨l, t.no⟩ d 0 false else .datas c ⟨l, t.no⟩ d false false] s u) ∧
    (∀ p n, Quiet s → t = { cur := some (.peek p), no := n, grant := true } → Answers (.hostGrant l g d) s fun u =>
      PortAnswered p l d false false (portWrites s p l) s u ∧ IdleLine l u ∧ OtherLines l s u ∧ hmcGet u l = hmcGet s l) ∧
    (∀ p v w n b y be, Quiet s → be ≠ 0 →
      t = { cur := some (.place p v w), no := n, grant := true, line := some ⟨b, y, be⟩ } →
      Answers (.hostGrant l g d) s fun u =>
        PortAnswered p l 0 false false (portWrites s p l) s u ∧ IdleLine l u ∧ OtherLines l s u ∧
        u.mem = (lineToMem (lineAddr l) b be y s).mem))

/-- The host's snoops and grants, and the snoop timeout (R266-R270, R274, Table 11.7). COH_TIMEOUT logs the line and the agent,
forms FAULT, and stops issue within 16 cycles. The model's choices in it: log entries 49, 55, 168. -/
def Obligations.HostCoherence : Prop :=
  Claim.HostSnoops ∧ Claim.HostGrants ∧
  (∀ (l : Line) (agent : Fin 129) (s : State),
    Answers (.cohTimeout l agent) s fun u =>
      (sclkAfter s.cyc, .errorRecordLog (detect s eCohTimeout (srcOf 5 (sliceOf l)) s.cyc (lineAddr l) agent.val 0 false true)) ∈
        u.agenda ∧
      u.outbox = s.outbox ++ [.token 0x0109 none (myToken s (stepInFlight s) eCohTimeout)] ∧ u.out = s.out ∧
      (s.pl.fatCode = 0 → u.pl.fatCode = BitVec.ofNat 16 eCohTimeout) ∧
      (running s = true → ∃ x, u.pl.stopAt = some x ∧ x ≤ s.cyc + 16) ∧ u.coh = s.coh ∧ u.mem = s.mem ∧ u.cm = s.cm)

/-! ## Resets -/

/-- The sources of a PACKAGE or POWER reset (R184, R382-R390, Table 16.3). -/
def Claim.ResetSources : Prop :=
  (∀ s : State, Answers .powerOn s fun u =>
    EverythingCleared s u ∧ u.ck = { Clock.reset with cause := 1 } ∧ u.fd = s.fd ∧ u.pwr.off = false ∧ u.pwr.ttrip = false ∧
    u.pwr.uv = false ∧ u.pwr.ov = false) ∧
  (∀ (n : Nat) (s : State),
    (n < 50 → exec (.resetN n) s = .next s) ∧
    (50 ≤ n → Answers (.resetN n) s fun u =>
      PackageReset 16 true false
        { s with pwr := { s.pwr with off := s.pwr.off && !(s.pwr.ttrip && s.pwr.temps.all fun t => t < 1360) } } u)) ∧
  (∀ (n : Nat) (s : State), let frontEnd := bitOf (reg32 s 0x2008).toNat 30
    (n < 50 → exec (.perst n) s = .next s) ∧
    (50 ≤ n → frontEnd = false → Answers (.perst n) s fun u => PackageReset 8 true false s u) ∧
    (50 ≤ n → frontEnd = true → s.ck.inReset = true → exec (.perst n) s = .next (withCause 4 s)) ∧
    (50 ≤ n → frontEnd = true → s.ck.inReset = false → Answers (.perst n) s fun u =>
      FrontEndReset s u ∧ .token 0x0106 none (myToken s s.cm.step.toNat 0) ∈ u.outbox)) ∧
  (∀ (n : Nat) (s : State), exec (.resetRelease n) s =
    .next (if n < 50 then s else { s with ck := { s.ck with pinHeld := false } })) ∧
  (∀ (key : Byte) (s : State),
    (key ≠ 0xA5 → exec (.globalSoftwareReset key) s = .next s) ∧
    (key = 0xA5 → Answers (.globalSoftwareReset key) s fun u => PackageReset 64 s.ck.pinHeld false s u))

/-- The reference monitor (R382): a window outside 900 to 1,100 edges is bad, two bad ones in a row lose the reference, two
good ones in a row restore it; the loss of a locked PLL is a FAT error and a reset that waits for the reference. -/
def Claim.ReferenceMonitor : Prop :=
  (∀ (n : BitVec 16) (s : State), Quiet s →
    let bad := n.toNat < 900 || 1100 < n.toNat
    let b := if bad then s.ck.badWins + 1 else 0
    let g := if bad then 0 else s.ck.goodWins + 1
    (b < 2 ∨ s.ck.lock = false → exec (.referenceWindowClose n) s =
      .next { s with ck := { s.ck with refcnt := n, badWins := b, goodWins := g, refok := 2 ≤ g } }) ∧
    (2 ≤ b → s.ck.lock = true → s.pwr.off = false → Answers (.referenceWindowClose n) s fun u =>
      FatalTold eClkRefLost 0 s u ∧ PackageReset 256 s.ck.pinHeld true s u)) ∧
  (∀ s : State,
    (s.ck.lock = false → exec .lossOfLock s = .next s) ∧
    (s.ck.lock = true → s.pwr.off = false → Answers .lossOfLock s fun u =>
      FatalTold eClkRefLost 0 s u ∧ PackageReset 256 s.ck.pinHeld true s u))

/-- Resets of the whole package (R382-R390). The model's choices in it: log entries 112, 113, 114, 115, 118, 119, 121. -/
def Obligations.PackageResets : Prop := Claim.ResetSources ∧ Claim.ReferenceMonitor

/-- The watchdog (R389): 0x4B restarts it and any other value has no effect; its expiry logs a FAT record and applies a PACKAGE
reset, unless a contact holds the package in reset or its rails are off; with WDTEN = 0 it neither counts nor expires. The
model's choices in it: log entries 112, 113, 114, 120. -/
def Obligations.Watchdog : Prop :=
  ∀ s : State, let enabled := bitOf (reg32 s 0x2008).toNat 31
    (∀ v : Byte, v ≠ 0x4B → exec (.watchdogKick v) s = .next s) ∧
    (Quiet s → exec (.watchdogKick 0x4B) s = .next { s with ck := { s.ck with wdt := 0, wdtInj := false } }) ∧
    (enabled = true → s.ck.pinHeld = false → s.pwr.off = false → Answers .wdtExpiry s fun u =>
      FatalTold eWdtExpiry 0xD000 s u ∧ PackageReset 32 false false s u) ∧
    (enabled = false ∨ s.ck.pinHeld = true ∨ s.pwr.off = true → exec .wdtExpiry s = .next s) ∧
    (∀ p : PowerSample, enabled = false → Quiet s → s.pwr.off = false → Answers (.vinSample p) s fun u =>
      u.ck = s.ck ∧ ∀ x ∈ u.agenda, x.2 = .wdtExpiry → x ∈ s.agenda)

/-- RST.BLOCK (R8, R391, R392): a bit written reads 1 until its block leaves reset; a die or NRU bit waits while a segment runs and
clears its block's storage otherwise; a port resets, and trains again as it leaves reset; HFE resets the front end; during bring-up
only the cause of HFE is recorded (R387). A block leaves reset once its 64 cycles are over. -/
def Claim.BlockResets : Prop :=
  (∀ (bits : W32) (s : State),
    let all := s.ck.blockPend ||| bits
    let due := fun b => all.getLsbD b && (bits.getLsbD b || !inBlockReset s b)
    let held := fun (b n : Nat) (u : State) => (b, (s.cyc + n) / 4 * 4 + 4) ∈ u.ck.blockEnd
    let pends := fun (u : State) => u.ck = { s.ck with blockPend := all, blockEnd := u.ck.blockEnd }
    (s.ck.inReset = true → exec (.blockReset bits) s = .next (if bits.getLsbD 0 then withCause 4 s else s)) ∧
    (s.ck.inReset = false → running s = true → issueStopped s = false → bits &&& 0xFFF#32 = 0 →
      Answers (.blockReset bits) s fun u => pends u ∧ u = { s with ck := u.ck } ∧
        u.ck.blockEnd = s.ck.blockEnd.filter fun x => !(decide (x.1 < 32) && bitOf bits.toNat x.1)) ∧
    (s.ck.inReset = false → running s = false ∨ issueStopped s = true → bits &&& 0xFFF#32 = 0 →
      Answers (.blockReset bits) s fun u =>
        (∀ k : Die, due (24 + k.val) = true → DieClear k u ∧ held (24 + k.val) 64 u) ∧
        (∀ k : Die, due (24 + k.val) = false → DieSame k s u) ∧
        (∀ k : NruId, due (12 + k.val) = true → NruClear k u ∧ held (12 + k.val) 128 u) ∧
        pends u ∧ (∀ t : Tile, tctl u t = tctl s t) ∧ (∀ x ∈ u.agenda, x ∈ s.agenda) ∧
        (∀ a, (∀ t : Tile, due (24 + (tileDie t).val) = true → a < lsBase t ∨ lsBase t + lsSize ≤ a) →
          (∀ k : NruId, due (12 + k.val) = true →
            (a < nruBase + k.val * 0x2000000 ∨ nruBase + (k.val + 1) * 0x2000000 ≤ a) ∧
            (a < tagBase + k.val * 0x200000 ∨ tagBase + (k.val + 1) * 0x200000 ≤ a)) →
          memGet u.mem a = memGet s.mem a) ∧
        u = { s with mem := u.mem, pl := u.pl, ck := u.ck, agenda := u.agenda }) ∧
    (s.ck.inReset = false → s.ck.blockPend = 0 →
      (∀ p : Port, bits = 1#32 <<< (4 + p.val) → Answers (.blockReset bits) s fun u =>
        portSt u p = {} ∧ OtherPorts p s u ∧ held (4 + p.val) 256 u ∧ pends u ∧ u = { s with tp := u.tp, ck := u.ck }) ∧
      (∀ p : SnapPort, bits = 1#32 <<< (2 + p.val) → s.cm.stream = false → Answers (.blockReset bits) s fun u =>
        spSt u p = {} ∧ (∀ q, q ≠ p → spSt u q = spSt s q) ∧ held (2 + p.val) 256 u ∧ pends u ∧
        u = { s with sp := u.sp, ck := u.ck }) ∧
      (bits = 1 → Answers (.blockReset bits) s fun u =>
        held 0 256 u ∧ u.ck.blockPend = 1 ∧
        (∀ k, .token 0x0106 none k ∈ u.outbox → .token 0x0106 none k ∈ s.outbox) ∧
        FrontEndReset s { u with ck := { u.ck with blockPend := s.ck.blockPend, blockEnd := s.ck.blockEnd } }))) ∧
  (∀ (b e : Nat) (s : State), s.ck.blockEnd = [(b, e)] →
    let u := releaseBlocks s
    (s.cyc < e → u = s) ∧
    (e ≤ s.cyc → b < 12 → u.ck = { s.ck with blockEnd := [], blockPend := s.ck.blockPend &&& ~~~(1#32 <<< b) } ∧
      u = { s with ck := u.ck, tp := u.tp, sp := u.sp }) ∧
    (∀ p : Port, e ≤ s.cyc → b = 4 + p.val → OtherPorts p s u ∧
      (portEn s p = true → PortStopped p u ∧ (portSt u p).state = 1) ∧ (portEn s p = false → u.tp = s.tp)) ∧
    (∀ p : SnapPort, e ≤ s.cyc → b = 2 + p.val →
      (spEn s p = true → spSt u p = { spSt s p with link := 2, qps := 1, bytes := 0, psn := spPsn s p, tries := 0 }) ∧
      (spEn s p = false → u.sp = s.sp)) ∧
    (e ≤ s.cyc → 12 ≤ b → b < 32 → u.ck.blockPend = s.ck.blockPend &&& ~~~(1#32 <<< b)) ∧
    (∀ c : CoreId, e ≤ s.cyc → b = 32 + c.val → u = { s with ck := u.ck } ∧ u.ck.corePend.getLsbD c.val = false ∧
      u.ck.halted.getLsbD c.val = false ∧ u.ck.blockEnd = []))

/-- RST.CORE (R392): a core whose caches hold nothing is held in reset for 64 CCLK at once; one that holds modified lines writes
them back first, its bit staying set. -/
def Claim.CoreResets : Prop :=
  ∀ (hi : Bool) (bits : W64) (s : State),
    let wide : BitVec 128 := bits.setWidth 128 <<< (if hi then 64 else 0)
    (s.ck.inReset = true → exec (.coreReset hi bits) s = .next s) ∧
    (s.ck.inReset = false → (∀ c : CoreId, wide.getLsbD c.val = true → coreLines s c = []) →
      Answers (.coreReset hi bits) s fun u =>
        u = { s with ck := { s.ck with corePend := s.ck.corePend ||| wide, blockEnd := u.ck.blockEnd } } ∧
        ∀ c : CoreId, wide.getLsbD c.val = true → (32 + c.val, (s.cyc + 48) / 4 * 4 + 4) ∈ u.ck.blockEnd) ∧
    (s.ck.inReset = false → Answers (.coreReset hi bits) s fun u =>
      (∀ (c : CoreId) (l : Line), wide.getLsbD c.val = true → (l2Get s c l).st = .m → inBlockReset s (32 + c.val) = false →
        u.ck.corePend.getLsbD c.val = true ∧ (l2Get u c l).st = .miA ∧
        (∃ n, (s.cyc, .putm c ⟨l, n⟩ (l2Get s c l).data (l2Get s c l).poison) ∈ u.agenda) ∧
        ∃ v : W64, (s.cyc + 1, .coreReset hi v) ∈ u.agenda ∧ v.getLsbD (c.val % 64) = true) ∧
      (∀ (c : CoreId) (l : Line), wide.getLsbD c.val = true → (l2Get s c l).st = .s → (l2Get u c l).st = .i) ∧
      (∀ (c : CoreId) (l : Line), wide.getLsbD c.val = false → l2Get u c l = l2Get s c l) ∧
      u = { s with ck := { s.ck with corePend := u.ck.corePend, blockEnd := u.ck.blockEnd },
                   coh := { s.coh with l2 := u.coh.l2, txns := u.coh.txns }, agenda := u.agenda })

/-- EN of a snapshot port (R458): a rise trains the link with the send PSN of SPn.PSN, from step 10 of bring-up on; a fall
stops any stream. -/
def Claim.SnapshotPorts : Prop :=
  ∀ (p : SnapPort) (s : State),
    (spEn s p = true → exec (.snapshotPortEnable p) s = .next s) ∧
    (spEn s p = false → Answers (.snapshotPortEnable p) s fun u =>
      spEn u p = true ∧ OtherWords (spBase p) s u ∧ u = { s with regs := u.regs, sp := u.sp } ∧
      (∀ q, q ≠ p → spSt u q = spSt s q) ∧ (s.ck.inReset = true → u.sp = s.sp) ∧
      (s.ck.inReset = false → spSt u p = { spSt s p with link := 2, qps := 1, bytes := 0, psn := spPsn s p, tries := 0 })) ∧
    (spEn s p = false → exec (.snapshotPortDisable p) s = .next s) ∧
    (spEn s p = true → Answers (.snapshotPortDisable p) s fun u =>
      spEn u p = false ∧ spSt u p = { spSt s p with link := 0, qps := 0 } ∧ (∀ q, q ≠ p → spSt u q = spSt s q) ∧
      (s.cm.stream = false → OtherWords (spBase p) s u ∧ u = { s with regs := u.regs, sp := u.sp }) ∧
      (s.cm.stream = true → u.cm.lastok = false ∧ u.cm.stream = false ∧
        (sclkAfter s.cyc, .errorRecordLog (detect s eMsStreamFail (srcOf 11 p.val) s.cyc 0 0 0 false false)) ∈ u.agenda))

/-- Resets of one block, one core or one snapshot port (R387, R391, R392, R458). The model's choices in it: log entries 49, 125,
126, 153, 161. -/
def Obligations.BlockAndCoreResets : Prop := Claim.BlockResets ∧ Claim.CoreResets ∧ Claim.SnapshotPorts

/-! ## Power, temperatures and the management port -/

/-- One ACLK sample of the power input (R403, R405, R406, R411, Table 17.2), where no injection is armed and the rails are
up: the filters count consecutive samples, the stretch level rises at once to the level whose condition holds and never
falls by a sample, the sums of the telemetry interval take the sample, and the steps that a filter's end or the watchdog
sets off follow on this cycle. A group of 8 delivered root
cycles withholds as many as its level, and the next one takes the level in force (R404). The model's choice: log entry 128. -/
def Claim.PowerSamples : Prop :=
  (∀ (p : PowerSample) (s : State), Quiet s → s.pwr.off = false →
    Answers (.vinSample p) s fun u =>
      let run := fun (c : Bool) (n : Nat) => if c then n + 1 else 0
      u.pwr.vin = p.vin ∧ u.pwr.iin = p.iin ∧ u.pwr.pin = p.pin ∧ u.pwr.tj = p.tj ∧
      u.pwr.overFor = run (3300 < p.pin) s.pwr.overFor ∧ u.pwr.underFor = run (p.pin ≤ 3300) s.pwr.underFor ∧
      u.pwr.hotFor = run (1760 ≤ p.tj) s.pwr.hotFor ∧ u.pwr.uvFor = run (p.vin < 43000) s.pwr.uvFor ∧
      u.pwr.ovFor = run (60000 < p.vin) s.pwr.ovFor ∧
      u.pwr.overHeld = (50000 ≤ u.pwr.overFor || (s.pwr.overHeld && u.pwr.underFor < 50000)) ∧
      u.pwr.hotHeld = (25000 ≤ u.pwr.hotFor || (s.pwr.hotHeld && 1680 ≤ p.tj)) ∧
      (p.vin < 44000 ∨ 80000 ≤ p.iin ∨ 3800 ≤ p.pin ∨ u.pwr.hotHeld = true → 4 ≤ u.pwr.level) ∧
      (p.vin < 45000 → 3 ≤ u.pwr.level) ∧ (p.vin < 46000 ∨ u.pwr.overHeld = true → 2 ≤ u.pwr.level) ∧
      (p.vin < 47000 → 1 ≤ u.pwr.level) ∧ s.pwr.level ≤ u.pwr.level ∧
      (47000 ≤ p.vin → p.iin < 80000 → p.pin < 3800 → u.pwr.hotHeld = false → u.pwr.overHeld = false →
        u.pwr.level = s.pwr.level) ∧
      (u.pwr.lowFor = 250 → (s.cyc, .stretchFall) ∈ u.agenda) ∧
      (u.pwr.uvFor = 50 → (s.cyc, .pwrUv) ∈ u.agenda) ∧ (u.pwr.uvFor ≠ 50 → u.pwr.ovFor = 50 → (s.cyc, .pwrOv) ∈ u.agenda) ∧
      (s.pwr.level = 0 → 0 < u.pwr.level → s.tel.stretchLogged = false → u.tel.stretchLogged = true ∧
        (sclkAfter s.cyc, .errorRecordLog (detect s ePwrStretch 0 s.cyc 0 0 0 false false)) ∈ u.agenda) ∧
      u.tel.n = s.tel.n + 1 ∧ u.tel.vinSum = s.tel.vinSum + p.vin ∧ u.tel.iinSum = s.tel.iinSum + p.iin ∧
      u.tel.pinSum = s.tel.pinSum + p.pin ∧ u.tel.energy = s.tel.energy + p.pin ∧
      u.tel.strAclk = s.tel.strAclk + (if 0 < u.pwr.level then 1 else 0) ∧ u.tel.strMax = max s.tel.strMax u.pwr.level ∧
      u.ck = { s.ck with wdt := if bitOf (reg32 s 0x2008).toNat 31 then s.ck.wdt + 1 else s.ck.wdt } ∧
      (bitOf (reg32 s 0x2008).toNat 31 = true → u.ck.wdt = bitsOf (reg32 s 0x2008).toNat 13 8 * 25000000 →
        (s.cyc, .wdtExpiry) ∈ u.agenda) ∧
      u = { s with pwr := u.pwr, tel := u.tel, ck := u.ck, agenda := u.agenda }) ∧
  (∀ (p : PowerSample) (s : State), s.pwr.off = true →
    let t := { s with pwr := { s.pwr with vin := p.vin, iin := p.iin, pin := p.pin, tj := p.tj } }
    (s.pwr.vin < 47500 → 47500 ≤ p.vin → s.pwr.ttrip = false → Answers (.vinSample p) s fun u =>
      PackageReset 1 s.ck.pinHeld false { t with pwr := { t.pwr with off := false } } u) ∧
    (47500 ≤ s.pwr.vin ∨ p.vin < 47500 ∨ s.pwr.ttrip = true → exec (.vinSample p) s = .next t)) ∧
  (∀ s : State, exec .stretchFall s = .next (if 0 < s.pwr.level ∧ 250 ≤ s.pwr.lowFor then
    { s with pwr := { s.pwr with level := s.pwr.level - 1, lowFor := 0 } } else s)) ∧
  (∀ (s : State) (c : Nat), s.cyc % 2 = 0 → c % 2 = 1 →
    let u := rootTick (rootTick s |> fun v => { v with cyc := c })
    u.ck.root = s.ck.root + 8 + s.ck.pace ∧ u.ck.pace = s.pwr.level ∧ u = { s with cyc := c, ck := u.ck })

/-- The three shutdowns (R406, R409, R441). -/
def Claim.Shutdowns : Prop :=
  (∀ s : State,
    (s.pwr.uvFor < 50 ∨ s.pwr.off = true → exec .pwrUv s = .next s) ∧
    (50 ≤ s.pwr.uvFor → s.pwr.off = false → Answers .pwrUv s fun u =>
      RailsOff ePwrUv (fun w => { w with uv := true }) s u)) ∧
  (∀ s : State,
    (s.pwr.ovFor < 50 ∨ s.pwr.off = true → exec .pwrOv s = .next s) ∧
    (50 ≤ s.pwr.ovFor → s.pwr.off = false → Answers .pwrOv s fun u =>
      RailsOff ePwrOv (fun w => { w with ov := true }) s u)) ∧
  (∀ s : State,
    (s.pwr.off = true → exec .thermTrip s = .next s) ∧
    (s.pwr.off = false → Answers .thermTrip s fun u => RailsOff eThermTrip (fun w => { w with ttrip := true }) s u))

/-- Power input, clock stretch and shutdown (R403-R406, R409, R411, R441). The model's choices in it: log entries 9, 116, 117,
128. -/
def Obligations.PowerInput : Prop := Claim.PowerSamples ∧ Claim.Shutdowns

/-- A sample of the 40 temperature sensors (R408, R409, R411), where no injection is armed. -/
def Claim.Temperatures : Prop :=
  ∀ (temps : List Int) (s : State), Quiet s → temps.length = 40 →
    Answers (.thermalSample temps) s fun u =>
      u.pwr = { s.pwr with temps := temps, tj := u.pwr.tj } ∧
      (∀ t ∈ temps.take 16, t ≤ u.pwr.tj) ∧ u.pwr.tj ∈ temps.take 16 ∧
      (s.tel.tempMax.length = 40 → ∀ i : Fin 40, u.tel.tempMax.getD i.val 0 = max (s.tel.tempMax.getD i.val 0) (temps.getD i.val 0)) ∧
      (s.pwr.off = false → 1520 ≤ u.pwr.tj → s.tel.warnLogged = false → u.tel.warnLogged = true ∧
        (sclkAfter s.cyc, .errorRecordLog (detect s eThermWarn 0 s.cyc 0 0 0 false false)) ∈ u.agenda) ∧
      (s.pwr.off = false → 1840 ≤ u.pwr.tj → (s.cyc, .thermTrip) ∈ u.agenda) ∧
      (s.pwr.off = true ∨ u.pwr.tj < 1520 → u.agenda = s.agenda) ∧
      u = { s with pwr := u.pwr, tel := { s.tel with tempMax := u.tel.tempMax, warnLogged := u.tel.warnLogged },
                   agenda := u.agenda }

/-- The close of a telemetry interval (R411, Table 17.5): the record of 160 bytes is replaced, and the next interval opens
on the closing edge with the length that TEL.CTL.INT now gives. -/
def Claim.TelemetryIntervals : Prop :=
  ∀ s : State,
    let e := s.tel.opened + s.tel.len
    (s.cyc < e ∨ s.ck.lock = false → exec .telemetryIntervalClose s = .next s) ∧
    (e ≤ s.cyc → s.ck.lock = true → Answers .telemetryIntervalClose s fun u =>
      let b := u.tel.record
      b.length = 160 ∧ leField b 0 8 = 0xA0 ∧ leField b 8 8 = s.cyc % 2 ^ 64 ∧ leField b 16 4 = (s.tel.seq.toNat + 1) % 2 ^ 32 ∧
      (s.tel.n = 1 → s.tel.vinSum / 10 < 65536 → s.tel.pinSum < 65536 →
        leField b 20 2 = s.tel.vinSum / 10 ∧ leField b 24 2 = s.tel.pinSum) ∧
      (s.tel.energy < 2 ^ 64 → leField b 32 8 = s.tel.energy / 25000) ∧
      u.tel.seq = s.tel.seq + 1 ∧ u.tel.n = 0 ∧ u.tel.vinSum = 0 ∧ u.tel.iinSum = 0 ∧ u.tel.pinSum = 0 ∧ u.tel.pinMax = 0 ∧
      u.tel.strAclk = 0 ∧ u.tel.tempMax = [] ∧ u.tel.corRaised = false ∧ u.tel.stretchLogged = false ∧
      u.tel.warnLogged = false ∧ u.tel.energy = s.tel.energy ∧ u.tel.opened = e ∧
      (0 < bitsOf (reg32 s 0x7000C).toNat 9 0 → u.tel.len = bitsOf (reg32 s 0x7000C).toNat 9 0 * 2250000) ∧
      u.agenda = s.agenda ++ [(e + u.tel.len, .telemetryIntervalClose)] ∧ u = { s with tel := u.tel, agenda := u.agenda })

/-- The management port's requests (R412, R418, R419): while MD serves, telemetry is read, power-down stops the tiles and
saves the life records, and MCTP messages are answered; the controller assigns the dynamic address. -/
def Claim.ManagementPort : Prop :=
  (∀ s : State, exec .getTelemetry s = .next (if mdServes s then { s with out := s.out ++ [.mgmt (telRecord s)] } else s)) ∧
  (∀ s : State,
    (mdServes s = false → exec .powerDown s = .next s) ∧
    (mdServes s = true → Answers .powerDown s fun u =>
      u.fd = { s.fd with life := s.tp.life.map lifeBytes, hoursMirror := s.ck.hours } ∧ (∃ b, u.out = s.out ++ [.mgmt b]) ∧
      (running s = true → (∃ x, u.pl.stopAt = some x ∧ x ≤ s.cyc + 16) ∧ u.pl.segErr ≠ 0) ∧
      (running s = false → u.pl = s.pl ∧ u.agenda = s.agenda) ∧
      u = { s with fd := u.fd, out := u.out, pl := { s.pl with stopAt := u.pl.stopAt, segErr := u.pl.segErr },
                   agenda := u.agenda, fresh := u.fresh })) ∧
  (∀ (msg : List Byte) (s : State),
    (mdServes s = true → ∃ b, exec (.mctpControl msg) s = .next { s with out := s.out ++ [.mgmt b] }) ∧
    (mdServes s = false → s.ck.rom = true → s.pwr.off = false → msg.getD 0 0 &&& 0x7F#8 = 0 →
      ∃ b, exec (.mctpControl msg) s = .next { s with out := s.out ++ [.mgmt b] }) ∧
    (mdServes s = false → s.ck.rom = false ∨ msg.getD 0 0 &&& 0x7F#8 ≠ 0 → exec (.mctpControl msg) s = .next s)) ∧
  (∀ (a : BitVec 7) (s : State), exec (.entdaa a) s =
    .next (if s.pwr.off then s else { s with i3c := a, out := s.out ++ [.i3c a] })) ∧
  (∀ (bundle : List Byte) (s : State),
    (mdServes s = true → ∃ b, exec (.fwWrite bundle) s =
      .next { s with out := s.out ++ [.mgmt b], fd := if s.sec.slot then { s.fd with f0 := bundle.take 0x1000000 }
                                                     else { s.fd with f1 := bundle.take 0x1000000 } }) ∧
    (mdServes s = false → s.ck.rom = false ∨ s.pwr.off = true → exec (.fwWrite bundle) s = .next s) ∧
    (mdServes s = false → s.ck.rom = true → s.pwr.off = false → Answers (.fwWrite bundle) s fun u =>
      u = { s with out := u.out, fd := { s.fd with f0 := u.fd.f0, f1 := u.fd.f1 } } ∧
      ((u.fd.f0 = bundle.take 0x1000000 ∧ u.fd.f1 = s.fd.f1) ∨ (u.fd.f1 = bundle.take 0x1000000 ∧ u.fd.f0 = s.fd.f0))))

/-- Temperatures, telemetry and the management port (R408-R412, R418, R419). The model's choices in it: log entries 129, 130,
134, 135. -/
def Obligations.Management : Prop := Claim.Temperatures ∧ Claim.TelemetryIntervals ∧ Claim.ManagementPort

/-! ## Security -/

/-- Attestation (R426, R427, Table 18.4): a report is signed by the identity key over its 328 bytes, and refused with status
0x04 without that key or at debug level 3; the certificates are given as FD holds them. -/
def Claim.Attestation : Prop :=
  (∀ (p : SecPath) (nonce : BitVec 256) (s : State),
    (mdServes s = false ∨ p = .testPort → exec (.getReport p nonce) s = .next s) ∧
    (mdServes s = true → p ≠ .testPort → s.sec.dik = false ∨ s.sec.level = 3 → Answers (.getReport p nonce) s fun u =>
      AnswersOn p [4] s u ∧ SecFrame id s u) ∧
    (mdServes s = true → p ≠ .testPort → s.sec.dik = true → s.sec.level ≠ 3 → Answers (.getReport p nonce) s fun u =>
      ∃ b sig : List Byte, AnswersOn p ([0] ++ b ++ sig) s u ∧ SecFrame id s u ∧
        sig = signBlock Config.dikScalar s.fd.idCert (sha384 b) ∧
        leField b 0 4 = 0x52545854 ∧ leField b 4 2 = 1 ∧ leField b 6 2 = 0x148 ∧ leField b 8 32 = nonce.toNat ∧
        leField b 40 16 = s.fd.serial.toNat ∧ leField b 60 4 = s.sec.svn.toNat ∧
        bitsOf (leField b 56 4) 9 8 = s.sec.level.toNat ∧ bitOf (leField b 56 4) 0 = s.sec.owner.isSome ∧
        bitOf (leField b 56 4) 3 = s.ck.fallback)) ∧
  (∀ (p : SecPath) (s : State),
    (mdServes s = false ∨ p = .testPort → exec (.getCerts p) s = .next s) ∧
    (mdServes s = true → p ≠ .testPort → Answers (.getCerts p) s fun u =>
      AnswersOn p ([0] ++ leBytes 2 s.fd.idCert.length ++ s.fd.idCert ++ leBytes 2 s.fd.caCert.length ++ s.fd.caCert)
        s u ∧ SecFrame id s u))

/-- Debug levels (R429, R430): a challenge replaces the one before and carries the level asked for; a token for another
challenge is refused with 0x03 and leaves the challenge; one that does not verify is refused with 0x02, logged and
consumes it; one that verifies puts its level in force, and level 3 clears the identity key; RELOCK returns to level 0. -/
def Claim.DebugLevels : Prop :=
  (∀ (p : SecPath) (level : Byte) (s : State),
    (mdServes s = false → exec (.challenge p level) s = .next s) ∧
    (mdServes s = true → 3 < level.toNat → Answers (.challenge p level) s fun u =>
      AnswersOn p [1] s u ∧ SecFrame id s u) ∧
    (mdServes s = true → level.toNat ≤ 3 → Answers (.challenge p level) s fun u =>
      ∃ (bs : List Byte) (c : BitVec 512), bs.length = 64 ∧ leField bs 32 16 = s.fd.serial.toNat ∧ bs.getD 48 0 = level ∧
        leField bs 49 15 = 0 ∧ u.sec.chal = some c ∧ c.toNat = leNat bs ∧ AnswersOn p ([0] ++ bs) s u ∧
        u.sec.level = s.sec.level ∧ u.sec.dik = s.sec.dik ∧ u.sec.owner = s.sec.owner)) ∧
  (∀ (p : SecPath) (k : DebugToken) (s : State), Quiet s →
    (mdServes s = false → exec (.unlock p k) s = .next s) ∧
    (mdServes s = true → s.sec.chal ≠ some k.challenge → Answers (.unlock p k) s fun u =>
      AnswersOn p [3] s u ∧ SecFrame id s u) ∧
    (mdServes s = true → s.sec.chal = some k.challenge → tokenVerifies s k = false → Answers (.unlock p k) s fun u =>
      AnswersOn p [2] s u ∧ u.sec.level = s.sec.level ∧ u.sec.dik = s.sec.dik ∧ u.sec.chal = none ∧
      (sclkAfter s.cyc, .errorRecordLog (detect s eSecToken 0xD000 s.cyc 0 0 0 false false)) ∈ u.agenda) ∧
    (mdServes s = true → s.sec.chal = some k.challenge → tokenVerifies s k = true → Answers (.unlock p k) s fun u =>
      let v : BitVec 2 := k.challenge.extractLsb' 384 2
      AnswersOn p [0, v.setWidth 8] s u ∧ u.sec.level = v ∧ u.sec.chal = none ∧
      u.sec.dik = (s.sec.dik && v ≠ 3) ∧ u.sec.owner = s.sec.owner ∧
      (sclkAfter s.cyc, .errorRecordLog (detect s eSecUnlock 0xD000 s.cyc 0 v.toNat 0 false false)) ∈ u.agenda)) ∧
  (∀ (p : SecPath) (s : State),
    (mdServes s = false ∨ p = .testPort → exec (.relock p) s = .next s) ∧
    (mdServes s = true → p ≠ .testPort → Answers (.relock p) s fun u =>
      AnswersOn p [0] s u ∧ SecFrame (fun x => { x with level := 0 }) s u))

/-- Ownership and remote reset (R422-R424, R431): CLAIM writes the owner record on an unowned package under a signature
over the current challenge, RELEASE removes it; each consumes the challenge. A remote reset names the serial number and
the current count under the owner's signature; it advances the count and resets the package, and any other is refused with
SEC_TOKEN. -/
def Claim.Ownership : Prop :=
  (∀ (p : SecPath) (s : State), mdServes s = false ∨ p = .testPort →
    (∀ r, exec (.claim p r) s = .next s) ∧ ∀ sig, exec (.release p sig) s = .next s) ∧
  (∀ (p : SecPath) (r : ClaimReq) (s : State), mdServes s = true → p ≠ .testPort →
    (s.sec.owner ≠ none → Answers (.claim p r) s fun u => AnswersOn p [5] s u ∧ SecFrame id s u) ∧
    (s.sec.owner = none → s.sec.chal = none → Answers (.claim p r) s fun u =>
      AnswersOn p [3] s u ∧ SecFrame id s u) ∧
    (∀ c, s.sec.owner = none → s.sec.chal = some c →
      (blockVerifies r.point r.sig (sha384 (chalBytes c)) = false → Answers (.claim p r) s fun u =>
        AnswersOn p [2] s u ∧ SecFrame (fun x => { x with chal := none }) s u) ∧
      (blockVerifies r.point r.sig (sha384 (chalBytes c)) = true → Answers (.claim p r) s fun u =>
        AnswersOn p [0] s u ∧ u.sec.chal = none ∧ u.sec.level = s.sec.level ∧
        ∃ o, u.sec.owner = some o ∧ u.fd.owner = some o ∧ o.point = r.point ∧ o.reqsig = r.reqsig ∧
          o.cosign = r.cosign ∧ o.dbgdrk = r.dbgdrk))) ∧
  (∀ (p : SecPath) (sig : List Byte) (s : State), mdServes s = true → p ≠ .testPort →
    (s.sec.owner = none → Answers (.release p sig) s fun u => AnswersOn p [5] s u ∧ SecFrame id s u) ∧
    (s.sec.owner ≠ none → s.sec.chal = none → Answers (.release p sig) s fun u =>
      AnswersOn p [3] s u ∧ SecFrame id s u) ∧
    (∀ o c, s.sec.owner = some o → s.sec.chal = some c →
      (blockVerifies o.point sig (sha384 (chalBytes c)) = false → Answers (.release p sig) s fun u =>
        AnswersOn p [2] s u ∧ SecFrame (fun x => { x with chal := none }) s u) ∧
      (blockVerifies o.point sig (sha384 (chalBytes c)) = true → Answers (.release p sig) s fun u =>
        AnswersOn p [0] s u ∧ u.sec.owner = none ∧ u.fd.owner = none ∧ u.sec.chal = none))) ∧
  (∀ (payload : List Byte) (s : State), Quiet s →
    (mdServes s = false → exec (.remoteResetRequest payload) s = .next s) ∧
    (∀ o, mdServes s = true → s.sec.owner = some o →
      let good := leField payload 0 16 = s.fd.serial.toNat ∧ leField payload 16 4 = o.rcnt.toNat ∧
        blockVerifies o.point (payload.drop 20) (sha384 (slice payload 0 20)) = true
      (good → Answers (.remoteResetRequest payload) s fun u =>
        u.fd.owner = some { o with rcnt := o.rcnt + 1 } ∧ EverythingCleared s u ∧
        u.ck.cause = s.ck.cause ||| 128 ∧ u.ck.bring ≤ 1 ∧ u.ck.inReset = true) ∧
      (¬ good → Answers (.remoteResetRequest payload) s fun u => u = { s with agenda := s.agenda ++
        [(sclkAfter s.cyc, .errorRecordLog (detect s eSecToken 0xD000 s.cyc 0 0 0 false false))] })) ∧
    (mdServes s = true → s.sec.owner = none → Answers (.remoteResetRequest payload) s fun u => u = { s with agenda :=
      s.agenda ++ [(sclkAfter s.cyc, .errorRecordLog (detect s eSecToken 0xD000 s.cyc 0 0 0 false false))] }))

/-- The mailbox and the test port (R425, R430, R460, Table 18.5): GO submits the request once, ABORT discards it without a
change; an instruction of the test port acts only at the debug level that opens it. -/
def Claim.Mailboxes : Prop :=
  (∀ s : State, let n := min 4096 (bitsOf (reg32 s 0x80010).toNat 12 0)
    (s.sec.mbBusy = true ∨ n = 0 → exec .mailboxGo s = .next s) ∧
    (s.sec.mbBusy = false → n ≠ 0 → ∀ i, secRequest (slice s.sec.mbReq 0 n) = some i →
      exec .mailboxGo s = .next { s with sec := { s.sec with mbBusy := true }, agenda := s.agenda ++ [(s.cyc, i)] }) ∧
    (s.sec.mbBusy = false → n ≠ 0 → secRequest (slice s.sec.mbReq 0 n) = none → Answers .mailboxGo s fun u =>
      AnswersOn .mailbox [1] s u ∧ SecFrame id s u)) ∧
  (∀ s : State, Answers .mailboxAbort s fun u =>
    u.sec = { s.sec with mbBusy := false } ∧ (∀ x ∈ u.agenda, x ∈ s.agenda) ∧ u = { s with sec := u.sec, agenda := u.agenda }) ∧
  (∀ s : State, exec .doeAbort s = .next s) ∧
  (∀ (o : TestOp) (s : State),
    (s.sec.level.toNat < testLevel o ∨ s.pwr.off = true → exec (.testPortAccess o) s = .next s) ∧
    (testLevel o ≤ s.sec.level.toNat → s.pwr.off = false →
      (∀ a, o = .readMem a → exec (.testPortAccess o) s = .next { s with out := s.out ++ [.test [readByte s a]] }) ∧
      (∀ c, o = .haltCore c → exec (.testPortAccess o) s =
        .next { s with ck := { s.ck with halted := s.ck.halted ||| (1#129 <<< c.val) } }) ∧
      (∀ c, o = .resumeCore c → exec (.testPortAccess o) s =
        .next { s with ck := { s.ck with halted := s.ck.halted &&& ~~~(1#129 <<< c.val) } }) ∧
      (o = .haltMd → exec (.testPortAccess o) s =
        .next { s with ck := { s.ck with halted := s.ck.halted ||| (1#129 <<< 128) } }) ∧
      (∀ a v, o = .writeMem a v → exec (.testPortAccess o) s = .next (sysStore mdPort a [v] s)) ∧
      (∀ x, o = .readReg x → x.toNat % 4 = 0 → exec (.testPortAccess o) s = .next { s with out := s.out ++
        [.test (leBytes 4 (regWord s x.toNat).toNat ++ leBytes 4 (regWord s (x.toNat + 4)).toNat)] }) ∧
      (∀ n r, o = .readLog n → s.log.recs[n]? = some r → exec (.testPortAccess o) s =
        .next { s with out := s.out ++ [.test (recBytes r)] }) ∧
      (o = .idcode ∨ (∃ v, o = .boundary v) → ∃ b, Answers (.testPortAccess o) s fun u =>
        u = { s with out := s.out ++ [.test b], fresh := u.fresh }) ∧
      (o = .bypass → exec (.testPortAccess o) s = .next s)))

/-- Security (R422-R431, R460). The model's choices in it: log entries 131, 132, 133, 134, 186. -/
def Obligations.SecurityOperations : Prop :=
  Claim.Attestation ∧ Claim.DebugLevels ∧ Claim.Ownership ∧ Claim.Mailboxes

/-! ## Software writes of registers -/

/-- Writes that change nothing (R12, R447, R450): a misaligned one, one from BAR0 before the function answers, any while the
rails are off, one at an offset that does not respond on its path, one to a block held in reset (R392); and a 32-bit write of a plain word sets its RW fields
and nothing else, so one where no register lies changes no word. -/
def Claim.PlainWrites : Prop :=
  (∀ (sys : Bool) (off : BitVec 26) (wide : Bool) (v : W64) (s : State),
    (off.toNat % (if wide then 8 else 4) ≠ 0 → exec (.registerWrite sys off wide v) s = .next s) ∧
    (s.pwr.off = true ∨ (sys = false ∧ s.ck.bring < 6) → exec (.registerWrite sys off wide v) s = .next s) ∧
    (sys = true → 0x1000000 ≤ off.toNat → exec (.registerWrite sys off wide v) s = .next s) ∧
    (sys = true → 0xF00000 ≤ off.toNat → exec (.registerWrite sys off false v) s = .next s) ∧
    (sys = false → off.toNat = 0x80010 ∨ (0x81000 ≤ off.toNat ∧ off.toNat < 0x83000) →
      exec (.registerWrite sys off false v) s = .next s) ∧
    (sys = false → 0x1000000 ≤ off.toNat → off.toNat % 0x1000 ≠ 0 ∨ 0x1040000 ≤ off.toNat →
      exec (.registerWrite sys off wide v) s = .next s) ∧
    (isoReg s off.toNat = true → exec (.registerWrite sys off wide v) s = .next s ∧ regRead s off.toNat = 0 ∧
      barRead s off.toNat = 0)) ∧
  (∀ (sys : Bool) (off : BitVec 26) (v : W64) (s : State), writesOpen sys s = true → PlainWord off.toNat →
    onPath sys off.toNat = true → isoReg s off.toNat = false →
    Answers (.registerWrite sys off false v) s fun u =>
      let m := rwMask false off.toNat
      let now := fun (w : SysWrite) => w.edge = sclkEdge s && w.off = off.toNat
      let stands := if sys then none else s.ck.sysw.find? now
      (stands = none → reg32 u off.toNat = (reg32 s off.toNat &&& ~~~m) ||| (v.setWidth 32 &&& m)) ∧
      (∀ w, stands = some w → w.bits = reg32 s off.toNat → rwMask true off.toNat = m → reg32 u off.toNat = reg32 s off.toNat) ∧
      OtherWords off.toNat s u ∧ (sys = true → m ≠ 0 → u.ck.sysw.find? now = some ⟨sclkEdge s, off.toNat, reg32 u off.toNat⟩) ∧
      u = { s with regs := u.regs, ck := { s.ck with sysw := u.ck.sysw } })

/-- An offset that holds no register (R12): a write completes without effect and a read returns 0, and neither raises an
error. -/
def Obligations.NoRegisterThere : Prop :=
  ∀ (sys : Bool) (off : BitVec 26) (wide : Bool) (v : W64) (s : State), NoRegister off.toNat →
    (wide = true → NoRegister (off.toNat + 4)) →
    regRead s off.toNat = 0 ∧ barRead s off.toNat = 0 ∧
    Answers (.registerWrite sys off wide v) s fun u =>
      (∀ x, x % 4 = 0 → reg32 u x = reg32 s x) ∧ u = { s with regs := u.regs }

/-- Writes that act (R9, R280, R281, R297, R382, R389, R391, R392, R445, R458, R460): each is the command of its action; a 1 written to
a W1C bit clears it unless hardware sets it on the same edge. -/
def Claim.ActingWrites : Prop :=
  ∀ (sys : Bool) (v : W64) (s : State), writesOpen sys s = true →
    exec (.registerWrite sys 0x2000 false v) s =
      .next { s with ck := { s.ck with cause := s.ck.cause &&&
        ~~~((v.setWidth 32 &&& ~~~edgeBits s false 0x2000).setWidth 9 &&& 0x1FD#9) } } ∧
    exec (.registerWrite sys 0x2004 false v) s = exec (.globalSoftwareReset (v.setWidth 8)) s ∧
    exec (.registerWrite sys 0x200C false v) s = exec (.blockReset (v.setWidth 32 &&& 0xFFFFFFFD#32)) s ∧
    exec (.registerWrite sys 0x2010 true v) s = exec (.coreReset false v) s ∧
    exec (.registerWrite sys 0x2018 true v) s = exec (.coreReset true v) s ∧
    exec (.registerWrite sys 0x2010 false v) s = exec (.coreReset false ((v.setWidth 32).setWidth 64)) s ∧
    exec (.registerWrite sys 0x2014 false v) s = exec (.coreReset false ((v.setWidth 32).setWidth 64 <<< 32)) s ∧
    (let w := v.setWidth 32 &&& ~~~edgeBits s false 0x70008
     exec (.registerWrite sys 0x70008 false v) s = .next { s with pwr := { s.pwr with
      ttrip := s.pwr.ttrip && !w.getLsbD 31, uv := s.pwr.uv && !w.getLsbD 30, ov := s.pwr.ov && !w.getLsbD 29 } }) ∧
    (v.getLsbD 0 = true → v.getLsbD 1 = false → exec (.registerWrite sys 0x90000 false v) s = exec .clr s) ∧
    (v.getLsbD 0 = false → v.getLsbD 1 = true → exec (.registerWrite sys 0x90000 false v) s = exec .pclr s) ∧
    (v.setWidth 32 = 1#32 → exec (.registerWrite sys 0x20400 false v) s =
      exec .arm { s with regs := (setReg32 0x20400 (reg32 s 0x20400) s).regs }) ∧
    (∀ n : Fin 8, exec (.registerWrite sys (BitVec.ofNat 26 (injCtl n.val)) true v) s = exec (.injectionSlotWrite n v) s) ∧
    (∀ r : Ring, v.getLsbD 3 = false → inBlockReset s 0 = false →
      (v.getLsbD 0 = true → exec (.registerWrite sys (BitVec.ofNat 26 (ringReg r + 0x1C)) false v) s = exec (.ringEnable r) s) ∧
      (v.getLsbD 0 = false → exec (.registerWrite sys (BitVec.ofNat 26 (ringReg r + 0x1C)) false v) s =
        exec (.ringTeardown r) s)) ∧
    (∀ (r : Ring) (o : Nat), (ring s r).en = true → o < 0x1C → o % 4 = 0 →
      Answers (.registerWrite sys (BitVec.ofNat 26 (ringReg r + o)) false v) s fun u =>
        u = { s with ck := { s.ck with sysw := u.ck.sysw } }) ∧
    (sys = true → s.sec.mbBusy = true → ∀ o : Fin 1024,
      exec (.registerWrite sys (BitVec.ofNat 26 (0x81000 + 4 * o.val)) false v) s = .next s)

/-- Software writes of the register map (R8-R12, R447-R462, Table 20.1). The model's choices in it: log entries 136, 137,
188. -/
def Obligations.RegisterWrites : Prop := Claim.PlainWrites ∧ Claim.ActingWrites

/-! ## The whole machine -/

/-- What reset leaves (R144, R161, R221, R355, R387, R390, R429, R452): the cause is the power-on reset, nothing has come up,
memory and every tile register read 0, the Cfg fields hold the factory defaults of the fuses, and no command waits. The model's
choices in it: log entry 6. -/
def Obligations.ResetState : Prop :=
  let s := State.reset
  Memory.wf s.mem = true ∧ KeyHidden s ∧ s.pending = [] ∧ s.cyc = 0 ∧ s.ck.cause = 1 ∧ s.ck.restart = 0 ∧ s.ck.inReset = true ∧
  s.ck.ready = false ∧ s.cm.step = 0 ∧ s.cm.cg = false ∧ s.cm.phase = .idle ∧ s.sec.level = 0 ∧ s.pwr.level = 0 ∧
  (∀ a, memGet s.mem a = 0) ∧ (∀ t r, sreg s t r = 0) ∧ (∀ t v i, vGet s t v i = 0) ∧ (∀ t b i, faGet s t b i = {}) ∧
  (∀ r, ring s r = {}) ∧ (∀ p, (portSt s p).state = 0) ∧ s.log.recs = [] ∧ s.hf.cmds = [] ∧ s.pl.active = none ∧
  reg32 s 0x2008 = 0x80000A00 ∧ reg32 s 0x11000 = 100 ∧ reg32 s 0x30000 = 4500 ∧ reg32 s 0x60000 = 10000 ∧
  reg32 s 0x70000 = 0x044C0000 ∧ reg32 s 0x7000C = 100 ∧ reg32 s 0x10000 = 0

/-- Every command runs in every state: none ends in a fault or a refusal. The model's choices in it: log entry 8. -/
def Obligations.EveryCommandRuns : Prop := ∀ (c : Instr) (s : State), ∃ u, exec c s = .next u

/-- The identity key stays out of reach while debug level 3 is in force, whatever step is taken (R430). The model's choices in
it: log entry 127. -/
def Obligations.KeyStaysHidden : Prop := ∀ s u : State, KeyHidden s → step s = .next u → KeyHidden u

/-- Only UNLOCK raises the debug level (R429): with every other command at the front of the queue, and with none, a step leaves
the level where it was or returns it to 0. The model's choices in it: log entry 132. -/
def Obligations.OnlyUnlockRaisesLevel : Prop :=
  ∀ s u : State, (∀ p k rest, s.pending ≠ .unlock p k :: rest) → step s = .next u →
    u.sec.level = s.sec.level ∨ u.sec.level = 0

/-- Memory keeps its canonical form at every step: equal memories are equal data (R223). The form is the model's own. The
model's choices in it: log entry 5. -/
def Obligations.MemoryStaysCanonical : Prop :=
  ∀ s u : State, Memory.wf s.mem = true → step s = .next u → Memory.wf u.mem = true

/-- The clock (R142, R393, Table 16.7). With no step due and no word to issue, the 64-bit tile-cycle counter advances by one on a
package that runs, and one step of bring-up completes on a package in reset, unless a contact, the rails, the boot ROM or the
reference holds it. While a tile has a word to issue, the cycle stays, and the instruction of the word at the PC of each tile
that issues joins the queue. At the end of a cycle without a fault of the tiles, the products, drains and mover instructions in
progress take what the cycle brings them. The model's choices in it: log entries 2, 12, 111, 160. -/
def Obligations.Ticks : Prop :=
  (∀ s : State, s.pending = [] → (∀ x ∈ s.agenda, s.cyc < x.1) → s.pwr.off = false → s.ck.inReset = false →
    s.ck.lock = true → mustIssue s = false → ∃ u, step s = .next u ∧ u.cyc = (s.cyc + 1) % 2 ^ 64 ∧
      (s.pl.treeq = [] → s.pl.laybyq = [] → (∀ t p, portOver (beatsOf s) t p s.cyc = false) →
        (∀ t, writeClash (beatsOf s) t = false) → Quiet s →
        let b := (beatsOf s).pl
        u.pl.fas = b.fas ∧ u.pl.prods = b.prods ∧ u.pl.drains = b.drains ∧ u.pl.flows = b.flows ∧ u.pl.trees = b.trees ∧
        u.pl.vruns = b.vruns ∧ u.pl.nruFlight = b.nruFlight)) ∧
  (∀ s : State, s.pending = [] → (∀ x ∈ s.agenda, s.cyc < x.1) → s.pwr.off = false → s.ck.inReset = false →
    s.ck.lock = true → mustIssue s = true → ∃ u, step s = .next u ∧ u.cyc = s.cyc ∧ u.mem = s.mem ∧
      ∀ t ∈ dueTiles s, ∀ i, (tctl s t).pc ≤ 32767 → tileInstr t (wordAt s t) = some i → i ∈ u.pending) ∧
  (∀ s : State, s.pending = [] → (∀ x ∈ s.agenda, s.cyc < x.1) → s.pwr.off = false → s.ck.inReset = true →
    s.ck.rom = false → s.ck.pinHeld = false →
    (s.ck.bring < 10 → s.ck.bring ≠ 4 → (s.ck.bring = 3 → s.ck.refHold = false ∨ 2 ≤ s.ck.goodWins) →
      ∃ u, step s = .next u ∧ u.ck.bring = s.ck.bring + 1) ∧
    (∀ x, s.ck.bring = 4 → s.ck.load = some x → ∃ u, step s = .next u ∧ u.ck.bring = 5 ∧ u.ck.load = none ∧ s.cyc ≤ u.cyc) ∧
    (s.ck.bring = 9 → ∃ u, step s = .next u ∧ u.ck.inReset = false ∧ u.ck.ready = true))

/-- The outcome of an exact-mode element does not depend on the order of its arrivals (R107, R108), and it holds the exact sum
of the finite values modulo 2^328. The model's choices in it: log entry 38. -/
def Obligations.ExactAnyOrder : Prop :=
  (∀ (xs ys : List W32) (a : ExactAcc), List.Perm xs ys →
    xs.foldl (fun a x => (exactAdd a x).1) a = ys.foldl (fun a x => (exactAdd a x).1) a) ∧
  (∀ (xs : List W32) (a : ExactAcc), (xs.foldl (fun a x => (exactAdd a x).1) a).w =
    a.w + BitVec.ofInt 328 ((xs.filter fun x => (f32 x).isFin).foldl (fun n x => n + exactUnits (f32 x)) 0))

/-- Every FP32 value that is no NaN survives its conversion to a value and back under every rounding, raising no flag. -/
def Obligations.Fp32RoundTrip : Prop :=
  ∀ (x : W32) (m : Rnd), (f32 x).isNan = false → toF32 m (f32 x) = (x, 0)
end

