-- ==== Sys2Proof/Laws/Memory.lean ====
section
/-! SUPPORT. Laws of sparse arrays and of byte memory: a read after a write, writes elsewhere, and the canonical form that
every memory operation keeps. -/

namespace Sys2Proof.Machine

variable {β : Type} [DecidableEq β] {d : β}

/-- Every key of the array lies above a bound. -/
theorem smapWfFrom_mono {lo lo' : Option Nat} {m : SMap β} (hle : ∀ l, lo = some l → ∃ l', lo' = some l' ∧ l ≤ l')
    (h : smapWfFrom d lo' m = true) : smapWfFrom d lo m = true := by
  cases m with
  | nil => rfl
  | cons p r =>
    obtain ⟨k, v⟩ := p
    simp only [smapWfFrom, Bool.and_eq_true] at h ⊢
    refine ⟨⟨?_, h.1.2⟩, h.2⟩
    cases lo with
    | none => rfl
    | some l =>
      obtain ⟨l', rfl, hl⟩ := hle l rfl
      have := h.1.1
      simp only [decide_eq_true_eq] at this ⊢
      omega

/-- A canonical array above a bound is canonical. -/
theorem smapWf_of_from {lo : Option Nat} {m : SMap β} (h : smapWfFrom d lo m = true) : smapWf d m = true :=
  smapWfFrom_mono (fun _ hl => by cases hl) h

/-- A key below the first reads as the default. -/
theorem smapGet_below {l a : Nat} {m : SMap β} (h : smapWfFrom d (some l) m = true) (ha : a ≤ l) : smapGet d m a = d := by
  induction m generalizing l with
  | nil => rfl
  | cons p r ih =>
    obtain ⟨k, v⟩ := p
    simp only [smapWfFrom, Bool.and_eq_true, decide_eq_true_eq] at h
    simp only [smapGet]
    rw [if_neg (by omega)]
    exact ih h.2 (by omega)

/-- Filtering keeps the canonical form. -/
theorem smapWfFrom_filter {lo : Option Nat} {m : SMap β} (h : smapWfFrom d lo m = true) (p : Nat × β → Bool) :
    smapWfFrom d lo (m.filter p) = true := by
  induction m generalizing lo with
  | nil => rfl
  | cons x r ih =>
    obtain ⟨k, v⟩ := x
    simp only [smapWfFrom, Bool.and_eq_true] at h
    rw [List.filter_cons]
    split
    · simp only [smapWfFrom, Bool.and_eq_true]
      exact ⟨h.1, ih h.2⟩
    · refine smapWfFrom_mono ?_ (ih h.2)
      rintro l rfl
      exact ⟨k, rfl, by have := h.1.1; simp only [decide_eq_true_eq] at this; omega⟩

/-- Reading past entries of another key. -/
theorem smapGet_filter_ne (m : SMap β) (a b : Nat) :
    smapGet d (m.filter fun p => decide (p.1 ≠ a)) b = if b = a then d else smapGet d m b := by
  induction m with
  | nil => simp [smapGet]
  | cons p r ih =>
    obtain ⟨k, w⟩ := p
    rw [List.filter_cons]
    by_cases hk : k = a
    · subst hk
      simp only [ne_eq, not_true_eq_false, decide_false, Bool.false_eq_true, if_false, smapGet]
      rw [ih]
      by_cases hb : b = k
      · rw [if_pos hb, if_pos hb]
      · rw [if_neg hb, if_neg hb, if_neg (fun h => hb h.symm)]
    · simp only [ne_eq, hk, not_false_eq_true, decide_true, if_true, smapGet]
      by_cases hb : k = b
      · subst hb; rw [if_pos rfl, if_pos rfl, if_neg hk]
      · rw [if_neg hb, if_neg hb, ih]

/-- Reading after an insertion of a key that is not listed. -/
theorem smapGet_smapInsert (m : SMap β) (a b : Nat) (v : β) (h : ∀ p ∈ m, p.1 ≠ a) :
    smapGet d (smapInsert a v m) b = if b = a then v else smapGet d m b := by
  induction m with
  | nil => simp [smapInsert, smapGet, eq_comm]
  | cons p r ih =>
    obtain ⟨k, w⟩ := p
    have hk : k ≠ a := h (k, w) List.mem_cons_self
    have ih' := ih fun p hp => h p (List.mem_cons_of_mem _ hp)
    simp only [smapInsert]
    split
    · simp only [smapGet]
      by_cases hb : b = a
      · rw [if_pos hb.symm, if_pos hb]
      · rw [if_neg (fun h => hb h.symm), if_neg hb]
    · simp only [smapGet]
      by_cases hb : k = b
      · subst hb; rw [if_pos rfl, if_neg hk, if_pos rfl]
      · rw [if_neg hb, if_neg hb, ih']

/-- Reading after a write, in any array: the value written at its key, and every other key as before. -/
theorem smapGet_smapSet (m : SMap β) (a b : Nat) (v : β) :
    smapGet d (smapSet d a v m) b = if b = a then v else smapGet d m b := by
  have hn : ∀ p ∈ m.filter (fun p => decide (p.1 ≠ a)), p.1 ≠ a := by
    intro p hp
    simpa using (List.mem_filter.mp hp).2
  unfold smapSet
  split
  · next hv => rw [smapGet_filter_ne, hv]
  · rw [smapGet_smapInsert _ _ _ _ hn, smapGet_filter_ne]
    by_cases hb : b = a
    · rw [if_pos hb, if_pos hb]
    · rw [if_neg hb, if_neg hb, if_neg hb]

/-- The value written is read back. -/
@[simp] theorem smapGet_smapSet_same (m : SMap β) (a : Nat) (v : β) : smapGet d (smapSet d a v m) a = v := by
  rw [smapGet_smapSet, if_pos rfl]

/-- Every other key reads as before. -/
theorem smapGet_smapSet_ne (m : SMap β) {a b : Nat} (v : β) (h : b ≠ a) :
    smapGet d (smapSet d a v m) b = smapGet d m b := by rw [smapGet_smapSet, if_neg h]

/-- Inserting a key that is not listed keeps the canonical form. -/
theorem smapWfFrom_smapInsert {lo : Option Nat} {m : SMap β} (h : smapWfFrom d lo m = true) (a : Nat) (v : β)
    (hv : v ≠ d) (hn : ∀ p ∈ m, p.1 ≠ a) (ha : ∀ l, lo = some l → l < a) :
    smapWfFrom d lo (smapInsert a v m) = true := by
  induction m generalizing lo with
  | nil =>
    simp only [smapInsert, smapWfFrom, Bool.and_eq_true]
    exact ⟨⟨by cases lo with | none => rfl | some l => simpa using ha l rfl, by simpa using hv⟩, trivial⟩
  | cons p r ih =>
    obtain ⟨k, w⟩ := p
    have hk : k ≠ a := hn (k, w) List.mem_cons_self
    simp only [smapWfFrom, Bool.and_eq_true] at h
    obtain ⟨⟨hlo, hw⟩, ht⟩ := h
    simp only [smapInsert]
    split
    · next hlt =>
      simp only [smapWfFrom, Bool.and_eq_true]
      exact ⟨⟨by cases lo with | none => rfl | some l => simpa using ha l rfl, by simpa using hv⟩,
        ⟨by simpa using hlt, hw⟩, ht⟩
    · next hge =>
      simp only [smapWfFrom, Bool.and_eq_true]
      refine ⟨⟨hlo, hw⟩, ih ht (fun p hp => hn p (List.mem_cons_of_mem _ hp)) ?_⟩
      intro l hl
      cases hl
      omega

/-- A write keeps the canonical form. -/
theorem smapWf_smapSet {m : SMap β} (h : smapWf d m = true) (a : Nat) (v : β) : smapWf d (smapSet d a v m) = true := by
  have hf : smapWfFrom d none (m.filter fun p => decide (p.1 ≠ a)) = true := smapWfFrom_filter h _
  unfold smapSet
  split
  · exact hf
  · next hv =>
    refine smapWfFrom_smapInsert hf a v hv ?_ (fun l hl => by cases hl)
    intro p hp
    simpa using (List.mem_filter.mp hp).2

/-- A run of writes keeps the canonical form. -/
theorem smapWf_smapSetList {m : SMap β} (h : smapWf d m = true) (a : Nat) (vs : List β) :
    smapWf d (smapSetList d a vs m) = true := by
  induction vs generalizing a m with
  | nil => exact h
  | cons v vs ih => exact ih (smapWf_smapSet h a v) (a + 1)

/-- Reading after a run of writes. -/
theorem smapGet_smapSetList (m : SMap β) (a b : Nat) (vs : List β) :
    smapGet d (smapSetList d a vs m) b = if a ≤ b ∧ b < a + vs.length then vs.getD (b - a) d else smapGet d m b := by
  induction vs generalizing a m with
  | nil => simp only [smapSetList, List.length_nil]; rw [if_neg (by omega)]
  | cons v vs ih =>
    simp only [smapSetList, List.length_cons]
    rw [ih, smapGet_smapSet]
    by_cases hb : b = a
    · subst hb
      rw [if_neg (by omega), if_pos rfl, if_pos (by omega)]
      simp
    · by_cases h1 : a + 1 ≤ b ∧ b < a + 1 + vs.length
      · rw [if_pos h1, if_pos (by omega)]
        obtain ⟨n, hn⟩ : ∃ n, b - a = n + 1 := ⟨b - a - 1, by omega⟩
        rw [hn, show b - (a + 1) = n by omega]
        simp
      · rw [if_neg h1, if_neg hb, if_neg (by omega)]

/-- Clearing a range keeps the canonical form. -/
theorem smapWf_smapClear {m : SMap β} (h : smapWf d m = true) (lo hi : Nat) : smapWf d (smapClear lo hi m) = true :=
  smapWfFrom_filter h _

/-- Reading after a range is cleared. -/
theorem smapGet_smapClear (m : SMap β) (lo hi a : Nat) :
    smapGet d (smapClear lo hi m) a = if lo ≤ a ∧ a < hi then d else smapGet d m a := by
  induction m with
  | nil => simp [smapClear, smapGet]
  | cons x r ih =>
    obtain ⟨k, v⟩ := x
    have ihr := ih
    have eqr : smapClear lo hi ((k, v) :: r) =
        if lo ≤ k ∧ k < hi then smapClear lo hi r else (k, v) :: smapClear lo hi r := by
      simp only [smapClear, List.filter_cons]
      by_cases hk : lo ≤ k ∧ k < hi
      · simp [hk]
      · rw [if_neg hk]
        have : (!(decide (lo ≤ k) && decide (k < hi))) = true := by
          simp only [Bool.not_eq_true', Bool.and_eq_false_iff, decide_eq_false_iff_not]
          omega
        rw [if_pos this]
    rw [eqr]
    by_cases hk : lo ≤ k ∧ k < hi
    · rw [if_pos hk, ihr]
      by_cases ha : lo ≤ a ∧ a < hi
      · rw [if_pos ha, if_pos ha]
      · rw [if_neg ha, if_neg ha]
        simp only [smapGet]
        rw [if_neg (by rintro rfl; exact ha hk)]
    · rw [if_neg hk]
      simp only [smapGet]
      by_cases hka : k = a
      · subst hka; rw [if_pos rfl, if_pos rfl, if_neg hk]
      · rw [if_neg hka, if_neg hka, ihr]

/-- An array whose keys are all different from `a` reads as the default there, and does not hide what follows. -/
theorem smapGet_append_none (l m : SMap β) (a : Nat) (h : ∀ p ∈ l, p.1 ≠ a) : smapGet d (l ++ m) a = smapGet d m a := by
  induction l with
  | nil => rfl
  | cons p r ih =>
    obtain ⟨k, v⟩ := p
    simp only [List.cons_append, smapGet]
    rw [if_neg (h (k, v) List.mem_cons_self), ih fun p hp => h p (List.mem_cons_of_mem _ hp)]

/-- Keeping the keys of a property. -/
theorem smapGet_filter_key (m r : SMap β) (p : Nat → Bool) (a : Nat) (ha : p a = true) (hr : ∀ x ∈ r, x.1 ≠ a) :
    smapGet d (m.filter (fun x => p x.1) ++ r) a = smapGet d m a := by
  induction m with
  | nil =>
    have := smapGet_append_none (d := d) r [] a hr
    simpa [smapGet] using this
  | cons x t ih =>
    obtain ⟨k, v⟩ := x
    rw [List.filter_cons]
    by_cases hk : k = a
    · subst hk
      simp only [ha, if_true, List.cons_append, smapGet]
    · simp only [smapGet]
      rw [if_neg hk, ← ih]
      split
      · simp only [List.cons_append, smapGet]; rw [if_neg hk]
      · rfl

/-- Reading the listed values of a tabulated run. -/
theorem smapGet_run (m : SMap β) (lo n : Nat) (f : Nat → β) (a : Nat) :
    smapGet d ((List.range n).filterMap (fun i => if f i = d then none else some (lo + i, f i)) ++ m) a =
      if lo ≤ a ∧ a < lo + n ∧ f (a - lo) ≠ d then f (a - lo) else smapGet d m a := by
  induction n generalizing m with
  | zero => simp only [List.range_zero, List.filterMap_nil, List.nil_append]; rw [if_neg (by omega)]
  | succ n ih =>
    rw [List.range_succ, List.filterMap_append, List.append_assoc, ih]
    by_cases h : lo ≤ a ∧ a < lo + n ∧ f (a - lo) ≠ d
    · rw [if_pos h, if_pos ⟨h.1, by omega, h.2.2⟩]
    · rw [if_neg h]
      by_cases hf : f n = d
      · simp only [List.filterMap_cons, List.filterMap_nil, hf, if_true, List.nil_append]
        rw [if_neg]
        rintro ⟨h1, h2, h3⟩
        by_cases ha : a = lo + n
        · subst ha; rw [show lo + n - lo = n by omega] at h3; exact h3 hf
        · exact h ⟨h1, by omega, h3⟩
      · simp only [List.filterMap_cons, List.filterMap_nil, hf, if_false, List.cons_append, List.nil_append, smapGet]
        by_cases ha : a = lo + n
        · subst ha
          rw [if_pos rfl, show lo + n - lo = n by omega, if_pos ⟨by omega, by omega, hf⟩]
        · rw [if_neg (fun e => ha e.symm), if_neg]
          rintro ⟨h1, h2, h3⟩
          exact h ⟨h1, by omega, h3⟩

/-- Reading after a run of values is replaced. -/
theorem smapGet_smapReplace (m : SMap β) (lo n : Nat) (f : Nat → β) (a : Nat) :
    smapGet d (smapReplace d lo n f m) a = if lo ≤ a ∧ a < lo + n then f (a - lo) else smapGet d m a := by
  unfold smapReplace
  rw [List.append_assoc]
  by_cases h1 : a < lo
  · rw [smapGet_filter_key m _ (fun k => decide (k < lo)) a (by simpa using h1), if_neg (by omega)]
    intro x hx
    rcases List.mem_append.mp hx with hx | hx
    · obtain ⟨i, -, hi⟩ := List.mem_filterMap.mp hx
      split at hi
      · cases hi
      · cases hi; simp only; omega
    · have := (List.mem_filter.mp hx).2; simp only [decide_eq_true_eq] at this; omega
  · rw [smapGet_append_none _ _ _ (fun p hp => by
      have := (List.mem_filter.mp hp).2; simp only [decide_eq_true_eq] at this; omega), smapGet_run]
    by_cases h2 : a < lo + n
    · by_cases hf : f (a - lo) = d
      · rw [if_neg (fun h => h.2.2 hf), if_pos ⟨by omega, h2⟩, hf]
        have := smapGet_append_none (d := d) (m.filter fun p => decide (lo + n ≤ p.1)) [] a (fun p hp => by
          have := (List.mem_filter.mp hp).2; simp only [decide_eq_true_eq] at this; omega)
        simpa [smapGet] using this
      · rw [if_pos ⟨by omega, h2, hf⟩, if_pos ⟨by omega, h2⟩]
    · rw [if_neg (fun h => h2 h.2.1), if_neg (fun h => h2 h.2)]
      have := smapGet_filter_key (d := d) m [] (fun k => decide (lo + n ≤ k)) a (by simp only [decide_eq_true_eq]; omega)
        (by intro x hx; cases hx)
      simpa using this

/-! ## Byte memory -/

/-- Empty memory is canonical. -/
theorem memWf_nil : Memory.wf [] = true := rfl
/-- A byte write keeps the canonical form. -/
theorem memWf_memSet {m : Memory} (h : Memory.wf m = true) (a : Nat) (v : Byte) : Memory.wf (memSet m a v) = true :=
  smapWf_smapSet h a v
/-- A write of bytes keeps the canonical form. -/
theorem memWf_memWrite {m : Memory} (h : Memory.wf m = true) (a : Nat) (bs : List Byte) : Memory.wf (memWrite m a bs) = true :=
  smapWf_smapSetList h a bs
/-- Clearing keeps the canonical form. -/
theorem memWf_memClear {m : Memory} (h : Memory.wf m = true) (lo hi : Nat) : Memory.wf (memClear m lo hi) = true :=
  smapWf_smapClear h lo hi
/-- A byte written is read back, and every other byte is left alone. -/
theorem memGet_memSet (m : Memory) (a b : Nat) (v : Byte) :
    memGet (memSet m a v) b = if b = a then v else memGet m b := smapGet_smapSet m a b v
/-- Bytes written are read back, and every other byte is left alone. -/
theorem memGet_memWrite (m : Memory) (a b : Nat) (bs : List Byte) :
    memGet (memWrite m a bs) b = if a ≤ b ∧ b < a + bs.length then bs.getD (b - a) 0 else memGet m b :=
  smapGet_smapSetList m a b bs
/-- Cleared bytes read as 0, and every other byte is left alone. -/
theorem memGet_memClear (m : Memory) (lo hi a : Nat) :
    memGet (memClear m lo hi) a = if lo ≤ a ∧ a < hi then 0 else memGet m a :=
  smapGet_smapClear m lo hi a

end Sys2Proof.Machine
end

