-- ==== Sys2Proof/Laws/State.lean ====
section
/-! SUPPORT. One lemma for each field under each named update of State, true by unfolding, so that no later proof unfolds a
record update. -/

namespace Sys2Proof.Machine

/-! ### emit -/

@[simp] theorem emit_cyc (o : Out) (s : State) : (emit o s).cyc = s.cyc := rfl
@[simp] theorem emit_mem (o : Out) (s : State) : (emit o s).mem = s.mem := rfl
@[simp] theorem emit_pl (o : Out) (s : State) : (emit o s).pl = s.pl := rfl
@[simp] theorem emit_coh (o : Out) (s : State) : (emit o s).coh = s.coh := rfl
@[simp] theorem emit_hf (o : Out) (s : State) : (emit o s).hf = s.hf := rfl
@[simp] theorem emit_tp (o : Out) (s : State) : (emit o s).tp = s.tp := rfl
@[simp] theorem emit_cm (o : Out) (s : State) : (emit o s).cm = s.cm := rfl
@[simp] theorem emit_sp (o : Out) (s : State) : (emit o s).sp = s.sp := rfl
@[simp] theorem emit_ck (o : Out) (s : State) : (emit o s).ck = s.ck := rfl
@[simp] theorem emit_pwr (o : Out) (s : State) : (emit o s).pwr = s.pwr := rfl
@[simp] theorem emit_tel (o : Out) (s : State) : (emit o s).tel = s.tel := rfl
@[simp] theorem emit_sec (o : Out) (s : State) : (emit o s).sec = s.sec := rfl
@[simp] theorem emit_log (o : Out) (s : State) : (emit o s).log = s.log := rfl
@[simp] theorem emit_fd (o : Out) (s : State) : (emit o s).fd = s.fd := rfl
@[simp] theorem emit_regs (o : Out) (s : State) : (emit o s).regs = s.regs := rfl
@[simp] theorem emit_i3c (o : Out) (s : State) : (emit o s).i3c = s.i3c := rfl
@[simp] theorem emit_out (o : Out) (s : State) : (emit o s).out = s.out ++ [o] := rfl
@[simp] theorem emit_agenda (o : Out) (s : State) : (emit o s).agenda = s.agenda := rfl
@[simp] theorem emit_fresh (o : Out) (s : State) : (emit o s).fresh = s.fresh := rfl
@[simp] theorem emit_outbox (o : Out) (s : State) : (emit o s).outbox = s.outbox := rfl
@[simp] theorem emit_pending (o : Out) (s : State) : (emit o s).pending = s.pending := rfl

/-! ### post -/

@[simp] theorem post_cyc (m : OutMsg) (s : State) : (post m s).cyc = s.cyc := rfl
@[simp] theorem post_mem (m : OutMsg) (s : State) : (post m s).mem = s.mem := rfl
@[simp] theorem post_pl (m : OutMsg) (s : State) : (post m s).pl = s.pl := rfl
@[simp] theorem post_coh (m : OutMsg) (s : State) : (post m s).coh = s.coh := rfl
@[simp] theorem post_hf (m : OutMsg) (s : State) : (post m s).hf = s.hf := rfl
@[simp] theorem post_tp (m : OutMsg) (s : State) : (post m s).tp = s.tp := rfl
@[simp] theorem post_cm (m : OutMsg) (s : State) : (post m s).cm = s.cm := rfl
@[simp] theorem post_sp (m : OutMsg) (s : State) : (post m s).sp = s.sp := rfl
@[simp] theorem post_ck (m : OutMsg) (s : State) : (post m s).ck = s.ck := rfl
@[simp] theorem post_pwr (m : OutMsg) (s : State) : (post m s).pwr = s.pwr := rfl
@[simp] theorem post_tel (m : OutMsg) (s : State) : (post m s).tel = s.tel := rfl
@[simp] theorem post_sec (m : OutMsg) (s : State) : (post m s).sec = s.sec := rfl
@[simp] theorem post_log (m : OutMsg) (s : State) : (post m s).log = s.log := rfl
@[simp] theorem post_fd (m : OutMsg) (s : State) : (post m s).fd = s.fd := rfl
@[simp] theorem post_regs (m : OutMsg) (s : State) : (post m s).regs = s.regs := rfl
@[simp] theorem post_i3c (m : OutMsg) (s : State) : (post m s).i3c = s.i3c := rfl
@[simp] theorem post_out (m : OutMsg) (s : State) : (post m s).out = s.out := rfl
@[simp] theorem post_agenda (m : OutMsg) (s : State) : (post m s).agenda = s.agenda := rfl
@[simp] theorem post_fresh (m : OutMsg) (s : State) : (post m s).fresh = s.fresh := rfl
@[simp] theorem post_outbox (m : OutMsg) (s : State) : (post m s).outbox = s.outbox ++ [m] := rfl
@[simp] theorem post_pending (m : OutMsg) (s : State) : (post m s).pending = s.pending := rfl

/-! ### sched -/

@[simp] theorem sched_cyc (c : Nat) (i : Instr) (s : State) : (sched c i s).cyc = s.cyc := rfl
@[simp] theorem sched_mem (c : Nat) (i : Instr) (s : State) : (sched c i s).mem = s.mem := rfl
@[simp] theorem sched_pl (c : Nat) (i : Instr) (s : State) : (sched c i s).pl = s.pl := rfl
@[simp] theorem sched_coh (c : Nat) (i : Instr) (s : State) : (sched c i s).coh = s.coh := rfl
@[simp] theorem sched_hf (c : Nat) (i : Instr) (s : State) : (sched c i s).hf = s.hf := rfl
@[simp] theorem sched_tp (c : Nat) (i : Instr) (s : State) : (sched c i s).tp = s.tp := rfl
@[simp] theorem sched_cm (c : Nat) (i : Instr) (s : State) : (sched c i s).cm = s.cm := rfl
@[simp] theorem sched_sp (c : Nat) (i : Instr) (s : State) : (sched c i s).sp = s.sp := rfl
@[simp] theorem sched_ck (c : Nat) (i : Instr) (s : State) : (sched c i s).ck = s.ck := rfl
@[simp] theorem sched_pwr (c : Nat) (i : Instr) (s : State) : (sched c i s).pwr = s.pwr := rfl
@[simp] theorem sched_tel (c : Nat) (i : Instr) (s : State) : (sched c i s).tel = s.tel := rfl
@[simp] theorem sched_sec (c : Nat) (i : Instr) (s : State) : (sched c i s).sec = s.sec := rfl
@[simp] theorem sched_log (c : Nat) (i : Instr) (s : State) : (sched c i s).log = s.log := rfl
@[simp] theorem sched_fd (c : Nat) (i : Instr) (s : State) : (sched c i s).fd = s.fd := rfl
@[simp] theorem sched_regs (c : Nat) (i : Instr) (s : State) : (sched c i s).regs = s.regs := rfl
@[simp] theorem sched_i3c (c : Nat) (i : Instr) (s : State) : (sched c i s).i3c = s.i3c := rfl
@[simp] theorem sched_out (c : Nat) (i : Instr) (s : State) : (sched c i s).out = s.out := rfl
@[simp] theorem sched_agenda (c : Nat) (i : Instr) (s : State) : (sched c i s).agenda = s.agenda ++ [(c, i)] := rfl
@[simp] theorem sched_fresh (c : Nat) (i : Instr) (s : State) : (sched c i s).fresh = s.fresh := rfl
@[simp] theorem sched_outbox (c : Nat) (i : Instr) (s : State) : (sched c i s).outbox = s.outbox := rfl
@[simp] theorem sched_pending (c : Nat) (i : Instr) (s : State) : (sched c i s).pending = s.pending := rfl

/-! ### schedNow -/

@[simp] theorem schedNow_cyc (i : Instr) (s : State) : (schedNow i s).cyc = s.cyc := rfl
@[simp] theorem schedNow_mem (i : Instr) (s : State) : (schedNow i s).mem = s.mem := rfl
@[simp] theorem schedNow_pl (i : Instr) (s : State) : (schedNow i s).pl = s.pl := rfl
@[simp] theorem schedNow_coh (i : Instr) (s : State) : (schedNow i s).coh = s.coh := rfl
@[simp] theorem schedNow_hf (i : Instr) (s : State) : (schedNow i s).hf = s.hf := rfl
@[simp] theorem schedNow_tp (i : Instr) (s : State) : (schedNow i s).tp = s.tp := rfl
@[simp] theorem schedNow_cm (i : Instr) (s : State) : (schedNow i s).cm = s.cm := rfl
@[simp] theorem schedNow_sp (i : Instr) (s : State) : (schedNow i s).sp = s.sp := rfl
@[simp] theorem schedNow_ck (i : Instr) (s : State) : (schedNow i s).ck = s.ck := rfl
@[simp] theorem schedNow_pwr (i : Instr) (s : State) : (schedNow i s).pwr = s.pwr := rfl
@[simp] theorem schedNow_tel (i : Instr) (s : State) : (schedNow i s).tel = s.tel := rfl
@[simp] theorem schedNow_sec (i : Instr) (s : State) : (schedNow i s).sec = s.sec := rfl
@[simp] theorem schedNow_log (i : Instr) (s : State) : (schedNow i s).log = s.log := rfl
@[simp] theorem schedNow_fd (i : Instr) (s : State) : (schedNow i s).fd = s.fd := rfl
@[simp] theorem schedNow_regs (i : Instr) (s : State) : (schedNow i s).regs = s.regs := rfl
@[simp] theorem schedNow_i3c (i : Instr) (s : State) : (schedNow i s).i3c = s.i3c := rfl
@[simp] theorem schedNow_out (i : Instr) (s : State) : (schedNow i s).out = s.out := rfl
@[simp] theorem schedNow_agenda (i : Instr) (s : State) : (schedNow i s).agenda = s.agenda ++ [(s.cyc, i)] := rfl
@[simp] theorem schedNow_fresh (i : Instr) (s : State) : (schedNow i s).fresh = s.fresh := rfl
@[simp] theorem schedNow_outbox (i : Instr) (s : State) : (schedNow i s).outbox = s.outbox := rfl
@[simp] theorem schedNow_pending (i : Instr) (s : State) : (schedNow i s).pending = s.pending := rfl

/-! ### setReg32 -/

@[simp] theorem setReg32_cyc (o : Nat) (v : W32) (s : State) : (setReg32 o v s).cyc = s.cyc := rfl
@[simp] theorem setReg32_mem (o : Nat) (v : W32) (s : State) : (setReg32 o v s).mem = s.mem := rfl
@[simp] theorem setReg32_pl (o : Nat) (v : W32) (s : State) : (setReg32 o v s).pl = s.pl := rfl
@[simp] theorem setReg32_coh (o : Nat) (v : W32) (s : State) : (setReg32 o v s).coh = s.coh := rfl
@[simp] theorem setReg32_hf (o : Nat) (v : W32) (s : State) : (setReg32 o v s).hf = s.hf := rfl
@[simp] theorem setReg32_tp (o : Nat) (v : W32) (s : State) : (setReg32 o v s).tp = s.tp := rfl
@[simp] theorem setReg32_cm (o : Nat) (v : W32) (s : State) : (setReg32 o v s).cm = s.cm := rfl
@[simp] theorem setReg32_sp (o : Nat) (v : W32) (s : State) : (setReg32 o v s).sp = s.sp := rfl
@[simp] theorem setReg32_ck (o : Nat) (v : W32) (s : State) : (setReg32 o v s).ck = s.ck := rfl
@[simp] theorem setReg32_pwr (o : Nat) (v : W32) (s : State) : (setReg32 o v s).pwr = s.pwr := rfl
@[simp] theorem setReg32_tel (o : Nat) (v : W32) (s : State) : (setReg32 o v s).tel = s.tel := rfl
@[simp] theorem setReg32_sec (o : Nat) (v : W32) (s : State) : (setReg32 o v s).sec = s.sec := rfl
@[simp] theorem setReg32_log (o : Nat) (v : W32) (s : State) : (setReg32 o v s).log = s.log := rfl
@[simp] theorem setReg32_fd (o : Nat) (v : W32) (s : State) : (setReg32 o v s).fd = s.fd := rfl
@[simp] theorem setReg32_regs (o : Nat) (v : W32) (s : State) : (setReg32 o v s).regs = smapSet 0 (o / 4) v s.regs := rfl
@[simp] theorem setReg32_i3c (o : Nat) (v : W32) (s : State) : (setReg32 o v s).i3c = s.i3c := rfl
@[simp] theorem setReg32_out (o : Nat) (v : W32) (s : State) : (setReg32 o v s).out = s.out := rfl
@[simp] theorem setReg32_agenda (o : Nat) (v : W32) (s : State) : (setReg32 o v s).agenda = s.agenda := rfl
@[simp] theorem setReg32_fresh (o : Nat) (v : W32) (s : State) : (setReg32 o v s).fresh = s.fresh := rfl
@[simp] theorem setReg32_outbox (o : Nat) (v : W32) (s : State) : (setReg32 o v s).outbox = s.outbox := rfl
@[simp] theorem setReg32_pending (o : Nat) (v : W32) (s : State) : (setReg32 o v s).pending = s.pending := rfl

/-! ### setReg64 -/

@[simp] theorem setReg64_cyc (o v : Nat) (s : State) : (setReg64 o v s).cyc = s.cyc := rfl
@[simp] theorem setReg64_mem (o v : Nat) (s : State) : (setReg64 o v s).mem = s.mem := rfl
@[simp] theorem setReg64_pl (o v : Nat) (s : State) : (setReg64 o v s).pl = s.pl := rfl
@[simp] theorem setReg64_coh (o v : Nat) (s : State) : (setReg64 o v s).coh = s.coh := rfl
@[simp] theorem setReg64_hf (o v : Nat) (s : State) : (setReg64 o v s).hf = s.hf := rfl
@[simp] theorem setReg64_tp (o v : Nat) (s : State) : (setReg64 o v s).tp = s.tp := rfl
@[simp] theorem setReg64_cm (o v : Nat) (s : State) : (setReg64 o v s).cm = s.cm := rfl
@[simp] theorem setReg64_sp (o v : Nat) (s : State) : (setReg64 o v s).sp = s.sp := rfl
@[simp] theorem setReg64_ck (o v : Nat) (s : State) : (setReg64 o v s).ck = s.ck := rfl
@[simp] theorem setReg64_pwr (o v : Nat) (s : State) : (setReg64 o v s).pwr = s.pwr := rfl
@[simp] theorem setReg64_tel (o v : Nat) (s : State) : (setReg64 o v s).tel = s.tel := rfl
@[simp] theorem setReg64_sec (o v : Nat) (s : State) : (setReg64 o v s).sec = s.sec := rfl
@[simp] theorem setReg64_log (o v : Nat) (s : State) : (setReg64 o v s).log = s.log := rfl
@[simp] theorem setReg64_fd (o v : Nat) (s : State) : (setReg64 o v s).fd = s.fd := rfl
@[simp] theorem setReg64_i3c (o v : Nat) (s : State) : (setReg64 o v s).i3c = s.i3c := rfl
@[simp] theorem setReg64_out (o v : Nat) (s : State) : (setReg64 o v s).out = s.out := rfl
@[simp] theorem setReg64_agenda (o v : Nat) (s : State) : (setReg64 o v s).agenda = s.agenda := rfl
@[simp] theorem setReg64_fresh (o v : Nat) (s : State) : (setReg64 o v s).fresh = s.fresh := rfl
@[simp] theorem setReg64_outbox (o v : Nat) (s : State) : (setReg64 o v s).outbox = s.outbox := rfl
@[simp] theorem setReg64_pending (o v : Nat) (s : State) : (setReg64 o v s).pending = s.pending := rfl

/-! ### useFree -/

@[simp] theorem useFree_cyc (s : State) : (useFree s).cyc = s.cyc := rfl
@[simp] theorem useFree_mem (s : State) : (useFree s).mem = s.mem := rfl
@[simp] theorem useFree_pl (s : State) : (useFree s).pl = s.pl := rfl
@[simp] theorem useFree_coh (s : State) : (useFree s).coh = s.coh := rfl
@[simp] theorem useFree_hf (s : State) : (useFree s).hf = s.hf := rfl
@[simp] theorem useFree_tp (s : State) : (useFree s).tp = s.tp := rfl
@[simp] theorem useFree_cm (s : State) : (useFree s).cm = s.cm := rfl
@[simp] theorem useFree_sp (s : State) : (useFree s).sp = s.sp := rfl
@[simp] theorem useFree_ck (s : State) : (useFree s).ck = s.ck := rfl
@[simp] theorem useFree_pwr (s : State) : (useFree s).pwr = s.pwr := rfl
@[simp] theorem useFree_tel (s : State) : (useFree s).tel = s.tel := rfl
@[simp] theorem useFree_sec (s : State) : (useFree s).sec = s.sec := rfl
@[simp] theorem useFree_log (s : State) : (useFree s).log = s.log := rfl
@[simp] theorem useFree_fd (s : State) : (useFree s).fd = s.fd := rfl
@[simp] theorem useFree_regs (s : State) : (useFree s).regs = s.regs := rfl
@[simp] theorem useFree_i3c (s : State) : (useFree s).i3c = s.i3c := rfl
@[simp] theorem useFree_out (s : State) : (useFree s).out = s.out := rfl
@[simp] theorem useFree_agenda (s : State) : (useFree s).agenda = s.agenda := rfl
@[simp] theorem useFree_fresh (s : State) : (useFree s).fresh = s.fresh + 1 := rfl
@[simp] theorem useFree_outbox (s : State) : (useFree s).outbox = s.outbox := rfl
@[simp] theorem useFree_pending (s : State) : (useFree s).pending = s.pending := rfl

/-! ### addWrites -/

@[simp] theorem addWrites_cyc (ws : List PendWrite) (s : State) : (addWrites ws s).cyc = s.cyc := rfl
@[simp] theorem addWrites_mem (ws : List PendWrite) (s : State) : (addWrites ws s).mem = s.mem := rfl
@[simp] theorem addWrites_pl (ws : List PendWrite) (s : State) : (addWrites ws s).pl = { s.pl with pw := s.pl.pw ++ ws } := rfl
@[simp] theorem addWrites_coh (ws : List PendWrite) (s : State) : (addWrites ws s).coh = s.coh := rfl
@[simp] theorem addWrites_hf (ws : List PendWrite) (s : State) : (addWrites ws s).hf = s.hf := rfl
@[simp] theorem addWrites_tp (ws : List PendWrite) (s : State) : (addWrites ws s).tp = s.tp := rfl
@[simp] theorem addWrites_cm (ws : List PendWrite) (s : State) : (addWrites ws s).cm = s.cm := rfl
@[simp] theorem addWrites_sp (ws : List PendWrite) (s : State) : (addWrites ws s).sp = s.sp := rfl
@[simp] theorem addWrites_ck (ws : List PendWrite) (s : State) : (addWrites ws s).ck = s.ck := rfl
@[simp] theorem addWrites_pwr (ws : List PendWrite) (s : State) : (addWrites ws s).pwr = s.pwr := rfl
@[simp] theorem addWrites_tel (ws : List PendWrite) (s : State) : (addWrites ws s).tel = s.tel := rfl
@[simp] theorem addWrites_sec (ws : List PendWrite) (s : State) : (addWrites ws s).sec = s.sec := rfl
@[simp] theorem addWrites_log (ws : List PendWrite) (s : State) : (addWrites ws s).log = s.log := rfl
@[simp] theorem addWrites_fd (ws : List PendWrite) (s : State) : (addWrites ws s).fd = s.fd := rfl
@[simp] theorem addWrites_regs (ws : List PendWrite) (s : State) : (addWrites ws s).regs = s.regs := rfl
@[simp] theorem addWrites_i3c (ws : List PendWrite) (s : State) : (addWrites ws s).i3c = s.i3c := rfl
@[simp] theorem addWrites_out (ws : List PendWrite) (s : State) : (addWrites ws s).out = s.out := rfl
@[simp] theorem addWrites_agenda (ws : List PendWrite) (s : State) : (addWrites ws s).agenda = s.agenda := rfl
@[simp] theorem addWrites_fresh (ws : List PendWrite) (s : State) : (addWrites ws s).fresh = s.fresh := rfl
@[simp] theorem addWrites_outbox (ws : List PendWrite) (s : State) : (addWrites ws s).outbox = s.outbox := rfl
@[simp] theorem addWrites_pending (ws : List PendWrite) (s : State) : (addWrites ws s).pending = s.pending := rfl

/-! ### setTctl -/

@[simp] theorem setTctl_cyc (t : Tile) (k : TileCtl) (s : State) : (setTctl t k s).cyc = s.cyc := rfl
@[simp] theorem setTctl_mem (t : Tile) (k : TileCtl) (s : State) : (setTctl t k s).mem = s.mem := rfl
@[simp] theorem setTctl_pl (t : Tile) (k : TileCtl) (s : State) : (setTctl t k s).pl = { s.pl with tiles := smapSet {} t.val k s.pl.tiles } := rfl
@[simp] theorem setTctl_coh (t : Tile) (k : TileCtl) (s : State) : (setTctl t k s).coh = s.coh := rfl
@[simp] theorem setTctl_hf (t : Tile) (k : TileCtl) (s : State) : (setTctl t k s).hf = s.hf := rfl
@[simp] theorem setTctl_tp (t : Tile) (k : TileCtl) (s : State) : (setTctl t k s).tp = s.tp := rfl
@[simp] theorem setTctl_cm (t : Tile) (k : TileCtl) (s : State) : (setTctl t k s).cm = s.cm := rfl
@[simp] theorem setTctl_sp (t : Tile) (k : TileCtl) (s : State) : (setTctl t k s).sp = s.sp := rfl
@[simp] theorem setTctl_ck (t : Tile) (k : TileCtl) (s : State) : (setTctl t k s).ck = s.ck := rfl
@[simp] theorem setTctl_pwr (t : Tile) (k : TileCtl) (s : State) : (setTctl t k s).pwr = s.pwr := rfl
@[simp] theorem setTctl_tel (t : Tile) (k : TileCtl) (s : State) : (setTctl t k s).tel = s.tel := rfl
@[simp] theorem setTctl_sec (t : Tile) (k : TileCtl) (s : State) : (setTctl t k s).sec = s.sec := rfl
@[simp] theorem setTctl_log (t : Tile) (k : TileCtl) (s : State) : (setTctl t k s).log = s.log := rfl
@[simp] theorem setTctl_fd (t : Tile) (k : TileCtl) (s : State) : (setTctl t k s).fd = s.fd := rfl
@[simp] theorem setTctl_regs (t : Tile) (k : TileCtl) (s : State) : (setTctl t k s).regs = s.regs := rfl
@[simp] theorem setTctl_i3c (t : Tile) (k : TileCtl) (s : State) : (setTctl t k s).i3c = s.i3c := rfl
@[simp] theorem setTctl_out (t : Tile) (k : TileCtl) (s : State) : (setTctl t k s).out = s.out := rfl
@[simp] theorem setTctl_agenda (t : Tile) (k : TileCtl) (s : State) : (setTctl t k s).agenda = s.agenda := rfl
@[simp] theorem setTctl_fresh (t : Tile) (k : TileCtl) (s : State) : (setTctl t k s).fresh = s.fresh := rfl
@[simp] theorem setTctl_outbox (t : Tile) (k : TileCtl) (s : State) : (setTctl t k s).outbox = s.outbox := rfl
@[simp] theorem setTctl_pending (t : Tile) (k : TileCtl) (s : State) : (setTctl t k s).pending = s.pending := rfl

/-! ### accrue -/

@[simp] theorem accrue_cyc (t : Tile) (f : Flags) (s : State) : (accrue t f s).cyc = s.cyc := rfl
@[simp] theorem accrue_mem (t : Tile) (f : Flags) (s : State) : (accrue t f s).mem = s.mem := rfl
@[simp] theorem accrue_coh (t : Tile) (f : Flags) (s : State) : (accrue t f s).coh = s.coh := rfl
@[simp] theorem accrue_hf (t : Tile) (f : Flags) (s : State) : (accrue t f s).hf = s.hf := rfl
@[simp] theorem accrue_tp (t : Tile) (f : Flags) (s : State) : (accrue t f s).tp = s.tp := rfl
@[simp] theorem accrue_cm (t : Tile) (f : Flags) (s : State) : (accrue t f s).cm = s.cm := rfl
@[simp] theorem accrue_sp (t : Tile) (f : Flags) (s : State) : (accrue t f s).sp = s.sp := rfl
@[simp] theorem accrue_ck (t : Tile) (f : Flags) (s : State) : (accrue t f s).ck = s.ck := rfl
@[simp] theorem accrue_pwr (t : Tile) (f : Flags) (s : State) : (accrue t f s).pwr = s.pwr := rfl
@[simp] theorem accrue_tel (t : Tile) (f : Flags) (s : State) : (accrue t f s).tel = s.tel := rfl
@[simp] theorem accrue_sec (t : Tile) (f : Flags) (s : State) : (accrue t f s).sec = s.sec := rfl
@[simp] theorem accrue_log (t : Tile) (f : Flags) (s : State) : (accrue t f s).log = s.log := rfl
@[simp] theorem accrue_fd (t : Tile) (f : Flags) (s : State) : (accrue t f s).fd = s.fd := rfl
@[simp] theorem accrue_regs (t : Tile) (f : Flags) (s : State) : (accrue t f s).regs = s.regs := rfl
@[simp] theorem accrue_i3c (t : Tile) (f : Flags) (s : State) : (accrue t f s).i3c = s.i3c := rfl
@[simp] theorem accrue_out (t : Tile) (f : Flags) (s : State) : (accrue t f s).out = s.out := rfl
@[simp] theorem accrue_agenda (t : Tile) (f : Flags) (s : State) : (accrue t f s).agenda = s.agenda := rfl
@[simp] theorem accrue_fresh (t : Tile) (f : Flags) (s : State) : (accrue t f s).fresh = s.fresh := rfl
@[simp] theorem accrue_outbox (t : Tile) (f : Flags) (s : State) : (accrue t f s).outbox = s.outbox := rfl
@[simp] theorem accrue_pending (t : Tile) (f : Flags) (s : State) : (accrue t f s).pending = s.pending := rfl

/-! ### seenBy -/

@[simp] theorem seenBy_cyc (t : Tile) (c : Nat) (s : State) : (seenBy t c s).cyc = s.cyc := rfl
@[simp] theorem seenBy_mem (t : Tile) (c : Nat) (s : State) : (seenBy t c s).mem = s.mem := rfl
@[simp] theorem seenBy_coh (t : Tile) (c : Nat) (s : State) : (seenBy t c s).coh = s.coh := rfl
@[simp] theorem seenBy_hf (t : Tile) (c : Nat) (s : State) : (seenBy t c s).hf = s.hf := rfl
@[simp] theorem seenBy_tp (t : Tile) (c : Nat) (s : State) : (seenBy t c s).tp = s.tp := rfl
@[simp] theorem seenBy_cm (t : Tile) (c : Nat) (s : State) : (seenBy t c s).cm = s.cm := rfl
@[simp] theorem seenBy_sp (t : Tile) (c : Nat) (s : State) : (seenBy t c s).sp = s.sp := rfl
@[simp] theorem seenBy_ck (t : Tile) (c : Nat) (s : State) : (seenBy t c s).ck = s.ck := rfl
@[simp] theorem seenBy_pwr (t : Tile) (c : Nat) (s : State) : (seenBy t c s).pwr = s.pwr := rfl
@[simp] theorem seenBy_tel (t : Tile) (c : Nat) (s : State) : (seenBy t c s).tel = s.tel := rfl
@[simp] theorem seenBy_sec (t : Tile) (c : Nat) (s : State) : (seenBy t c s).sec = s.sec := rfl
@[simp] theorem seenBy_log (t : Tile) (c : Nat) (s : State) : (seenBy t c s).log = s.log := rfl
@[simp] theorem seenBy_fd (t : Tile) (c : Nat) (s : State) : (seenBy t c s).fd = s.fd := rfl
@[simp] theorem seenBy_regs (t : Tile) (c : Nat) (s : State) : (seenBy t c s).regs = s.regs := rfl
@[simp] theorem seenBy_i3c (t : Tile) (c : Nat) (s : State) : (seenBy t c s).i3c = s.i3c := rfl
@[simp] theorem seenBy_out (t : Tile) (c : Nat) (s : State) : (seenBy t c s).out = s.out := rfl
@[simp] theorem seenBy_agenda (t : Tile) (c : Nat) (s : State) : (seenBy t c s).agenda = s.agenda := rfl
@[simp] theorem seenBy_fresh (t : Tile) (c : Nat) (s : State) : (seenBy t c s).fresh = s.fresh := rfl
@[simp] theorem seenBy_outbox (t : Tile) (c : Nat) (s : State) : (seenBy t c s).outbox = s.outbox := rfl
@[simp] theorem seenBy_pending (t : Tile) (c : Nat) (s : State) : (seenBy t c s).pending = s.pending := rfl

/-! ### advance -/

@[simp] theorem advance_cyc (t : Tile) (s : State) : (advance t s).cyc = s.cyc := rfl
@[simp] theorem advance_mem (t : Tile) (s : State) : (advance t s).mem = s.mem := rfl
@[simp] theorem advance_coh (t : Tile) (s : State) : (advance t s).coh = s.coh := rfl
@[simp] theorem advance_hf (t : Tile) (s : State) : (advance t s).hf = s.hf := rfl
@[simp] theorem advance_tp (t : Tile) (s : State) : (advance t s).tp = s.tp := rfl
@[simp] theorem advance_cm (t : Tile) (s : State) : (advance t s).cm = s.cm := rfl
@[simp] theorem advance_sp (t : Tile) (s : State) : (advance t s).sp = s.sp := rfl
@[simp] theorem advance_ck (t : Tile) (s : State) : (advance t s).ck = s.ck := rfl
@[simp] theorem advance_pwr (t : Tile) (s : State) : (advance t s).pwr = s.pwr := rfl
@[simp] theorem advance_tel (t : Tile) (s : State) : (advance t s).tel = s.tel := rfl
@[simp] theorem advance_sec (t : Tile) (s : State) : (advance t s).sec = s.sec := rfl
@[simp] theorem advance_log (t : Tile) (s : State) : (advance t s).log = s.log := rfl
@[simp] theorem advance_fd (t : Tile) (s : State) : (advance t s).fd = s.fd := rfl
@[simp] theorem advance_regs (t : Tile) (s : State) : (advance t s).regs = s.regs := rfl
@[simp] theorem advance_i3c (t : Tile) (s : State) : (advance t s).i3c = s.i3c := rfl
@[simp] theorem advance_out (t : Tile) (s : State) : (advance t s).out = s.out := rfl
@[simp] theorem advance_agenda (t : Tile) (s : State) : (advance t s).agenda = s.agenda := rfl
@[simp] theorem advance_fresh (t : Tile) (s : State) : (advance t s).fresh = s.fresh := rfl
@[simp] theorem advance_outbox (t : Tile) (s : State) : (advance t s).outbox = s.outbox := rfl
@[simp] theorem advance_pending (t : Tile) (s : State) : (advance t s).pending = s.pending := rfl

/-! ### hold -/

@[simp] theorem hold_cyc (r : Res) (lo hi : Nat) (s : State) : (hold r lo hi s).cyc = s.cyc := rfl
@[simp] theorem hold_mem (r : Res) (lo hi : Nat) (s : State) : (hold r lo hi s).mem = s.mem := rfl
@[simp] theorem hold_pl (r : Res) (lo hi : Nat) (s : State) : (hold r lo hi s).pl = { s.pl with ivals := s.pl.ivals ++ [⟨r, lo, hi, s.cyc⟩] } := rfl
@[simp] theorem hold_coh (r : Res) (lo hi : Nat) (s : State) : (hold r lo hi s).coh = s.coh := rfl
@[simp] theorem hold_hf (r : Res) (lo hi : Nat) (s : State) : (hold r lo hi s).hf = s.hf := rfl
@[simp] theorem hold_tp (r : Res) (lo hi : Nat) (s : State) : (hold r lo hi s).tp = s.tp := rfl
@[simp] theorem hold_cm (r : Res) (lo hi : Nat) (s : State) : (hold r lo hi s).cm = s.cm := rfl
@[simp] theorem hold_sp (r : Res) (lo hi : Nat) (s : State) : (hold r lo hi s).sp = s.sp := rfl
@[simp] theorem hold_ck (r : Res) (lo hi : Nat) (s : State) : (hold r lo hi s).ck = s.ck := rfl
@[simp] theorem hold_pwr (r : Res) (lo hi : Nat) (s : State) : (hold r lo hi s).pwr = s.pwr := rfl
@[simp] theorem hold_tel (r : Res) (lo hi : Nat) (s : State) : (hold r lo hi s).tel = s.tel := rfl
@[simp] theorem hold_sec (r : Res) (lo hi : Nat) (s : State) : (hold r lo hi s).sec = s.sec := rfl
@[simp] theorem hold_log (r : Res) (lo hi : Nat) (s : State) : (hold r lo hi s).log = s.log := rfl
@[simp] theorem hold_fd (r : Res) (lo hi : Nat) (s : State) : (hold r lo hi s).fd = s.fd := rfl
@[simp] theorem hold_regs (r : Res) (lo hi : Nat) (s : State) : (hold r lo hi s).regs = s.regs := rfl
@[simp] theorem hold_i3c (r : Res) (lo hi : Nat) (s : State) : (hold r lo hi s).i3c = s.i3c := rfl
@[simp] theorem hold_out (r : Res) (lo hi : Nat) (s : State) : (hold r lo hi s).out = s.out := rfl
@[simp] theorem hold_agenda (r : Res) (lo hi : Nat) (s : State) : (hold r lo hi s).agenda = s.agenda := rfl
@[simp] theorem hold_fresh (r : Res) (lo hi : Nat) (s : State) : (hold r lo hi s).fresh = s.fresh := rfl
@[simp] theorem hold_outbox (r : Res) (lo hi : Nat) (s : State) : (hold r lo hi s).outbox = s.outbox := rfl
@[simp] theorem hold_pending (r : Res) (lo hi : Nat) (s : State) : (hold r lo hi s).pending = s.pending := rfl

/-! ### report -/

@[simp] theorem report_cyc (c1 c2 c3 c4 c5 c6 : Nat) (a b : Bool) (s : State) : (report c1 c2 c3 c4 c5 c6 a b s).cyc = s.cyc := rfl
@[simp] theorem report_mem (c1 c2 c3 c4 c5 c6 : Nat) (a b : Bool) (s : State) : (report c1 c2 c3 c4 c5 c6 a b s).mem = s.mem := rfl
@[simp] theorem report_pl (c1 c2 c3 c4 c5 c6 : Nat) (a b : Bool) (s : State) : (report c1 c2 c3 c4 c5 c6 a b s).pl = s.pl := rfl
@[simp] theorem report_coh (c1 c2 c3 c4 c5 c6 : Nat) (a b : Bool) (s : State) : (report c1 c2 c3 c4 c5 c6 a b s).coh = s.coh := rfl
@[simp] theorem report_hf (c1 c2 c3 c4 c5 c6 : Nat) (a b : Bool) (s : State) : (report c1 c2 c3 c4 c5 c6 a b s).hf = s.hf := rfl
@[simp] theorem report_tp (c1 c2 c3 c4 c5 c6 : Nat) (a b : Bool) (s : State) : (report c1 c2 c3 c4 c5 c6 a b s).tp = s.tp := rfl
@[simp] theorem report_cm (c1 c2 c3 c4 c5 c6 : Nat) (a b : Bool) (s : State) : (report c1 c2 c3 c4 c5 c6 a b s).cm = s.cm := rfl
@[simp] theorem report_sp (c1 c2 c3 c4 c5 c6 : Nat) (a b : Bool) (s : State) : (report c1 c2 c3 c4 c5 c6 a b s).sp = s.sp := rfl
@[simp] theorem report_ck (c1 c2 c3 c4 c5 c6 : Nat) (a b : Bool) (s : State) : (report c1 c2 c3 c4 c5 c6 a b s).ck = s.ck := rfl
@[simp] theorem report_pwr (c1 c2 c3 c4 c5 c6 : Nat) (a b : Bool) (s : State) : (report c1 c2 c3 c4 c5 c6 a b s).pwr = s.pwr := rfl
@[simp] theorem report_tel (c1 c2 c3 c4 c5 c6 : Nat) (a b : Bool) (s : State) : (report c1 c2 c3 c4 c5 c6 a b s).tel = s.tel := rfl
@[simp] theorem report_sec (c1 c2 c3 c4 c5 c6 : Nat) (a b : Bool) (s : State) : (report c1 c2 c3 c4 c5 c6 a b s).sec = s.sec := rfl
@[simp] theorem report_log (c1 c2 c3 c4 c5 c6 : Nat) (a b : Bool) (s : State) : (report c1 c2 c3 c4 c5 c6 a b s).log = s.log := rfl
@[simp] theorem report_fd (c1 c2 c3 c4 c5 c6 : Nat) (a b : Bool) (s : State) : (report c1 c2 c3 c4 c5 c6 a b s).fd = s.fd := rfl
@[simp] theorem report_regs (c1 c2 c3 c4 c5 c6 : Nat) (a b : Bool) (s : State) : (report c1 c2 c3 c4 c5 c6 a b s).regs = s.regs := rfl
@[simp] theorem report_i3c (c1 c2 c3 c4 c5 c6 : Nat) (a b : Bool) (s : State) : (report c1 c2 c3 c4 c5 c6 a b s).i3c = s.i3c := rfl
@[simp] theorem report_out (c1 c2 c3 c4 c5 c6 : Nat) (a b : Bool) (s : State) : (report c1 c2 c3 c4 c5 c6 a b s).out = s.out := rfl
@[simp] theorem report_fresh (c1 c2 c3 c4 c5 c6 : Nat) (a b : Bool) (s : State) : (report c1 c2 c3 c4 c5 c6 a b s).fresh = s.fresh := rfl
@[simp] theorem report_outbox (c1 c2 c3 c4 c5 c6 : Nat) (a b : Bool) (s : State) : (report c1 c2 c3 c4 c5 c6 a b s).outbox = s.outbox := rfl
@[simp] theorem report_pending (c1 c2 c3 c4 c5 c6 : Nat) (a b : Bool) (s : State) : (report c1 c2 c3 c4 c5 c6 a b s).pending = s.pending := rfl

/-! ### dropCmd -/

@[simp] theorem dropCmd_cyc (d : Desc) (s : State) : (dropCmd d s).cyc = s.cyc := rfl
@[simp] theorem dropCmd_mem (d : Desc) (s : State) : (dropCmd d s).mem = s.mem := rfl
@[simp] theorem dropCmd_pl (d : Desc) (s : State) : (dropCmd d s).pl = s.pl := rfl
@[simp] theorem dropCmd_coh (d : Desc) (s : State) : (dropCmd d s).coh = s.coh := rfl
@[simp] theorem dropCmd_tp (d : Desc) (s : State) : (dropCmd d s).tp = s.tp := rfl
@[simp] theorem dropCmd_cm (d : Desc) (s : State) : (dropCmd d s).cm = s.cm := rfl
@[simp] theorem dropCmd_sp (d : Desc) (s : State) : (dropCmd d s).sp = s.sp := rfl
@[simp] theorem dropCmd_ck (d : Desc) (s : State) : (dropCmd d s).ck = s.ck := rfl
@[simp] theorem dropCmd_pwr (d : Desc) (s : State) : (dropCmd d s).pwr = s.pwr := rfl
@[simp] theorem dropCmd_tel (d : Desc) (s : State) : (dropCmd d s).tel = s.tel := rfl
@[simp] theorem dropCmd_sec (d : Desc) (s : State) : (dropCmd d s).sec = s.sec := rfl
@[simp] theorem dropCmd_log (d : Desc) (s : State) : (dropCmd d s).log = s.log := rfl
@[simp] theorem dropCmd_fd (d : Desc) (s : State) : (dropCmd d s).fd = s.fd := rfl
@[simp] theorem dropCmd_regs (d : Desc) (s : State) : (dropCmd d s).regs = s.regs := rfl
@[simp] theorem dropCmd_i3c (d : Desc) (s : State) : (dropCmd d s).i3c = s.i3c := rfl
@[simp] theorem dropCmd_out (d : Desc) (s : State) : (dropCmd d s).out = s.out := rfl
@[simp] theorem dropCmd_agenda (d : Desc) (s : State) : (dropCmd d s).agenda = s.agenda := rfl
@[simp] theorem dropCmd_fresh (d : Desc) (s : State) : (dropCmd d s).fresh = s.fresh := rfl
@[simp] theorem dropCmd_outbox (d : Desc) (s : State) : (dropCmd d s).outbox = s.outbox := rfl
@[simp] theorem dropCmd_pending (d : Desc) (s : State) : (dropCmd d s).pending = s.pending := rfl

/-! ### setLayby -/

@[simp] theorem setLayby_cyc (k : Nat) (x : LaybySlot) (s : State) : (setLayby k x s).cyc = s.cyc := rfl
@[simp] theorem setLayby_mem (k : Nat) (x : LaybySlot) (s : State) : (setLayby k x s).mem = s.mem := rfl
@[simp] theorem setLayby_coh (k : Nat) (x : LaybySlot) (s : State) : (setLayby k x s).coh = s.coh := rfl
@[simp] theorem setLayby_hf (k : Nat) (x : LaybySlot) (s : State) : (setLayby k x s).hf = s.hf := rfl
@[simp] theorem setLayby_tp (k : Nat) (x : LaybySlot) (s : State) : (setLayby k x s).tp = s.tp := rfl
@[simp] theorem setLayby_cm (k : Nat) (x : LaybySlot) (s : State) : (setLayby k x s).cm = s.cm := rfl
@[simp] theorem setLayby_sp (k : Nat) (x : LaybySlot) (s : State) : (setLayby k x s).sp = s.sp := rfl
@[simp] theorem setLayby_ck (k : Nat) (x : LaybySlot) (s : State) : (setLayby k x s).ck = s.ck := rfl
@[simp] theorem setLayby_pwr (k : Nat) (x : LaybySlot) (s : State) : (setLayby k x s).pwr = s.pwr := rfl
@[simp] theorem setLayby_tel (k : Nat) (x : LaybySlot) (s : State) : (setLayby k x s).tel = s.tel := rfl
@[simp] theorem setLayby_sec (k : Nat) (x : LaybySlot) (s : State) : (setLayby k x s).sec = s.sec := rfl
@[simp] theorem setLayby_log (k : Nat) (x : LaybySlot) (s : State) : (setLayby k x s).log = s.log := rfl
@[simp] theorem setLayby_fd (k : Nat) (x : LaybySlot) (s : State) : (setLayby k x s).fd = s.fd := rfl
@[simp] theorem setLayby_regs (k : Nat) (x : LaybySlot) (s : State) : (setLayby k x s).regs = s.regs := rfl
@[simp] theorem setLayby_i3c (k : Nat) (x : LaybySlot) (s : State) : (setLayby k x s).i3c = s.i3c := rfl
@[simp] theorem setLayby_out (k : Nat) (x : LaybySlot) (s : State) : (setLayby k x s).out = s.out := rfl
@[simp] theorem setLayby_agenda (k : Nat) (x : LaybySlot) (s : State) : (setLayby k x s).agenda = s.agenda := rfl
@[simp] theorem setLayby_fresh (k : Nat) (x : LaybySlot) (s : State) : (setLayby k x s).fresh = s.fresh := rfl
@[simp] theorem setLayby_outbox (k : Nat) (x : LaybySlot) (s : State) : (setLayby k x s).outbox = s.outbox := rfl
@[simp] theorem setLayby_pending (k : Nat) (x : LaybySlot) (s : State) : (setLayby k x s).pending = s.pending := rfl

/-! ### setRing -/

@[simp] theorem setRing_cyc (r : Ring) (x : RingSt) (s : State) : (setRing r x s).cyc = s.cyc := rfl
@[simp] theorem setRing_mem (r : Ring) (x : RingSt) (s : State) : (setRing r x s).mem = s.mem := rfl
@[simp] theorem setRing_pl (r : Ring) (x : RingSt) (s : State) : (setRing r x s).pl = s.pl := rfl
@[simp] theorem setRing_coh (r : Ring) (x : RingSt) (s : State) : (setRing r x s).coh = s.coh := rfl
@[simp] theorem setRing_tp (r : Ring) (x : RingSt) (s : State) : (setRing r x s).tp = s.tp := rfl
@[simp] theorem setRing_cm (r : Ring) (x : RingSt) (s : State) : (setRing r x s).cm = s.cm := rfl
@[simp] theorem setRing_sp (r : Ring) (x : RingSt) (s : State) : (setRing r x s).sp = s.sp := rfl
@[simp] theorem setRing_ck (r : Ring) (x : RingSt) (s : State) : (setRing r x s).ck = s.ck := rfl
@[simp] theorem setRing_pwr (r : Ring) (x : RingSt) (s : State) : (setRing r x s).pwr = s.pwr := rfl
@[simp] theorem setRing_tel (r : Ring) (x : RingSt) (s : State) : (setRing r x s).tel = s.tel := rfl
@[simp] theorem setRing_sec (r : Ring) (x : RingSt) (s : State) : (setRing r x s).sec = s.sec := rfl
@[simp] theorem setRing_log (r : Ring) (x : RingSt) (s : State) : (setRing r x s).log = s.log := rfl
@[simp] theorem setRing_fd (r : Ring) (x : RingSt) (s : State) : (setRing r x s).fd = s.fd := rfl
@[simp] theorem setRing_regs (r : Ring) (x : RingSt) (s : State) : (setRing r x s).regs = s.regs := rfl
@[simp] theorem setRing_i3c (r : Ring) (x : RingSt) (s : State) : (setRing r x s).i3c = s.i3c := rfl
@[simp] theorem setRing_out (r : Ring) (x : RingSt) (s : State) : (setRing r x s).out = s.out := rfl
@[simp] theorem setRing_agenda (r : Ring) (x : RingSt) (s : State) : (setRing r x s).agenda = s.agenda := rfl
@[simp] theorem setRing_fresh (r : Ring) (x : RingSt) (s : State) : (setRing r x s).fresh = s.fresh := rfl
@[simp] theorem setRing_outbox (r : Ring) (x : RingSt) (s : State) : (setRing r x s).outbox = s.outbox := rfl
@[simp] theorem setRing_pending (r : Ring) (x : RingSt) (s : State) : (setRing r x s).pending = s.pending := rfl

/-! ### setPort -/

@[simp] theorem setPort_cyc (p : Port) (x : PortSt) (s : State) : (setPort p x s).cyc = s.cyc := rfl
@[simp] theorem setPort_mem (p : Port) (x : PortSt) (s : State) : (setPort p x s).mem = s.mem := rfl
@[simp] theorem setPort_pl (p : Port) (x : PortSt) (s : State) : (setPort p x s).pl = s.pl := rfl
@[simp] theorem setPort_coh (p : Port) (x : PortSt) (s : State) : (setPort p x s).coh = s.coh := rfl
@[simp] theorem setPort_hf (p : Port) (x : PortSt) (s : State) : (setPort p x s).hf = s.hf := rfl
@[simp] theorem setPort_cm (p : Port) (x : PortSt) (s : State) : (setPort p x s).cm = s.cm := rfl
@[simp] theorem setPort_sp (p : Port) (x : PortSt) (s : State) : (setPort p x s).sp = s.sp := rfl
@[simp] theorem setPort_ck (p : Port) (x : PortSt) (s : State) : (setPort p x s).ck = s.ck := rfl
@[simp] theorem setPort_pwr (p : Port) (x : PortSt) (s : State) : (setPort p x s).pwr = s.pwr := rfl
@[simp] theorem setPort_tel (p : Port) (x : PortSt) (s : State) : (setPort p x s).tel = s.tel := rfl
@[simp] theorem setPort_sec (p : Port) (x : PortSt) (s : State) : (setPort p x s).sec = s.sec := rfl
@[simp] theorem setPort_log (p : Port) (x : PortSt) (s : State) : (setPort p x s).log = s.log := rfl
@[simp] theorem setPort_fd (p : Port) (x : PortSt) (s : State) : (setPort p x s).fd = s.fd := rfl
@[simp] theorem setPort_regs (p : Port) (x : PortSt) (s : State) : (setPort p x s).regs = s.regs := rfl
@[simp] theorem setPort_i3c (p : Port) (x : PortSt) (s : State) : (setPort p x s).i3c = s.i3c := rfl
@[simp] theorem setPort_out (p : Port) (x : PortSt) (s : State) : (setPort p x s).out = s.out := rfl
@[simp] theorem setPort_agenda (p : Port) (x : PortSt) (s : State) : (setPort p x s).agenda = s.agenda := rfl
@[simp] theorem setPort_fresh (p : Port) (x : PortSt) (s : State) : (setPort p x s).fresh = s.fresh := rfl
@[simp] theorem setPort_outbox (p : Port) (x : PortSt) (s : State) : (setPort p x s).outbox = s.outbox := rfl
@[simp] theorem setPort_pending (p : Port) (x : PortSt) (s : State) : (setPort p x s).pending = s.pending := rfl

/-! ### tileOnly -/

@[simp] theorem tileOnly_cyc (s u : State) : (tileOnly s u).cyc = s.cyc := rfl
@[simp] theorem tileOnly_mem (s u : State) : (tileOnly s u).mem = s.mem := rfl
@[simp] theorem tileOnly_pl (s u : State) : (tileOnly s u).pl = u.pl := rfl
@[simp] theorem tileOnly_coh (s u : State) : (tileOnly s u).coh = s.coh := rfl
@[simp] theorem tileOnly_hf (s u : State) : (tileOnly s u).hf = s.hf := rfl
@[simp] theorem tileOnly_tp (s u : State) : (tileOnly s u).tp = s.tp := rfl
@[simp] theorem tileOnly_cm (s u : State) : (tileOnly s u).cm = u.cm := rfl
@[simp] theorem tileOnly_sp (s u : State) : (tileOnly s u).sp = s.sp := rfl
@[simp] theorem tileOnly_ck (s u : State) : (tileOnly s u).ck = keepCk s u := rfl
@[simp] theorem tileOnly_pwr (s u : State) : (tileOnly s u).pwr = s.pwr := rfl
@[simp] theorem tileOnly_tel (s u : State) : (tileOnly s u).tel = s.tel := rfl
@[simp] theorem tileOnly_sec (s u : State) : (tileOnly s u).sec = s.sec := rfl
@[simp] theorem tileOnly_log (s u : State) : (tileOnly s u).log = s.log := rfl
@[simp] theorem tileOnly_fd (s u : State) : (tileOnly s u).fd = s.fd := rfl
@[simp] theorem tileOnly_regs (s u : State) : (tileOnly s u).regs = u.regs := rfl
@[simp] theorem tileOnly_i3c (s u : State) : (tileOnly s u).i3c = s.i3c := rfl
@[simp] theorem tileOnly_out (s u : State) : (tileOnly s u).out = u.out := rfl
@[simp] theorem tileOnly_agenda (s u : State) : (tileOnly s u).agenda = u.agenda := rfl
@[simp] theorem tileOnly_fresh (s u : State) : (tileOnly s u).fresh = u.fresh := rfl
@[simp] theorem tileOnly_outbox (s u : State) : (tileOnly s u).outbox = u.outbox := rfl
@[simp] theorem tileOnly_pending (s u : State) : (tileOnly s u).pending = s.pending := rfl

/-! ### nruOnly -/

@[simp] theorem nruOnly_cyc (s u : State) : (nruOnly s u).cyc = s.cyc := rfl
@[simp] theorem nruOnly_mem (s u : State) : (nruOnly s u).mem = u.mem := rfl
@[simp] theorem nruOnly_pl (s u : State) : (nruOnly s u).pl = u.pl := rfl
@[simp] theorem nruOnly_coh (s u : State) : (nruOnly s u).coh = s.coh := rfl
@[simp] theorem nruOnly_hf (s u : State) : (nruOnly s u).hf = s.hf := rfl
@[simp] theorem nruOnly_tp (s u : State) : (nruOnly s u).tp = s.tp := rfl
@[simp] theorem nruOnly_cm (s u : State) : (nruOnly s u).cm = u.cm := rfl
@[simp] theorem nruOnly_sp (s u : State) : (nruOnly s u).sp = s.sp := rfl
@[simp] theorem nruOnly_ck (s u : State) : (nruOnly s u).ck = keepCk s u := rfl
@[simp] theorem nruOnly_pwr (s u : State) : (nruOnly s u).pwr = s.pwr := rfl
@[simp] theorem nruOnly_tel (s u : State) : (nruOnly s u).tel = s.tel := rfl
@[simp] theorem nruOnly_sec (s u : State) : (nruOnly s u).sec = s.sec := rfl
@[simp] theorem nruOnly_log (s u : State) : (nruOnly s u).log = s.log := rfl
@[simp] theorem nruOnly_fd (s u : State) : (nruOnly s u).fd = s.fd := rfl
@[simp] theorem nruOnly_regs (s u : State) : (nruOnly s u).regs = u.regs := rfl
@[simp] theorem nruOnly_i3c (s u : State) : (nruOnly s u).i3c = s.i3c := rfl
@[simp] theorem nruOnly_out (s u : State) : (nruOnly s u).out = u.out := rfl
@[simp] theorem nruOnly_agenda (s u : State) : (nruOnly s u).agenda = u.agenda := rfl
@[simp] theorem nruOnly_fresh (s u : State) : (nruOnly s u).fresh = u.fresh := rfl
@[simp] theorem nruOnly_outbox (s u : State) : (nruOnly s u).outbox = u.outbox := rfl
@[simp] theorem nruOnly_pending (s u : State) : (nruOnly s u).pending = s.pending := rfl

/-! ### cohOnly -/

@[simp] theorem cohOnly_cyc (s u : State) : (cohOnly s u).cyc = s.cyc := rfl
@[simp] theorem cohOnly_mem (s u : State) : (cohOnly s u).mem = u.mem := rfl
@[simp] theorem cohOnly_pl (s u : State) : (cohOnly s u).pl = u.pl := rfl
@[simp] theorem cohOnly_coh (s u : State) : (cohOnly s u).coh = u.coh := rfl
@[simp] theorem cohOnly_hf (s u : State) : (cohOnly s u).hf = s.hf := rfl
@[simp] theorem cohOnly_tp (s u : State) : (cohOnly s u).tp = s.tp := rfl
@[simp] theorem cohOnly_cm (s u : State) : (cohOnly s u).cm = u.cm := rfl
@[simp] theorem cohOnly_sp (s u : State) : (cohOnly s u).sp = s.sp := rfl
@[simp] theorem cohOnly_ck (s u : State) : (cohOnly s u).ck = keepCk s u := rfl
@[simp] theorem cohOnly_pwr (s u : State) : (cohOnly s u).pwr = s.pwr := rfl
@[simp] theorem cohOnly_tel (s u : State) : (cohOnly s u).tel = s.tel := rfl
@[simp] theorem cohOnly_sec (s u : State) : (cohOnly s u).sec = s.sec := rfl
@[simp] theorem cohOnly_log (s u : State) : (cohOnly s u).log = s.log := rfl
@[simp] theorem cohOnly_fd (s u : State) : (cohOnly s u).fd = s.fd := rfl
@[simp] theorem cohOnly_regs (s u : State) : (cohOnly s u).regs = u.regs := rfl
@[simp] theorem cohOnly_i3c (s u : State) : (cohOnly s u).i3c = s.i3c := rfl
@[simp] theorem cohOnly_out (s u : State) : (cohOnly s u).out = u.out := rfl
@[simp] theorem cohOnly_agenda (s u : State) : (cohOnly s u).agenda = u.agenda := rfl
@[simp] theorem cohOnly_fresh (s u : State) : (cohOnly s u).fresh = u.fresh := rfl
@[simp] theorem cohOnly_outbox (s u : State) : (cohOnly s u).outbox = u.outbox := rfl
@[simp] theorem cohOnly_pending (s u : State) : (cohOnly s u).pending = s.pending := rfl

/-! ### hostOnly -/

@[simp] theorem hostOnly_cyc (s u : State) : (hostOnly s u).cyc = s.cyc := rfl
@[simp] theorem hostOnly_mem (s u : State) : (hostOnly s u).mem = u.mem := rfl
@[simp] theorem hostOnly_pl (s u : State) : (hostOnly s u).pl = u.pl := rfl
@[simp] theorem hostOnly_coh (s u : State) : (hostOnly s u).coh = u.coh := rfl
@[simp] theorem hostOnly_hf (s u : State) : (hostOnly s u).hf = u.hf := rfl
@[simp] theorem hostOnly_tp (s u : State) : (hostOnly s u).tp = u.tp := rfl
@[simp] theorem hostOnly_cm (s u : State) : (hostOnly s u).cm = u.cm := rfl
@[simp] theorem hostOnly_sp (s u : State) : (hostOnly s u).sp = s.sp := rfl
@[simp] theorem hostOnly_ck (s u : State) : (hostOnly s u).ck = keepCk s u := rfl
@[simp] theorem hostOnly_pwr (s u : State) : (hostOnly s u).pwr = s.pwr := rfl
@[simp] theorem hostOnly_tel (s u : State) : (hostOnly s u).tel = s.tel := rfl
@[simp] theorem hostOnly_sec (s u : State) : (hostOnly s u).sec = s.sec := rfl
@[simp] theorem hostOnly_log (s u : State) : (hostOnly s u).log = s.log := rfl
@[simp] theorem hostOnly_fd (s u : State) : (hostOnly s u).fd = s.fd := rfl
@[simp] theorem hostOnly_regs (s u : State) : (hostOnly s u).regs = u.regs := rfl
@[simp] theorem hostOnly_i3c (s u : State) : (hostOnly s u).i3c = s.i3c := rfl
@[simp] theorem hostOnly_out (s u : State) : (hostOnly s u).out = u.out := rfl
@[simp] theorem hostOnly_agenda (s u : State) : (hostOnly s u).agenda = u.agenda := rfl
@[simp] theorem hostOnly_fresh (s u : State) : (hostOnly s u).fresh = u.fresh := rfl
@[simp] theorem hostOnly_outbox (s u : State) : (hostOnly s u).outbox = u.outbox := rfl
@[simp] theorem hostOnly_pending (s u : State) : (hostOnly s u).pending = s.pending := rfl

/-! ### segOnly -/

@[simp] theorem segOnly_cyc (s u : State) : (segOnly s u).cyc = s.cyc := rfl
@[simp] theorem segOnly_mem (s u : State) : (segOnly s u).mem = u.mem := rfl
@[simp] theorem segOnly_pl (s u : State) : (segOnly s u).pl = u.pl := rfl
@[simp] theorem segOnly_coh (s u : State) : (segOnly s u).coh = u.coh := rfl
@[simp] theorem segOnly_hf (s u : State) : (segOnly s u).hf = u.hf := rfl
@[simp] theorem segOnly_tp (s u : State) : (segOnly s u).tp = u.tp := rfl
@[simp] theorem segOnly_cm (s u : State) : (segOnly s u).cm = u.cm := rfl
@[simp] theorem segOnly_sp (s u : State) : (segOnly s u).sp = s.sp := rfl
@[simp] theorem segOnly_ck (s u : State) : (segOnly s u).ck = u.ck := rfl
@[simp] theorem segOnly_pwr (s u : State) : (segOnly s u).pwr = s.pwr := rfl
@[simp] theorem segOnly_tel (s u : State) : (segOnly s u).tel = s.tel := rfl
@[simp] theorem segOnly_sec (s u : State) : (segOnly s u).sec = s.sec := rfl
@[simp] theorem segOnly_log (s u : State) : (segOnly s u).log = s.log := rfl
@[simp] theorem segOnly_fd (s u : State) : (segOnly s u).fd = s.fd := rfl
@[simp] theorem segOnly_regs (s u : State) : (segOnly s u).regs = u.regs := rfl
@[simp] theorem segOnly_i3c (s u : State) : (segOnly s u).i3c = s.i3c := rfl
@[simp] theorem segOnly_out (s u : State) : (segOnly s u).out = u.out := rfl
@[simp] theorem segOnly_agenda (s u : State) : (segOnly s u).agenda = u.agenda := rfl
@[simp] theorem segOnly_fresh (s u : State) : (segOnly s u).fresh = u.fresh := rfl
@[simp] theorem segOnly_outbox (s u : State) : (segOnly s u).outbox = u.outbox := rfl
@[simp] theorem segOnly_pending (s u : State) : (segOnly s u).pending = s.pending := rfl

/-! ### linkOnly -/

@[simp] theorem linkOnly_cyc (s u : State) : (linkOnly s u).cyc = s.cyc := rfl
@[simp] theorem linkOnly_mem (s u : State) : (linkOnly s u).mem = s.mem := rfl
@[simp] theorem linkOnly_pl (s u : State) : (linkOnly s u).pl = u.pl := rfl
@[simp] theorem linkOnly_coh (s u : State) : (linkOnly s u).coh = s.coh := rfl
@[simp] theorem linkOnly_hf (s u : State) : (linkOnly s u).hf = s.hf := rfl
@[simp] theorem linkOnly_tp (s u : State) : (linkOnly s u).tp = u.tp := rfl
@[simp] theorem linkOnly_cm (s u : State) : (linkOnly s u).cm = u.cm := rfl
@[simp] theorem linkOnly_sp (s u : State) : (linkOnly s u).sp = s.sp := rfl
@[simp] theorem linkOnly_ck (s u : State) : (linkOnly s u).ck = keepCk s u := rfl
@[simp] theorem linkOnly_pwr (s u : State) : (linkOnly s u).pwr = s.pwr := rfl
@[simp] theorem linkOnly_tel (s u : State) : (linkOnly s u).tel = s.tel := rfl
@[simp] theorem linkOnly_sec (s u : State) : (linkOnly s u).sec = s.sec := rfl
@[simp] theorem linkOnly_log (s u : State) : (linkOnly s u).log = s.log := rfl
@[simp] theorem linkOnly_fd (s u : State) : (linkOnly s u).fd = s.fd := rfl
@[simp] theorem linkOnly_regs (s u : State) : (linkOnly s u).regs = u.regs := rfl
@[simp] theorem linkOnly_i3c (s u : State) : (linkOnly s u).i3c = s.i3c := rfl
@[simp] theorem linkOnly_out (s u : State) : (linkOnly s u).out = u.out := rfl
@[simp] theorem linkOnly_agenda (s u : State) : (linkOnly s u).agenda = u.agenda := rfl
@[simp] theorem linkOnly_fresh (s u : State) : (linkOnly s u).fresh = u.fresh := rfl
@[simp] theorem linkOnly_outbox (s u : State) : (linkOnly s u).outbox = u.outbox := rfl
@[simp] theorem linkOnly_pending (s u : State) : (linkOnly s u).pending = s.pending := rfl

/-! ### tpOnly -/

@[simp] theorem tpOnly_cyc (s u : State) : (tpOnly s u).cyc = s.cyc := rfl
@[simp] theorem tpOnly_mem (s u : State) : (tpOnly s u).mem = s.mem := rfl
@[simp] theorem tpOnly_pl (s u : State) : (tpOnly s u).pl = u.pl := rfl
@[simp] theorem tpOnly_coh (s u : State) : (tpOnly s u).coh = s.coh := rfl
@[simp] theorem tpOnly_hf (s u : State) : (tpOnly s u).hf = s.hf := rfl
@[simp] theorem tpOnly_tp (s u : State) : (tpOnly s u).tp = u.tp := rfl
@[simp] theorem tpOnly_cm (s u : State) : (tpOnly s u).cm = s.cm := rfl
@[simp] theorem tpOnly_sp (s u : State) : (tpOnly s u).sp = s.sp := rfl
@[simp] theorem tpOnly_ck (s u : State) : (tpOnly s u).ck = keepCk s u := rfl
@[simp] theorem tpOnly_pwr (s u : State) : (tpOnly s u).pwr = s.pwr := rfl
@[simp] theorem tpOnly_tel (s u : State) : (tpOnly s u).tel = s.tel := rfl
@[simp] theorem tpOnly_sec (s u : State) : (tpOnly s u).sec = s.sec := rfl
@[simp] theorem tpOnly_log (s u : State) : (tpOnly s u).log = s.log := rfl
@[simp] theorem tpOnly_fd (s u : State) : (tpOnly s u).fd = s.fd := rfl
@[simp] theorem tpOnly_regs (s u : State) : (tpOnly s u).regs = u.regs := rfl
@[simp] theorem tpOnly_i3c (s u : State) : (tpOnly s u).i3c = s.i3c := rfl
@[simp] theorem tpOnly_out (s u : State) : (tpOnly s u).out = u.out := rfl
@[simp] theorem tpOnly_agenda (s u : State) : (tpOnly s u).agenda = u.agenda := rfl
@[simp] theorem tpOnly_fresh (s u : State) : (tpOnly s u).fresh = s.fresh := rfl
@[simp] theorem tpOnly_outbox (s u : State) : (tpOnly s u).outbox = u.outbox := rfl
@[simp] theorem tpOnly_pending (s u : State) : (tpOnly s u).pending = s.pending := rfl

/-! ### modOnly -/

@[simp] theorem modOnly_cyc (s u : State) : (modOnly s u).cyc = s.cyc := rfl
@[simp] theorem modOnly_mem (s u : State) : (modOnly s u).mem = s.mem := rfl
@[simp] theorem modOnly_pl (s u : State) : (modOnly s u).pl = s.pl := rfl
@[simp] theorem modOnly_coh (s u : State) : (modOnly s u).coh = s.coh := rfl
@[simp] theorem modOnly_hf (s u : State) : (modOnly s u).hf = s.hf := rfl
@[simp] theorem modOnly_tp (s u : State) : (modOnly s u).tp = u.tp := rfl
@[simp] theorem modOnly_cm (s u : State) : (modOnly s u).cm = s.cm := rfl
@[simp] theorem modOnly_sp (s u : State) : (modOnly s u).sp = s.sp := rfl
@[simp] theorem modOnly_ck (s u : State) : (modOnly s u).ck = u.ck := rfl
@[simp] theorem modOnly_pwr (s u : State) : (modOnly s u).pwr = s.pwr := rfl
@[simp] theorem modOnly_tel (s u : State) : (modOnly s u).tel = s.tel := rfl
@[simp] theorem modOnly_sec (s u : State) : (modOnly s u).sec = s.sec := rfl
@[simp] theorem modOnly_log (s u : State) : (modOnly s u).log = s.log := rfl
@[simp] theorem modOnly_fd (s u : State) : (modOnly s u).fd = u.fd := rfl
@[simp] theorem modOnly_regs (s u : State) : (modOnly s u).regs = u.regs := rfl
@[simp] theorem modOnly_i3c (s u : State) : (modOnly s u).i3c = s.i3c := rfl
@[simp] theorem modOnly_out (s u : State) : (modOnly s u).out = s.out := rfl
@[simp] theorem modOnly_agenda (s u : State) : (modOnly s u).agenda = u.agenda := rfl
@[simp] theorem modOnly_fresh (s u : State) : (modOnly s u).fresh = u.fresh := rfl
@[simp] theorem modOnly_outbox (s u : State) : (modOnly s u).outbox = u.outbox := rfl
@[simp] theorem modOnly_pending (s u : State) : (modOnly s u).pending = s.pending := rfl

/-! ### commitOnly -/

@[simp] theorem commitOnly_cyc (s u : State) : (commitOnly s u).cyc = s.cyc := rfl
@[simp] theorem commitOnly_mem (s u : State) : (commitOnly s u).mem = u.mem := rfl
@[simp] theorem commitOnly_pl (s u : State) : (commitOnly s u).pl = u.pl := rfl
@[simp] theorem commitOnly_coh (s u : State) : (commitOnly s u).coh = u.coh := rfl
@[simp] theorem commitOnly_hf (s u : State) : (commitOnly s u).hf = u.hf := rfl
@[simp] theorem commitOnly_tp (s u : State) : (commitOnly s u).tp = u.tp := rfl
@[simp] theorem commitOnly_cm (s u : State) : (commitOnly s u).cm = u.cm := rfl
@[simp] theorem commitOnly_sp (s u : State) : (commitOnly s u).sp = s.sp := rfl
@[simp] theorem commitOnly_ck (s u : State) : (commitOnly s u).ck = keepCk s u := rfl
@[simp] theorem commitOnly_pwr (s u : State) : (commitOnly s u).pwr = u.pwr := rfl
@[simp] theorem commitOnly_tel (s u : State) : (commitOnly s u).tel = u.tel := rfl
@[simp] theorem commitOnly_sec (s u : State) : (commitOnly s u).sec = s.sec := rfl
@[simp] theorem commitOnly_log (s u : State) : (commitOnly s u).log = s.log := rfl
@[simp] theorem commitOnly_fd (s u : State) : (commitOnly s u).fd = s.fd := rfl
@[simp] theorem commitOnly_regs (s u : State) : (commitOnly s u).regs = u.regs := rfl
@[simp] theorem commitOnly_i3c (s u : State) : (commitOnly s u).i3c = s.i3c := rfl
@[simp] theorem commitOnly_out (s u : State) : (commitOnly s u).out = u.out := rfl
@[simp] theorem commitOnly_agenda (s u : State) : (commitOnly s u).agenda = u.agenda := rfl
@[simp] theorem commitOnly_fresh (s u : State) : (commitOnly s u).fresh = u.fresh := rfl
@[simp] theorem commitOnly_outbox (s u : State) : (commitOnly s u).outbox = u.outbox := rfl
@[simp] theorem commitOnly_pending (s u : State) : (commitOnly s u).pending = s.pending := rfl

/-! ### snapOnly -/

@[simp] theorem snapOnly_cyc (s u : State) : (snapOnly s u).cyc = s.cyc := rfl
@[simp] theorem snapOnly_mem (s u : State) : (snapOnly s u).mem = u.mem := rfl
@[simp] theorem snapOnly_pl (s u : State) : (snapOnly s u).pl = u.pl := rfl
@[simp] theorem snapOnly_coh (s u : State) : (snapOnly s u).coh = u.coh := rfl
@[simp] theorem snapOnly_hf (s u : State) : (snapOnly s u).hf = u.hf := rfl
@[simp] theorem snapOnly_tp (s u : State) : (snapOnly s u).tp = s.tp := rfl
@[simp] theorem snapOnly_cm (s u : State) : (snapOnly s u).cm = u.cm := rfl
@[simp] theorem snapOnly_sp (s u : State) : (snapOnly s u).sp = u.sp := rfl
@[simp] theorem snapOnly_ck (s u : State) : (snapOnly s u).ck = keepCk s u := rfl
@[simp] theorem snapOnly_pwr (s u : State) : (snapOnly s u).pwr = s.pwr := rfl
@[simp] theorem snapOnly_tel (s u : State) : (snapOnly s u).tel = s.tel := rfl
@[simp] theorem snapOnly_sec (s u : State) : (snapOnly s u).sec = s.sec := rfl
@[simp] theorem snapOnly_log (s u : State) : (snapOnly s u).log = s.log := rfl
@[simp] theorem snapOnly_fd (s u : State) : (snapOnly s u).fd = s.fd := rfl
@[simp] theorem snapOnly_regs (s u : State) : (snapOnly s u).regs = u.regs := rfl
@[simp] theorem snapOnly_i3c (s u : State) : (snapOnly s u).i3c = s.i3c := rfl
@[simp] theorem snapOnly_out (s u : State) : (snapOnly s u).out = u.out := rfl
@[simp] theorem snapOnly_agenda (s u : State) : (snapOnly s u).agenda = u.agenda := rfl
@[simp] theorem snapOnly_fresh (s u : State) : (snapOnly s u).fresh = u.fresh := rfl
@[simp] theorem snapOnly_outbox (s u : State) : (snapOnly s u).outbox = u.outbox := rfl
@[simp] theorem snapOnly_pending (s u : State) : (snapOnly s u).pending = s.pending := rfl

/-! ### memOnly -/

@[simp] theorem memOnly_cyc (s u : State) : (memOnly s u).cyc = s.cyc := rfl
@[simp] theorem memOnly_mem (s u : State) : (memOnly s u).mem = u.mem := rfl
@[simp] theorem memOnly_pl (s u : State) : (memOnly s u).pl = u.pl := rfl
@[simp] theorem memOnly_coh (s u : State) : (memOnly s u).coh = u.coh := rfl
@[simp] theorem memOnly_hf (s u : State) : (memOnly s u).hf = s.hf := rfl
@[simp] theorem memOnly_tp (s u : State) : (memOnly s u).tp = s.tp := rfl
@[simp] theorem memOnly_cm (s u : State) : (memOnly s u).cm = s.cm := rfl
@[simp] theorem memOnly_sp (s u : State) : (memOnly s u).sp = s.sp := rfl
@[simp] theorem memOnly_ck (s u : State) : (memOnly s u).ck = keepCk s u := rfl
@[simp] theorem memOnly_pwr (s u : State) : (memOnly s u).pwr = s.pwr := rfl
@[simp] theorem memOnly_tel (s u : State) : (memOnly s u).tel = u.tel := rfl
@[simp] theorem memOnly_sec (s u : State) : (memOnly s u).sec = s.sec := rfl
@[simp] theorem memOnly_log (s u : State) : (memOnly s u).log = s.log := rfl
@[simp] theorem memOnly_fd (s u : State) : (memOnly s u).fd = s.fd := rfl
@[simp] theorem memOnly_regs (s u : State) : (memOnly s u).regs = u.regs := rfl
@[simp] theorem memOnly_i3c (s u : State) : (memOnly s u).i3c = s.i3c := rfl
@[simp] theorem memOnly_out (s u : State) : (memOnly s u).out = u.out := rfl
@[simp] theorem memOnly_agenda (s u : State) : (memOnly s u).agenda = u.agenda := rfl
@[simp] theorem memOnly_fresh (s u : State) : (memOnly s u).fresh = u.fresh := rfl
@[simp] theorem memOnly_outbox (s u : State) : (memOnly s u).outbox = u.outbox := rfl
@[simp] theorem memOnly_pending (s u : State) : (memOnly s u).pending = s.pending := rfl

/-! ### logOnly -/

@[simp] theorem logOnly_cyc (s u : State) : (logOnly s u).cyc = s.cyc := rfl
@[simp] theorem logOnly_mem (s u : State) : (logOnly s u).mem = u.mem := rfl
@[simp] theorem logOnly_pl (s u : State) : (logOnly s u).pl = u.pl := rfl
@[simp] theorem logOnly_coh (s u : State) : (logOnly s u).coh = u.coh := rfl
@[simp] theorem logOnly_hf (s u : State) : (logOnly s u).hf = u.hf := rfl
@[simp] theorem logOnly_tp (s u : State) : (logOnly s u).tp = s.tp := rfl
@[simp] theorem logOnly_cm (s u : State) : (logOnly s u).cm = s.cm := rfl
@[simp] theorem logOnly_sp (s u : State) : (logOnly s u).sp = s.sp := rfl
@[simp] theorem logOnly_ck (s u : State) : (logOnly s u).ck = keepCk s u := rfl
@[simp] theorem logOnly_pwr (s u : State) : (logOnly s u).pwr = s.pwr := rfl
@[simp] theorem logOnly_tel (s u : State) : (logOnly s u).tel = u.tel := rfl
@[simp] theorem logOnly_sec (s u : State) : (logOnly s u).sec = s.sec := rfl
@[simp] theorem logOnly_log (s u : State) : (logOnly s u).log = u.log := rfl
@[simp] theorem logOnly_fd (s u : State) : (logOnly s u).fd = u.fd := rfl
@[simp] theorem logOnly_regs (s u : State) : (logOnly s u).regs = u.regs := rfl
@[simp] theorem logOnly_i3c (s u : State) : (logOnly s u).i3c = s.i3c := rfl
@[simp] theorem logOnly_out (s u : State) : (logOnly s u).out = u.out := rfl
@[simp] theorem logOnly_agenda (s u : State) : (logOnly s u).agenda = u.agenda := rfl
@[simp] theorem logOnly_fresh (s u : State) : (logOnly s u).fresh = u.fresh := rfl
@[simp] theorem logOnly_outbox (s u : State) : (logOnly s u).outbox = u.outbox := rfl
@[simp] theorem logOnly_pending (s u : State) : (logOnly s u).pending = s.pending := rfl

/-! ### blockOnly -/

@[simp] theorem blockOnly_cyc (s u : State) : (blockOnly s u).cyc = s.cyc := rfl
@[simp] theorem blockOnly_mem (s u : State) : (blockOnly s u).mem = u.mem := rfl
@[simp] theorem blockOnly_pl (s u : State) : (blockOnly s u).pl = u.pl := rfl
@[simp] theorem blockOnly_coh (s u : State) : (blockOnly s u).coh = u.coh := rfl
@[simp] theorem blockOnly_hf (s u : State) : (blockOnly s u).hf = u.hf := rfl
@[simp] theorem blockOnly_tp (s u : State) : (blockOnly s u).tp = u.tp := rfl
@[simp] theorem blockOnly_cm (s u : State) : (blockOnly s u).cm = u.cm := rfl
@[simp] theorem blockOnly_sp (s u : State) : (blockOnly s u).sp = u.sp := rfl
@[simp] theorem blockOnly_ck (s u : State) : (blockOnly s u).ck = u.ck := rfl
@[simp] theorem blockOnly_pwr (s u : State) : (blockOnly s u).pwr = s.pwr := rfl
@[simp] theorem blockOnly_tel (s u : State) : (blockOnly s u).tel = s.tel := rfl
@[simp] theorem blockOnly_sec (s u : State) : (blockOnly s u).sec = s.sec := rfl
@[simp] theorem blockOnly_log (s u : State) : (blockOnly s u).log = s.log := rfl
@[simp] theorem blockOnly_fd (s u : State) : (blockOnly s u).fd = s.fd := rfl
@[simp] theorem blockOnly_regs (s u : State) : (blockOnly s u).regs = u.regs := rfl
@[simp] theorem blockOnly_i3c (s u : State) : (blockOnly s u).i3c = s.i3c := rfl
@[simp] theorem blockOnly_out (s u : State) : (blockOnly s u).out = u.out := rfl
@[simp] theorem blockOnly_agenda (s u : State) : (blockOnly s u).agenda = u.agenda := rfl
@[simp] theorem blockOnly_fresh (s u : State) : (blockOnly s u).fresh = u.fresh := rfl
@[simp] theorem blockOnly_outbox (s u : State) : (blockOnly s u).outbox = u.outbox := rfl
@[simp] theorem blockOnly_pending (s u : State) : (blockOnly s u).pending = s.pending := rfl

/-! ### moverOnly -/

@[simp] theorem moverOnly_cyc (s u : State) : (moverOnly s u).cyc = s.cyc := rfl
@[simp] theorem moverOnly_mem (s u : State) : (moverOnly s u).mem = s.mem := rfl
@[simp] theorem moverOnly_pl (s u : State) : (moverOnly s u).pl = u.pl := rfl
@[simp] theorem moverOnly_coh (s u : State) : (moverOnly s u).coh = { s.coh with txns := u.coh.txns } := rfl
@[simp] theorem moverOnly_hf (s u : State) : (moverOnly s u).hf = s.hf := rfl
@[simp] theorem moverOnly_tp (s u : State) : (moverOnly s u).tp = s.tp := rfl
@[simp] theorem moverOnly_cm (s u : State) : (moverOnly s u).cm = u.cm := rfl
@[simp] theorem moverOnly_sp (s u : State) : (moverOnly s u).sp = s.sp := rfl
@[simp] theorem moverOnly_ck (s u : State) : (moverOnly s u).ck = keepCk s u := rfl
@[simp] theorem moverOnly_pwr (s u : State) : (moverOnly s u).pwr = s.pwr := rfl
@[simp] theorem moverOnly_tel (s u : State) : (moverOnly s u).tel = s.tel := rfl
@[simp] theorem moverOnly_sec (s u : State) : (moverOnly s u).sec = s.sec := rfl
@[simp] theorem moverOnly_log (s u : State) : (moverOnly s u).log = s.log := rfl
@[simp] theorem moverOnly_fd (s u : State) : (moverOnly s u).fd = s.fd := rfl
@[simp] theorem moverOnly_regs (s u : State) : (moverOnly s u).regs = u.regs := rfl
@[simp] theorem moverOnly_i3c (s u : State) : (moverOnly s u).i3c = s.i3c := rfl
@[simp] theorem moverOnly_out (s u : State) : (moverOnly s u).out = u.out := rfl
@[simp] theorem moverOnly_agenda (s u : State) : (moverOnly s u).agenda = u.agenda := rfl
@[simp] theorem moverOnly_fresh (s u : State) : (moverOnly s u).fresh = u.fresh := rfl
@[simp] theorem moverOnly_outbox (s u : State) : (moverOnly s u).outbox = u.outbox := rfl
@[simp] theorem moverOnly_pending (s u : State) : (moverOnly s u).pending = s.pending := rfl

end Sys2Proof.Machine
end

