-- ==== Sys2Proof/Laws/Alarm.lean ====
section
/-! SUPPORT. What records, injections, schedule faults and step aborts can do, said once: they satisfy `Alarm`. -/

namespace Sys2Proof.Machine

/-- Nothing happened. -/
@[refl] theorem Alarm.refl (s : State) : Alarm s s := ⟨rfl, fun _ _ => rfl⟩

/-- One alarm after another. -/
theorem Alarm.trans {s u w : State} (h : Alarm s u) (k : Alarm u w) : Alarm s w := by
  refine ⟨?_, fun x hx => (k.2 x hx).trans (h.2 x hx)⟩
  have h1 := h.1
  have k1 := k.1
  rw [k1, h1]
  rfl

/-- A fold of alarms over elements with a property is an alarm. -/
theorem Alarm.foldl_mem {α : Type} {f : State → α → State} (l : List α) (s : State)
    (h : ∀ x ∈ l, ∀ s, Alarm s (f s x)) : Alarm s (l.foldl f s) := by
  induction l generalizing s with
  | nil => exact Alarm.refl s
  | cons x r ih =>
    exact (h x List.mem_cons_self s).trans (ih (f s x) fun y hy => h y (List.mem_cons_of_mem _ hy))

/-- A fold of alarms is an alarm. -/
theorem Alarm.foldl {α : Type} {f : State → α → State} (h : ∀ s x, Alarm s (f s x)) (l : List α) (s : State) :
    Alarm s (l.foldl f s) := by
  induction l generalizing s with
  | nil => exact Alarm.refl s
  | cons x r ih => exact (h s x).trans (ih (f s x))

/-- A change that leaves the registers alone. -/
theorem Alarm.of_eq {s u : State}
    (h : u = { s with agenda := u.agenda, out := u.out, outbox := u.outbox, ck := keepCk s u,
                      cm := { s.cm with phase := u.cm.phase, readyFrom := u.cm.readyFrom,
                                        updatedFrom := u.cm.updatedFrom, abortCode := u.cm.abortCode },
                      pl := { s.pl with stopAt := u.pl.stopAt, segErr := u.pl.segErr } }) : Alarm s u := by
  have hr : u.regs = s.regs := by rw [h]
  refine ⟨?_, fun w _ => by rw [hr]⟩
  rw [hr]
  exact h
theorem Alarm.sched (c : Nat) (i : Instr) (s : State) : Alarm s (Machine.sched c i s) := Alarm.of_eq rfl
theorem Alarm.emit (o : Out) (s : State) : Alarm s (Machine.emit o s) := Alarm.of_eq rfl
theorem Alarm.post (m : OutMsg) (s : State) : Alarm s (Machine.post m s) := Alarm.of_eq rfl
theorem Alarm.edgeNote (b : Bool) (o : Nat) (v : W32) (s : State) : Alarm s (Machine.edgeNote b o v s) := Alarm.of_eq rfl
theorem Alarm.setReg64 {o : Nat} (h1 : 0x90100 ≤ o) (h2 : o + 8 ≤ 0x90180) (v : Nat) (s : State) :
    Alarm s (Machine.setReg64 o v s) := by
  refine ⟨rfl, fun w hw => ?_⟩
  unfold Machine.setReg64 Machine.setReg32
  rw [smapGet_smapSet, smapGet_smapSet, if_neg (by omega), if_neg (by omega)]
theorem Alarm.report (c1 c2 c3 c4 c5 c6 : Nat) (a b : Bool) (s : State) :
    Alarm s (Machine.report c1 c2 c3 c4 c5 c6 a b s) := Alarm.sched _ _ s

theorem Alarm.failRun (c : Nat) (s : State) : Alarm s (Machine.failRun c s) := by
  unfold Machine.failRun; split
  · exact Alarm.of_eq rfl
  · exact Alarm.refl s
theorem Alarm.stopIssue (c : Nat) (s : State) : Alarm s (Machine.stopIssue c s) := by
  unfold Machine.stopIssue; split
  · split
    · exact Alarm.refl s
    · exact Alarm.of_eq rfl
  · exact Alarm.of_eq rfl
theorem Alarm.setCm (s : State) (p : Phase) (c : BitVec 16) :
    Alarm s { s with cm := { s.cm with phase := p, abortCode := c, readyFrom := [], updatedFrom := [] } } := Alarm.of_eq rfl
theorem Alarm.stepAbort (c : Nat) (r : Bool) (k : Nat) (s : State) : Alarm s (Machine.stepAbort c r k s) := by
  have h := (Alarm.failRun (if r then rStepAborted else c) s).trans (Alarm.stopIssue k _)
  unfold Machine.stepAbort
  by_cases ha : s.cm.abortCode ≠ 0
  · rw [if_pos ha]
    by_cases hr : r = true
    · rw [if_pos hr]
    · rw [if_neg hr]; exact (Alarm.failRun c s).trans (Alarm.stopIssue k _)
  · rw [if_neg ha]
    dsimp only
    generalize Machine.stopIssue k (Machine.failRun (if r then rStepAborted else c) s) = w at h ⊢
    by_cases hr : r = true
    · rw [if_pos hr]; exact h.trans (Alarm.setCm w _ _)
    · rw [if_neg hr]; exact (h.trans (Alarm.setCm w _ _)).trans (Alarm.post _ _)
theorem Alarm.schedFault (c1 c2 c3 c4 c5 c6 : Nat) (b : Bool) (s : State) :
    Alarm s (Machine.schedFault c1 c2 c3 c4 c5 c6 b s) := by
  unfold Machine.schedFault
  have h := ((Alarm.report c1 c2 c3 c4 c5 c6 b (announces s) s).trans (Alarm.failRun c1 _)).trans (Alarm.stopIssue c3 _)
  dsimp only
  split
  · exact h.trans (Alarm.stepAbort _ _ _ _)
  · exact h
theorem Alarm.abortOn (d : Detect) (s : State) : Alarm s (Machine.abortOn d s) := by
  unfold Machine.abortOn
  dsimp only
  split
  · exact (Alarm.sched _ _ s).trans (Alarm.stepAbort _ _ _ _)
  · exact Alarm.sched _ _ s
theorem Alarm.detAbort (c1 c2 c3 c4 c5 c6 : Nat) (b : Bool) (s : State) :
    Alarm s (Machine.detAbort c1 c2 c3 c4 c5 c6 b s) := by
  unfold Machine.detAbort
  dsimp only
  split
  · exact Alarm.sched _ _ s
  · exact Alarm.abortOn _ s

theorem Alarm.injFire {n : Nat} (hn : n < 8) (s : State) : Alarm s (Machine.injFire n s) :=
  (Alarm.setReg64 (by unfold injCtl; omega) (by unfold injCtl; omega) _ s).trans (Alarm.edgeNote _ _ _ _)
theorem Alarm.injEvent (c k : Nat) (ok : Nat → Nat → Bool) (s : State) : Alarm s (Machine.injEvent c k ok s).2 := by
  unfold Machine.injEvent
  dsimp only
  split
  · exact Alarm.refl s
  · next n ns heq =>
    refine Alarm.foldl_mem _ s fun x hx s => Alarm.injFire ?_ s
    exact List.mem_range.mp (List.mem_filter.mp hx).1
theorem Alarm.injEvents (c k : Nat) (key : Nat → Nat) (ok : Nat → Bool) (s : State) :
    Alarm s (Machine.injEvents c k key ok s).2 :=
  Alarm.foldl_mem _ s fun _ hx s => Alarm.injFire (List.mem_range.mp (List.mem_filter.mp hx).1) s
theorem Alarm.injAborts (c k : Nat) (key : Nat → Nat) (ok : Nat → Bool) (g : Nat → Nat) (s : State) :
    Alarm s (Machine.injAborts c k key ok g s) :=
  (Alarm.injEvents c k key ok s).trans (Alarm.foldl (fun s _ => Alarm.detAbort _ _ _ _ _ _ _ s) _ _)
theorem Alarm.imemEcc (t : Tile) (s : State) : Alarm s (Machine.imemEcc t s) := by
  unfold Machine.imemEcc
  refine Alarm.foldl (fun s e => ?_) _ s
  split
  · exact Alarm.detAbort _ _ _ _ _ _ _ s
  · split
    · exact Alarm.report _ _ _ _ _ _ _ _ s
    · exact Alarm.refl s
theorem Alarm.seqResidue (t : Tile) (l : List Nat) (s : State) : Alarm s (Machine.seqResidue t l s) := by
  unfold Machine.seqResidue
  exact Alarm.foldl (fun s r => Alarm.injAborts _ _ _ _ _ s) _ s
theorem Alarm.eccTensor (p : Nat) (hit : Nat → Bool) (c : Nat) (s : State) : Alarm s (Machine.eccTensor p hit c s) := by
  unfold Machine.eccTensor
  refine Alarm.foldl (fun s e => ?_) _ s
  split
  · exact Alarm.detAbort _ _ _ _ _ _ _ s
  · exact Alarm.report _ _ _ _ _ _ _ _ s
theorem Alarm.readWord (q : IssueReq) (s : State) : Alarm s (Machine.readWord q s) := by
  unfold Machine.readWord
  dsimp only
  split
  · exact (Alarm.imemEcc q.t s).trans (Alarm.seqResidue _ _ _)
  · exact Alarm.imemEcc q.t s
theorem Alarm.vInjOne (t : Tile) (c k n : Nat) (g : Nat → Nat) (s : State) : Alarm s (Machine.vInjOne t c k n g s) := by
  exact Alarm.injAborts _ _ _ _ _ s
theorem Alarm.vInj (t : Tile) (u : VUse) (s : State) : Alarm s (Machine.vInj t u s) := by
  unfold Machine.vInj
  dsimp only
  exact ((((Alarm.foldl (fun s v => Alarm.vInjOne _ _ _ _ _ s) _ s).trans
    (Alarm.foldl (fun s v => Alarm.vInjOne _ _ _ _ _ s) _ _)).trans
    (Alarm.foldl (fun s v => Alarm.vInjOne _ _ _ _ _ s) _ _)).trans
    (Alarm.foldl (fun s v => Alarm.vInjOne _ _ _ _ _ s) _ _)).trans
    (Alarm.foldl (fun s v => Alarm.vInjOne _ _ _ _ _ s) _ _)
theorem Alarm.tileFault (t : Tile) (c w e : Nat) (s : State) : Alarm s (Machine.tileFault t c w e s) :=
  Alarm.schedFault _ _ _ _ _ _ _ _

/-! ## What an alarm leaves alone -/

variable {s u : State}

theorem Alarm.cyc_eq (h : Alarm s u) : u.cyc = s.cyc := by rw [h.1]
theorem Alarm.mem_eq (h : Alarm s u) : u.mem = s.mem := by rw [h.1]
theorem Alarm.coh_eq (h : Alarm s u) : u.coh = s.coh := by rw [h.1]
theorem Alarm.hf_eq (h : Alarm s u) : u.hf = s.hf := by rw [h.1]
theorem Alarm.tp_eq (h : Alarm s u) : u.tp = s.tp := by rw [h.1]
theorem Alarm.sec_eq (h : Alarm s u) : u.sec = s.sec := by rw [h.1]
theorem Alarm.ck_eq (h : Alarm s u) : u.ck = keepCk s u := congrArg State.ck h.1
theorem Alarm.fd_eq (h : Alarm s u) : u.fd = s.fd := by rw [h.1]
theorem Alarm.fresh_eq (h : Alarm s u) : u.fresh = s.fresh := by rw [h.1]
theorem Alarm.tiles_eq (h : Alarm s u) : u.pl.tiles = s.pl.tiles := by rw [h.1]
theorem Alarm.sregs_eq (h : Alarm s u) : u.pl.sregs = s.pl.sregs := by rw [h.1]
theorem Alarm.vregs_eq (h : Alarm s u) : u.pl.vregs = s.pl.vregs := by rw [h.1]
theorem Alarm.masks_eq (h : Alarm s u) : u.pl.masks = s.pl.masks := by rw [h.1]
theorem Alarm.fas_eq (h : Alarm s u) : u.pl.fas = s.pl.fas := by rw [h.1]
theorem Alarm.imem_eq (h : Alarm s u) : u.pl.imem = s.pl.imem := by rw [h.1]
theorem Alarm.ipages_eq (h : Alarm s u) : u.pl.ipages = s.pl.ipages := by rw [h.1]
theorem Alarm.pw_eq (h : Alarm s u) : u.pl.pw = s.pl.pw := by rw [h.1]
theorem Alarm.spend_eq (h : Alarm s u) : u.pl.spend = s.pl.spend := by rw [h.1]
theorem Alarm.vpend_eq (h : Alarm s u) : u.pl.vpend = s.pl.vpend := by rw [h.1]
theorem Alarm.ivals_eq (h : Alarm s u) : u.pl.ivals = s.pl.ivals := by rw [h.1]
theorem Alarm.ports_eq (h : Alarm s u) : u.pl.ports = s.pl.ports := by rw [h.1]
theorem Alarm.layby_eq (h : Alarm s u) : u.pl.layby = s.pl.layby := by rw [h.1]
theorem Alarm.tctl_eq (h : Alarm s u) (t : Tile) : tctl u t = tctl s t := by unfold tctl; rw [h.tiles_eq]
theorem Alarm.sreg_eq (h : Alarm s u) (t : Tile) (r : Nat) : sreg u t r = sreg s t r := by unfold sreg; rw [h.sregs_eq]
theorem Alarm.byteAt_eq (h : Alarm s u) (c a : Nat) : byteAt u c a = byteAt s c a := by
  unfold byteAt; rw [h.pw_eq, h.mem_eq]

/-- Every register outside the injection slots reads as before. -/
theorem Alarm.reg32_eq (h : Alarm s u) {o : Nat} (ho : o < 0x90100) : reg32 u o = reg32 s o := h.2 _ (Or.inl (by omega))
theorem Alarm.reg64_eq (h : Alarm s u) {o : Nat} (ho : o + 8 ≤ 0x90100) : reg64 u o = reg64 s o := by
  unfold reg64; rw [h.reg32_eq (by omega), h.reg32_eq (by omega)]

/-! ## Issue -/

/-- An instruction that issues takes its effect, on a state that differs from the present one by the PC's advance and by
alarms only. -/
theorem issue_effect {q : IssueReq} {check : State → Option (Nat × Nat)} (h : Issues q check s) (eff : State → State) :
    ∃ r, Alarm s r ∧ ∃ u, Alarm (advance q.t r) u ∧ issue q check eff s = eff u := by
  obtain ⟨h1, h2, h3, h4⟩ := h
  refine ⟨_, Alarm.readWord q s, seqResidue q.t q.units (advance q.t (readWord q s)), Alarm.seqResidue _ _ _, ?_⟩
  unfold issue
  rw [h1, if_neg (by decide), if_neg (by omega)]
  simp only [h3, h4]

/-- A fault of issue prevents the effect: an alarm and the PC's advance are all that happens (R163). -/
theorem issue_fault {q : IssueReq} {check : State → Option (Nat × Nat)} {code : Nat} (h1 : issueStopped s = false)
    (h2 : (tctl s q.t).pc ≤ 32767) (h3 : issueFault q s = some code) (eff : State → State) :
    ∃ r, Alarm s r ∧ issue q check eff s = advance q.t r := by
  refine ⟨_, (Alarm.readWord q s).trans (Alarm.tileFault q.t code (wordOf q.opc q.f) 0 _), ?_⟩
  unfold issue
  rw [h1, if_neg (by decide), if_neg (by omega)]
  simp only [h3]

end Sys2Proof.Machine
end

