-- ==== Sys2Proof/Laws/Tile.lean ====
section
/-! SUPPORT. Registers and control state of a tile: what a write leaves to be read, and what the issue of an instruction
adds to that. -/

namespace Sys2Proof.Machine

/-! ## Control state -/

/-- The control state written is read back, and every other tile's is left alone. -/
theorem tctl_setTctl (t x : Tile) (k : TileCtl) (s : State) :
    tctl (setTctl t k s) x = if x = t then k else tctl s x := by
  unfold tctl setTctl
  rw [smapGet_smapSet]
  by_cases h : x = t
  · subst h; rw [if_pos rfl, if_pos rfl]
  · rw [if_neg h, if_neg (fun e => h (Fin.ext e))]
@[simp] theorem tctl_setTctl_same (t : Tile) (k : TileCtl) (s : State) : tctl (setTctl t k s) t = k := by
  rw [tctl_setTctl, if_pos rfl]
theorem tctl_setTctl_ne {t x : Tile} (h : x ≠ t) (k : TileCtl) (s : State) : tctl (setTctl t k s) x = tctl s x := by
  rw [tctl_setTctl, if_neg h]

/-- Control state depends on the plane's tiles alone. -/
theorem tctl_congr {s u : State} (h : u.pl.tiles = s.pl.tiles) (t : Tile) : tctl u t = tctl s t := by unfold tctl; rw [h]

/-- The issue of an instruction moves its own tile to the next word. -/
theorem tctl_advance (t : Tile) (s : State) :
    tctl (advance t s) t = { tctl s t with pc := (tctl s t).pc + 1, next := s.cyc + 1,
                                           last := max (tctl s t).last (s.cyc + 1) } := by
  unfold advance; rw [tctl_setTctl_same]
theorem tctl_advance_ne {t x : Tile} (h : x ≠ t) (s : State) : tctl (advance t s) x = tctl s x := by
  unfold advance; rw [tctl_setTctl_ne h]
theorem tctl_seenBy (t : Tile) (c : Nat) (s : State) :
    tctl (seenBy t c s) t = { tctl s t with last := max (tctl s t).last c } := by
  unfold seenBy; rw [tctl_setTctl_same]
theorem tctl_seenBy_ne {t x : Tile} (h : x ≠ t) (c : Nat) (s : State) : tctl (seenBy t c s) x = tctl s x := by
  unfold seenBy; rw [tctl_setTctl_ne h]
theorem tctl_accrue (t : Tile) (f : Flags) (s : State) :
    tctl (accrue t f s) t = { tctl s t with flags := (tctl s t).flags ||| f } := by
  unfold accrue; rw [tctl_setTctl_same]
theorem tctl_accrue_ne {t x : Tile} (h : x ≠ t) (f : Flags) (s : State) : tctl (accrue t f s) x = tctl s x := by
  unfold accrue; rw [tctl_setTctl_ne h]

/-! ## Scalar registers -/

/-- A scalar register reads the value written last; s0 reads 0 (R144). -/
theorem sreg_wreg (t x : Tile) (r k : Nat) (hr : r < 64) (hk : k < 64) (v : W64) (vis : Nat) (s : State) :
    sreg (wreg t r v vis s) x k = if x = t ∧ k = r then (if r = 0 then 0 else v) else sreg s x k := by
  unfold sreg wreg
  by_cases h0 : r = 0
  · rw [if_pos h0]
    by_cases h : x = t ∧ k = r
    · rw [if_pos h, if_pos h0, if_pos (h.2.trans h0)]
    · rw [if_neg h]
  · rw [if_neg h0]
    by_cases hk0 : k = 0
    · rw [if_pos hk0, if_pos hk0, if_neg (by rintro ⟨-, h⟩; exact h0 (h ▸ hk0))]
    · rw [if_neg hk0, if_neg hk0, smapGet_smapSet, if_neg h0]
      by_cases h : x = t ∧ k = r
      · rw [if_pos h, if_pos (by rw [h.1, h.2])]
      · rw [if_neg h, if_neg]
        intro e
        exact h ⟨Fin.ext (by omega), by omega⟩
/-- Scalar registers depend on the plane's registers alone. -/
theorem sreg_congr {s u : State} (h : u.pl.sregs = s.pl.sregs) (t : Tile) (r : Nat) : sreg u t r = sreg s t r := by
  unfold sreg; rw [h]
/-- A field of six bits is a register number. -/
theorem fld_lt (f : Fields) (lo : Nat) : fld f (lo + 5) lo < 64 := by
  unfold fld bitsOf
  rw [show lo + 5 - lo + 1 = 6 by omega]
  exact Nat.mod_lt _ (by decide)
theorem fld_sd (f : Fields) : fld f 55 50 < 64 := fld_lt f 50
theorem fld_sa (f : Fields) : fld f 49 44 < 64 := fld_lt f 44
theorem fld_sb (f : Fields) : fld f 43 38 < 64 := fld_lt f 38

/-! ## Bytes -/

/-- A read depends on memory and on the writes under way. -/
theorem byteAt_congr {s u : State} (h : u.mem = s.mem) (k : u.pl.pw = s.pl.pw) (c a : Nat) : byteAt u c a = byteAt s c a := by
  unfold byteAt; rw [h, k]

/-! ## Issue -/

/-- The state on which an instruction that issues takes its effect: the present one with the tile moved to its next word,
records of forced errors on their way, and no other change. -/
structure Issued (t : Tile) (s w : State) : Prop where
  shape : w = { s with agenda := w.agenda, regs := w.regs, out := w.out, outbox := w.outbox, ck := keepCk s w,
                       cm := { s.cm with phase := w.cm.phase, readyFrom := w.cm.readyFrom,
                                         updatedFrom := w.cm.updatedFrom, abortCode := w.cm.abortCode },
                       pl := { s.pl with tiles := w.pl.tiles, stopAt := w.pl.stopAt, segErr := w.pl.segErr } }
  own : tctl w t = { tctl s t with pc := (tctl s t).pc + 1, next := s.cyc + 1, last := max (tctl s t).last (s.cyc + 1) }
  other : ∀ x, x ≠ t → tctl w x = tctl s x
  regs : RegsSame s w

/-- An instruction that issues takes its effect on such a state. -/
theorem issue_spec {q : IssueReq} {check : State → Option (Nat × Nat)} {s : State} (h : Issues q check s)
    (eff : State → State) : ∃ w, Issued q.t s w ∧ issue q check eff s = eff w := by
  obtain ⟨r, hr, w, hw, e⟩ := issue_effect h eff
  refine ⟨w, ⟨?_, ?_, fun x hx => ?_, fun o ho => ?_⟩, e⟩
  · have h1 := hw.1
    have h2 := hr.1
    rw [h1]
    unfold advance setTctl
    rw [h2]
    rfl
  · rw [hw.tctl_eq, tctl_advance, hr.tctl_eq, hr.cyc_eq]
  · rw [hw.tctl_eq, tctl_advance_ne hx, hr.tctl_eq]
  · exact (hw.2 (o / 4) (by omega)).trans (hr.2 (o / 4) (by omega))

namespace Issued

variable {t : Tile} {s w : State}

theorem cyc (h : Issued t s w) : w.cyc = s.cyc := by rw [h.shape]
theorem mem (h : Issued t s w) : w.mem = s.mem := by rw [h.shape]
theorem coh (h : Issued t s w) : w.coh = s.coh := by rw [h.shape]
theorem fresh (h : Issued t s w) : w.fresh = s.fresh := by rw [h.shape]
theorem sregs (h : Issued t s w) : w.pl.sregs = s.pl.sregs := by rw [h.shape]
theorem vregs (h : Issued t s w) : w.pl.vregs = s.pl.vregs := by rw [h.shape]
theorem masks (h : Issued t s w) : w.pl.masks = s.pl.masks := by rw [h.shape]
theorem fas (h : Issued t s w) : w.pl.fas = s.pl.fas := by rw [h.shape]
theorem imem (h : Issued t s w) : w.pl.imem = s.pl.imem := by rw [h.shape]
theorem ipages (h : Issued t s w) : w.pl.ipages = s.pl.ipages := by rw [h.shape]
theorem pw (h : Issued t s w) : w.pl.pw = s.pl.pw := by rw [h.shape]
theorem spend (h : Issued t s w) : w.pl.spend = s.pl.spend := by rw [h.shape]
theorem vpend (h : Issued t s w) : w.pl.vpend = s.pl.vpend := by rw [h.shape]
theorem ivals (h : Issued t s w) : w.pl.ivals = s.pl.ivals := by rw [h.shape]
theorem ports (h : Issued t s w) : w.pl.ports = s.pl.ports := by rw [h.shape]
theorem layby (h : Issued t s w) : w.pl.layby = s.pl.layby := by rw [h.shape]
theorem frames (h : Issued t s w) : w.pl.frames = s.pl.frames := by rw [h.shape]
theorem sysent (h : Issued t s w) : w.pl.sysent = s.pl.sysent := by rw [h.shape]
theorem nruRanges (h : Issued t s w) : w.pl.nruRanges = s.pl.nruRanges := by rw [h.shape]
theorem groups (h : Issued t s w) : w.pl.groups = s.pl.groups := by rw [h.shape]
theorem active (h : Issued t s w) : w.pl.active = s.pl.active := by rw [h.shape]
theorem staged (h : Issued t s w) : w.pl.staged = s.pl.staged := by rw [h.shape]
theorem cur (h : Issued t s w) : w.pl.cur = s.pl.cur := by rw [h.shape]
theorem runs (h : Issued t s w) : w.pl.runs = s.pl.runs := by rw [h.shape]
theorem xchs (h : Issued t s w) : w.pl.xchs = s.pl.xchs := by rw [h.shape]
theorem segSlot (h : Issued t s w) : w.pl.segSlot = s.pl.segSlot := by rw [h.shape]
theorem sreg (h : Issued t s w) (x : Tile) (k : Nat) : Machine.sreg w x k = Machine.sreg s x k := sreg_congr h.sregs x k
theorem byteAt (h : Issued t s w) (c a : Nat) : Machine.byteAt w c a = Machine.byteAt s c a :=
  byteAt_congr h.mem h.pw c a

end Issued

end Sys2Proof.Machine
end

