-- ==== Sys2Proof/Laws/Beats.lean ====
section
/-! SUPPORT. Products, drains and mover instructions in progress: what beginning one changes, and what a cycle brings. -/

namespace Sys2Proof.Machine

/-! ### beginProduct -/

@[simp] theorem beginProduct_cyc (x : Product) (s : State) : (beginProduct x s).cyc = s.cyc := rfl
@[simp] theorem beginProduct_mem (x : Product) (s : State) : (beginProduct x s).mem = s.mem := rfl
@[simp] theorem beginProduct_pl (x : Product) (s : State) : (beginProduct x s).pl = { s.pl with prods := s.pl.prods ++ [x] } := rfl
@[simp] theorem beginProduct_coh (x : Product) (s : State) : (beginProduct x s).coh = s.coh := rfl
@[simp] theorem beginProduct_hf (x : Product) (s : State) : (beginProduct x s).hf = s.hf := rfl
@[simp] theorem beginProduct_tp (x : Product) (s : State) : (beginProduct x s).tp = s.tp := rfl
@[simp] theorem beginProduct_cm (x : Product) (s : State) : (beginProduct x s).cm = s.cm := rfl
@[simp] theorem beginProduct_sp (x : Product) (s : State) : (beginProduct x s).sp = s.sp := rfl
@[simp] theorem beginProduct_ck (x : Product) (s : State) : (beginProduct x s).ck = s.ck := rfl
@[simp] theorem beginProduct_pwr (x : Product) (s : State) : (beginProduct x s).pwr = s.pwr := rfl
@[simp] theorem beginProduct_tel (x : Product) (s : State) : (beginProduct x s).tel = s.tel := rfl
@[simp] theorem beginProduct_sec (x : Product) (s : State) : (beginProduct x s).sec = s.sec := rfl
@[simp] theorem beginProduct_log (x : Product) (s : State) : (beginProduct x s).log = s.log := rfl
@[simp] theorem beginProduct_fd (x : Product) (s : State) : (beginProduct x s).fd = s.fd := rfl
@[simp] theorem beginProduct_regs (x : Product) (s : State) : (beginProduct x s).regs = s.regs := rfl
@[simp] theorem beginProduct_i3c (x : Product) (s : State) : (beginProduct x s).i3c = s.i3c := rfl
@[simp] theorem beginProduct_out (x : Product) (s : State) : (beginProduct x s).out = s.out := rfl
@[simp] theorem beginProduct_outbox (x : Product) (s : State) : (beginProduct x s).outbox = s.outbox := rfl
@[simp] theorem beginProduct_agenda (x : Product) (s : State) : (beginProduct x s).agenda = s.agenda := rfl
@[simp] theorem beginProduct_fresh (x : Product) (s : State) : (beginProduct x s).fresh = s.fresh := rfl
@[simp] theorem beginProduct_pending (x : Product) (s : State) : (beginProduct x s).pending = s.pending := rfl

/-! ### beginFlow -/

@[simp] theorem beginFlow_cyc (x : Flow) (s : State) : (beginFlow x s).cyc = s.cyc := rfl
@[simp] theorem beginFlow_mem (x : Flow) (s : State) : (beginFlow x s).mem = s.mem := rfl
@[simp] theorem beginFlow_pl (x : Flow) (s : State) : (beginFlow x s).pl = { s.pl with flows := s.pl.flows ++ [x] } := rfl
@[simp] theorem beginFlow_coh (x : Flow) (s : State) : (beginFlow x s).coh = s.coh := rfl
@[simp] theorem beginFlow_hf (x : Flow) (s : State) : (beginFlow x s).hf = s.hf := rfl
@[simp] theorem beginFlow_tp (x : Flow) (s : State) : (beginFlow x s).tp = s.tp := rfl
@[simp] theorem beginFlow_cm (x : Flow) (s : State) : (beginFlow x s).cm = s.cm := rfl
@[simp] theorem beginFlow_sp (x : Flow) (s : State) : (beginFlow x s).sp = s.sp := rfl
@[simp] theorem beginFlow_ck (x : Flow) (s : State) : (beginFlow x s).ck = s.ck := rfl
@[simp] theorem beginFlow_pwr (x : Flow) (s : State) : (beginFlow x s).pwr = s.pwr := rfl
@[simp] theorem beginFlow_tel (x : Flow) (s : State) : (beginFlow x s).tel = s.tel := rfl
@[simp] theorem beginFlow_sec (x : Flow) (s : State) : (beginFlow x s).sec = s.sec := rfl
@[simp] theorem beginFlow_log (x : Flow) (s : State) : (beginFlow x s).log = s.log := rfl
@[simp] theorem beginFlow_fd (x : Flow) (s : State) : (beginFlow x s).fd = s.fd := rfl
@[simp] theorem beginFlow_regs (x : Flow) (s : State) : (beginFlow x s).regs = s.regs := rfl
@[simp] theorem beginFlow_i3c (x : Flow) (s : State) : (beginFlow x s).i3c = s.i3c := rfl
@[simp] theorem beginFlow_out (x : Flow) (s : State) : (beginFlow x s).out = s.out := rfl
@[simp] theorem beginFlow_outbox (x : Flow) (s : State) : (beginFlow x s).outbox = s.outbox := rfl
@[simp] theorem beginFlow_agenda (x : Flow) (s : State) : (beginFlow x s).agenda = s.agenda := rfl
@[simp] theorem beginFlow_fresh (x : Flow) (s : State) : (beginFlow x s).fresh = s.fresh + 1 := rfl
@[simp] theorem beginFlow_pending (x : Flow) (s : State) : (beginFlow x s).pending = s.pending := rfl

/-! ### beginDrain -/

@[simp] theorem beginDrain_cyc (t : Tile) (q : DrainReq) (s : State) : (beginDrain t q s).cyc = s.cyc := rfl
@[simp] theorem beginDrain_mem (t : Tile) (q : DrainReq) (s : State) : (beginDrain t q s).mem = s.mem := rfl
@[simp] theorem beginDrain_pl (t : Tile) (q : DrainReq) (s : State) : (beginDrain t q s).pl = { s.pl with drains := s.pl.drains ++
    [{ tile := t, req := q, start := s.cyc, who := s.fresh, sup := drainSup s t q }] } := rfl
@[simp] theorem beginDrain_coh (t : Tile) (q : DrainReq) (s : State) : (beginDrain t q s).coh = s.coh := rfl
@[simp] theorem beginDrain_hf (t : Tile) (q : DrainReq) (s : State) : (beginDrain t q s).hf = s.hf := rfl
@[simp] theorem beginDrain_tp (t : Tile) (q : DrainReq) (s : State) : (beginDrain t q s).tp = s.tp := rfl
@[simp] theorem beginDrain_cm (t : Tile) (q : DrainReq) (s : State) : (beginDrain t q s).cm = s.cm := rfl
@[simp] theorem beginDrain_sp (t : Tile) (q : DrainReq) (s : State) : (beginDrain t q s).sp = s.sp := rfl
@[simp] theorem beginDrain_ck (t : Tile) (q : DrainReq) (s : State) : (beginDrain t q s).ck = s.ck := rfl
@[simp] theorem beginDrain_pwr (t : Tile) (q : DrainReq) (s : State) : (beginDrain t q s).pwr = s.pwr := rfl
@[simp] theorem beginDrain_tel (t : Tile) (q : DrainReq) (s : State) : (beginDrain t q s).tel = s.tel := rfl
@[simp] theorem beginDrain_sec (t : Tile) (q : DrainReq) (s : State) : (beginDrain t q s).sec = s.sec := rfl
@[simp] theorem beginDrain_log (t : Tile) (q : DrainReq) (s : State) : (beginDrain t q s).log = s.log := rfl
@[simp] theorem beginDrain_fd (t : Tile) (q : DrainReq) (s : State) : (beginDrain t q s).fd = s.fd := rfl
@[simp] theorem beginDrain_regs (t : Tile) (q : DrainReq) (s : State) : (beginDrain t q s).regs = s.regs := rfl
@[simp] theorem beginDrain_i3c (t : Tile) (q : DrainReq) (s : State) : (beginDrain t q s).i3c = s.i3c := rfl
@[simp] theorem beginDrain_out (t : Tile) (q : DrainReq) (s : State) : (beginDrain t q s).out = s.out := rfl
@[simp] theorem beginDrain_outbox (t : Tile) (q : DrainReq) (s : State) : (beginDrain t q s).outbox = s.outbox := rfl
@[simp] theorem beginDrain_agenda (t : Tile) (q : DrainReq) (s : State) : (beginDrain t q s).agenda = s.agenda := rfl
@[simp] theorem beginDrain_fresh (t : Tile) (q : DrainReq) (s : State) : (beginDrain t q s).fresh = s.fresh + 1 := rfl
@[simp] theorem beginDrain_pending (t : Tile) (q : DrainReq) (s : State) : (beginDrain t q s).pending = s.pending := rfl

/-! ### The past of a byte -/

/-- A byte reads as on any cycle while nothing of the past is kept. -/
theorem seenByte_of_hist {s : State} (h : s.pl.hist = []) (c a : Nat) : seenByte s c a = byteAt s c a := by
  unfold seenByte; rw [h]; rfl
/-- What was kept before is what a read of an earlier cycle saw. -/
theorem seenByte_kept {s : State} {x : PastByte} {r : List PastByte} (h : s.pl.hist = x :: r) {c : Nat} (hc : c < x.vis) :
    seenByte s c x.addr = x.old := by
  unfold seenByte
  rw [h, List.find?_cons_of_pos (by simp [hc])]
/-- A write that lands leaves the byte as memory then holds it. -/
theorem landByte_mem (s : State) (acc : Memory × List PastByte) (w : PendWrite) :
    (landByte s acc w).1 = memSet acc.1 w.addr (pwByte (memGet acc.1 w.addr) w) := rfl
/-- Writes that land keep the canonical form of memory. -/
theorem landByte_wf (s : State) (ws : List PendWrite) (acc : Memory × List PastByte) (h : Memory.wf acc.1 = true) :
    Memory.wf (ws.foldl (landByte s) acc).1 = true := by
  induction ws generalizing acc with
  | nil => exact h
  | cons w r ih => exact ih _ (by rw [landByte_mem]; exact memWf_memSet h _ _)

/-! ### What a cycle brings -/

/-- No result of the Verge is due. -/
theorem landVerge_none {s : State} (h : ∀ w ∈ s.pl.vwrites, s.cyc < w.vis) : landVerge s = s := by
  unfold landVerge
  rw [List.filter_eq_nil_iff.mpr (fun w hw => by simpa using h w hw),
    List.filter_eq_self.mpr (fun w hw => by simpa using h w hw)]
  rfl
/-- No transfer of the system channel is due. -/
theorem landXfers_none {s : State} (h : ∀ x ∈ s.pl.xfers, s.cyc < x.due) : landXfers s = s := by
  unfold landXfers
  rw [List.filter_eq_nil_iff.mpr (fun x hx => by have := h x hx; simp; omega)]
  rfl
/-- No operation of an NRU is in flight. -/
theorem nruTick_none {s : State} (h : s.pl.nruFlight = []) : nruTick s = s := by
  unfold nruTick
  simp only [h, List.filter_nil, List.foldl_nil]
  rw [← h]
/-- With nothing in progress a cycle brings nothing. -/
theorem beatsOf_idle {s : State} (h : OnlyBeats {} s) : beatsOf s = s := by
  obtain ⟨h1, h2, h3, h4, h5, h6, h7, h8, h9⟩ := h
  unfold beatsOf
  simp only [landVerge_none h8, h3, h4, List.foldl_nil, landXfers_none h9, h2, h1, h5, h6, nruTick_none h7]
/-- A flow alone takes its beat. -/
theorem beatsOf_flow {s : State} {x : Flow} (h : OnlyBeats { flows := [x] } s)
    (k : OnlyBeats { flows := (flowTick s x).pl.flows } (flowTick s x)) : beatsOf s = flowTick s x := by
  obtain ⟨-, -, h3, -, -, -, -, h8, -⟩ := h
  obtain ⟨k1, k2, -, k4, k5, k6, k7, -, k9⟩ := k
  unfold beatsOf
  simp only [landVerge_none h8, h3, List.foldl_cons, List.foldl_nil, k4, landXfers_none k9, k2, k1, k5, k6, nruTick_none k7]
/-- A drain alone takes its cycle. -/
theorem beatsOf_drain {s : State} {x : DrainRun} (h : OnlyBeats { drains := [x] } s)
    (k : OnlyBeats { drains := (drainTick s x).pl.drains } (drainTick s x)) : beatsOf s = drainTick s x := by
  obtain ⟨-, h2, h3, h4, -, -, -, h8, h9⟩ := h
  obtain ⟨k1, -, -, -, k5, k6, k7, -, -⟩ := k
  unfold beatsOf
  simp only [landVerge_none h8, h3, h4, List.foldl_cons, List.foldl_nil, landXfers_none h9, h2, k1, k5, k6, nruTick_none k7]
/-- A product alone takes its cycle. -/
theorem beatsOf_product {s : State} {x : Product} (h : OnlyBeats { prods := [x] } s)
    (k : OnlyBeats { prods := (prodTick s x).pl.prods } (prodTick s x)) : beatsOf s = prodTick s x := by
  obtain ⟨h1, h2, h3, h4, -, -, -, h8, h9⟩ := h
  obtain ⟨-, -, -, -, k5, k6, k7, -, -⟩ := k
  unfold beatsOf
  simp only [landVerge_none h8, h3, h4, List.foldl_cons, List.foldl_nil, landXfers_none h9, h2, h1, k5, k6, nruTick_none k7]
/-- A tree reduction alone takes its cycle. -/
theorem beatsOf_tree {s : State} {x : TreeRun} (h : OnlyBeats { trees := [x] } s)
    (k : OnlyBeats { trees := (treeTick s x).pl.trees } (treeTick s x)) : beatsOf s = treeTick s x := by
  obtain ⟨h1, h2, h3, h4, h5, -, -, h8, h9⟩ := h
  obtain ⟨-, -, -, -, -, k6, k7, -, -⟩ := k
  unfold beatsOf
  simp only [landVerge_none h8, h3, h4, List.foldl_cons, List.foldl_nil, landXfers_none h9, h2, h1, h5, k6, nruTick_none k7]
/-- An instruction of the Verge alone takes its beat. -/
theorem beatsOf_verge {s : State} {x : VRun} (h : OnlyBeats { vruns := [x] } s) (k : (vTick s x).pl.nruFlight = []) :
    beatsOf s = vTick s x := by
  obtain ⟨h1, h2, h3, h4, h5, h6, -, h8, h9⟩ := h
  unfold beatsOf
  simp only [landVerge_none h8, h3, h4, List.foldl_cons, List.foldl_nil, landXfers_none h9, h2, h1, h5, h6, nruTick_none k]
/-- The operations of the NRUs alone are applied. -/
theorem beatsOf_ops {s : State} {l : List NruOp} (h : OnlyBeats { ops := l } s) : beatsOf s = nruTick s := by
  obtain ⟨h1, h2, h3, h4, h5, h6, -, h8, h9⟩ := h
  unfold beatsOf
  simp only [landVerge_none h8, h3, h4, List.foldl_nil, landXfers_none h9, h2, h1, h5, h6]

end Sys2Proof.Machine
end

