-- ==== Sys2Proof/Laws/Scalar.lean ====
section
/-! SUPPORT. What an instruction that writes one scalar register leaves, said once for every such instruction. -/

namespace Sys2Proof.Machine

/-- A tile instruction leaves the other planes alone. -/
theorem other_tileOnly (s w : State) (hc : CommitSame s w) (hr : RegsSame s w) : OtherPlanes s (tileOnly s w) :=
  ⟨rfl, rfl, rfl, rfl, rfl, rfl, rfl, rfl, rfl, rfl, rfl, rfl, rfl, rfl, hc, hr⟩

/-- The commit state after issue. -/
theorem Issued.commit {t : Tile} {s w : State} (h : Issued t s w) : CommitSame s w := by
  unfold CommitSame; rw [h.shape]

/-- An instruction that issues and writes `v` to register `r`, visible from `vis`. -/
theorem scalar_spec {q : IssueReq} {s : State} {check} (h : Issues q check s) (v : W64)
    (r vis : Nat) (hr : r < 64) (eff : State → State)
    (he : ∀ w, eff w = wreg q.t r v vis w ∨ eff w = seenBy q.t vis (wreg q.t r v vis w)) :
    let u := tileOnly s (issue q check eff s)
    ScalarTakes q.t r v vis u ∧ ScalarFrame q.t r 0 s u := by
  obtain ⟨w, hw, e⟩ := issue_spec h eff
  simp only
  rw [e]
  generalize hx : wreg q.t r v vis w = x at *
  have hxt : ∀ y, tctl x y = tctl w y := fun y => by rw [← hx]; unfold wreg; split <;> rfl
  have hs : ∀ y k, k < 64 → sreg x y k = if y = q.t ∧ k = r then (if r = 0 then 0 else v) else sreg s y k := fun y k hk => by
    rw [← hx, sreg_wreg _ _ _ _ hr hk, hw.sreg]
  have hsp : r ≠ 0 → (⟨64 * q.t.val + r, vis⟩ : SPend) ∈ x.pl.spend := fun h0 => by
    rw [← hx]; unfold wreg; rw [if_neg h0]; simp
  have hsh : x = { w with pl := { w.pl with sregs := x.pl.sregs, spend := x.pl.spend } } := by
    rw [← hx]; unfold wreg; split <;> rfl
  have key : ∀ y, (y = x ∨ y = seenBy q.t vis x) → ScalarTakes q.t r v vis (tileOnly s y) ∧ ScalarFrame q.t r 0 s (tileOnly s y) := by
    intro y hy
    have h1 : y.pl.sregs = x.pl.sregs := by rcases hy with rfl | rfl <;> rfl
    have h2 : y.pl.spend = x.pl.spend := by rcases hy with rfl | rfl <;> rfl
    have h3 : (tctl y q.t).pc = (tctl s q.t).pc + 1 ∧ (tctl y q.t).next = s.cyc + 1 ∧ (tctl y q.t).flags = (tctl s q.t).flags ∧ (tctl y q.t).nfb = (tctl s q.t).nfb ∧ (tctl y q.t).nff = (tctl s q.t).nff := by
      rcases hy with rfl | rfl
      · rw [hxt, hw.own]; exact ⟨rfl, rfl, rfl, rfl, rfl⟩
      · rw [tctl_seenBy, hxt, hw.own]; exact ⟨rfl, rfl, rfl, rfl, rfl⟩
    have h4 : ∀ z, z ≠ q.t → tctl y z = tctl s z := fun z hz => by
      rcases hy with rfl | rfl
      · rw [hxt, hw.other z hz]
      · rw [tctl_seenBy_ne hz, hxt, hw.other z hz]
    have h5 : y = { s with agenda := y.agenda, regs := y.regs, out := y.out, outbox := y.outbox, ck := keepCk s y, cm := { s.cm with phase := y.cm.phase, readyFrom := y.cm.readyFrom, updatedFrom := y.cm.updatedFrom, abortCode := y.cm.abortCode }, pl := { s.pl with tiles := y.pl.tiles, stopAt := y.pl.stopAt, segErr := y.pl.segErr, sregs := y.pl.sregs, spend := y.pl.spend } } := by
      have hx5 : x = { s with agenda := x.agenda, regs := x.regs, out := x.out, outbox := x.outbox, ck := keepCk s x, cm := { s.cm with phase := x.cm.phase, readyFrom := x.cm.readyFrom, updatedFrom := x.cm.updatedFrom, abortCode := x.cm.abortCode }, pl := { s.pl with tiles := x.pl.tiles, stopAt := x.pl.stopAt, segErr := x.pl.segErr, sregs := x.pl.sregs, spend := x.pl.spend } } := by
        have := hw.shape
        rw [hsh, this]
        rfl
      rcases hy with hy | hy
      · rw [hy]; exact hx5
      · rw [hy]; unfold seenBy setTctl; rw [hx5]; rfl
    have h6 : y.regs = w.regs := by
      rcases hy with rfl | rfl
      · rw [hsh]
      · unfold seenBy setTctl; rw [hsh]
    refine ⟨⟨?_, fun h0 => ?_⟩, ?_, ⟨h3.1, h3.2.1⟩, h4, ⟨?_, h3.2.2.2.1, h3.2.2.2.2⟩, ?_, ?_, ?_, ?_, ⟨?_, ?_⟩, ?_, ?_⟩
    · show sreg y _ _ = _
      rw [sreg_congr h1, hs _ _ hr, if_pos ⟨rfl, rfl⟩]
    · show _ ∈ y.pl.spend
      rw [h2]; exact hsp h0
    · refine other_tileOnly _ _ ?_ ?_
      · unfold CommitSame; rw [h5]
      · intro o ho; unfold reg32; rw [h6]; exact hw.regs o ho
    · show (tctl y _).flags = _
      rw [h3.2.2.1]; simp
    · intro z k hk hne
      show sreg y _ _ = _
      rw [sreg_congr h1, hs _ _ hk, if_neg hne]
    · show y.pl.vregs = _; rw [h5]
    · show y.pl.masks = _; rw [h5]
    · show y.pl.fas = _; rw [h5]
    · show y.pl.imem = _; rw [h5]
    · show y.pl.ipages = _; rw [h5]
    · intro c a
      refine byteAt_congr (s := s) (u := tileOnly s y) rfl ?_ c a
      show y.pl.pw = _; rw [h5]
    · show y.pl = _
      rw [h5]; rfl
  exact key _ ((he w).imp (fun e => by rw [e, hx]) (fun e => by rw [e, hx]))

end Sys2Proof.Machine
end

