-- ==== Sys2Proof/WellFormed.lean ====
section
/-! DEFINITION. Well-formed commands: what a sender can put on the wire. The types of Syntax.lean bound most operands; the
checks below are the relations between an operand's parts. -/

namespace Sys2Proof

/-- A flit carries 240 payload bytes, and its virtual channel and type are among those of Tables 13.2 and 13.3. -/
def flitWf (x : Flit) : Bool := x.payload.length = 240 && x.ty.toNat ≤ 2
/-- A core access is of 1, 2, 4 or 8 bytes, or a whole line, inside one line of the 52-bit space (R223, R265). -/
def accessWf (a : CoreAccess) : Bool :=
  [1, 2, 4, 8, 16, 32, 64].contains a.bytes && a.addr % a.bytes = 0 && a.addr + a.bytes ≤ 2 ^ 52
/-- A host store lies in the 48-bit host physical space (R277). -/
def hostStoreWf (h : HostStore) : Bool := h.addr + h.bytes.length ≤ 2 ^ 48
/-- An NRU operation carries as many values as elements (R104). -/
def nruPktWf (p : NruPkt) : Bool := p.data.length = p.n || p.data.isEmpty
/-- An accepted descriptor carries the payload of its SIZE (Table 12.3). -/
def descWf (d : Desc) : Bool :=
  d.size.toNat ≤ 2 && d.payload.length = (if d.size = 1 then 64 else if d.size = 2 then 192 else 0)
/-- A 64-bit register access is 8-byte aligned, a 32-bit one 4-byte aligned (R448). -/
def writeWf (off : BitVec 26) (wide : Bool) : Bool := if wide then off.toNat % 8 = 0 else off.toNat % 4 = 0
/-- A CLAIM names an uncompressed P-384 point (R424). -/
def claimWf (r : ClaimReq) : Bool := r.point.length = 97
/-- A bundle fits its 16 MiB slot (R419). -/
def bundleWf (b : List Byte) : Bool := b.length ≤ 0x1000000

/-- The checks of one command; a command without operands of these kinds is always well formed. -/
def Instr.wf (i : Instr) : Bool :=
  match i with
  | .collectiveDataFlit _ x | .nak _ x | .managementMessage _ x | .creditsReturned _ x => flitWf x
  | .coreLoad _ a | .coreStore _ a _ => accessWf a
  | .descriptorFetch _ v | .staleRefetch _ v => v.all hostStoreWf
  | .nruAdd _ p | .nruClear _ p => nruPktWf p
  | .nopCommand d | .run d | .loadImage d | .copyIn d | .copyOut d | .inlineWrite d | .milestoneReady d
  | .milestoneCommit d | .milestoneReplay d | .milestoneResolve d | .restoreBegin d | .restoreSegments d
  | .restoreFinish d | .setScales d | .fence d | .queryIdentification d | .queryOrphanLog d | .queryRingStatus d
  | .queryErrorRecords d | .queryTelemetry d => descWf d
  | .registerWrite _ off wide _ => writeWf off wide
  | .claim _ r => claimWf r
  | .fwWrite b => bundleWf b
  | _ => true

end Sys2Proof
end

