-- ==== Sys2Proof/Tests/Slice0.lean ====
section
/-! SUPPORT. The author's own tests: ill-formed commands are refused, and concrete states meet the hypotheses of the
statements, case by case where a statement has several. -/

namespace Sys2Proof.Machine

set_option Elab.async false

/-! ## Well-formed commands, one ill-formed term for each check -/

/-- A flit of 239 payload bytes. -/
theorem test_wf_flit : Instr.wf (.nak 0
    { vc := 0, ty := 0, seq := 0, ack := 0, nak := true, crv := 0, crn := 0, tag := 0, payload := zeros 239 }) = false := by
  decide +kernel
/-- An access of 3 bytes, and one that is not aligned. -/
theorem test_wf_access : Instr.wf (.coreLoad 0 { addr := 0, bytes := 3, uncached := false, atomic := false }) = false ∧
    Instr.wf (.coreLoad 0 { addr := 4, bytes := 8, uncached := false, atomic := false }) = false := by decide +kernel
/-- A host store that leaves the 48-bit space. -/
theorem test_wf_host_store : Instr.wf (.descriptorFetch 0 [⟨2 ^ 48 - 1, [0, 0]⟩]) = false := by decide +kernel
/-- An NRU operation of two elements with one value. -/
theorem test_wf_nru : Instr.wf (.nruAdd 0 { off := 0, n := 2, data := [0], tile := 0 }) = false := by decide +kernel
/-- A command descriptor for the tests. -/
def tDesc (opc : Byte) (a0 a1 : W64) : Desc :=
  { ring := 0, opc := opc, size := 0, tag := 7, stamp := 0, flags := 0, wmk := 0, a0 := a0, a1 := a1, a2 := 0, a3 := 0,
    a4 := 0, payload := [] }
/-- A payload without a size. -/
theorem test_wf_desc : Instr.wf (.inlineWrite { tDesc 5 0 0 with payload := zeros 64 }) = false := by decide +kernel
/-- A 64-bit write at an odd word. -/
theorem test_wf_write : Instr.wf (.registerWrite false 0x2014 true 0) = false := by decide +kernel
/-- A compressed point. -/
theorem test_wf_claim : Instr.wf (.claim .doe { point := zeros 49, reqsig := false, cosign := false, dbgdrk := false, sig := [] }) =
    false := by decide +kernel
/-- A bundle of one byte more than a slot holds. -/
theorem test_wf_bundle : bundleWf (List.replicate 0x1000001 0) = false := by
  unfold bundleWf; rw [List.length_replicate]; decide +kernel

/-! ## States of the tests -/

/-- Operand fields from values and their lowest bits. -/
def tF (xs : List (Nat × Nat)) : Fields := BitVec.ofNat 56 (xs.foldl (fun a p => a + p.1 * 2 ^ p.2) 0)
/-- Tile 0 with some scalar registers set. -/
def tRegs (xs : List (Nat × W64)) : State := { State.reset with pl := { Plane.reset with sregs := xs } }
/-- A package that runs, its link up. -/
def tUp : State :=
  { State.reset with ck := { Clock.reset with inReset := false, lock := true, ready := true, bring := 10 },
                     hf := { HostFe.reset with linkUp := true } }

/-! ## Tile instructions that issue -/

/-- Scalar formats S, I and reads of state issue, with sd = s63 and with sd = s0. -/
theorem test_scalar_issues :
    Issues { t := 127, opc := 0x04, f := tF [(63, 50)], enc := encS (tF [(63, 50)]), reads := [0, 0],
             write := some (63, 1), units := [64] } noCheck State.reset ∧
    Issues { t := 0, opc := 0x01, f := tF [], enc := encI (tF []) false, reads := [], write := some (0, 1), units := [] }
      noCheck State.reset ∧
    Issues { t := 0, opc := 0x12, f := tF [], enc := encS (tF []), write := some (0, 1) } noCheck State.reset := by
  unfold Issues; decide +kernel
/-- Branches, waits and END issue: WAIT.UNTIL with T = s + 1, WAIT.FOR with 1 TCLK. -/
theorem test_flow_issues :
    Issues (branchReq 0x18 false 0 0 State.reset) noCheck State.reset ∧
    Issues (branchReq 0x19 true 0 (tF [(32767, 0)]) State.reset) noCheck State.reset ∧
    Issues { t := 0, opc := 0x1C, f := 1, enc := encW 1 true, reads := [] }
      (fun s => if waitTarget s 0 1 < s.cyc + 1 then some (eSeqLate, 0) else none) State.reset ∧
    Issues { t := 0, opc := 0x1D, f := 1, enc := encW 1 false && decide (1 ≤ sextImm 1) } noCheck State.reset ∧
    Issues { t := 0, opc := 0x1F, f := 0, enc := encS 0 } noCheck State.reset := by unfold Issues; decide +kernel
/-- A WAIT.UNTIL with T = s is late. -/
theorem test_wait_late : issueStopped State.reset = false ∧ (tctl State.reset 0).pc ≤ 32767 ∧
    issueFault { t := 0, opc := 0x1C, f := 0, enc := encW 0 true, reads := [] } State.reset = none ∧
    waitTarget State.reset 0 0 < State.reset.cyc + 1 := by decide +kernel
/-- SLD and SST issue at the last word of the store, and the port holds. -/
theorem test_sld_issues :
    let f := tF [(63, 50), (0x13FFFF8, 0)]
    Issues { t := 0, opc := 0x10, f := f, enc := encI f false, reads := [0], write := some (63, 6), units := [64] }
      (sldCheck 0 f) State.reset ∧
    Issues { t := 0, opc := 0x11, f := tF [(0x13FFFF8, 0)], enc := encI (tF [(0x13FFFF8, 0)]) true, reads := [0, 0], units := [64] }
      (sldCheck 0 (tF [(0x13FFFF8, 0)])) State.reset ∧
    portOver (usePort 0 .mainRead 0 1 8 State.reset) 0 .mainRead 0 = false := by unfold Issues; decide +kernel
/-- A reserved bit of SADD set is a fault of issue. -/
theorem test_issue_faults :
    issueFault { t := 0, opc := 0x04, f := 1, enc := encS 1, reads := [0, 0], write := some (0, 1), units := [64] } State.reset =
      some eSeqEnc := by decide +kernel

/-- BF16 operands at 0, K = 32. -/
def tHedge : State := tRegs [(1, 0x1000000000400000), (2, 32)]
/-- HMM of s1 and s1 with K of s2; the drain goes by s1. -/
def tHmm : Fields := BitVec.ofNat 56 (1 * 2 ^ 50 + 1 * 2 ^ 44 + 1 * 2 ^ 38 + 2 * 2 ^ 32)
/-- HMM issues without a drain. -/
theorem test_hmm_issues : Issues { t := 0, opc := 0x40, f := tHmm, reads := hmmReads tHmm } (hmmCheck 0 tHmm) tHedge := by
  unfold Issues; decide +kernel
/-- The same with a drain. -/
def tHmmDrn : Fields := tHmm ||| 0x400#56
theorem test_hmm_drain_issues :
    Issues { t := 0, opc := 0x40, f := tHmmDrn, reads := hmmReads tHmmDrn } (hmmCheck 0 tHmmDrn) tHedge := by
  unfold Issues; decide +kernel
/-- HMS of an FP32 split. -/
def tHms : Fields := tHmm ||| 0x100#56
theorem test_hms_issues : Issues { t := 0, opc := 0x41, f := tHms, reads := hmsReads tHms } (hmsCheck 0 tHms) tHedge := by
  unfold Issues; decide +kernel
/-- HDRN by s1. -/
def tHdrn : Fields := BitVec.ofNat 56 (1 * 2 ^ 38 + 1 * 2 ^ 10)
theorem test_hdrn_issues :
    Issues { t := 0, opc := 0x42, f := tHdrn, reads := outReads (hInstr tHdrn) } (hdrnCheck 0 tHdrn) tHedge := by
  unfold Issues; decide +kernel
/-- HTREE issues; tile 1 completes the set of tiles 0 and 1, tile 0 alone does not. -/
theorem test_tree_issues :
    Issues { t := 0, opc := 0x43, f := 0, enc := fld 0 51 0 = 0 } noCheck State.reset ∧
    (let e := treeEntry State.reset 0 0; (treeSet [e] e).length ≠ 2 ^ treeN e) ∧
    (let e := treeEntry State.reset 1 0; let q := [treeEntry State.reset 0 0, e]
      treeClash q e = false ∧ (treeSet q e).length = 2 ^ treeN e ∧ treeFault State.reset (treeSet q e) = none) := by
  unfold Issues; decide +kernel

/-! ## Verge instructions that issue -/

/-- Every declaration of the arithmetic path that has no scalar operand issues on v0. -/
theorem test_verge_issues : ∀ d ∈ [vFloatDecl 0x50 11 true false, vFloatDecl 0x53 11 true true, vBitsDecl 0x80 true true,
      vBitsDecl 0x8B true false, vcvtDecl, vrngDecl, vspl3Decl, vilog64Decl, vslc64Decl, vReduceDecl 0x70 false,
      vReduceDecl 0x73 true, vmpopDecl, vCompareDecl 0x90 4, vmlogDecl],
    VIssues 0 0 (d 0 0 State.reset) State.reset := by unfold VIssues Issues; decide +kernel
/-- 4,096 elements, at v31 of tile 127. -/
def tTop : Fields := BitVec.ofNat 56 (31 * 2 ^ 50 + 31 * 2 ^ 44 + 31 * 2 ^ 38 + 31 * 2 ^ 32 + 4095 * 2 ^ 20)
theorem test_verge_issues_top : VIssues 127 tTop (vFloatDecl 0x53 11 true true 127 tTop State.reset) State.reset := by
  unfold VIssues Issues; decide +kernel
/-- Row instructions issue with Lr = 1. -/
theorem test_rows_issue : ∀ d ∈ [vRowsDecl 0x74 1 false false, vRowsDecl 0x75 2 false false, vRowsDecl 0x77 1 true false,
      vRowsDecl 0x78 2 true true],
    VIssues 0 (tF [(1, 3)]) (d 0 (tF [(1, 3)]) (tRegs [(1, 1)])) (tRegs [(1, 1)]) := by unfold VIssues Issues; decide +kernel
/-- Transfers issue: FP32 rows of 1,024 bytes; the loads and stores of wide elements and of masks too. -/
theorem test_transfers_issue :
    let s := tRegs [(1, 0x0000000000800000), (2, 0x0000000001000000)]
    (∀ d ∈ [vldDecl, vstDecl, vstiDecl], VIssues 0 (tF [(1, 44)]) (d 0 (tF [(1, 44)]) s) s) ∧
    (VIssues 0 (tF [(2, 44), (1, 17)]) (vldDecl 0 (tF [(2, 44), (1, 17)]) s) s) ∧
    (∀ d ∈ [vldmDecl, vstmDecl], VIssues 0 0 (d 0 0 s) s) := by unfold VIssues Issues; decide +kernel

/-- A reduction of tiles 0 and 1 into tile 0 that has issued on cycle 0, before its first group arrives and with a group that does. -/
def tTree : TreeRun := { root := 0, n := 1, src := false, dst := false, start := 0 }
/-- The same on cycle `c`, with the groups `g` on their way. -/
def tTreeing (c : Nat) (g : List (List Fa × BitVec 5)) : State :=
  { State.reset with cyc := c, pl := { Plane.reset with trees := [{ tTree with got := g }] } }
/-- The cycles of a reduction: before it reads, while it reads, and when a group arrives. -/
theorem test_tree_cycles :
    (∀ c ∈ [0, 4, 12], OnlyBeats { trees := [tTree] } (tTreeing c [])) ∧ 12 < tTree.start + 4 + 9 * tTree.n ∧
    OnlyBeats { trees := [{ tTree with got := [([], 0)] }] } (tTreeing 140 [([], 0)]) ∧ tTree.start + 4 + 9 * tTree.n ≤ 140 ∧
    140 = tTree.start + 131 + 9 * tTree.n ∧ treeClash [treeEntry State.reset 0 0, treeEntry State.reset 0 0] (treeEntry State.reset 0 0) =
      false := by unfold OnlyBeats; decide +kernel

/-- A Verge instruction of tile 0 in progress, in the first of `len` cycles. -/
def tVerge (opc len : Nat) (f : Fields) : VRun :=
  { tile := 0, opc := opc, ctl := f, start := 0, len := len, who := 0, sregs := [],
    reads := [⟨0, false, false, 0, 1, 0, 512, 1, 0, 4095⟩] }
/-- It alone is in progress. -/
def tVerging (x : VRun) : State := { State.reset with pl := { Plane.reset with vruns := [x] } }
/-- Every instruction of the Verge has its turn, with more cycles to come and on its last one. -/
theorem test_verge_turns : ∀ opc, 0x50 ≤ opc → opc ≤ 0xA4 → ∀ f : Fields,
    VTurn opc (tVerge opc 1 f) (tVerging (tVerge opc 1 f)) ∧
    vLast (tVerge opc 1 f) (tVerging (tVerge opc 1 f)) = true ∧
    VTurn opc (tVerge opc 2 f) (tVerging (tVerge opc 2 f)) ∧
    vLast (tVerge opc 2 f) (tVerging (tVerge opc 2 f)) = false := by
  intro opc _ _ f
  refine ⟨⟨rfl, Nat.le_refl 0, Nat.zero_lt_one, rfl, rfl, rfl, rfl, rfl, rfl, rfl, ?_, ?_⟩, rfl,
    ⟨rfl, Nat.le_refl 0, Nat.zero_lt_succ 1, rfl, rfl, rfl, rfl, rfl, rfl, rfl, ?_, ?_⟩, rfl⟩ <;>
  · intro _ h; cases h
/-- Transfers of words and of pairs of words, and what a beat keeps of an operand. -/
theorem test_verge_reads :
    (vXfer 0).wid ≠ 1 ∧ (vXfer (tF [(1, 17)])).wid = 1 ∧
    (tVerge 0x70 1 0).reads = [⟨0, false, false, 0, 1, 0, 512, 1, 0, 4095⟩] := by decide +kernel
/-- Results that are due, in a vector and in a mask register, with an element that the mask leaves out, and one that is not due. -/
theorem test_verge_lands :
    let w : VWrite := ⟨0, false, 31, 4094, 0, [some 7, none]⟩
    let s := fun (m : Bool) => { State.reset with pl := { Plane.reset with
      vwrites := [{ w with isMask := m, reg := if m then 7 else 31 }, { w with vis := 1 }] } }
    ∀ m, (s m).pl.vwrites = { w with isMask := m, reg := if m then 7 else 31 } :: [{ w with vis := 1 }] ∧ w.vis ≤ (s m).cyc ∧
      (∀ x ∈ [{ w with vis := 1 }], (s m).cyc < x.vis) ∧ w.first + w.vals.length ≤ 4096 := by decide +kernel
/-- Operands of VMAX, and of VILOG64: a NaN, zeros of both signs, an infinity, zero, the least subnormal and one. -/
theorem test_order_operands :
    let s := { State.reset with pl := { Plane.reset with vregs := [(0, 0x7FC00000), (1, 0x80000000)] } }
    (prIn 0 (vGet s 0 0 0)).1.isNan = true ∧ (prIn 0 (vGet s 0 0 1)).1.isNan = false ∧
    (∀ x ∈ [(0x7FF00000, 2047, 0), (0, 0, 0), (0x3FF00000, 1023, 0)],
      x.1 / 2 ^ 20 % 2048 = x.2.1 ∧ x.1 % 2 ^ 20 = x.2.2) := by decide +kernel

/-! ## Mover instructions that issue -/

/-- An image of one segment that grants die 0 every frame position of stack 0. -/
def tImg : Image :=
  { load := 0, len := 0, digest := 0, setDigest := 5, build := 0, wsys := 512, podZ := 1, pods := 1,
    segs := [{ slot := 0, tileFirst := 0, declFirst := 0, declCount := 0 }], tiles := [], presets := [], codeOff := 0,
    frames := (List.range 16).map fun c => { seg := none, chan := c, die := 0, start := 0, len := 4096 }, nru := [], exch := [],
    layby := [], decls := [], scales := [] }
/-- Stack 0 is tensor-owned and stack 0 of LPDDR5X system-owned; s1 is a row of 64 bytes at 0, s2 the shape of one row, s3
the address of LPDDR5X, s4 of NRU 0, s5 a delivery count of 2,560, s6 the shape of one row of 512 bytes. -/
def tMove : State :=
  { State.reset with
    regs := smapSet 0 (0x20000 / 4) 18432#32 (smapSet 0 (0x20004 / 4) 0xA0000000#32 State.reset.regs),
    pl := { Plane.reset with
      active := some tImg,
      sregs := [(1, 0x80000), (2, 0x100000040), (3, BitVec.ofNat 64 lpBase), (4, BitVec.ofNat 64 nruBase), (5, 2560),
                (6, 0x100000200)],
      layby := [(0, { hbmQuota := 128, hbmPtr := 64, ovfEn := true, ovfBase := lpBase, ovfQuota := 64, ovfD := 2560 }),
                (1, { hbmQuota := 0 }),
                (2, { hbmQuota := 0, ovfEn := true, ovfBase := lpBase, ovfQuota := 64, ovfD := 2560 }),
                (3, { hbmQuota := 0, ovfEn := true, ovfBase := lpBase, ovfQuota := 64, ovfPtr := 64, ovfD := 2560 })] } }
/-- Fields SL = s1, SA, SN = s2, SX. -/
def tMv (sa sx : Nat) : Fields := BitVec.ofNat 56 (1 * 2 ^ 50 + sa * 2 ^ 44 + 2 * 2 ^ 38 + sx * 2 ^ 32)
/-- MVH.LD and MVH.ST of HBM address 0. -/
theorem test_mvh_issues :
    let f := tMv 0 0
    let x := mvArgs tMove 0 f
    Issues (mvReq 0 0x20 f (mvRegs f)) (mvhIssue 0 f x.1 x.2.1 x.2.2 (some 188)) tMove ∧
    Issues (mvReq 0 0x21 f (mvRegs f)) (mvhIssue 0 f x.1 x.2.1 x.2.2 none) tMove := by unfold Issues; decide +kernel
/-- MVT to tile 0 itself, its return intervals free. -/
theorem test_mvt_issues :
    Issues (mvReq 0 0x22 (tMv 0 0) [1, 2, 0]) (mvtCheck 0 (tMv 0 0) (mvtArgs tMove 0 (tMv 0 0))) tMove ∧
    mvtClash tMove 0 (mvtArgs tMove 0 (tMv 0 0)) = [] := by unfold Issues; decide +kernel
/-- Fields SL = s1, SA = s4, SN = s6. -/
def tMvN : Fields := BitVec.ofNat 56 (1 * 2 ^ 50 + 4 * 2 ^ 44 + 6 * 2 ^ 38)
/-- NADD, NRD and NCLR of 128 elements on NRU 0; 16 elements are no whole operation. -/
theorem test_nru_issues :
    let g := nruGeo tMove ⟨512, 1⟩ nruBase 4
    let ok := localOk (lsDesc 0x80000) ⟨512, 1⟩
    let none_ := mvForm tMvN false false false false false
    Issues (mvReq 0 0x23 tMvN (mvRegs tMvN)) (nruCheck 0 ⟨512, 1⟩ nruBase g (none_ && ok) none) tMove ∧
    Issues (mvReq 0 0x24 tMvN (mvRegs tMvN))
      (nruCheck 0 ⟨512, 1⟩ nruBase g (mvForm tMvN false true false true false && ok) (some 208)) tMove ∧
    (mvF tMvN).fmt = 0 ∧ (mvF tMvN).rnd = 0 ∧
    Issues (mvReq 0 0x25 tMvN [4, 6]) (nruCheck 0 ⟨512, 1⟩ nruBase g none_ none) tMove ∧
    mvArgs tMove 0 tMvN = (lsDesc 0x80000, ⟨512, 1⟩, nruBase) ∧
    nruCheck 0 ⟨64, 1⟩ nruBase (nruGeo tMove ⟨64, 1⟩ nruBase 4) true none tMove = some (eMoverDesc, 0) := by
  unfold Issues; decide +kernel
/-- An NRU operation arrives in a free slot over a range in force. -/
theorem test_nru_arrives :
    Arrives 11 0 128 { State.reset with pl := { Plane.reset with nruRanges := [⟨11, .plain, 0, 128⟩] } } ∧
    Arrives 0 40 32 { State.reset with pl := { Plane.reset with nruRanges := [⟨0, .exact, 1, 32⟩] } } := by
  unfold Arrives; decide +kernel
/-- MVS.LD, MVS.ST and IPAGE of LPDDR5X. -/
theorem test_mvs_issues :
    let f := tMv 3 5
    Issues (mvReq 0 0x2C f (mvRegs f ++ [5])) (mvsCheck 0 f (lsDesc 0x80000) ⟨64, 1⟩ ⟨lpBase, 64, 2560, 1⟩) tMove ∧
    Issues (mvReq 0 0x2D f (mvRegs f ++ [5])) (mvsCheck 0 f (lsDesc 0x80000) ⟨64, 1⟩ ⟨lpBase, 64, 2560, 0⟩) tMove ∧
    Issues (mvReq 0 0x2E f [1, 3, 2, 5]) (ipageCheck 0 f (ipageArgs tMove 0 f)) tMove := by unfold Issues; decide +kernel
/-- A late transfer of this cycle. -/
theorem test_mover_late :
    let e : SysEnt := { tile := 0, id := 0, word := 0, pc := 0, lo := 0, due := 0, hi := 0, bytes := 0, perStack := [], host := 0,
                        short := true }
    [e].find? (fun e => e.tile = 0 && e.id = 0 && e.due = State.reset.cyc) = some e := by decide +kernel
/-- Field SLOT beside SL and SN. -/
def tLb (slot : Nat) : Fields := BitVec.ofNat 56 (1 * 2 ^ 50 + 2 * 2 ^ 38 + slot * 2 ^ 24)
/-- LPUSH and LPOP issue, first of their cycle. -/
theorem test_layby_issues :
    Issues (mvReq 0 0x26 (tLb 0) [1, 2]) (laybyCheck 0 (tLb 0)) tMove ∧
    Issues (mvReq 0 0x27 (tLb 0) [1, 2]) (laybyCheck 0 (tLb 0)) tMove ∧ laybyNow tMove 0 = [] := by
  unfold Issues; decide +kernel
/-- Every case of a push and of a pop: HBM up to its quota, the overflow stack, and a fault. -/
theorem test_layby_cases :
    (laybyPush (laybySlot tMove 0) 64 = .at_ 64 false { laybySlot tMove 0 with hbmPtr := 128 } ∧
      mvhCheck 0 (lsDesc 0x80000) ⟨64, 1⟩ 64 none tMove = none) ∧
    (laybyPush (laybySlot tMove 2) 64 = .at_ lpBase true { laybySlot tMove 2 with ovfPtr := 64 } ∧
      sysCheck 0 ⟨lpBase, 64, 2560, 0⟩ 65536 tMove = none) ∧
    laybyPush (laybySlot tMove 1) 64 = .fault eLaybyOverflow ∧
    (laybyPop (laybySlot tMove 0) 64 = .at_ 0 false { laybySlot tMove 0 with hbmPtr := 0 } ∧
      mvhCheck 0 (lsDesc 0x80000) ⟨64, 1⟩ 0 (some 188) tMove = none) ∧
    (laybyPop (laybySlot tMove 3) 64 = .at_ lpBase true { laybySlot tMove 3 with ovfPtr := 0 } ∧
      sysCheck 0 ⟨lpBase, 64, 2560, 1⟩ 65536 tMove = none) ∧
    laybyPop (laybySlot tMove 1) 64 = .fault eLaybyUnderflow := by decide +kernel

/-! ## What takes several cycles -/

/-- A product of tile 0 in progress, E4M3 by E4M3 at byte 0 with K = 32, into bank 0 from zero. -/
def tProd : Product :=
  { tile := 0, ctl := tHmm, hms := false, start := 0, k := 32, c := 32, da := 0x1000000000400000, db := 0x1000000000400000,
    mask := none }
/-- It reads its last operands; later its last run is promoted. -/
theorem test_product_ends :
    OnlyBeats { prods := [tProd] } { State.reset with cyc := 31, pl := { Plane.reset with prods := [tProd] } } ∧
    Quiet State.reset ∧ tProd.fl = none ∧ 31 + 1 = tProd.start + tProd.c ∧
    OnlyBeats { prods := [{ tProd with fl := some 1 }] }
      { State.reset with cyc := 45, pl := { Plane.reset with prods := [{ tProd with fl := some 1 }] } } ∧
    tProd.start + tProd.c + 13 = 45 := by
  unfold OnlyBeats Quiet; decide +kernel
/-- A byte of tile 0 that becomes 7 on cycle 5 still reads 0 on cycle 4 for that product; and with none in progress nothing is
kept (R60, R165). -/
theorem test_past_byte :
    let w : PendWrite := ⟨4, 5, lsBase 0, 7, 0xFF, 0, 1⟩
    let land := fun (ps : List Product) =>
      landWrites 5 { State.reset with cyc := 5, pl := { Plane.reset with pw := [w], prods := ps } }
    seenByte (land [tProd]) 4 (lsBase 0) = 0 ∧ seenByte (land [tProd]) 5 (lsBase 0) = 7 ∧ (land []).pl.hist = [] ∧
    memGet (land [tProd]).mem (lsBase 0) = 7 := by decide +kernel
/-- A drain in progress, in its first and in its last cycle. -/
def tDrain : DrainRun :=
  { tile := 0, req := { ctl := 0, out := 0x1000000000400000, fused := 0, seed := 0, base := 0, mask := none, f64 := false,
                        issue := 0 }, start := 0, who := 0 }
theorem test_drain_cycles :
    OnlyBeats { drains := [tDrain] } { State.reset with pl := { Plane.reset with drains := [tDrain] } } ∧
    0 + 1 < tDrain.start + drainLen tDrain.req ∧ 255 + 1 = tDrain.start + drainLen tDrain.req ∧
    (nfSummary (tDrain.elems ++ []) (tDrain.ffs ++ [])).2 = none ∧ (nfSummary [(0, 3)] []).2 = some 3 := by
  unfold OnlyBeats; decide +kernel
/-- A mover instruction of tile 0 in progress. -/
def tFlow (n : Nat) (dst : FlowTo) : Flow :=
  { tile := 0, start := 0, ldesc := 0x80000, shape := BitVec.ofNat 64 (0x100000000 + n), dst := dst, who := 0 }
/-- It alone is in progress on cycle `c`; byte 0 of its tile holds 9. -/
def tFlowing (c : Nat) (x : Flow) : State :=
  { State.reset with cyc := c, mem := [(lsBase 0, 9)], pl := { Plane.reset with flows := [x] } }
/-- Each kind, a first and a last beat. -/
theorem test_beats :
    OnlyBeats { flows := [tFlow 64 (.hbm 0)] } (tFlowing 0 (tFlow 64 (.hbm 0))) ∧
    flowLast (tFlowing 0 (tFlow 64 (.hbm 0))) (tFlow 64 (.hbm 0)) = true ∧
    flowLast (tFlowing 0 (tFlow 512 (.tile 1 0 40))) (tFlow 512 (.tile 1 0 40)) = false ∧
    flowLast (tFlowing 1 (tFlow 512 (.sys lpBase 2))) (tFlow 512 (.sys lpBase 2)) = true ∧
    flowLast (tFlowing 0 (tFlow 512 (.sys lpBase 2))) (tFlow 512 (.sys lpBase 2)) = false ∧
    flowRate (tFlow 512 (.nru 0 0 .plain)) = 256 := by
  unfold OnlyBeats; decide +kernel
/-- A store to HBM puts the byte read on its beat under way, an MVT writes it at the destination on s + F, and the first half of
an NRU operation waits for the second. -/
theorem test_beat_goes :
    let h := beatsOf (tFlowing 0 (tFlow 64 (.hbm 0)))
    let m := beatsOf (tFlowing 0 (tFlow 64 (.tile 1 128 40)))
    let r := beatsOf (tFlowing 0 (tFlow 512 (.nru 0 0 .plain)))
    h.pl.pw[0]? = some ⟨64, 189, 0, 9, 0xFF, 0, 0⟩ ∧ h.pl.flows = [] ∧
    m.pl.pw[0]? = some ⟨40, 41, lsBase 1 + 128, 9, 0xFF, 0, 1⟩ ∧
    (r.pl.flows.map fun x => x.got.length) = [256] := by decide +kernel
/-- On its second beat an ADD operation has its data (R154). -/
theorem test_add_filled :
    let x := { tFlow 512 (.nru 0 0 .plain) with got := List.replicate 256 1 }
    let s := { tFlowing 1 x with agenda := [(64, .nruAdd 0 { off := 0, n := 2, data := [], tile := 0 })] }
    (beatsOf s).agenda = [(64, .nruAdd 0 { off := 0, n := 2, data := [0x01010101, 0x01010101], tile := 0 })] ∧
    (beatsOf s).pl.flows = [] := by decide +kernel
/-- The end of a cycle without faults. -/
theorem test_cycle_ends :
    let s := tFlowing 0 (tFlow 64 (.hbm 0))
    s.pl.treeq = [] ∧ s.pl.laybyq = [] ∧ (∀ t p, portOver s t p s.cyc = false) ∧ (∀ t, writeClash s t = false) ∧ Quiet s := by
  refine ⟨rfl, rfl, fun t p => ?_, fun t => rfl, ?_⟩
  · cases p <;> rfl
  · unfold Quiet; decide +kernel

/-- A read of HBM by tile 0 on its first position, with more to come and with none. -/
def tRead (n : Nat) : HbmRead :=
  { tile := 0, ldesc := 0x80000, shape := BitVec.ofNat 64 (0x100000000 + n), addr := 0, start := 0, who := 0,
    bytes := List.replicate n 1 }
theorem test_read_beats : ∀ n ∈ [64, 1024],
    OnlyBeats { hreads := [tRead n] } { State.reset with cyc := 64, pl := { Plane.reset with hreads := [tRead n] } } ∧
    64 % 2 = 0 ∧ framePos (tRead n).start ≤ 64 / 2 ∧
    ((tRead n).bytes.length ≤ 512 * (64 / 2 - framePos (tRead n).start + 1) ↔ n = 64) := by unfold OnlyBeats; decide +kernel
/-- A transfer of tile 0's system channel that is due, with its line of data and without it. -/
def tXfer (page got : Bool) : SysXfer :=
  { tile := 0, id := 0, a := lpBase, n := 64, due := 0, wr := false, todo := [], left := if got then [] else [lpBase / 64],
    got := if got then [(lpBase / 64, 5)] else [], lside := if page then none else some (0x80000, 0x100000040), who := 0 }
/-- The page that it brings. -/
def tPage : IPend := { tile := 0, first := 32760, n := 8, id := 0, due := 0 }
/-- Its entry of the ledger. -/
def tEnt : SysEnt :=
  { tile := 0, id := 0, word := 0, pc := 0, lo := 0, due := 0, hi := 0, bytes := 64, perStack := [], host := 0, short := false }
/-- It alone is due. -/
def tDue (page got : Bool) : State :=
  { State.reset with pl := { Plane.reset with xfers := [tXfer page got], sysent := [tEnt], ipages := if page then [tPage] else [] } }
/-- Data that has come for a load and for a page, and data that has not. -/
theorem test_system_due :
    (∀ g, isPage (tDue false g) (tXfer false g) = false) ∧ (tXfer false true).lside = some (0x80000, 0x100000040) ∧
    (tXfer false true).left = [] ∧ (∀ e ∈ (tDue false true).pl.sysent, e.tight = false) ∧
    (tDue true true).pl.ipages = [tPage] ∧ tPage.first + tPage.n ≤ 32768 ∧ Quiet (tDue true true) ∧
    (linesOf (tXfer false true).a 64)[0]? = some (lpBase / 64) ∧
    (tXfer false true).got.find? (fun g => g.1 = lpBase / 64) = some (lpBase / 64, 5) ∧ (tXfer false false).left ≠ [] ∧
    (tDue false false).pl.sysent.find? (fun e => e.tile = 0 && e.id = 0) = some tEnt := by unfold Quiet; decide +kernel
/-- NRU operations that are due: an ADD, a CLEAR, and READs with and without CLR. -/
theorem test_nru_due :
    let p : NruPkt := { off := 0, n := 1, data := [0x3F800000], tile := 0 }
    let r := fun (c : Bool) => ({ off := 0, n := 1, tile := 0, first := 0, fmt := 0, rnd := 0, clr := c, seed := 0, base := 0,
                                  ldesc := 0x80000, shape := 0x100000040, issue := 0 } : NruRdPkt)
    ∀ m ∈ [NruMode.plain, .compensated, .exact], ∀ o ∈ [NruKind.add p, .clear p, .read (r true), .read (r false)],
      OpDue 11 m o { State.reset with pl := { Plane.reset with nruFlight := [⟨11, m, 0, o⟩] } } := by
  intro p r m hm o ho
  refine ⟨0, Nat.le_refl 0, ⟨rfl, rfl, rfl, rfl, rfl, rfl, rfl, ?_, ?_⟩, rfl, ?_⟩
  · intro _ h; cases h
  · intro _ h; cases h
  · have := (show Quiet State.reset by unfold Quiet; decide +kernel).2; exact this

/-! ## Segments -/

/-- An exchange of one flit: a head that sends its own gradient on port 0. -/
def tSend : ImgExch :=
  { group := 0, port := 0, rx := false, tx := true, outf := false, outc := false, add := 1, hop := 0, earliest := 0,
    winOpen := 0, winClose := 0, mode := 0, rpl := 0, clrst := false, wst := false, ef := false, oport := 0, nflit := 1,
    blk0 := 0, nblk := 1, src := 0, res := 0, nres := 0, cbuf := 0, dst := 0, side := 0, badBits := false }
/-- One that receives a flit on port 0 and writes the sums. -/
def tRecv : ImgExch := { tSend with rx := true, tx := false, outf := true }
/-- The image with both exchanges, active on a package that runs, its link up, and ports 0 and 1 up. -/
def tSeg : State :=
  { tUp with pl := { Plane.reset with active := some { tImg with exch := [tSend, tRecv] } },
             tp := { Turnpike.reset with ports := [(0, { state := 2, width := 2 }), (1, { state := 2, width := 2 })] } }
/-- RUN of segment 0 on the first grid point. -/
def tRun : RunAdm := { desc := tDesc 1 0 73728, seg := 0, base := 73728, placed := some 5 }
/-- A RUN that is admitted, its Layby declared, and one that is refused for each of two reasons. -/
theorem test_run_admitted :
    runRefusal tSeg 0 73728 = none ∧ running tSeg = false ∧ tSeg.pl.runs = [] ∧ laybyDeclared tSeg 0 = true ∧
    runRefusal tSeg 1 73728 = some rImageSegment ∧ runRefusal tSeg 0 0 = some rRunLate := by decide +kernel
/-- A RUN admitted while a segment runs. -/
theorem test_run_queued :
    runRefusal { tSeg with pl := { tSeg.pl with cur := some tRun } } 0 147456 = none ∧
    running { tSeg with pl := { tSeg.pl with cur := some tRun } } = true := by decide +kernel
/-- The end of a placement. -/
theorem test_placement_ends :
    segEntry tSeg 0 = some { slot := 0, tileFirst := 0, declFirst := 0, declCount := 0 } ∧
    (tImg.tiles.getD 0 ⟨0, 0, 0, []⟩).pages = [] := by decide +kernel
/-- SEGMENT_START on its cycle, in time and too late. -/
theorem test_segment_start :
    tRun.placed = some 5 ∧ 5 < tRun.base ∧ running tSeg = false ∧ tRun.desc.opc = 1 ∧
    (∀ e, ({ tRun with placed := some 73728 } : RunAdm).placed = some e → tRun.base ≤ e) := by
  refine ⟨rfl, by decide, rfl, rfl, ?_⟩
  intro e h; cases h; decide
/-- A segment whose tiles have all ended, and one that is stopped. -/
theorem test_segment_end :
    let s := { tSeg with cyc := 80000, pl := { tSeg.pl with cur := some tRun, tiles := [(0, { last := 79999 })] } }
    anyIssuing s = false ∧ lastEffect s ≤ s.cyc ∧ tRun.desc.opc = 1 ∧
    ({ s.pl with stopAt := some 80000 } : Plane).stopAt = some 80000 ∧ lastEffect { s with cyc := 70000 } = 79999 := by
  decide +kernel

/-- A RUN behind one that waits at the step barrier. -/
theorem test_run_waits :
    let s := { tSeg with pl := { tSeg.pl with runWait := [{ tDesc 1 0 73728 with tag := 9 }] } }
    runRefusal (checkSet s) 0 73728 = none ∧ runWaits (checkSet s) (tDesc 1 0 73728) 0 = true ∧
    runWaits (checkSet tSeg) (tDesc 1 0 73728) 0 = false ∧ placementWaits tSeg = false := by decide +kernel
/-- A RUN that starts, and one that has met a mismatch since its admission. -/
theorem test_run_blocked :
    runBlock tSeg = none ∧ runBlock { tSeg with pl := { tSeg.pl with hopBlock := true } } = some eHopMismatch ∧
    runBlock { tSeg with pl := { tSeg.pl with imgBlock := true } } = some eImageSet := by decide +kernel
/-- A segment that has stopped while effects are still to come. -/
theorem test_segment_stopped :
    let s := { tSeg with cyc := 80000, pl := { tSeg.pl with cur := some tRun, tiles := [(0, { last := 90000 })], stopAt := some 80000 } }
    s.pl.stopAt = some 80000 ∧ s.cyc < lastEffect s := by decide +kernel

/-! ## Exchanges and links -/

/-- XCH of the first entry issues. -/
theorem test_xch_issues :
    exchAt tSeg 0 = some tSend ∧ Issues { t := 0, opc := 0x28, f := 0, enc := mvEnc 0 }
      (fun s => (if mvForm 0 true false false false true then xchCheck 0 0 s else some eMoverDesc).map fun c => (c, 0)) tSeg := by
  unfold Issues; decide +kernel
/-- XCH of the receiving entry issues after its window. -/
theorem test_xch_receives :
    exchAt tSeg 1 = some tRecv ∧ Issues { t := 0, opc := 0x28, f := 1, enc := mvEnc 1 }
      (fun s => (if mvForm 1 true false false false true then xchCheck 0 1 s else some eMoverDesc).map fun c => (c, 65536)) tSeg := by
  unfold Issues; decide +kernel
/-- The flit of the receiving exchange. -/
def tFlit : Flit :=
  { vc := 2, ty := 1, seq := 0, ack := 0, nak := false, crv := 0, crn := 0, tag := xTag 1 0, payload := zeros 240 }
/-- Both exchanges on the cycle of their flit, which port 0 holds. -/
def tXch : State :=
  { tSeg with
    cyc := 24,
    tp := { tSeg.tp with ports := [(0, { state := 2, width := 2, rx := [(3, tFlit)] })] },
    pl := { tSeg.pl with xchs := [{ tile := 0, exi := 0, entry := tSend, start := 0, base := 0, per := 144, sent := [],
                                    took := [], sel := [] },
                                  { tile := 0, exi := 1, entry := tRecv, start := 0, base := 0, per := 144, sent := [],
                                    took := [], sel := [] }] } }
/-- A flit that is formed and handed over against a free credit. -/
theorem test_handover :
    (xchFind tXch 0 0).map (·.entry) = some tSend ∧ xOut tSend = 0 ∧ portUp tXch 0 = true ∧
    vcFree (portSt tXch 0) (xVc tSend) = true ∧
    ((xchFind tXch 0 0).map fun x => (xchFlit x 0 0 none tXch).1.isSome) = some true := by decide +kernel
/-- A flit that is consumed. -/
theorem test_consume :
    (xchFind tXch 1 0).map (·.entry) = some tRecv ∧ rxFlit tXch 0 tRecv 1 0 = some tFlit := by decide +kernel
/-- A segment that runs, on a cycle after its windows. -/
def tLate : State := { tSeg with cyc := 80000, pl := { tSeg.pl with cur := some tRun } }
/-- A flit that arrives, in order and after a drop, and a window that closes with its flit and without it. -/
theorem test_arrival :
    portUp tSeg 0 = true ∧ 2 ≤ tFlit.vc.toNat ∧ tFlit.vc.toNat ≤ 13 ∧ tFlit.seq = (portSt tSeg 0).rxSeq + 1 ∧
    running tLate = true ∧ (segBase tLate : Int) + tRecv.winClose ≤ tLate.cyc ∧ rxFlit tLate 0 tRecv 1 0 = none ∧
    rxFlit { tXch with pl := { tXch.pl with cur := some tRun } } 0 tRecv 1 0 = some tFlit := by decide +kernel
/-- A flit that waits for its acknowledgement: sent once, and sent nine times. -/
theorem test_nak :
    let f := { tFlit with seq := 5 }
    let x := fun (n : Nat) => ({ state := 2, replay := [f], sends := [(5, n)] } : PortSt)
    (ackTo 0 (x 1)).replay = [f] ∧ sentOf (ackTo 0 (x 1)) f < 9 ∧ (ackTo 0 (x 9)).replay = [f] ∧
    9 ≤ sentOf (ackTo 0 (x 9)) f := by decide +kernel
/-- Messages for this package, for its neighbour and for all. -/
theorem test_routes :
    routeTo tSeg 0 0 = none ∧ routeTo tSeg 0 1 = some 0 ∧ portUp tSeg 0 = true ∧ 0 ∈ treePorts (myPodZ tSeg) (myRank tSeg) := by
  decide +kernel

/-- A package with rank 1, its ports enabled and a module with two applications in cage 0. -/
def tRank : State :=
  { tSeg with regs := smapSet 0 (0x3008 / 4) 1#32 (smapSet 0 (0x50000 / 4) 0x51#32 State.reset.regs),
              tp := { tSeg.tp with cages := [(0, { present := true, app := true, oui := 3, serial := 4 })] } }
/-- No injection is armed in the states of the tests. -/
theorem test_quiet : Quiet State.reset ∧ Quiet tUp ∧ Quiet tSeg ∧ Quiet tRank ∧ Quiet tMove := by unfold Quiet; decide +kernel
/-- A beacon to follow, and one that is missing. -/
theorem test_beacons :
    portUp tRank 0 = true ∧ myRank tRank ≠ 0 ∧ ({ tRank with cyc := 262144 }).tp.lastBeacon + 262144 ≤ 262144 ∧
    myRank tSeg = 0 ∧ State.reset.cyc % 65536 = 0 := by decide +kernel
/-- Training: no module, no lane, two lanes where four are wanted, all lanes. -/
theorem test_training :
    let s := { tRank with tp := { tRank.tp with ports := [] } }
    portEn s 0 = true ∧ portUp s 0 = false ∧ cageOk s 0 = true ∧ cageOk { s with tp := { s.tp with cages := [] } } 0 = false ∧
    trainWidth s 0 0 = none ∧ trainWidth s 0 3 = some 1 ∧ trainWidth s 0 15 = some 2 := by decide +kernel
/-- A port that is up and enabled; its lane may fail. -/
theorem test_port_up : portEn tRank 0 = true ∧ portUp tRank 0 = true := by decide +kernel
/-- A life record. -/
def tLife : LifeRec :=
  { oui := 3, serial := 4, pn := 0, date := 0, hours := 0, first := 0, last := 0, cage := 0, warn := 0, temp := [], base := [],
    trend := [], tidx := 0, biasSum := [], biasN := 0, means := 0, ver := 1 }
/-- A cage with a module and its life record, and an empty cage. -/
theorem test_modules :
    (cageSt tRank 0).present = true ∧ (cageSt tRank 3).present = false ∧ lifeMatch (cageSt tRank 0) tLife = true ∧
    lifeOf { tRank with tp := { tRank.tp with life := [tLife] } } 0 = some tLife := by decide +kernel

/-- A flit with its CRC. -/
def tGood (f : Flit) : Flit := { f with crc := flitCrc f }
/-- It is taken when none is being dropped, and when it ends the drop. -/
theorem tGood_taken (f : Flit) (y : PortSt) (h : y.dropping = false ∨ (f.seq = y.rxSeq + 1 ∧ (f.vc ≠ 1 ∨ f.ty = 0))) :
    FlitTaken (tGood f) y := by
  refine ⟨?_, h⟩
  show decide (flitCrc f = flitCrc (tGood f)) = true
  exact decide_eq_true (congrArg crc32 rfl)
/-- One with another CRC is not. -/
theorem tBad_not_taken (f : Flit) (y : PortSt) : ¬ FlitTaken { f with crc := flitCrc f + 1 } y := by
  intro h
  have e : flitCrc f + 1 = flitCrc { f with crc := flitCrc f + 1 } := of_decide_eq_true h.1
  have e' : flitCrc { f with crc := flitCrc f + 1 } = flitCrc f := congrArg crc32 rfl
  rw [e'] at e
  bv_omega
/-- Flits that are taken and not taken: a CRC that fails, and one that does not end a drop; and one that does. -/
theorem test_flits_taken :
    FlitTaken (tGood tFlit) (portSt tSeg 0) ∧ ¬ FlitTaken { tFlit with crc := flitCrc tFlit + 1 } (portSt tSeg 0) ∧
    ¬ FlitTaken (tGood { tFlit with seq := 3 }) { dropping := true } ∧ FlitTaken (tGood tFlit) { dropping := true } ∧
    portUp tSeg 0 = true ∧ (tGood tFlit).ty ≠ 0 := by
  refine ⟨tGood_taken _ _ (.inl (by decide +kernel)), tBad_not_taken _ _, fun h => ?_, tGood_taken _ _ (.inr (by decide +kernel)),
    by decide +kernel, by decide +kernel⟩
  exact absurd h.2 (by decide +kernel)
/-- A NAK after which a flit is left to send again. -/
theorem test_nak_taken :
    let f := { tFlit with seq := 5 }
    let s := { tSeg with tp := { tSeg.tp with ports := [(0, { state := 2, replay := [f], sends := [(5, 1)] })] } }
    let x := { tFlit with vc := 0, ty := 0, nak := true }
    portUp s 0 = true ∧ x.nak = true ∧ (ackTo x.ack (afterFlit x (portSt s 0))).replay = [f] := by decide +kernel
/-- A token of the set as a flit, for package 0, for package 1, to be spread and as a copy of the tree; and another message. -/
theorem test_messages :
    let x := fun (d : Nat) => newFlit 0 1 (BitVec.ofNat 32 (0x0104 * 65536 + d))
      (tokenBytes { step := 1, cg := false, phase := 0, code := 0, spod := 0, srank := 1, digest := 5 })
    (∀ d ∈ [0, 256, 0xFFFE, 0xFFFF], (x d).ty ≠ 0 ∧ (x d).vc = 0 ∧ (x d).tag.toNat % 65536 = d ∧ (flitToken (x d)).isSome = true ∧
      toTheSet (msgType (x d)) = true) ∧
    (flitToken { x 0 with tag := 0 }).isSome = false ∧ (∀ p, p ∈ treePorts (myPodZ tSeg) 0 → p = 0 → portTakes tSeg p = true) ∧
    myRank tSeg = 0 ∧ myRank tRank ≠ 0 ∧ routeTo tRank (myPod tRank) 0 = some 1 ∧ portTakes tRank 1 = true := by decide +kernel
/-- A beacon as a flit; an offset of more than 8 cycles. -/
theorem test_beacon_flit :
    beaconOf (beaconFlit { origin := 0, carried := 100, latency := 16, hops := 1 }) =
      some { origin := 0, carried := 100, latency := 16, hops := 1 } ∧
    8 < (beaconOffset 200 100 16).natAbs ∧ tRank.tp.skewLogged = false := by decide +kernel
/-- Measurement flits: at a port that is up, training or disabled, and against an image that asks for another hop. -/
theorem test_hop_measured :
    let e := { tRecv with hop := 7, port := 0 }
    let s := fun (st : BitVec 3) => { tSeg with tp := { tSeg.tp with ports := [(0, { state := st })] },
                                                pl := { tSeg.pl with active := some { tImg with exch := [e] } } }
    (portSt (s 2) 0).state = stUp ∧ (portSt (s 1) 0).state = stTraining ∧ (portSt (s 0) 0).state ≠ stUp ∧
    (portSt (s 0) 0).state ≠ stTraining ∧ (portSt (s 2) 0).dropping = false ∧
    hopWrong (s 2) { tImg with exch := [e] } 0 = true ∧ inBlockReset tRank 4 = false := by decide +kernel
/-- A digest that differs from the active image's, and one that agrees. -/
theorem test_digests :
    tSeg.pl.active = some { tImg with exch := [tSend, tRecv] } ∧ ({ tImg with exch := [tSend, tRecv] } : Image).setDigest = 5 ∧
    (5 : Digest) ≠ 6 ∧ tSeg.pl.imgBlock = false := by decide +kernel
/-- Modules with and without the application of R321, and what a poll reads: symbols of lane 0 corrected above 1 in 10^4 and
below it. -/
theorem test_module_samples :
    let m := fun (a : Bool) => ({ oui := 1, serial := 2, pn := 0, date := 0, app := a, answers := true, flat := false,
                                  hiBias := 0 } : ModuleInfo)
    let x := fun (k : Nat) => ({ answers := true, bias := [], temp := 40, minute := false, fec := [(k, 20000)] } : LaneSample)
    (m true).app = true ∧ (m false).app = false ∧ (m false).flat = false ∧ portOf 0 ∈ portsOf 0 ∧ portOf 2 ∉ portsOf 0 ∧
    (portSt tRank 0).state ≠ 0 ∧ portUp tRank (portOf 0) = true ∧ [x 1][(0 : Cage).val]? = some (x 1) ∧
    (0 < ((x 1).fec.getD 0 (0, 0)).1 ∧ ¬ ((x 1).fec.getD 0 (0, 0)).2 < 10000 * ((x 1).fec.getD 0 (0, 0)).1) ∧
    ((x 3).fec.getD 0 (0, 0)).2 < 10000 * ((x 3).fec.getD 0 (0, 0)).1 ∧ portEn tRank 0 = true ∧
    (portSt { tRank with tp := { tRank.tp with ports := [(0, { state := 3 })] } } 0).state = stDown := by decide +kernel

/-! ## Commit and Milestones -/

/-- A token of rank 1 for a step, in the set or foreign to it. -/
def tTok (step : W64) (digest : Digest) : Token :=
  { step := step, cg := false, phase := 0, code := 0x2101, spod := 0, srank := 1, digest := digest }
/-- A state of the test package with a phase. -/
def tPhase (p : Phase) : State := { tSeg with cm := { Commit.reset with phase := p } }
/-- Tokens that are taken, of another member and of the coordinator's own; one that is foreign. -/
theorem test_taken : Taken (tTok 1 5) tSeg ∧ fromSelf tSeg (tTok 1 5) = false ∧ coordinator tSeg = true ∧
    (tTok 1 5).step.toNat = stepInFlight tSeg ∧ tSeg.cm.phase ≠ .aborted ∧ senderOf tSeg (tTok 1 5) ∉ tSeg.cm.readyFrom ∧
    (∀ im, tSeg.pl.active = some im → (tTok 1 6).digest ≠ im.setDigest) := by
  refine ⟨⟨test_quiet.2.2.1, _, rfl, rfl⟩, by decide +kernel, by decide +kernel, by decide +kernel, by decide +kernel,
    by decide +kernel, ?_⟩
  intro im h; cases h; decide +kernel
/-- The steps that ABORT and COMMIT tell apart: before, in flight, after it. -/
theorem test_token_steps :
    (tTok 0 5).step.toNat ≤ tSeg.cm.step.toNat ∧ (tTok 1 5).step.toNat = stepInFlight tSeg ∧
    stepInFlight tSeg < (tTok 2 5).step.toNat ∧ tSeg.cm.abortCode = 0 ∧ tSeg.hf.parked = false ∧ tSeg.cm.heldAbort = [] ∧
    (tPhase .updatedSent).cm.phase = .updatedSent ∧ (tTok 1 5).step.toNat < 2 ^ 48 - 1 := by decide +kernel
/-- MILESTONE refused and taken: the step in flight is 1, K is 0, and then 1 with no room for a snapshot. -/
theorem test_milestone :
    (tDesc 6 1 1).opc = 6 ∧ (tDesc 6 1 1).a1.toNat = stepInFlight tSeg ∧ (tDesc 6 1 2).a1.toNat ≠ stepInFlight tSeg ∧
    tSeg.pl.fatCode = 0 ∧ tSeg.cm.phase = .idle ∧ snapDue tSeg 1 = false ∧ tSeg.cm.replays < 3 ∧
    (let s := { tSeg with regs := smapSet 0 (0x60004 / 4) 0x10000#32 State.reset.regs };
      snapDue s 1 = true ∧ msListOk s (!s.cm.cg) = false) := by decide +kernel
/-- A MILESTONE that waits: READY, COMMIT, RESOLVE. -/
def tWait (ph : W64) : State :=
  { tSeg with cm := { Commit.reset with phase := .updatedSent, cmd := some (tDesc 6 ph 1), resolving := true } }
/-- Each is the one that its phase finds. -/
theorem test_pending_phase : pendingPhase (tWait 1) 1 = some (tDesc 6 1 1) ∧ pendingPhase (tWait 2) 2 = some (tDesc 6 2 1) ∧
    pendingPhase (tWait 4) 4 = some (tDesc 6 4 1) ∧ (tWait 4).cm.resolving = true ∧ (tDesc 6 4 1).a1.toNat ≤ (tTok 1 5).step.toNat ∧
    (tTok 0 5).step.toNat < (tDesc 6 4 1).a1.toNat := by decide +kernel
/-- A snapshot without items. -/
def tSnap : Snap := { step := 1, mile := 1, cg := false, image := 0, set := 0, items := [] }
/-- Its freeze is over. -/
def tFreeze : State :=
  { tWait 2 with cyc := 5000, sp := [(0, { link := 2, qps := 1 }), (1, { link := 2, qps := 1 })], sec := { Sec.reset with dik := true },
                 cm := { (tWait 2).cm with frozen := true, snap := some tSnap } }
/-- The end of a freeze, with ports that are ready and with ports that are not. -/
theorem test_freeze_closes :
    tFreeze.cm.freezeAt + freezeLen tFreeze.cm.total ≤ tFreeze.cyc ∧ tFreeze.cm.freezeDue = false ∧ tFreeze.cm.frames = 0 ∧
    pendingPhase tFreeze 2 = some (tDesc 6 2 1) ∧ spNotReady tFreeze = none ∧ tFreeze.sec.level ≠ 3 ∧
    spNotReady { tFreeze with sp := [] } = some 0 ∧ tSnap.staged = false ∧ tFreeze.cm.freezeAt + 2048 ≤ tFreeze.cyc := by
  decide +kernel
/-- A stream that has begun, a port that has retries left and one that has none, and throttle frames that end. -/
theorem test_stream :
    let s := { tFreeze with cm := { tFreeze.cm with stream := true, sending := some tSnap, frozen := false, frames := 1 } };
    s.cm.stream = true ∧ s.cm.sending = some tSnap ∧ s.cm.freezeDue = false ∧ (spSt s 0).tries < spRetry s 0 ∧
    spRetry s 0 ≤ (spSt { s with sp := [(0, { tries := 7 })] } 0).tries ∧ s.cm.framesEnd ≤ s.cyc ∧ s.cm.frames ≠ 0 := by
  decide +kernel
/-- SNAP_DONE of the last member, and of one before. -/
theorem test_snap_done :
    let s := { tSeg with cm := { Commit.reset with snapFrom := ((List.range 16).filter (· ≠ 1)).map fun (m : Nat) => (1, m) } };
    (1, senderOf s (tTok 1 5)) ∉ s.cm.snapFrom ∧
    allMembers s (((s.cm.snapFrom ++ [(1, senderOf s (tTok 1 5))]).filter fun (x : Nat × Nat) => x.1 = 1).map fun (x : Nat × Nat) => x.2) = true ∧
    allMembers tSeg [senderOf tSeg (tTok 1 5)] = false := by decide +kernel
/-- No cache holds a line of a range that a snapshot copies. -/
theorem test_copy_range : Memory.wf State.reset.mem = true ∧ cachedLines State.reset lpBase 64 = [] := by decide +kernel
/-- Host memory with the head of a manifest, in a region that DMA may access. -/
def tMan : State :=
  { tUp with mem := [(hostBase, 0x54), (hostBase + 1, 0x58), (hostBase + 2, 0x4D), (hostBase + 3, 0x53), (hostBase + 4, 1),
                     (hostBase + 7, 1)],
             regs := smapSet 0 (0x20000 / 4) 1#32 (smapSet 0 (0x20004 / 4) 0xE4000000#32 State.reset.regs) }
/-- RESTORE BEGIN: an address that is refused, a manifest without its magic, and one whose signature does not verify. -/
theorem test_restore_begin :
    dmaMay tUp hostBase 256 = false ∧ dmaMay tMan hostBase 256 = true ∧ manFormatOk (readBytes tMan hostBase 256) = true ∧
    caVerifies tMan [] [] = false ∧ manFormatOk [] = false ∧ (tDesc 7 0 0).opc = 7 ∧ tMan.hf.linkUp = true := by decide +kernel
/-- A restore whose entries are loaded. -/
def tRestored : RestoreSt := { entries := [], cg := false, step := 1, record := [0], scales := [] }
/-- RESTORE SEGMENTS and FINISH: nothing begun, no entry left, every entry loaded. -/
theorem test_restore_finish :
    State.reset.cm.restore = none ∧ (tDesc 7 1 0).a2.toNat + (tDesc 7 1 0).a3.toNat ≤ tRestored.entries.length ∧
    tRestored.record ≠ [] ∧ (∀ e ∈ tRestored.entries, e.loaded = true) ∧ savedCountsOk tUp tRestored = true ∧
    savedRegionsOk tUp tRestored = true := by decide +kernel

/-- Tokens received again: READY, UPDATED, HOST_LOST, SNAP_DONE of a member and of a step whose set is complete. -/
theorem test_tokens_again :
    let k := tTok 1 5
    let m := senderOf tSeg k
    let s := { tPhase .readySent with cm := { (tPhase .readySent).cm with
      readyFrom := [m], updatedFrom := [m], hostLost := [(m, 1)], snapFrom := [(1, m)], barrier := some 3, setDone := some 7 } }
    m ∈ s.cm.readyFrom ∧ m ∈ s.cm.updatedFrom ∧ (senderOf s k, k.step) ∈ s.cm.hostLost ∧
    (senderOf tSeg k, k.step) ∉ tSeg.cm.hostLost ∧ (k.step.toNat, senderOf s k) ∈ s.cm.snapFrom ∧ s.cm.setDone = some 7 ∧
    k.step.toNat ≤ 7 ∧ tSeg.cm.setDone = none ∧ s.cm.phase = .readySent ∧ s.cm.barrier = some 3 ∧
    k.step.toNat = stepInFlight s ∧ (k.step, k.code) ∉ s.cm.heldAbort := by decide +kernel
/-- MILESTONE in the phases that refuse READY, and with a FAT error in force. -/
theorem test_milestone_phases :
    (∀ p ∈ [Phase.proceeding, .updatedSent, .restoring, .aborted, .readySent], (tPhase p).cm.phase = p) ∧
    { tSeg with pl := { tSeg.pl with fatCode := 9 } }.pl.fatCode ≠ 0 ∧ (3 ≤ ({ Commit.reset with replays := 3 } : Commit).replays) := by
  decide +kernel

/-! ## Host commands and rings -/

/-- A command without the link, while the hold timer runs and after it. -/
theorem test_without_link :
    (tDesc 2 0 0).opc ≠ 0 ∧ rowOf (tDesc 2 0 0) = .loadImage (tDesc 2 0 0) ∧ State.reset.hf.linkUp = false ∧
    State.reset.hf.hold = false ∧ ({ HostFe.reset with hold := true }).hold = true := by decide +kernel
/-- Copies are not held, an inline write is allowed to host memory that is granted and refused elsewhere. -/
theorem test_host_moves :
    (heldSpace lpBase && running tUp && !issueStopped tUp) = false ∧ tUp.hf.linkUp = true ∧ dmaMay tMan hostBase 64 = true ∧
    dmaMay tUp lpBase 64 = false := by decide +kernel
/-- LPDDR5X lines that their homes do not hold. -/
theorem test_system_writes :
    lpBase + ([1] : List Byte).length ≤ lpEnd ∧ (∀ l ∈ linesOf lpBase 1, lineBusy State.reset (BitVec.ofNat 46 l) = false) ∧
    State.reset.pl.pw = [] := by decide +kernel
/-- QUERY with a buffer of 24 bytes that may be written, and one that may not. -/
theorem test_queries :
    (withLength (idBytes tMan)).take 24 ≠ [] ∧ dmaMay tMan (hostAddr 0) 24 = true ∧ dmaMay tUp (hostAddr 0) 24 = false := by
  decide +kernel
/-- LOAD_IMAGE of no byte: it fits whatever the share, its address is granted, and step 1 refuses it. -/
theorem test_load_image :
    0 ≤ Config.imageShare ∧ hostOk tUp 0 0 = true ∧ imgRefusal tUp 0 [] = some rImageMalformed := by
  refine ⟨Nat.zero_le _, by decide +kernel, by decide +kernel⟩
/-- SET_SCALES: no table, a count that differs, an address that is refused, a table that is empty. -/
theorem test_set_scales :
    let s := { tSeg with pl := { tSeg.pl with active := some { tImg with scales := [⟨0, 0, 4, 0⟩, ⟨1, 0, 0, 0⟩] } } };
    scaleEntry tUp 0 = none ∧ (scaleEntry s 0).map (·.2) = some ⟨0, 0, 4, 0⟩ ∧ (tDesc 8 0 0).a2.toNat ≠ 4 ∧
    hostOk s 0 4 = false ∧ (scaleEntry s 1).map (·.2) = some ⟨1, 0, 0, 0⟩ := by decide +kernel
/-- A ring of 64 slots that runs, with one slot to fetch. -/
def tRing (c a : W32) : State :=
  { tUp with hf := { tUp.hf with rings := [(0, { en := true, c := c, a := a })] },
             regs := smapSet 0 (0x10018 / 4) 0x600#32 State.reset.regs }
/-- Doorbells: an older value, one beyond the freed slots, and one that is taken. -/
theorem test_doorbells :
    let x := ring (tRing 64 64) 0;
    x.en = true ∧ x.halted = false ∧ (1 ≤ (x.a - 63).toNat ∧ (x.a - 63).toNat ≤ 0x80000000) ∧
    ¬ (1 ≤ (x.a - 129).toNat ∧ (x.a - 129).toNat ≤ 0x80000000) ∧ 2 ^ ringSize (tRing 64 64) 0 < ((129 : W32) - x.c).toNat ∧
    ((128 : W32) - x.c).toNat ≤ 2 ^ ringSize (tRing 64 64) 0 ∧ writesOpen false tUp = true := by decide +kernel
/-- The same ring with a NOP in its slot 0. -/
def tNop : State :=
  { tRing 0 1 with mem := [(hostBase + 12, 0x67), (hostBase + 13, 0xEB), (hostBase + 14, 0xC8), (hostBase + 15, 0x03)] }
/-- A slot that may be fetched and is stale, a ring that has nothing to fetch, and a NOP that is taken. -/
theorem test_fetches :
    mayFetch (tRing 64 65) 0 = true ∧ lookSlot 0 8 (tRing 64 65) = .stale ∧ mayFetch (tRing 64 64) 0 = false ∧
    (ring (tRing 64 65) 0).refetch = 0 ∧ mayFetch tNop 0 = true ∧
    (match lookSlot 0 8 tNop with | .take d n => d.opc == 0 && n == 1 | _ => false) = true := by decide +kernel
/-- Waymarks: the link up, the hold timer running, and neither. -/
theorem test_waymarks :
    (ring tUp 0).torn = false ∧ tUp.hf.linkUp = true ∧ State.reset.hf.linkUp = false ∧ State.reset.hf.hold = false ∧
    ({ HostFe.reset with hold := true } : HostFe).linkUp = false := by decide +kernel
/-- A ring that is refused and one that is accepted. -/
theorem test_ring_enable :
    (ring tUp 0).en = false ∧ tUp.ck.ready = true ∧ ringAllowed tUp 0 = false ∧
    ringAllowed { tMan with regs := smapSet 0 (0x10018 / 4) 0x600#32 tMan.regs } 0 = true ∧ (ring (tRing 64 64) 0).en = true := by
  decide +kernel
/-- The host is lost: down with the timer running, in reset and not; a park that waits and one that does not. -/
theorem test_host_loss :
    State.reset.ck.inReset = true ∧ tUp.ck.inReset = false ∧ 6 ≤ tUp.ck.bring ∧ State.reset.ck.bring < 6 ∧
    schedClass (tDesc 1 0 0).opc = true ∧ tUp.hf.cmds = [] ∧ tUp.hf.heldMarks = [] := by
  decide +kernel

/-- Every command of the host link, with its row. -/
theorem test_link_rows : ∀ x ∈ ([(2, 0, .loadImage), (3, 0, .copyIn), (4, 0, .copyOut), (8, 0, .setScales), (10, 0, .queryIdentification),
      (10, 1, .queryOrphanLog), (10, 2, .queryRingStatus), (10, 3, .queryErrorRecords), (10, 4, .queryTelemetry),
      (7, 1, .restoreBegin), (7, 2, .restoreSegments)] : List (Nat × Nat × (Desc → Instr))),
    let d := tDesc (BitVec.ofNat 8 x.1) (BitVec.ofNat 64 x.2.1) 0
    d.opc ≠ 0 ∧ rowOf d = x.2.2 d ∧ jobOf State.reset d = none ∧ jobOf tMan d = none := by
  intro x h
  simp only [List.mem_cons, List.not_mem_nil, or_false] at h
  obtain rfl | rfl | rfl | rfl | rfl | rfl | rfl | rfl | rfl | rfl | rfl := h <;> decide +kernel
/-- A command whose data has moved, with a write that is not complete. -/
theorem test_jobs :
    let d := tDesc 3 0 0
    let j : DmaJob := { desc := d, n := 64, err := 0, vt := 64, writes := [(4, 0)] }
    let s := fun (o : List PortUsed) => { tMan with hf := { tMan.hf with jobs := [j] }, coh := { tMan.coh with outst := o } }
    jobOf (s []) d = some j ∧ running (s []) = false ∧ jobOpen (s []) j = [] ∧
    jobOpen (s [⟨dmaPort, 0, 4, true⟩]) j = [(4, 0)] := by decide +kernel
/-- Ranges that are free, and a line whose home is busy; HBM outside and inside a system window; an access held back. -/
theorem test_ranges :
    let s := { tMan with coh := { tMan.coh with busy := [(hostBase / 64, { cur := some (.peek dmaPort) })] } }
    rangesFree tMan [(hostBase, 64)] = true ∧ rangesFree s [(hostBase, 64)] = false ∧ rangeBusy tMan hostBase 64 = false ∧
    (heldSpace (lsBase 0) && running tLate && !issueStopped tLate) = true ∧ rangesFree tMan [] = true := by decide +kernel
/-- Entry 0 gives the first 2 MiB of LPDDR5X to the system plane. -/
def tLp : State :=
  { State.reset with regs := smapSet 0 (0x20000 / 4) 1#32 (smapSet 0 (0x20004 / 4) 0xC0004000#32 State.reset.regs) }
/-- LPDDR5X lines that an agent may write at once. -/
theorem test_agent_writes :
    let l := BitVec.ofNat 46 (lpBase / 64)
    portFull tLp dmaPort l = false ∧ portMay tLp dmaPort true lpBase = true ∧ tensorOwned tLp lpBase = false ∧
    lineBusy tLp l = false ∧ (dirGet tLp l).st = .np ∧ Quiet tLp := by
  refine ⟨by decide +kernel, by decide +kernel, by decide +kernel, by decide +kernel, by decide +kernel, (by unfold Quiet; decide +kernel)⟩
/-- Ranges that no valid entry holds, and one that an entry holds. -/
theorem test_snapshot_ranges :
    (rgnGap tUp 65 lpBase 64).isSome = true ∧ rgnGap tLp 65 lpBase 64 = none ∧ rgnGap tLp 65 (lpBase + 128) 64 = none ∧
    cachedLines tLp lpBase 64 = [] ∧ cachedLines tLp (lpBase + 128) 64 = [] ∧ (rgnGap tLp 65 0 64).isSome = true ∧
    Memory.wf tLp.mem = true := by decide +kernel
/-- A ring that waits for a busy line and one whose turn has come; the schedule ring and others that ask. -/
theorem test_turns :
    let x : RingSt := { en := true, c := 64, a := 65 }
    let s := { tRing 64 65 with hf := { (tRing 64 65).hf with rings := [(0, x), (3, x)] },
                                regs := smapSet 0 (ringReg 3 / 4 + 6) 0x600#32 (tRing 64 65).regs }
    mayFetch s 3 = true ∧ mayFetch s 0 = true ∧ (ring s 3).refetch = 0 ∧ (ring s 0).refetch = 0 ∧
    (∀ q, q ≠ 0 → mayFetch (tRing 64 65) q = false ∨ (ring (tRing 64 65) q).refetch ≠ 0) ∧
    rangesFree (tRing 64 65) [(slotAddr (tRing 64 65) 0, 64 * fetchSpan (tRing 64 65) 0)] = true := by decide +kernel
/-- A slot that goes stale for the last time, a refetch, and a torn-down ring whose last command ends. -/
theorem test_refetches :
    let s := { tRing 64 65 with hf := { (tRing 64 65).hf with rings := [(0, { en := true, c := 64, a := 65, refetch := 32 })] } }
    mayFetch s 0 = true ∧ (ring s 0).refetch ≠ 0 ∧ 32 ≤ (ring s 0).refetch ∧
    (let t := { tUp with hf := { tUp.hf with rings := [(0, { torn := true })] } };
      (ring t 0).torn = true ∧ inflight t 0 = 0 ∧ t.hf.hold = false ∧
      markFinal (finalMark (tDesc 9 0 0) 1 0 0 0 0 0 0) = true) := by decide +kernel

/-! ## Errors -/

/-- A corrected error of the HBM at address 0. -/
def tDet (code : BitVec 16) : Detect :=
  { code := code, src := 0x2000, tcyc := 0, addr := 0, info0 := 0, info1 := 0, step := 0, inj := false, pod := false }
/-- Its record. -/
def tRec (code : BitVec 16) : Rec := { recOf State.reset (tDet code) false with seq := 1 }
/-- The log writer: a detection that merges, one that does not, and a class that a corrected one gives way to. -/
theorem test_log_writer :
    let s := { State.reset with log := { ErrLog.reset with recs := [tRec 0x1001], seq := 1 } };
    codeClass 0x1001 = 1 ∧ mergesWith s (tDet 0x1001) (tRec 0x1001) = true ∧ s.log.recs = [tRec 0x1001] ∧
    codeClass 0x4001 ≠ 1 ∧ s.log.recs.length < 4096 ∧ classRank 0x1001 < classRank 0x4001 ∧
    retires { s with log := { s.log with seq := 2 } } (tDet 0x4001) = false := by decide +kernel
/-- A check that fails on its cycle during a RUN: the record goes on with POD, and the step aborts. -/
theorem test_late_record :
    let s := { tSeg with cyc := 80000, pl := { tSeg.pl with cur := some tRun } }
    let d := { tDet 0x2001 with late := true }
    d.late = true ∧ d.code ≠ 0 ∧ running s = true ∧ announces s = true ∧ (abortOn d s).cm.abortCode = 0x2001 := by
  decide +kernel
/-- A full log whose records outrank a new one. -/
theorem test_log_full : ∃ l : List Rec, l.length = 4096 ∧ ∀ y ∈ l, classRank 0x1001 < classRank y.code.toNat :=
  ⟨List.replicate 4096 (tRec 0x4001), List.length_replicate, fun y h => by rw [List.eq_of_mem_replicate h]; decide +kernel⟩
/-- Injection slots: a code that is known, from a source that it takes, and three values without a MODE. -/
theorem test_injection :
    codeKnown 0x1001 = true ∧ (srcKinds 0x1001).contains 1 = true ∧ injGuarded 0x1001 = false ∧ codeKnown 0 = false ∧
    (srcKinds 0x1001).contains 15 = false ∧ injGuarded 0x4001 = true ∧ State.reset.sec.level.toNat < 2 := by decide +kernel

/-! ## The memory system -/

/-- Entry 0 of the region table gives the first 2 MiB of HBM to an owner. -/
def tOwn (own : Nat) (off : Nat) : State :=
  { State.reset with
    regs := smapSet 0 (off / 4) 1#32 (smapSet 0 ((off + 4) / 4) (BitVec.ofNat 32 (2 ^ 31 + own * 2 ^ 29)) State.reset.regs) }
/-- A directory that has core 3 as owner or sharer of line 0, which the system plane owns. -/
def tDir (st : DirSt) : State :=
  { tOwn 2 0x20000 with coh := { Coh.reset with
    dir := [(0, { st := st, owner := 3, sharers := if st = .sh then 8 else if st = .os then 0x10 else 0 })] } }
/-- Arming: an image active and none; a table that keeps the rule, one that breaks it, and one that takes a line held. -/
theorem test_arming :
    tSeg.pl.active ≠ none ∧ State.reset.pl.active = none ∧ rgnTableOk (rgnStaged (tOwn 2 0x20200)) = true ∧
    rgnDirty (tOwn 2 0x20200) (rgnStaged (tOwn 2 0x20200)) = none ∧
    rgnTableOk (rgnStaged { tOwn 2 0x20200 with regs := smapSet 0 (0x20200 / 4) 0#32 (tOwn 2 0x20200).regs }) = false ∧
    rgnTableOk (rgnStaged (tDir .ex)) = true ∧ (rgnDirty (tDir .ex) (rgnStaged (tDir .ex))).isSome = true := by decide +kernel
/-- System windows with a request and without one, and scrubs within their range, with an error in their way. -/
theorem test_memory_controllers :
    let r : HbmReq := ⟨⟨128, 64, none⟩, .home, 3⟩
    let s := { State.reset with cyc := 6, coh := { Coh.reset with hbmq := [(0, { q := [r, { r with land := 4 }] })],
                                                                  flips := [⟨0, 0x2002, 0, 0⟩] } }
    hbmChanAt s 0 = { q := [r, { r with land := 4 }] } ∧ 2 * r.land ≤ s.cyc ∧ s.cyc < 2 * 4 ∧ hbmChanAt s 1 = {} ∧
    State.reset.coh.flips = [] ∧
    s.coh.scrub < hbmChanLines ∧ 4 * s.coh.lpScrub + 3 < lpStackLines ∧ hbmChanLine 0 s.coh.scrub = 0 ∧
    lpStackLine 11 (lpStackLines - 1) < 2 ^ 46 ∧ hbmChanLine 191 (hbmChanLines - 1) < 2 ^ 46 := by decide +kernel

/-- Hardware sets a bit on the edge on which software would clear it, and does not. -/
theorem test_edges :
    let s := fun (o : Nat) => { tUp with ck := { tUp.ck with edges := [⟨sclkEdge tUp, o, 0x20000000, false⟩] } }
    (edgeBits (s (injCtl 0 + 4)) false (injCtl 0 + 4)).getLsbD 29 = true ∧ (edgeBits tUp false (injCtl 0 + 4)).getLsbD 29 = false := by
  decide +kernel
/-- ARM set without an image: the edge that applies the table, and a cycle that is none. -/
theorem test_arm_edge :
    let s := { tOwn 2 0x20200 with regs := smapSet 0 (0x20400 / 4) 1#32 (tOwn 2 0x20200).regs }
    (s.cyc % 4 = 0 ∧ s.pl.active = none ∧ bitOf (reg32 s 0x20400).toNat 0 = true ∧ edgeBits s true 0x20400 &&& 1#32 = 0) ∧
    ¬ (({ s with cyc := 1 } : State).cyc % 4 = 0) := by decide +kernel

/-! ## Coherence -/

/-- A cached line of core 3 in a state. -/
def tL2 (st : L2St) : State :=
  { tDir .ex with coh := { (tDir .ex).coh with
    l2 := [(l2Key 3 0, { st := st, wait := if st = .imAd then some (1, 5) else none })] } }
/-- Cores that run, and lines in every kind of state. -/
theorem test_core_lines :
    coreIdle State.reset 3 = false ∧ (l2Get State.reset 3 0).st = .i ∧
    (∀ st ∈ [L2St.m, .o, .e, .s, .isD, .imAd, .smA, .omA, .miA, .oiA, .eiA, .siA, .iiA], (l2Get (tL2 st) 3 0).st = st) ∧
    (l2Get (tL2 .imAd) 3 0).wait = some (1, 5) ∧ (l2Get (tL2 .imAd) 3 0).got = 0 ∧ (l2Get (tL2 .imAd) 3 0).dbit = false ∧
    (l2Get (tL2 .isD) 3 0).wait = none := by decide +kernel
/-- Requests at the home: refused, allowed with the line idle in every directory state, and a line that is busy. -/
theorem test_home_requests :
    cachedMay State.reset 0 = false ∧ cachedMay (tDir .ex) 0 = true ∧ IdleLine 0 (tDir .ex) ∧ wayVictim (tDir .ex) 0 = none ∧
    wayVictim (tOwn 2 0x20000) 0 = none ∧ (dirGet (tOwn 2 0x20000) 0).st = .np ∧
    (∀ st ∈ [DirSt.sh, .ex, .os], (dirGet (tDir st) 0).st = st) ∧ ownerOf (dirGet (tDir .ex) 0) = 3 ∧
    holder (dirGet (tDir .sh) 0) 3 = true ∧ holder (dirGet (tDir .ex) 0) 4 = false ∧
    (dirGet (tDir .os) 0).sharers.getLsbD 4 = true ∧ ownerOf (dirGet (tDir .os) 0) ≠ 4 ∧ hostLine 0 = false ∧
    mayGrantE (tDir .ex) 0 = true ∧ sharersOf (dirGet (tDir .sh) 0) ≠ [] ∧
    lineBusy { tDir .ex with coh := { (tDir .ex).coh with busy := [(0, { cur := some (.gets 3) })] } } 0 = true := by
  unfold IdleLine; decide +kernel
/-- No injection is armed there. -/
theorem test_home_quiet : Quiet (tDir .ex) ∧ Quiet tMan := by unfold Quiet; decide +kernel
/-- A line of host memory, with the HMC in each state. -/
def tHmc (st : Mesi) : State := { tMan with coh := { Coh.reset with hmc := [(hostBase / 64, { st := st })] } }
/-- The HMC's states at a line of the host that no core owns. -/
theorem test_host_lines :
    let l : Line := BitVec.ofNat 46 (hostBase / 64);
    hostLine l = true ∧ cachedMay tMan (lineAddr l) = true ∧ IdleLine l tMan ∧ (dirGet tMan l).st = .np ∧
    (hmcGet tMan l).st = .i ∧ (∀ st ∈ [Mesi.s, .e, .m], (hmcGet (tHmc st) l).st = st) ∧ hmcEvictee tMan l = none ∧
    (l3Get tMan l).valid = false ∧
    txnGet { tMan with coh := { Coh.reset with busy := [(l.toNat, { cur := some (.gets 3), grant := true })] } } l =
      { cur := some (.gets 3), grant := true } := by unfold IdleLine; decide +kernel
/-- Requests of agents: refused, a local store while a segment runs and while none does, tensor-owned memory, registers,
and memory of the coherent domain. -/
theorem test_agents :
    portMay State.reset 128 true 0 = false ∧ portMay (tOwn 2 0x20000) dmaPort true 0 = true ∧
    portMay (tOwn 1 0x20000) dmaPort false 0 = true ∧
    tensorOwned (tOwn 1 0x20000) 0 = true ∧ tensorOwned (tOwn 2 0x20000) 0 = false ∧ spaceOf 0 = .hbm ∧
    (∃ a, spaceOf a = .ls ∧ portMay State.reset dmaPort true a = true) ∧
    (∃ a, spaceOf a = .regs ∧ portMay State.reset mdPort true a = true) ∧
    running tUp = false ∧ issueStopped tSeg = false := by
  refine ⟨by decide +kernel, by decide +kernel, by decide +kernel, by decide +kernel, by decide +kernel, by decide +kernel,
    ⟨lsBase 0, by decide +kernel⟩, ⟨regBase, by decide +kernel⟩, by decide +kernel, by decide +kernel⟩
/-- Transactions that wait: for a Peek, for acknowledgments, for a completion. -/
theorem test_transactions :
    let t := fun (x : Txn) => { tDir .ex with coh := { (tDir .ex).coh with busy := [(0, x)] } };
    (txnGet (t { cur := some (.peek 128) }) 0).cur = some (.peek 128) ∧ (txnGet (t { cur := some (.gets 3) }) 0).queue = [] ∧
    2 ≤ (txnGet (t { cur := some (.place 128 0 false), acks := 2 }) 0).acks ∧ (txnGet State.reset 0).acks = 0 ∧
    l2Holds .m = true ∧ l2Holds .i = false := by decide +kernel

/-- A home's full set of the snoop filter, as its 24 ways hold it. -/
def tFull : State :=
  { tOwn 2 0x20000 with coh := { Coh.reset with
    dir := (0, {}) :: List.replicate 24 (0, { st := .sh, sharers := 8, alloc := true }) } }
/-- A request of line 0 must free a way there first. -/
theorem test_way : IdleLine 0 tFull ∧ cachedMay tFull (lineAddr 0) = true ∧ wayVictim tFull 0 = some 0 := by
  refine ⟨by unfold IdleLine; decide +kernel, by decide +kernel, ?_⟩
  have m : (tFull.coh.dir.filter fun p => p.2.alloc && sliceOf (BitVec.ofNat 46 p.1) = sliceOf (0 : Line)) =
      List.replicate 24 (0, { st := .sh, sharers := 8, alloc := true }) := by decide +kernel
  have f : ((List.replicate 24 ((0, { st := .sh, sharers := 8, alloc := true }) : Nat × DirEnt)).filter fun p =>
      decide (Config.sfSet p.1 % 4096 = Config.sfSet (0 : Line).toNat % 4096)) =
        List.replicate 24 (0, { st := .sh, sharers := 8, alloc := true }) := by
    rw [List.filter_eq_self]
    intro p h
    rw [List.eq_of_mem_replicate h]
    exact decide_eq_true rfl
  unfold wayVictim
  simp only [m, f]
  decide +kernel
/-- Data at hand and data that HBM brings, room in the L3, and a line whose data is awaited. -/
theorem test_home_data :
    let t := fun (l3 : L3Line) => { tDir .np with coh := { (tDir .np).coh with l3 := [(0, l3)] } }
    AtHand (t { valid := true }) 0 ∧ ¬ AtHand (tDir .np) 0 ∧ AtHand tMan (BitVec.ofNat 46 (hostBase / 64)) ∧
    L3Free (tDir .ex) 0 ∧ L3Free (t { valid := true }) 0 ∧ (hmcGet (tDir .np) 0).st = .i := by
  unfold AtHand L3Free; decide +kernel
/-- Requests of agents at the home of a line that no core holds, that cores share, and that a core owns. -/
theorem test_agent_requests :
    (∀ st ∈ [DirSt.np, .sh, .ex, .os], IdleLine 0 (tDir st) ∧ portFull (tDir st) dmaPort 0 = false ∧
      tensorOwned (tDir st) (lineAddr 0) = false ∧ portMay (tDir st) dmaPort true (lineAddr 0) = true ∧
      portMay (tDir st) dmaPort false (lineAddr 0) = true) ∧ spaceOf (lineAddr 0) = .hbm ∧ sharersOf (dirGet (tDir .sh) 0) ≠ [] ∧
    (let s := { tLp with coh := { Coh.reset with busy := [(lpBase / 64, { cur := some (.peek dmaPort), no := 3, mem := true })] } }
      let l := BitVec.ofNat 46 (lpBase / 64)
      txnGet s l = { cur := some (.peek dmaPort), no := 3, mem := true } ∧ tensorOwned s (lineAddr l) = false ∧
      hostLine l = false ∧ (dirGet s l).st = .np ∧ spaceOf (lineAddr l) = .lp) := by unfold IdleLine; decide +kernel
/-- A port with a request outstanding, one that waits behind it, and a line that is busy. -/
theorem test_ports :
    let s := { tDir .np with coh := { (tDir .np).coh with outst := [⟨dmaPort, 0, 3, true⟩],
                                                          portq := [⟨dmaPort, 0, .peek dmaPort, 4⟩] } }
    portFull s dmaPort 0 = true ∧ portWrites s dmaPort 0 = true ∧ s.coh.portq = [⟨dmaPort, 0, .peek dmaPort, 4⟩] ∧
    isTileModule dmaPort = false ∧ running tLate = true ∧ issueStopped tLate = false ∧
    lineBusy { tDir .np with coh := { Coh.reset with busy := [(0, { cur := some (.gets 3) })] } } 0 = true := by decide +kernel
/-- Transactions that end with one message more: a Peek of an agent and of the host, and a Place with one Ack to come. -/
theorem test_last_messages :
    let t := fun (x : Txn) => { tDir .ex with coh := { (tDir .ex).coh with busy := [(0, x)] } }
    (∀ r ∈ [HomeReq.peek 128, .recall .snpCur], (txnGet (t { cur := some r }) 0).cur = some r ∧
      (txnGet (t { cur := some r }) 0).queue = [] ∧ (txnGet (t { cur := some r }) 0).under = none ∧
      (txnGet (t { cur := some r }) 0).way = none) ∧
    txnGet (t { cur := some (.place 128 0 false), no := 3, acks := 1 }) 0 = { cur := some (.place 128 0 false), no := 3, acks := 1 } ∧
    (∀ r ∈ [HomeReq.gets 3, .getm 3, .upg 3], (txnGet (t { cur := some r }) 0).cur = some r) := by decide +kernel
/-- A host line whose request waits for the host: of a core, of an agent, a write, and one that a recall has preempted. -/
theorem test_host_waits :
    let l : Line := BitVec.ofNat 46 (hostBase / 64)
    let t := fun (x : Txn) => { tMan with coh := { Coh.reset with busy := [(l.toNat, x)] } }
    (∀ x ∈ ([{ cur := some (.gets 3), grant := true }, { cur := some (.peek dmaPort), no := 3, grant := true },
        { cur := some (.place dmaPort 0 false), no := 3, grant := true, line := some ⟨7, false, BitVec.allOnes 64⟩ },
        { cur := some (.recall .snpInv), under := some ⟨.gets 3, 4⟩, grant := true },
        { cur := some (.gets 3) }] : List Txn), txnGet (t x) l = x ∧ lineBusy (t x) l = true) ∧
    (BitVec.allOnes 64 : BitVec 64) ≠ 0 ∧ portFull tMan dmaPort l = false ∧ portMay tMan dmaPort true (lineAddr l) = true ∧
    tensorOwned tMan (lineAddr l) = false ∧ (l3Get tMan l).dirty = false ∧ (0xFF : BitVec 64) ≠ BitVec.allOnes 64 ∧
    (hmcGet (tHmc .m) l).st = .m ∧
    (∀ st ∈ [DirSt.sh, .ex], (dirGet { tMan with coh := { Coh.reset with
      dir := [(l.toNat, { st := st, owner := 3, sharers := 8 })] } } l).st = st) := by decide +kernel

/-! ## Resets -/

/-- Causes of resets: the key and another value, a reference that stays, fails and is lost, a watchdog that runs. -/
theorem test_resets :
    State.reset.ck.lock = false ∧ tUp.ck.lock = true ∧ tUp.pwr.off = false ∧ bitOf (reg32 tUp 0x2008).toNat 31 = true ∧
    bitOf (reg32 tUp 0x2008).toNat 30 = false ∧ tUp.ck.pinHeld = false ∧
    bitOf (reg32 { tUp with regs := [] } 0x2008).toNat 31 = false ∧
    bitOf (reg32 { tUp with regs := [(0x2008 / 4, 0x40000000)] } 0x2008).toNat 30 = true := by decide +kernel
/-- The reference: the edge counts that are good at their bounds, and the ones beyond. -/
theorem test_reference :
    (∀ n ∈ [900, 1100], (decide (n < 900) || decide (1100 < n)) = false) ∧
    (∀ n ∈ [899, 1101], (decide (n < 900) || decide (1100 < n)) = true) ∧ State.reset.ck.badWins + 1 < 2 := by decide +kernel
/-- Blocks: in reset, running, idle; bits of dies, NRUs and ports. -/
theorem test_block_resets :
    State.reset.ck.inReset = true ∧ tUp.ck.inReset = false ∧ tUp.ck.blockPend = 0 ∧ running tLate = true ∧
    (0xFF000000#32 ||| 0x00FFF000#32) &&& 0xFFF#32 = 0 ∧ (0x01001000#32).getLsbD 24 = true ∧ (0x01001000#32).getLsbD 12 = true ∧
    (0x01001000#32).getLsbD 25 = false ∧ spEn tUp 0 = false ∧ tUp.cm.stream = false ∧
    spEn { tUp with regs := [(0x60100 / 4, 0x80000000)] } 0 = true := by decide +kernel
/-- Cores: caches that hold nothing, and one that holds a line modified or shared. -/
theorem test_core_resets :
    coreLines tUp 3 = [] ∧ coreLines (tL2 .m) 3 = [0] ∧ (l2Get (tL2 .s) 3 0).st = .s ∧
    ((8#64).setWidth 128 <<< 0).getLsbD 3 = true ∧ ((8#64).setWidth 128 <<< 64).getLsbD 67 = true := by decide +kernel

/-- Blocks held in reset: a port, a snapshot port and a core, before the end of their 64 cycles and at it. -/
theorem test_block_ends :
    let s := fun (b c : Nat) => { tRank with cyc := c, ck := { tRank.ck with blockEnd := [(b, 260)] } }
    (∀ b ∈ [0, 2, 4, 11, 12, 31, 32, 159], ∀ c, (s b c).ck.blockEnd = [(b, 260)] ∧ (s b c).cyc = c) ∧
    portEn tRank 0 = true ∧ portEn tUp 0 = false ∧ spEn tUp 0 = false ∧ inBlockReset tRank 0 = false ∧
    isoReg (s 4 0) 0x50008 = true ∧ isoReg (s 0 0) 0x10000 = true ∧ isoReg (s 2 0) 0x60100 = true ∧
    isoReg tUp 0x50008 = false := by
  refine ⟨fun b _ c => ⟨rfl, rfl⟩, ?_⟩; decide +kernel
/-- The last tick of bring-up, the load of the configuration, and the root-PLL step. -/
theorem test_bring_up :
    let s := fun (n : Nat) (l : Option LoadSt) => { State.reset with ck := { State.reset.ck with bring := n, load := l } }
    (s 9 none).ck.bring = 9 ∧ (s 4 (some ⟨none, 0, 0, []⟩)).ck.load = some ⟨none, 0, 0, []⟩ ∧ (s 3 none).ck.refHold = false ∧
    State.reset.pwr.off = false ∧ State.reset.pending = [] ∧ (∀ x ∈ State.reset.agenda, State.reset.cyc < x.1) := by
  decide +kernel

/-! ## Power, temperatures, the management port and security -/

/-- Rails up and down, the shutdowns' filters, and a sensor reading of 40 values at each threshold. -/
theorem test_power :
    State.reset.pwr.off = false ∧ State.reset.pwr.level = 0 ∧ (reg32 State.reset 0x7000C).toNat % 1024 = 100 ∧
    (List.replicate 40 (1520 : Int)).length = 40 ∧ (∀ t ∈ (List.replicate 40 (1840 : Int)).take 16, t ≤ 1840) ∧
    ({ Power.reset with off := true, vin := 47499 } : Power).vin < 47500 ∧ Power.reset.ttrip = false ∧
    State.reset.tel.opened + State.reset.tel.len = 225000000 ∧
    ({ tUp with cyc := 225000000 } : State).ck.lock = true := by decide +kernel
/-- MD serves on a package that runs, and not before step 5 or in the boot ROM. -/
theorem test_md_serves :
    mdServes tUp = true ∧ mdServes State.reset = false ∧
    mdServes { tUp with ck := { tUp.ck with rom := true } } = false ∧ tUp.sec.owner = none ∧ tUp.sec.chal = none := by
  decide +kernel
/-- A challenge of level 3 in force, and a token for it that does not verify; a report that is refused and one that is not. -/
theorem test_debug_levels :
    let c : BitVec 512 := 3#512 <<< 384;
    let s := { tUp with sec := { Sec.reset with chal := some c, dik := true } };
    s.sec.chal = some c ∧ tokenVerifies s { challenge := c, sig := [] } = false ∧ s.sec.dik = true ∧ s.sec.level ≠ 3 ∧
    (∃ d : BitVec 512, s.sec.chal ≠ some d) ∧ blockVerifies [] [] (sha384 (chalBytes c)) = false := by
  refine ⟨rfl, by decide +kernel, rfl, by decide +kernel, ⟨0, by decide +kernel⟩, by decide +kernel⟩
/-- The mailbox: empty, busy, holding a request and holding none that is known. -/
theorem test_mailbox :
    min 4096 (bitsOf (reg32 tUp 0x80010).toNat 12 0) = 0 ∧ secRequest [2] = some (.getCerts .mailbox) ∧ secRequest [0xFF] = none ∧
    testLevel .idcode = 0 ∧ testLevel .haltMd = 3 ∧ (∀ o ∈ [TestOp.readReg 0, .readLog 0], testLevel o = 2) := by decide +kernel

/-! ## Registers and the whole machine -/

/-- Paths of writes, and who may write. -/
theorem test_paths :
    writesOpen true State.reset = true ∧ writesOpen false State.reset = false ∧ writesOpen false tUp = true ∧
    onPath true 0x20200 = true ∧ onPath false 0x20200 = true ∧ onPath true 0x1000000 = false ∧ onPath false 0x81000 = false := by
  decide +kernel
/-- Plain words at the ends of their ranges, and beside them. -/
theorem test_plain_words :
    PlainWord 0 ∧ PlainWord 0x1FFC ∧ PlainWord 0x2020 ∧ PlainWord 0xFFFC ∧ PlainWord 0x20200 ∧ PlainWord 0x60004 ∧
    PlainWord 0xFFFFFC ∧ ¬ PlainWord 0x2000 ∧ ¬ PlainWord 0x10000 ∧ ¬ PlainWord 0x60100 ∧ ¬ PlainWord 0x90000 := by
  unfold PlainWord; omega
/-- Offsets at the bounds of gaps of Table 20.1. -/
theorem test_no_register :
    NoRegister 0x18 ∧ NoRegister 0xFFC ∧ NoRegister 0x1004 ∧ NoRegister 0x10020 ∧ NoRegister 0x1003C ∧ NoRegister 0x40004 ∧
    NoRegister 0x400C0 ∧ NoRegister 0x3FFFFFC ∧ ¬ NoRegister 0x14 ∧ ¬ NoRegister 0x1000 ∧ ¬ NoRegister 0x1001C ∧
    ¬ NoRegister 0x103F000 := by unfold NoRegister; omega
/-- Ticks: nothing due and nothing to issue on a package that runs; a word to issue; a package in bring-up at its steps. -/
theorem test_ticks :
    tUp.pending = [] ∧ tUp.agenda = [] ∧ mustIssue tUp = false ∧
    mustIssue { tLate with pl := { tLate.pl with tiles := [(0, { run := true })] } } = true ∧ tSeg.ck.lock = true ∧
    tSeg.ck.inReset = false ∧ State.reset.ck.rom = false ∧ State.reset.ck.pinHeld = false ∧ State.reset.ck.bring < 10 ∧
    State.reset.ck.refHold = false := by decide +kernel
/-- Words of tile instructions, written out from Tables 6.1 and 6.3 and the formats of R146 and R147: SADD s1, s2, s3; HMM; END; a
reserved opcode. -/
theorem test_tile_words :
    tileInstr 0 (BitVec.ofNat 64 (0x04 * 2 ^ 56 + 1 * 2 ^ 50 + 2 * 2 ^ 44 + 3 * 2 ^ 38)) =
      some (.sadd 0 (BitVec.ofNat 56 (1 * 2 ^ 50 + 2 * 2 ^ 44 + 3 * 2 ^ 38))) ∧
    tileInstr 127 (BitVec.ofNat 64 (0x40 * 2 ^ 56)) = some (.hmm 127 0) ∧
    tileInstr 5 (BitVec.ofNat 64 (0x1F * 2 ^ 56)) = some (.end_ 5 0) ∧ tileInstr 0 (BitVec.ofNat 64 (0xFF * 2 ^ 56)) = none := by
  decide +kernel
/-- The invariants hold at reset, and the exact sum of two values does not see their order. -/
theorem test_invariants :
    KeyHidden State.reset ∧ Memory.wf State.reset.mem = true ∧ List.Perm [1#32, 2#32] [2#32, 1#32] ∧
    (f32 0x3F800000).isNan = false ∧ (f32 0x7F800000).isNan = false ∧ (f32 0x00000001).isNan = false := by
  refine ⟨fun h => absurd h (by decide +kernel), by decide +kernel, List.Perm.swap _ _ _, by decide +kernel,
    by decide +kernel, by decide +kernel⟩

/-- The end of a cycle on which nothing is in progress. -/
theorem test_quiet_cycle :
    (beatsOf tUp).pl.ports = [] ∧ (beatsOf tUp).pl.pw = [] ∧ tUp.pl.treeq = [] ∧ tUp.pl.laybyq = [] ∧ Quiet tUp := by
  refine ⟨by decide +kernel, by decide +kernel, rfl, rfl, test_quiet.2.1⟩
/-- Writes of an HBM channel that have come to their position, of a full line and of one byte. -/
theorem test_channel_writes :
    let w := fun (be : BitVec 64) => (⟨⟨128, 64, some (5, be, false)⟩, .agent, 0⟩ : HbmReq)
    let s := fun (be : BitVec 64) => { State.reset with coh := { Coh.reset with hbmq := [(3, { q := [w be] })] } }
    (∀ be, hbmChanAt (s be) 3 = { q := [w be] } ∧ (w be).req.wr = some (5, be, false)) ∧
    2 * (w 1).land ≤ (s 1).cyc ∧ (hbmChanAt (s 1) 3).wait = [] ∧ (hbmChanAt (s 1) 3).q.length ≤ 64 :=
  ⟨fun _ => ⟨rfl, rfl⟩, by decide +kernel⟩
/-- A segment that a freeze has staged holds no poison. -/
theorem test_staged :
    let x := { tSnap with items := [⟨3, 0, [], 65536, 0⟩] };
    snapSegs x = [⟨3, 0, 0, 0x100000, 65536⟩] ∧ ∀ g ∈ snapSegs x, rangePoison tFreeze (stageBase tFreeze + g.stage) g.len = false := by
  decide +kernel

end Sys2Proof.Machine
end

section
/-! PROOFS. Offsets that hold no register (R12): what the register map shows there, and what a write there leaves. -/

namespace Sys2Proof.Machine

/-! ## Where the offsets without a register lie -/

/-- The offset lies outside every range of the register map whose words a write can change (Table 20.1). -/
def OutsideWritable (o : Nat) : Prop :=
  (o < 0x2000 ∨ 0x2020 ≤ o) ∧ (o < 0x10000 ∨ 0x11008 ≤ o) ∧ (o < 0x20000 ∨ 0x20404 ≤ o) ∧
    (o < 0x30000 ∨ 0x30008 ≤ o) ∧ (o < 0x50000 ∨ 0x50080 ≤ o) ∧ (o < 0x50100 ∨ 0x50108 ≤ o) ∧
    (o < 0x60000 ∨ 0x60018 ≤ o) ∧ (o < 0x60020 ∨ 0x60040 ≤ o) ∧ (o < 0x60100 ∨ 0x60300 ≤ o) ∧
    (o < 0x70000 ∨ 0x70010 ≤ o) ∧ (o < 0x80010 ∨ 0x80014 ≤ o) ∧ (o < 0x81000 ∨ 0x83000 ≤ o) ∧
    (o < 0x90000 ∨ 0x90010 ≤ o) ∧ (o < 0x90100 ∨ 0x90180 ≤ o) ∧ (o < 0xF00000 ∨ 0xF00200 ≤ o)

/-- The unused part of a ring's, a port's or a snapshot port's block, or an offset outside all that a write can change. -/
theorem NoRegister.block {o : Nat} (h : NoRegister o) :
    (0x10000 ≤ o ∧ o < 0x11000 ∧ 0x20 ≤ o % 0x40) ∨ (0x50000 ≤ o ∧ o < 0x50080 ∧ 4 ≤ o % 16 ∧ o % 16 < 8) ∨
    (0x60100 ≤ o ∧ o < 0x60300 ∧ 0x60 ≤ o % 0x100) ∨ OutsideWritable o := by
  unfold NoRegister at h; unfold OutsideWritable; omega

/-! ## Reads -/

/-- Blocks 0x0000 to 0x3FFF read 0 between their registers. -/
theorem wordBase_of_noRegister {o : Nat} (h : NoRegister o) (ha : o % 4 = 0) (hu : o < 0x10000) (s : State) :
    wordBase s o = 0 := by
  obtain hg | hg | hg | hg | hg | hg : (0x18 ≤ o ∧ o < 0x1000) ∨ o = 0x1004 ∨ (0x1010 ≤ o ∧ o < 0x2000) ∨
      (0x2020 ≤ o ∧ o < 0x3000) ∨ o = 0x300C ∨ 0x3018 ≤ o := by unfold NoRegister at h; omega
  all_goals simp (disch := omega) only [wordBase, if_neg]

/-- Blocks 0x1_0000 to 0x5_FFFF read 0 between their registers, the second word of an NRU and of a port included. -/
theorem wordWork_of_noRegister {o : Nat} (h : NoRegister o) (ha : o % 4 = 0) (hl : 0x10000 ≤ o) (hu : o < 0x60000)
    (s : State) : wordWork s o = 0 := by
  obtain hg | hg | hg | hg : (o < 0x11000 ∧ 0x20 ≤ o % 0x40) ∨ (0x40000 ≤ o ∧ o < 0x400C0 ∧ o % 16 = 4) ∨
      (0x50000 ≤ o ∧ o < 0x50080 ∧ o % 16 = 4) ∨
      (0x11008 ≤ o ∧ (o < 0x20000 ∨ 0x20404 ≤ o) ∧ (o < 0x30000 ∨ 0x30008 ≤ o) ∧ (o < 0x40000 ∨ 0x400C0 ≤ o) ∧
        (o < 0x50000 ∨ 0x50080 ≤ o) ∧ (o < 0x50100 ∨ 0x50108 ≤ o)) := by unfold NoRegister at h; omega
  all_goals simp (disch := omega) only [wordWork, ringWord, if_pos, if_neg]

/-- Blocks 0x6_0000 to 0xD_FFFF read 0 between their registers. -/
theorem wordService_of_noRegister {o : Nat} (h : NoRegister o) (hl : 0x60000 ≤ o) (hu : o < 0xE0000) (s : State) :
    wordService s o = 0 := by
  unfold NoRegister at h
  by_cases hsp : 0x60100 ≤ o ∧ o < 0x60300
  · simp (disch := omega) only [wordService, spWord, if_pos, if_neg]
  · simp (disch := omega) only [wordService, if_neg]

/-- The last part of the map reads 0 outside the MSI-X table and the pending-bit array. -/
theorem wordMsix_of_noRegister {o : Nat} (h : NoRegister o) (s : State) : wordMsix s o = 0 := by
  unfold NoRegister at h
  simp (disch := omega) only [wordMsix, if_neg]

/-- A word of the map at which no register lies is 0. -/
theorem regWord_of_noRegister {o : Nat} (h : NoRegister o) (ha : o % 4 = 0) (s : State) : regWord s o = 0 := by
  unfold regWord
  split
  · next hu => exact wordBase_of_noRegister h ha hu s
  split
  · next hu => exact wordWork_of_noRegister h ha (by omega) hu s
  split
  · next hu => exact wordService_of_noRegister h (by omega) hu s
  · exact wordMsix_of_noRegister h s

/-- The read half of R12 at a word of the map, from the system plane and from BAR0. -/
theorem reads_zero_of_noRegister {o : Nat} (h : NoRegister o) (ha : o % 4 = 0) (s : State) :
    regRead s o = 0 ∧ barRead s o = 0 := by
  simp only [regRead, barRead, regWord_of_noRegister h ha, ite_self, and_self]

/-! ## Fields -/

/-- A ring's block has no field beyond its 32 bytes of registers. -/
theorem ringRwMask_eq_zero {o : Nat} (ho : 0x20 ≤ o) (wide : Bool) : ringRwMask wide o = 0 := by
  simp (disch := omega) only [ringRwMask, if_neg]

/-- A snapshot port's block has no field beyond its 96 bytes. -/
theorem spRwMask_eq_zero {o : Nat} (ho : 0x60 ≤ o) (wide : Bool) : spRwMask wide o = 0 := by
  simp (disch := omega) only [spRwMask, spCfgMask, if_neg, ite_self]

/-- Of a port's registers only TP.PCTLn has configured fields. -/
theorem cfgMask_port_eq_zero {o : Nat} (hl : 0x50000 ≤ o) (hu : o < 0x50080) (hr : 4 ≤ o % 16) : cfgMask o = 0 := by
  simp (disch := omega) only [cfgMask, workCfgMask, if_pos, if_neg, ite_self]

/-- Software sets no bit where no register lies. -/
theorem rwMask_of_noRegister {o : Nat} (h : NoRegister o) (wide : Bool) : rwMask wide o = 0 := by
  obtain ⟨hl, hu, hr⟩ | ⟨hl, hu, hr, -⟩ | ⟨hl, hu, hr⟩ | hg := h.block
  · simp (disch := omega) only [rwMask, if_pos, if_neg, ringRwMask_eq_zero hr]
  · simp (disch := omega) only [rwMask, if_pos, if_neg, cfgMask_port_eq_zero hl hu hr]
  · simp (disch := omega) only [rwMask, if_pos, if_neg, spRwMask_eq_zero hr]
  · unfold OutsideWritable at hg
    simp (disch := omega) only [rwMask, if_neg]

/-! ## Writes -/

/-- Every word of the map reads as before, and nothing else has changed. -/
def KeepsWords (s u : State) : Prop := (∀ x, x % 4 = 0 → reg32 u x = reg32 s x) ∧ u = { s with regs := u.regs }

theorem KeepsWords.refl (s : State) : KeepsWords s s := ⟨fun _ _ => rfl, rfl⟩

theorem KeepsWords.trans {s t u : State} (hst : KeepsWords s t) (htu : KeepsWords t u) : KeepsWords s u := by
  obtain ⟨hw, hf⟩ := hst
  obtain ⟨hw', hf'⟩ := htu
  exact ⟨fun x hx => (hw' x hx).trans (hw x hx), by rw [hf', hf]⟩

theorem KeepsWords.ite {s t u : State} {c : Prop} [Decidable c] (ht : c → KeepsWords s t) (hu : ¬ c → KeepsWords s u) :
    KeepsWords s (if c then t else u) := by
  split
  · next hc => exact ht hc
  · next hc => exact hu hc

/-- Storing the fields of a word that has none keeps every word. -/
theorem storeRw_keepsWords {wide : Bool} {o : Nat} (hm : rwMask wide o = 0) (v : W32) (s : State) :
    KeepsWords s (storeRw wide o v s) := by
  have hstore : storeRw wide o v s = setReg32 o (reg32 s o) s := by
    simp only [storeRw, hm, BitVec.ofNat_eq_ofNat, BitVec.not_zero, BitVec.and_allOnes, BitVec.and_zero, BitVec.or_zero]
  rw [hstore]
  refine ⟨fun x _ => ?_, rfl⟩
  simp only [reg32, setReg32_regs, smapGet_smapSet]
  split
  · next hx => rw [hx]
  · rfl

/-- Beyond its registers, a word of a ring's block takes no action. -/
theorem writeRing_keepsWords {wide : Bool} {n o : Nat} (ho : o ≠ 0x1C) (hm : rwMask wide (0x10000 + 0x40 * n + o) = 0)
    (v : W32) (s : State) : KeepsWords s (writeRing wide n o v s) := by
  simp only [writeRing, if_neg ho]
  exact .ite (fun _ => .refl s) fun _ => storeRw_keepsWords hm v s

/-- Beyond SPn.CTL and SPn.STAT, a word of a snapshot port's block takes no action. -/
theorem writeSp_keepsWords {wide : Bool} {p : SnapPort} {o : Nat} (ho : 4 < o) (hm : rwMask wide (spBase p + o) = 0)
    (v : W32) (s : State) : KeepsWords s (writeSp wide p o v s) := by
  simp (disch := omega) only [writeSp, if_neg]
  exact .ite (fun _ => .refl s) fun _ => storeRw_keepsWords hm v s

/-- A word at which no register lies sets no field and takes no action. -/
theorem writeWord_of_noRegister {o : Nat} (h : NoRegister o) (wide : Bool) (v : W32) (s : State) :
    KeepsWords s (writeWord wide o v s) := by
  have hm := rwMask_of_noRegister h wide
  obtain ⟨hl, hu, hr⟩ | ⟨hl, hu, hr, hr'⟩ | ⟨hl, hu, hr⟩ | hg := h.block
  · simp (disch := omega) only [writeWord, if_pos, if_neg]
    exact writeRing_keepsWords (by omega) (by rwa [show 0x10000 + 0x40 * ((o - 0x10000) / 0x40) + o % 0x40 = o by omega]) v s
  · simp (disch := omega) only [writeWord, if_neg]
    exact storeRw_keepsWords hm v s
  · simp (disch := omega) only [writeWord, if_pos, if_neg]
    refine writeSp_keepsWords (by omega) ?_ v s
    rwa [show spBase (spOf ((o - 0x60100) / 0x100)) + o % 0x100 = o by simp only [spBase, spOf]; omega]
  · unfold OutsideWritable at hg
    simp (disch := omega) only [writeWord, if_neg]
    exact storeRw_keepsWords hm v s

/-- The same from either path: no field stands against another write of the edge. -/
theorem writeFrom_of_noRegister {o : Nat} (h : NoRegister o) (sys wide : Bool) (v : W32) (s : State) :
    KeepsWords s (writeFrom sys wide o v s) := by
  simp only [writeFrom, rwMask_of_noRegister h wide, if_true]
  exact writeWord_of_noRegister h wide v s

/-- The same for an offset that may not respond on the path. -/
theorem writeOnPath_of_noRegister {o : Nat} (h : NoRegister o) (sys wide : Bool) (v : W32) (s : State) :
    KeepsWords s (writeOnPath sys wide o v s) :=
  .ite (fun _ => writeFrom_of_noRegister h sys wide v s) fun _ => .refl s

/-- The same for both words of a 64-bit access: it covers no register that acts as a whole. -/
theorem writeWide_of_noRegister {o : Nat} (h : NoRegister o) (h' : NoRegister (o + 4)) (sys : Bool) (v : W64) (s : State) :
    KeepsWords s (writeWide sys o v s) := by
  have hg : ¬ (o = 0x2010 ∨ o = 0x2018) ∧ ¬ (0x90100 ≤ o ∧ o < 0x90180 ∧ o % 16 = 0) := by unfold NoRegister at h; omega
  obtain ⟨hcore, hinj⟩ := hg
  simp only [writeWide, if_neg hcore, if_neg hinj]
  exact (writeFrom_of_noRegister h sys true _ s).trans (writeFrom_of_noRegister h' sys true _ _)

/-- No doorbell page lies from the 64th page on. -/
theorem writeDoorbell_of_noRegister {o : Nat} (h : NoRegister o) (ho : 0x1000000 ≤ o) (wide : Bool) (v : W64) (s : State) :
    writeDoorbell wide o v s = s := by
  have hu : ¬ o < 0x1000000 + 64 * 0x1000 := by unfold NoRegister at h; omega
  simp [writeDoorbell, hu]

/-- The write half of R12, at every offset: no word of the map changes, nor anything else. -/
theorem registerWrite_of_noRegister {off : BitVec 26} {wide : Bool} (h : NoRegister off.toNat)
    (h' : wide = true → NoRegister (off.toNat + 4)) (sys : Bool) (v : W64) (s : State) :
    Answers (.registerWrite sys off wide v) s (KeepsWords s) := by
  refine ⟨_, rfl, .ite (fun _ => .refl s) fun _ => .ite (fun hd => .ite (fun _ => .refl s) fun _ => ?_) fun _ =>
    .ite (fun _ => writeOnPath_of_noRegister h sys false _ s) fun hw => ?_⟩
  · rw [writeDoorbell_of_noRegister h hd]
    exact .refl s
  · have hhi : NoRegister (off.toNat + 4) := h' (by simpa using hw)
    exact .ite (fun _ => .ite (fun _ => writeWide_of_noRegister h hhi sys v s) fun _ => .refl s) fun _ =>
      (writeOnPath_of_noRegister h sys false _ s).trans (writeOnPath_of_noRegister hhi sys false _ _)

/-! ## The obligation -/

/-- Refutes O51, whose offsets are any numbers and not multiples of 4 alone: 0x40005 lies between NRU.STAT0 and NRU.OPS0, and
`wordWork` tells only 16 u and 16 u + 4 from the words of NRU.OPSu, so once unit 0 has counted an operation the read there
returns the low word of its count. At every multiple of 4 the reads return 0 (`reads_zero_of_noRegister`), and the write has
no effect at any offset (`registerWrite_of_noRegister`): a misaligned read, which R447 sends to R12 like every misaligned
access, is all that fails. -/
theorem not_noRegisterThere : ¬ Obligations.NoRegisterThere := by
  intro h
  have hno : NoRegister (0x40005#26).toNat := by unfold NoRegister; decide
  obtain ⟨hread, -⟩ := h true 0x40005 false 0 { State.reset with pl := { Plane.reset with nruOps := [(0, 1)] } } hno nofun
  exact absurd hread (by decide +kernel)

end Sys2Proof.Machine
end

section
/-! PROOFS. What an IEEE-style format represents comes back exactly when it is rounded to that format again; the order of
VMAX and VMIN, and the exponents of VILOG64 (R133, R135). -/

namespace Sys2Proof.Machine

/-! ## The fields of an encoding (R32) -/

/-- The exponent field of an encoding. -/
def FFmt.expField (p : FFmt) (x : Nat) : Nat := x / 2 ^ p.fb % 2 ^ p.eb
/-- The fraction field of an encoding. -/
def FFmt.fracField (p : FFmt) (x : Nat) : Nat := x % 2 ^ p.fb
/-- The significand of a finite encoding: exponent 0 holds the subnormals and the zeros, which have no leading 1. -/
def FFmt.sig (p : FFmt) (x : Nat) : Nat := if p.expField x = 0 then p.fracField x else 2 ^ p.fb + p.fracField x
/-- The exponent of the significand of a finite encoding. -/
def FFmt.sigExp (p : FFmt) (x : Nat) : Int := (max (p.expField x) 1 : Nat) - p.bias - p.fb

/-- The formats with infinities and NaNs in their top exponent, FP32, BF16, FP16, FP8 E5M2 and binary64 among them. -/
structure FFmt.Ieee (p : FFmt) : Prop where
  nan : p.nan = .ieee
  eb : 1 < p.eb

theorem ieee_f64 : fmtF64.Ieee := ⟨rfl, by decide⟩

/-- Every precision of Verge is such a format (R118). -/
theorem ieee_prFmt (pr : Nat) : (prFmt pr).Ieee := by
  unfold prFmt
  split_ifs <;> exact ⟨rfl, by decide⟩

variable {p : FFmt}

theorem FFmt.expField_lt (p : FFmt) (x : Nat) : p.expField x < 2 ^ p.eb := Nat.mod_lt _ (Nat.two_pow_pos _)

theorem FFmt.fracField_lt (p : FFmt) (x : Nat) : p.fracField x < 2 ^ p.fb := Nat.mod_lt _ (Nat.two_pow_pos _)

/-- The top exponent encodes the infinities and the NaNs. -/
theorem decodeF_of_top (hp : p.Ieee) {x : Nat} (h : p.expField x = 2 ^ p.eb - 1) :
    decodeF p x = if p.fracField x = 0 then .inf (bitOf x (p.eb + p.fb)) else .nan (!bitOf (p.fracField x) (p.fb - 1)) := by
  have hw : p.eb + p.fb - 1 - p.fb + 1 = p.eb := by have := hp.eb; omega
  unfold FFmt.expField at h
  unfold FFmt.fracField
  simp only [decodeF, bitsOf, hw, Nat.shiftRight_eq_div_pow, hp.nan, h, and_self, if_true]

/-- Every other exponent encodes a finite value. -/
theorem decodeF_of_not_top (hp : p.Ieee) {x : Nat} (h : p.expField x ≠ 2 ^ p.eb - 1) :
    decodeF p x = .fin (bitOf x (p.eb + p.fb)) (p.sig x) (p.sigExp x) := by
  have hw : p.eb + p.fb - 1 - p.fb + 1 = p.eb := by have := hp.eb; omega
  unfold FFmt.expField at h
  unfold FFmt.sig FFmt.sigExp FFmt.expField FFmt.fracField
  simp only [decodeF, bitsOf, hw, Nat.shiftRight_eq_div_pow, hp.nan, h]
  by_cases h0 : x / 2 ^ p.fb % 2 ^ p.eb = 0
  · simp [h0]
  · have hmax : max (x / 2 ^ p.fb % 2 ^ p.eb) 1 = x / 2 ^ p.fb % 2 ^ p.eb := by omega
    simp [h0, hmax]

/-- The low bits of an encoding are its sign, its exponent and its fraction. -/
theorem mod_eq_fields (p : FFmt) (x : Nat) : x % 2 ^ (p.eb + p.fb + 1) =
    fmtSign p (bitOf x (p.eb + p.fb)) + (p.expField x * 2 ^ p.fb + p.fracField x) := by
  have hlow : x % 2 ^ (p.eb + p.fb) = p.expField x * 2 ^ p.fb + p.fracField x := by
    rw [Nat.add_comm p.eb, Nat.pow_add, Nat.mod_mul, FFmt.expField, FFmt.fracField]
    ring
  have hsign : 2 ^ (p.eb + p.fb) * (x / 2 ^ (p.eb + p.fb) % 2) = fmtSign p (bitOf x (p.eb + p.fb)) := by
    rw [fmtSign, bitOf, Nat.shiftRight_eq_div_pow]
    obtain h | h := Nat.mod_two_eq_zero_or_one (x / 2 ^ (p.eb + p.fb)) <;> simp [h]
  rw [Nat.pow_succ, Nat.mod_mul, hlow, hsign, Nat.add_comm]

/-! ## Rounding a value that the format represents (R42-R47) -/

/-- The least exponent of a significand of the format. -/
def FFmt.eMin (p : FFmt) : Int := 1 - p.bias - p.fb

/-- m × 2^e is a finite value of the format, written with the exponent of its encoding. -/
structure FFmt.Fits (p : FFmt) (m : Nat) (e : Int) : Prop where
  sig : m < 2 ^ (p.fb + 1)
  low : p.eMin ≤ e
  high : e ≤ 2 ^ p.eb - 2 - p.bias - p.fb
  lead : e = p.eMin ∨ 2 ^ p.fb ≤ m

/-- The quantum of a value of the format is its own exponent. -/
theorem FFmt.Fits.quantum {m : Nat} {e : Int} (h : p.Fits m e) (hm : m ≠ 0) : fmtQuantum p ⟨m, e, false⟩ = e := by
  have hle : Nat.log2 m ≤ p.fb := Nat.le_of_lt_succ ((Nat.log2_lt hm).2 h.sig)
  have hlow := h.low
  simp only [fmtQuantum, magLog2]
  obtain hlead | hlead := h.lead
  · unfold FFmt.eMin at hlead
    omega
  · have hge : p.fb ≤ Nat.log2 m := (Nat.le_log2 hm).2 hlead
    unfold FFmt.eMin at hlow
    omega

/-- A value of the format does not exceed its largest one. -/
theorem FFmt.Fits.not_aboveMax (hp : p.Ieee) {m : Nat} {e : Int} (h : p.Fits m e) : aboveMax p m e = false := by
  have hmin : min (2 ^ p.eb - 2 - p.bias - p.fb) e = e := min_eq_right h.high
  have hscale : (1 : Int) ≤ 2 ^ ((2 ^ p.eb - 2 - p.bias - p.fb : Int) - e).toNat := one_le_pow₀ (by decide)
  have hsig : (m : Int) ≤ ((2 ^ (p.fb + 1) - 1 : Nat) : Int) := by have := h.sig; omega
  have hle := le_trans hsig (le_mul_of_one_le_right (Int.natCast_nonneg _) hscale)
  simp only [aboveMax, fmtMax, hp.nan, ltDy, addDy, hmin, sub_self, Int.toNat_zero, pow_zero, decide_eq_false_iff_not]
  omega

/-- A value of the format rounds to its own encoding, whatever the mode, without a flag. -/
theorem roundF_of_fits (hp : p.Ieee) {m : Nat} {e : Int} (h : p.Fits m e) (rnd : Rnd) (ofm : Bool) (r : Nat) (neg : Bool) :
    roundF p rnd ofm r neg ⟨m, e, false⟩ = (fmtSign p neg + packF p m e, 0) := by
  have hk : packF p 0 e = 0 := by simp [packF]
  by_cases hm : m = 0
  · simp [roundF, hm, hk, flIf]
  · simp [roundF, hm, h.quantum hm, roundMag, h.not_aboveMax hp, flIf]

/-- A finite encoding represents a value of its format. -/
theorem fits_of_not_top (hp : p.Ieee) {x : Nat} (h : p.expField x ≠ 2 ^ p.eb - 1) : p.Fits (p.sig x) (p.sigExp x) := by
  have hf := p.fracField_lt x
  have he := p.expField_lt x
  have hpow : 2 ^ (p.fb + 1) = 2 * 2 ^ p.fb := by ring
  have htwo : 4 ≤ 2 ^ p.eb := Nat.pow_le_pow_right (n := 2) (by decide) hp.eb
  have hcast : ((2 ^ p.eb : Nat) : Int) = 2 ^ p.eb := by push_cast; rfl
  unfold FFmt.sig FFmt.sigExp
  by_cases h0 : p.expField x = 0
  · rw [if_pos h0]
    exact ⟨by omega, by unfold FFmt.eMin; omega, by omega, .inl (by unfold FFmt.eMin; omega)⟩
  · rw [if_neg h0]
    exact ⟨by omega, by unfold FFmt.eMin; omega, by omega, .inr (by omega)⟩

/-- Packing the value of a finite encoding gives its exponent and its fraction back. -/
theorem packF_of_fields (p : FFmt) (x : Nat) :
    packF p (p.sig x) (p.sigExp x) = p.expField x * 2 ^ p.fb + p.fracField x := by
  have hf := p.fracField_lt x
  have hpow : 2 ^ (p.fb + 1) = 2 * 2 ^ p.fb := by ring
  unfold FFmt.sig FFmt.sigExp
  by_cases h0 : p.expField x = 0
  · rw [h0, if_pos rfl, packF, if_neg (by omega)]
    simp only [if_pos hf, Nat.zero_mul, Nat.zero_add]
  · have hmax : max (p.expField x) 1 = p.expField x := by omega
    have hexp : ((p.expField x : Int) - p.bias - p.fb + p.fb + p.bias).toNat = p.expField x := by omega
    rw [hmax, if_neg h0, packF, if_neg (by omega)]
    simp only [hexp]
    rw [if_neg (by omega), Nat.add_sub_cancel_left]

/-- Rounding to a format what an encoding of it represents gives the low bits of the encoding, without a flag. -/
theorem convF_decodeF (hp : p.Ieee) {x : Nat} (hx : (decodeF p x).isNan = false) (rnd : Rnd) (ofm : Bool) (r : Nat) :
    convF p rnd ofm r (decodeF p x) = (x % 2 ^ (p.eb + p.fb + 1), 0) := by
  rw [mod_eq_fields]
  by_cases htop : p.expField x = 2 ^ p.eb - 1
  · rw [decodeF_of_top hp htop] at hx ⊢
    by_cases hf : p.fracField x = 0
    · simp [hf, convF, hp.nan, fmtInf, htop]
    · simp [hf, Val.isNan] at hx
  · rw [decodeF_of_not_top hp htop, convF, roundF_of_fits hp (fits_of_not_top hp htop), packF_of_fields]

/-- An encoding is read by its low bits alone. -/
theorem decodeF_mod (hp : p.Ieee) (x : Nat) : decodeF p (x % 2 ^ (p.eb + p.fb + 1)) = decodeF p x := by
  have hw : p.eb + p.fb - 1 - p.fb + 1 = p.eb := by have := hp.eb; omega
  have hfrac : x % 2 ^ (p.eb + p.fb + 1) % 2 ^ p.fb = x % 2 ^ p.fb :=
    Nat.mod_mod_of_dvd x (Nat.pow_dvd_pow 2 (by omega))
  have hexp : x % 2 ^ (p.eb + p.fb + 1) / 2 ^ p.fb % 2 ^ p.eb = x / 2 ^ p.fb % 2 ^ p.eb := by
    rw [show p.eb + p.fb + 1 = p.fb + (p.eb + 1) by omega, Nat.pow_add, Nat.mod_mul_right_div_self]
    exact Nat.mod_mod_of_dvd _ (Nat.pow_dvd_pow 2 (by omega))
  have hsign : x % 2 ^ (p.eb + p.fb + 1) / 2 ^ (p.eb + p.fb) % 2 = x / 2 ^ (p.eb + p.fb) % 2 := by
    rw [Nat.pow_succ, Nat.mod_mul_right_div_self, Nat.mod_mod]
  simp only [decodeF, bitOf, bitsOf, Nat.shiftRight_eq_div_pow, hw, hfrac, hexp, hsign]

/-! ## Results in the precision of the instruction (R118, R119) -/

/-- An operand in the precision is what some encoding of the precision represents. -/
theorem prIn_eq_decodeF (pr : Nat) (x : W32) : ∃ c, (prIn pr x).1 = decodeF (prFmt pr) c := by
  unfold prIn
  split_ifs with h
  · exact ⟨x.toNat, by rw [h]; rfl⟩
  · exact ⟨_, rfl⟩

/-- An operand in the precision that is no NaN, taken as the result, is written with its own value. -/
theorem prOut_prIn {pr : Nat} {x : W32} (h : (prIn pr x).1.isNan = false) (rnd : Nat) (f : Flags) :
    (prOut pr rnd (.val (prIn pr x).1 f)).1 = (toF32 .rne (prIn pr x).1).1 := by
  obtain ⟨c, hc⟩ := prIn_eq_decodeF pr x
  rw [hc] at h ⊢
  have hp := ieee_prFmt pr
  simp only [prOut, roundFn, convF_decodeF hp h, prWiden, decodeF_mod hp]
  split_ifs with h0
  · subst h0
    simp only [toF32]
    rw [show fmtFp32 = prFmt 0 from rfl, convF_decodeF hp h]
  · rfl

/-- A NaN result is written as the canonical quiet NaN in every precision. -/
theorem prOut_nan (pr rnd : Nat) (sig : Bool) (f : Flags) : (prOut pr rnd (.val (.nan sig) f)).1 = 0x7FC00000 := by
  by_cases h0 : pr = 0
  · subst h0
    rfl
  · simp only [prOut, roundFn, convF, prWiden, if_neg h0, prFmt]
    split_ifs <;> decide

/-! ## The order of VMAX and VMIN (R112, R133) -/

/-- The key orders the FP32 words as R112 does: every negative one, −0 among them, lies below every positive one, and words
of one sign lie in the order of their magnitudes. -/
theorem orderKey_lt_iff (x y : W32) : orderKey x < orderKey y ↔ (x.msb = true ∧ y.msb = false) ∨
    (x.msb = false ∧ y.msb = false ∧ x.toNat < y.toNat) ∨ (x.msb = true ∧ y.msb = true ∧ y.toNat < x.toNat) := by
  have hx := x.isLt
  have hy := y.isLt
  simp only [orderKey, BitVec.msb_eq_decide, decide_eq_true_eq, decide_eq_false_iff_not]
  split_ifs <;> omega

/-- Either operand being a NaN, neither is preferred. -/
theorem pick_of_isNan {a b : Val} (h : a.isNan = true ∨ b.isNan = true) (isMax : Bool) :
    pick isMax a b = .val (.nan false) 0 := by
  rw [pick, if_pos (by simpa using h)]

/-- VMAX takes the second operand when it lies above the first. -/
theorem pick_max {a b : Val} (ha : a.isNan = false) (hb : b.isNan = false) : pick true a b =
    .val (if orderKey (toF32 .rne a).1 < orderKey (toF32 .rne b).1 then b else a) 0 := by
  simp [pick, ha, hb]

/-- VMIN takes the second operand when it lies below the first. -/
theorem pick_min {a b : Val} (ha : a.isNan = false) (hb : b.isNan = false) : pick false a b =
    .val (if orderKey (toF32 .rne b).1 < orderKey (toF32 .rne a).1 then b else a) 0 := by
  simp [pick, ha, hb]

/-- An element of an operation on va and B is the operation's result, rounded once. -/
theorem vFloatElem_words (op : Val → Val → FnRes) (t : Tile) (q : VArith) (s : State) (k : Nat) :
    (vFloatElem true false (fun a b _ => op a b) t q s k).1 =
      [(prOut q.pr q.rnd (op (prIn q.pr (vGet s t q.va k)).1 (prIn q.pr (vB s t q k)).1)).1] := rfl

/-- VMAX and VMIN of each precision and rounding. -/
theorem vFloatElem_pick_order : Claim.MaxMin := by
  intro isMax t q s k _
  simp only [vFloatElem_words, ← orderKey_lt_iff]
  refine ⟨fun h => ?_, fun ha hb => ⟨?_, ?_⟩⟩
  · rw [pick_of_isNan h, prOut_nan]
  · rintro rfl
    rw [pick_max ha hb]
    exact ⟨fun h => by rw [if_pos h, prOut_prIn hb], fun h => by rw [if_neg h, prOut_prIn ha]⟩
  · rintro rfl
    rw [pick_min ha hb]
    exact ⟨fun h => by rw [if_pos h, prOut_prIn hb], fun h => by rw [if_neg h, prOut_prIn ha]⟩

/-! ## The exponents of VILOG64 (R135) -/

/-- The exponent field of a register pair is bits [30:20] of its odd element. -/
theorem expField_vPair (s : State) (t : Tile) (v i : Nat) :
    fmtF64.expField (vPair s t v i) = (vGet s t (v + 1) i).toNat / 2 ^ 20 % 2048 := by
  have hlo := (vGet s t v i).isLt
  simp only [FFmt.expField, fmtF64, vPair]
  omega

/-- The fraction of a register pair is the low 20 bits of its odd element above its even element. -/
theorem fracField_vPair (s : State) (t : Tile) (v i : Nat) :
    fmtF64.fracField (vPair s t v i) = (vGet s t (v + 1) i).toNat % 2 ^ 20 * 2 ^ 32 + (vGet s t v i).toNat := by
  have hlo := (vGet s t v i).isLt
  simp only [FFmt.fracField, fmtF64, vPair]
  omega

theorem sig_f64 (x : Nat) :
    fmtF64.sig x = if fmtF64.expField x = 0 then fmtF64.fracField x else fmtF64.fracField x + 2 ^ 52 := by
  rw [FFmt.sig, Nat.add_comm]
  rfl

theorem sigExp_f64 (x : Nat) : fmtF64.sigExp x = (max (fmtF64.expField x) 1 : Nat) - 1075 := by
  simp only [FFmt.sigExp, fmtF64]
  omega

/-- The class of an infinity or a NaN. -/
theorem ilog64_of_top {x : Nat} (h : fmtF64.expField x = 2047) : ilog64 x = 32765 := by
  rw [ilog64, decodeF_of_top ieee_f64 (x := x) h]
  split_ifs <;> rfl

/-- The class of a finite value. -/
theorem ilog64_of_not_top {x : Nat} (h : fmtF64.expField x ≠ 2047) :
    ilog64 x = if fmtF64.sig x = 0 then -1074 else fmtF64.sigExp x + Nat.log2 (fmtF64.sig x) := by
  rw [ilog64, decodeF_of_not_top ieee_f64 (x := x) h, Int.add_comm]

/-- The class of a nonzero finite value lies from that of the least subnormal to that of the largest value. -/
theorem sigExp_add_log2_bounds {x : Nat} (h : fmtF64.expField x ≠ 2047) (hm : fmtF64.sig x ≠ 0) :
    -1074 ≤ fmtF64.sigExp x + Nat.log2 (fmtF64.sig x) ∧ fmtF64.sigExp x + Nat.log2 (fmtF64.sig x) ≤ 1023 := by
  have hfits := fits_of_not_top ieee_f64 (x := x) h
  have hlog : Nat.log2 (fmtF64.sig x) < 53 := (Nat.log2_lt hm).2 hfits.sig
  have hlow : -1074 ≤ fmtF64.sigExp x := hfits.low
  have hhigh : fmtF64.sigExp x ≤ 2 ^ 11 - 2 - 1023 - 52 := hfits.high
  omega

/-- VILOG64 of every binary64 pair. -/
theorem vilog64Elem_exponent : Claim.Exponents := by
  intro t q s k lo hi expo frac m e
  have hexpo : fmtF64.expField (vPair s t q.va k) = expo := expField_vPair s t q.va k
  have hm : fmtF64.sig (vPair s t q.va k) = m := by rw [sig_f64, hexpo, fracField_vPair]
  have he : fmtF64.sigExp (vPair s t q.va k) = e := by rw [sigExp_f64, hexpo]
  have hfinite : expo < 2047 → fmtF64.expField (vPair s t q.va k) ≠ 2047 := by omega
  refine ⟨rfl, fun h => ?_, fun h h0 => ?_, fun h h0 => ?_⟩
  · rw [vilog64Elem, ilog64_of_top (hexpo.trans h)]
  · rw [vilog64Elem, ilog64_of_not_top (hfinite h), hm, if_pos h0]
  · have hbounds := sigExp_add_log2_bounds (hfinite h) (hm ▸ h0)
    rw [hm, he] at hbounds
    refine ⟨Nat.log2 m, Nat.log2_self_le h0, Nat.lt_log2_self, hbounds.1, hbounds.2, ?_⟩
    rw [vilog64Elem, ilog64_of_not_top (hfinite h), hm, he, if_neg h0]

/-! ## The obligation -/

/-- Settles O11: the key of `pick` is the order of R112, a value of the precision survives its rounding to it, and the class
of a binary64 value is read off its exponent and the length of its significand. -/
theorem vergeOrder : Obligations.VergeOrder := ⟨vFloatElem_pick_order, vilog64Elem_exponent⟩

end Sys2Proof.Machine
end

section
/-! SUPPORT. What a memory access on the system plane leaves of the host front end: no meaning of the homes, the channels or the
ports changes it, so that a store of the front end itself keeps the command rings (R258, R263, R277). -/

namespace Sys2Proof.Machine

/-! ## Choices, folds, records and injections -/

@[simp] theorem ite_hf (c : Prop) [Decidable c] (s u : State) : (if c then s else u).hf = if c then s.hf else u.hf :=
  apply_ite State.hf c s u

/-- A fold whose every step keeps the front end keeps it; `g` is the state within the accumulator. -/
theorem foldl_hf {α β : Type} (g : β → State) {f : β → α → β} (h : ∀ b x, (g (f b x)).hf = (g b).hf) (l : List α)
    (b : β) : (g (l.foldl f b)).hf = (g b).hf := by
  induction l generalizing b with
  | nil => rfl
  | cons x r ih => exact (ih (f b x)).trans (h b x)

@[simp] theorem injEvent_hf (c k : Nat) (ok : Nat → Nat → Bool) (s : State) : (injEvent c k ok s).2.hf = s.hf :=
  (Alarm.injEvent c k ok s).hf_eq

@[simp] theorem stepAbort_hf (c : Nat) (r : Bool) (k : Nat) (s : State) : (stepAbort c r k s).hf = s.hf :=
  (Alarm.stepAbort c r k s).hf_eq

@[simp] theorem failRun_hf (c : Nat) (s : State) : (failRun c s).hf = s.hf := (Alarm.failRun c s).hf_eq

@[simp] theorem stopIssue_hf (c : Nat) (s : State) : (stopIssue c s).hf = s.hf := (Alarm.stopIssue c s).hf_eq

@[simp] theorem fatal_hf (c k a i : Nat) (inj : Bool) (s : State) : (fatal c k a i inj s).hf = s.hf := by
  simp only [fatal]
  split <;> split <;> simp

@[simp] theorem regionRefuses_hf (p : ReqPort) (a : Nat) (may : Bool) (s : State) : (regionRefuses p a may s).2.hf = s.hf := by
  have h := injEvent_hf eRegionAccess (portSrc p) (fun _ x => bitsOf x 51 6 = a / 64) s
  unfold regionRefuses
  split <;> next heq =>
    rw [heq] at h
    simpa [regionAccess, apply_ite Prod.snd] using h

/-! ## Lines, their errors and their data -/

@[simp] theorem setDir_hf (l : Line) (x : DirEnt) (s : State) : (setDir l x s).hf = s.hf := rfl
@[simp] theorem setL3_hf (l : Line) (x : L3Line) (s : State) : (setL3 l x s).hf = s.hf := rfl
@[simp] theorem setTxn_hf (l : Line) (x : Txn) (s : State) : (setTxn l x s).hf = s.hf := rfl
@[simp] theorem setHmc_hf (l : Line) (x : HmcLine) (s : State) : (setHmc l x s).hf = s.hf := rfl
@[simp] theorem setPoison_hf (l : Nat) (p : Bool) (s : State) : (setPoison l p s).hf = s.hf := rfl
@[simp] theorem dropFlips_hf (l : Nat) (cs : List Nat) (s : State) : (dropFlips l cs s).hf = s.hf := rfl
@[simp] theorem landBytes_hf (a : Nat) (bs : List Byte) (s : State) : (landBytes a bs s).hf = s.hf := rfl

@[simp] theorem linkBurst_hf (a : Nat) (s : State) : (linkBurst a s).hf = s.hf := by
  unfold linkBurst
  dsimp only
  split
  · rfl
  · next code _ =>
    refine foldl_hf id (fun s src => ?_) _ s
    have h := injEvent_hf code src (fun _ _ => true) s
    dsimp only [id_eq]
    split <;> next heq =>
      rw [heq] at h
      simpa using h

@[simp] theorem injWrite_hf (l c k : Nat) (s : State) : (injWrite l c k s).hf = s.hf := by
  have h := injEvent_hf c k (fun _ p => bitsOf p 51 6 = l) s
  unfold injWrite
  split <;> next heq => rwa [heq] at h

@[simp] theorem memWrote_hf (l : Nat) (s : State) : (memWrote l s).hf = s.hf := by
  have hinj (cs ks : List Nat) (t : State) :
      (cs.foldl (fun s c => ks.foldl (fun s k => injWrite l c k s) s) t).hf = t.hf :=
    foldl_hf id (fun s c => foldl_hf id (fun s k => injWrite_hf l c k s) ks s) cs t
  simp [memWrote, hinj]

@[simp] theorem memTouched_hf (a n : Nat) (s : State) : (memTouched a n s).hf = s.hf := by
  have hlines : ((linesOf a n).foldl (fun s l => memWrote l s) s).hf = s.hf :=
    foldl_hf id (fun s l => memWrote_hf l s) _ s
  simp [memTouched, hlines]

@[simp] theorem memPut_hf (a : Nat) (bs : List Byte) (s : State) : (memPut a bs s).hf = s.hf := by
  simp [memPut]

@[simp] theorem lineToMem_hf (a : Nat) (d : LineData) (be : BitVec 64) (po : Bool) (s : State) :
    (lineToMem a d be po s).hf = s.hf := by
  simp [lineToMem]

@[simp] theorem eccSys_hf (p : ReqPort) (l : Nat) (cs : List Nat) (s : State) : (eccSys p l cs s).2.hf = s.hf := by
  unfold eccSys
  refine foldl_hf Prod.snd (fun acc e => ?_) _ (false, s)
  simp

@[simp] theorem sfRead_hf (l : Line) (s : State) : (sfRead l s).hf = s.hf :=
  foldl_hf id (fun _ _ => by simp) _ s

/-! ## The channels of HBM -/

@[simp] theorem setHbmChan_hf (c : Nat) (x : HbmChan) (s : State) : (setHbmChan c x s).hf = s.hf := rfl
@[simp] theorem hbmReply_hf (r : HbmReq) (due : Nat) (d : LineData) (po err : Bool) (s : State) :
    (hbmReply r due d po err s).hf = s.hf := rfl

@[simp] theorem hbmAccept_hf (r : HbmReq) (s : State) : (hbmAccept r s).hf = s.hf := by
  simp [hbmAccept, apply_ite Prod.snd]

@[simp] theorem hbmEnqueue_hf (q : SysReq) (use : MemUse) (s : State) : (hbmEnqueue q use s).hf = s.hf := by
  simp [hbmEnqueue]

@[simp] theorem memPost_hf (l : Line) (d : LineData) (po : Bool) (s : State) : (memPost l d po s).hf = s.hf := by
  simp [memPost]

/-! ## The L3 and the answers -/

@[simp] theorem homeRead_hf (p : ReqPort) (l : Line) (s : State) : (homeRead p l s).2.hf = s.hf := by
  simp [homeRead]

@[simp] theorem l3Evict_hf (v : Line) (s : State) : (l3Evict v s).hf = s.hf := by
  simp only [l3Evict, ite_hf, setHmc_hf, memPost_hf, setL3_hf, ite_self]

@[simp] theorem l3Room_hf (l : Line) (s : State) : (l3Room l s).hf = s.hf := by
  simp only [l3Room]
  split
  · rfl
  · split <;> simp

@[simp] theorem putL3_hf (l : Line) (d : LineData) (po : Bool) (s : State) : (putL3 l d po s).hf = s.hf := by
  simp [putL3]

@[simp] theorem portDone_hf (p : ReqPort) (l : Line) (s : State) : (portDone p l s).hf = s.hf := by
  simp only [portDone]
  split <;> simp

@[simp] theorem fillXfer_hf (p : ReqPort) (l : Line) (d : LineData) (po : Bool) (s : State) : (fillXfer p l d po s).hf = s.hf := by
  simp only [fillXfer]
  split <;> simp

@[simp] theorem toCore_hf (c : CoreId) (o : Out) (s : State) : (toCore c o s).hf = s.hf := by
  simp [toCore]

@[simp] theorem reply_hf (p : ReqPort) (l : Line) (d : LineData) (po err : Bool) (s : State) :
    (reply p l d po err s).hf = s.hf := by
  simp only [reply, portDone_hf, fillXfer_hf]
  split <;> simp

@[simp] theorem serveReq_hf (r : SysReq) (s : State) : (serveReq r s).hf = s.hf := by
  simp only [serveReq, ite_hf, reply_hf, regionRefuses_hf]
  split
  · rfl
  · split <;> simp

/-! ## The homes (Tables 11.3, 11.7) -/

@[simp] theorem allocDir_hf (l : Line) (s : State) : (allocDir l s).hf = s.hf := by
  simp [allocDir]

@[simp] theorem dirTo_hf (l : Line) (st : DirSt) (o : Option CoreId) (sh : BitVec 129) (s : State) :
    (dirTo l st o sh s).hf = s.hf := by
  simp [dirTo, sfWrote]

@[simp] theorem askHost_hf (name : String) (l : Line) (d : Option (LineData × Bool)) (be : BitVec 64) (s : State) :
    (askHost name l d be s).hf = s.hf := by
  simp only [askHost]
  split <;> simp

@[simp] theorem sendInv_hf (l : Line) (req : Option CoreId) (cs : List CoreId) (s : State) : (sendInv l req cs s).hf = s.hf :=
  foldl_hf id (fun s c => schedNow_hf (.inv c ⟨l, txnNo s l⟩ req) s) cs s

@[simp] theorem homeData_hf (p : ReqPort) (l : Line) (s : State) : (homeData p l s).2.hf = s.hf := by
  simp only [homeData]
  split
  · rfl
  · simp [apply_ite Prod.snd]

/-- Going on with a line's data keeps the front end when every continuation does. -/
theorem withData_hf {k : LineData → Bool → State → State} (hk : ∀ d po t, (k d po t).hf = t.hf) (p : ReqPort) (l : Line)
    (s : State) : (withData p l k s).hf = s.hf := by
  have h := homeData_hf p l s
  unfold withData
  split <;> next heq =>
    rw [heq] at h
    simpa [hk] using h

@[simp] theorem homeGets_hf (c : CoreId) (l : Line) (s : State) : (homeGets c l s).hf = s.hf := by
  simp only [homeGets]
  split
  · exact withData_hf (fun v po t => by simp) _ l s
  · exact withData_hf (fun v po t => by simp) _ l s
  all_goals rfl

@[simp] theorem homeGetm_hf (c : CoreId) (l : Line) (s : State) : (homeGetm c l s).hf = s.hf := by
  simp only [homeGetm]
  split
  · exact withData_hf (fun v po t => by simp) _ l s
  · exact withData_hf (fun v po t => by simp) _ l s
  all_goals simp

@[simp] theorem homeUpg_hf (c : CoreId) (l : Line) (s : State) : (homeUpg c l s).hf = s.hf := by
  simp [homeUpg]

@[simp] theorem homePut_hf (c : CoreId) (owned : Bool) (x : Option (LineData × Bool)) (l : Line) (s : State) :
    (homePut c owned x l s).hf = s.hf := by
  simp only [homePut, ite_hf, schedNow_hf, dirTo_hf, ite_self]
  split
  · cases x <;> split <;> simp
  · rfl

@[simp] theorem homeStore_hf (p : ReqPort) (d : LineData) (be : BitVec 64) (po : Bool) (l : Line) (s : State) :
    (homeStore p d be po l s).2.hf = s.hf := by
  unfold homeStore
  dsimp only
  split
  · simp only [apply_ite Prod.snd, ite_hf, reply_hf, askHost_hf, setTxn_hf, setHmc_hf, setL3_hf, dirTo_hf, ite_self]
  · have h : (if be = BitVec.allOnes 64 then (some (d, false), s) else homeData p l s).2.hf = s.hf := by
      simp [apply_ite Prod.snd]
    split <;> next heq =>
      simp only [decide_eq_true_eq] at heq
      rw [heq] at h
      simpa using h

@[simp] theorem answerSnoop_hf (y : RecallWhy) (l : Line) (s : State) : (answerSnoop y l s).hf = s.hf := by
  simp only [answerSnoop]
  split <;> simp

@[simp] theorem evictAnswer_hf (y : RecallWhy) (l : Line) (s : State) : (evictAnswer y l s).hf = s.hf := by
  simp only [evictAnswer]
  split <;> simp

@[simp] theorem hmcEvict_hf (l : Line) (s : State) : (hmcEvict l s).2.hf = s.hf := by
  simp only [hmcEvict, apply_ite Prod.snd, ite_hf]
  split
  · rfl
  · refine (foldl_hf id (fun t q => ?_) _ _).trans (by simp)
    dsimp only [id_eq]
    split <;> simp

@[simp] theorem endRecall_hf (y : RecallWhy) (l : Line) (s : State) : (endRecall y l s).2.hf = s.hf := by
  simp only [endRecall]
  split
  case h_4 =>
    simp only [answerSnoop_hf]
    split <;> simp
  all_goals simp [apply_ite Prod.snd]

@[simp] theorem takeLine_hf (merge own : Bool) (l : Line) (s : State) : (takeLine merge own l s).2.hf = s.hf := by
  simp only [takeLine]
  split <;> simp

@[simp] theorem closeReq_hf (l : Line) (r : HomeReq) (s : State) : (closeReq l r s).2.hf = s.hf := by
  cases r <;> simp [closeReq]

@[simp] theorem act_recall_hf (l : Line) (y : RecallWhy) (s : State) : (act l (.recall y) s).2.hf = s.hf := by
  cases y <;> simp [act, apply_ite Prod.snd]

@[simp] theorem act_hf (l : Line) (r : HomeReq) (s : State) : (act l r s).2.hf = s.hf := by
  cases r with
  | peek p =>
    have h := homeData_hf p l s
    simp only [act, apply_ite Prod.snd, ite_hf, hbmEnqueue_hf, schedNow_hf, askHost_hf]
    split_ifs
    any_goals rfl
    split <;> next heq =>
      rw [heq] at h
      simpa using h
  | gets | getm | upg | put | place | merge => simp [act, apply_ite Prod.snd]
  | _ => exact act_recall_hf l _ s

@[simp] theorem refuses_hf (l : Line) (r : HomeReq) (s : State) : (refuses l r s).2.hf = s.hf := by
  cases r <;> simp [refuses]

@[simp] theorem turnAway_hf (l : Line) (r : HomeReq) (s : State) : (turnAway l r s).hf = s.hf := by
  cases r <;> simp [turnAway]

@[simp] theorem startReq_hf (l : Line) (r : Pend) (s : State) : (startReq l r s).2.hf = s.hf := by
  have h := refuses_hf l r.req (setTxn l { txnGet s l with cur := some r.req, no := r.no } s)
  simp only [startReq]
  split <;> next heq =>
    rw [heq] at h
    simpa using h

@[simp] theorem askRecall_hf (l : Line) (y : RecallWhy) (s : State) : (askRecall l y s).hf = s.hf := by
  simp [askRecall]

@[simp] theorem acceptNext_hf (l : Line) (q : List Pend) (s : State) : (acceptNext l q s).hf = s.hf := by
  induction q generalizing s with
  | nil => rfl
  | cons r q ih =>
    simp only [acceptNext]
    split <;> simp [ih]

@[simp] theorem accept_hf (l : Line) (r : Pend) (s : State) : (accept l r s).hf = s.hf := by
  simp [accept]

/-! ## Requests of agents without caches -/

@[simp] theorem regStore_hf (l : Line) (d : LineData) (be : BitVec 64) (s : State) : (regStore l d be s).hf = s.hf := by
  simp only [regStore]
  split <;> simp

@[simp] theorem portReq_hf (q : PortReq) (s : State) : (portReq q s).hf = s.hf := by
  unfold portReq
  dsimp only
  rw [ite_hf]
  split
  · rfl
  split
  case h_4 | h_5 =>
    split
    · next heq => simpa using (congrArg (fun x => x.2.hf) heq).symm
    · next heq =>
      have h := congrArg (fun x => x.2.hf) heq
      split <;> simpa using h.symm
  all_goals simp

/-- A write on the system plane keeps the host front end. -/
@[simp] theorem storeReqs_hf (p : ReqPort) (a : Nat) (bs : List Byte) (po : Bool) (s : State) :
    (storeReqs p a bs po s).2.hf = s.hf :=
  foldl_hf Prod.snd (fun _ _ => by simp [withNo]) _ _

@[simp] theorem sysStore_hf (p : ReqPort) (a : Nat) (bs : List Byte) (s : State) : (sysStore p a bs s).hf = s.hf :=
  storeReqs_hf p a bs false s

end Sys2Proof.Machine
end

section
/-! PROOFS. The doorbells of the command rings (R281): where they lie in the register map, and what the value rung does. -/

namespace Sys2Proof.Machine

/-! ## The rings of a state -/

@[simp] theorem ring_setRing_same (r : Ring) (x : RingSt) (s : State) : ring (setRing r x s) r = x :=
  smapGet_smapSet_same _ _ _

theorem ring_setRing_ne {r q : Ring} (h : q ≠ r) (x : RingSt) (s : State) : ring (setRing r x s) q = ring s q :=
  smapGet_smapSet_ne _ _ (Fin.val_ne_of_ne h)

@[simp] theorem ring_hostOnly (q : Ring) (s u : State) : ring (hostOnly s u) q = ring u q := rfl

@[simp] theorem ring_sysStore (q : Ring) (p : ReqPort) (a : Nat) (bs : List Byte) (s : State) :
    ring (sysStore p a bs s) q = ring s q := by
  rw [ring, sysStore_hf, ring]

@[simp] theorem ring_raiseVec (q : Ring) (v : BitVec 5) (s : State) : ring (raiseVec v s) q = ring s q := by
  unfold raiseVec
  split_ifs <;> rfl

theorem OtherRings.trans {r : Ring} {s t u : State} (hst : OtherRings r s t) (htu : OtherRings r t u) : OtherRings r s u :=
  fun q hq => (htu q hq).trans (hst q hq)

theorem setRing_otherRings (r : Ring) (x : RingSt) (s : State) : OtherRings r s (setRing r x s) :=
  fun _ hq => ring_setRing_ne hq x s

/-- A status record counts its write and the slots it shows; every other field of the ring stays (R280). -/
theorem ring_writeStatus_same (r : Ring) (s : State) :
    ∃ seq cons, ring (writeStatus r s) r = { ring s r with seq := seq, lastCons := cons } := by
  simp only [writeStatus]
  split
  · exact ⟨_, _, by rw [ring_sysStore, ring_setRing_same]⟩
  · exact ⟨_, _, rfl⟩

theorem writeStatus_otherRings (r : Ring) (s : State) : OtherRings r s (writeStatus r s) := by
  intro q hq
  simp only [writeStatus]
  split
  · rw [ring_sysStore, ring_setRing_ne hq]
  · rfl

/-- A ring that halts keeps C and A, and every other ring is as before (R281, R294). -/
theorem haltRing_halted (r : Ring) (code : Nat) (s : State) : Halted r code s (haltRing r code s) := by
  obtain ⟨seq, cons, hring⟩ := ring_writeStatus_same r
    (setRing r { ring s r with halted := true, haltCode := BitVec.ofNat 16 code } s)
  have hother := (setRing_otherRings r { ring s r with halted := true, haltCode := BitVec.ofNat 16 code } s).trans
    (writeStatus_otherRings r _)
  simp only [Halted, OtherRings, haltRing, ring_raiseVec, hring, ring_setRing_same, true_and]
  exact hother

/-! ## The value rung -/

@[simp] theorem hostOnly_self (s : State) : hostOnly s s = s := rfl

theorem hostOnly_hostOnly (s u : State) : hostOnly s (hostOnly s u) = hostOnly s u := rfl

/-- D lies before A, differences modulo 2^32 (R281). -/
def OlderThanA (x : RingSt) (v : W32) : Prop := 1 ≤ (x.a - v).toNat ∧ (x.a - v).toNat ≤ 0x80000000

variable {r : Ring} {v : W32} {s : State}

/-- A doorbell of a ring that is disabled or halted. -/
theorem doorbell_of_stopped (h : (ring s r).en = false ∨ (ring s r).halted = true) : exec (.doorbell r v) s = .next s := by
  have hstop : (!(ring s r).en || (ring s r).halted) = true := by simpa using h
  simp only [exec, execDoorbell, hstop, if_true, hostOnly_self]

section
variable (hen : (ring s r).en = true) (hrun : (ring s r).halted = false)
include hen hrun

/-- A value older than A. -/
theorem doorbell_of_older (h : OlderThanA (ring s r) v) : exec (.doorbell r v) s = .next s := by
  unfold OlderThanA at h
  simp only [exec, execDoorbell, hen, hrun, Bool.not_true, Bool.or_self, Bool.false_eq_true, if_false, if_pos h, hostOnly_self]

/-- A value that claims slots not yet freed. -/
theorem doorbell_of_beyond (h : ¬ OlderThanA (ring s r) v) (hbeyond : 2 ^ ringSize s r < (v - (ring s r).c).toNat) :
    exec (.doorbell r v) s = .next (hostOnly s (haltRing r rDoorbellRange s)) := by
  unfold OlderThanA at h
  simp only [exec, execDoorbell, hen, hrun, Bool.not_true, Bool.or_self, Bool.false_eq_true, if_false, if_neg h, ringSlots,
    if_pos hbeyond]

/-- Any other value becomes A. -/
theorem doorbell_of_taken (h : ¬ OlderThanA (ring s r) v) (hfree : (v - (ring s r).c).toNat ≤ 2 ^ ringSize s r) :
    exec (.doorbell r v) s = .next (hostOnly s (setRing r { ring s r with
      a := v, hwm := BitVec.ofNat 17 (max (ring s r).hwm.toNat (v - (ring s r).c).toNat) } s)) := by
  unfold OlderThanA at h
  simp only [exec, execDoorbell, hen, hrun, Bool.not_true, Bool.or_self, Bool.false_eq_true, if_false, if_neg h, ringSlots,
    if_neg (not_lt.2 hfree)]

end

/-! ## The doorbell pages -/

/-- Nothing from the doorbell pages on reads other than 0. -/
theorem reads_zero_of_doorbellPage {o : Nat} (h : 0x1000000 ≤ o) (s : State) : regRead s o = 0 ∧ barRead s o = 0 := by
  have hword : regWord s o = 0 := by simp (disch := omega) only [regWord, wordMsix, if_neg]
  simp only [regRead, barRead, hword, ite_self, and_self]

/-- The system plane, a 64-bit write and a write off the first byte of a page ring no doorbell. -/
theorem registerWrite_of_noDoorbell {off : BitVec 26} {sys wide : Bool} (h : 0x1000000 ≤ off.toNat)
    (hno : sys = true ∨ wide = true ∨ off.toNat % 0x1000 ≠ 0) (v : W64) (s : State) :
    exec (.registerWrite sys off wide v) s = .next s := by
  have hring : (if sys then s else writeDoorbell wide off.toNat v s) = s := by
    obtain rfl | rfl | hoff := hno
    · rfl
    · simp [writeDoorbell]
    · simp [writeDoorbell, hoff]
  simp only [exec, execRegisterWrite, if_pos h, hring, ite_self]

/-- The first byte of a ring's page. -/
def doorbellOffset (r : Ring) : Nat := 0x1000000 + 0x1000 * r.val

/-- A 32-bit write at the first byte of a ring's page rings its doorbell. -/
theorem writeDoorbell_doorbellOffset (r : Ring) (v : W64) (s : State) :
    writeDoorbell false (doorbellOffset r) v s = after (execDoorbell r (v.setWidth 32) s) s := by
  have hfirst : doorbellOffset r % 0x1000 = 0 := by unfold doorbellOffset; omega
  have hpages : doorbellOffset r < 0x1000000 + 64 * 0x1000 := by unfold doorbellOffset; omega
  have hring : ringOf ((doorbellOffset r - 0x1000000) / 0x1000) = r :=
    Fin.ext (by simp only [ringOf, doorbellOffset]; omega)
  simp only [writeDoorbell, hfirst, hpages, hring, Bool.not_false, decide_true, Bool.and_self, if_true]

/-- A register write there from BAR0, while the front end is not held in reset, is the doorbell. -/
theorem registerWrite_doorbellOffset (r : Ring) (v : W64) {s : State} (hopen : writesOpen false s = true)
    (hiso : inBlockReset s 0 = false) :
    exec (.registerWrite false (BitVec.ofNat 26 (doorbellOffset r)) false v) s = exec (.doorbell r (v.setWidth 32)) s := by
  have hoff : (BitVec.ofNat 26 (doorbellOffset r)).toNat = doorbellOffset r := by
    rw [BitVec.toNat_ofNat, doorbellOffset]; omega
  have hpage : 0x1000000 ≤ doorbellOffset r := Nat.le_add_right _ _
  have hreg : isoReg s (doorbellOffset r) = false := by rw [isoReg, if_pos (.inr hpage), hiso]
  have halign : doorbellOffset r % 4 = 0 := by unfold doorbellOffset; omega
  simp only [exec, execRegisterWrite, hoff, hopen, hreg, halign, if_pos hpage, Bool.not_true, Bool.false_eq_true, ne_eq,
    not_true_eq_false, or_self, if_false, writeDoorbell_doorbellOffset]
  rfl

/-! ## The obligation -/

/-- Settles O36: no access from the doorbell pages on acts but a 32-bit write at a page's first byte, and the four cases of the
value rung, where the status record of a ring that halts goes to memory without touching the rings. -/
theorem doorbells : Obligations.Doorbells := by
  refine ⟨fun sys off wide v s hpage => ?_, fun r v s => registerWrite_doorbellOffset r v, fun r v s => ?_⟩
  · obtain ⟨hreg, hbar⟩ := reads_zero_of_doorbellPage hpage s
    exact ⟨hreg, hbar, fun hno => registerWrite_of_noDoorbell hpage hno v s⟩
  · refine ⟨doorbell_of_stopped, doorbell_of_older, fun hen hrun hnew => ⟨fun hbeyond => ?_, fun hfree => ?_⟩⟩
    · exact ⟨_, doorbell_of_beyond hen hrun hnew hbeyond, haltRing_halted r rDoorbellRange s, hostOnly_hostOnly s _⟩
    · refine ⟨_, doorbell_of_taken hen hrun hnew hfree, ?_⟩
      simp only [ring_hostOnly, ring_setRing_same, hrun, OtherRings, true_and]
      exact ⟨setRing_otherRings r _ s, rfl⟩

end Sys2Proof.Machine
end
